-- ==== Sys2Proof/Word.lean ====
section
/-! DEFINITION. The word types of the block (00_scope.md R9, R10): 64-bit registers and addresses, 32-bit
instruction words, bytes, and the five-bit register numbers of an instruction's fields. -/
namespace Sys2Proof

/-- A register value or an address: 64 bits, arithmetic modulo 2^64 (R9 `XLEN`, R10). -/
abbrev Word := BitVec 64

/-- An encoded instruction (R104): one 32-bit word. -/
abbrev Word32 := BitVec 32

/-- One byte of data memory (R46). -/
abbrev Byte := BitVec 8

/-- A five-bit register field of an instruction (R105); which file it names is said by R102. -/
abbrev RegNum := BitVec 5

end Sys2Proof
end

