-- ==== Sys2Proof/Machine/Bits.lean ====
section
/-! DEFINITION. The bit-vector primitives of 00_scope.md R10 and R11: signed and unsigned readings, extension, truncation,
division that truncates toward zero, and rounding a quotient to nearest, ties to even (45_floating_point.md R381). -/
namespace Sys2Proof.Machine

/-- `v[31:0]` of a register operand (R222). -/
def lowWord (v : Word) : Word32 := v.extractLsb' 0 32

/-- `sext32to64` (R11). -/
def sext32to64 (v : Word32) : Word := v.signExtend 64

/-- `trunc_32` of an exact integer. -/
def trunc32 (z : Int) : Word32 := BitVec.ofInt 32 z

/-- `trunc_64` of an exact integer. -/
def trunc64 (z : Int) : Word := BitVec.ofInt 64 z

/-- `sext_64` of a 16-bit immediate (R106). -/
def sextImm (imm : BitVec 16) : Word := imm.signExtend 64

/-- `zext_64` of a 16-bit immediate (R106). -/
def zextImm (imm : BitVec 16) : Word := imm.setWidth 64

/-- A truth value as a register value: 1 or 0. -/
def boolWord (b : Bool) : Word := if b then 1 else 0

/-- `-2^(w-1) ≤ z < 2^(w-1)`: the exact integer fits `w` bits, signed (R221). -/
def fitsSigned (w : Nat) (z : Int) : Bool := decide (-(2 : Int) ^ (w - 1) ≤ z) && decide (z < (2 : Int) ^ (w - 1))

/-- `0 ≤ n < 2^w`: the exact natural number fits `w` bits, unsigned (R221). -/
def fitsUnsigned (w n : Nat) : Bool := decide (n < 2 ^ w)

/-- `quot(a, b)`: division truncating toward zero (R11). -/
def quot (a b : Int) : Int := a.tdiv b

/-- `rem(a, b) = a - b·quot(a, b)`: the remainder takes the dividend's sign (R11). -/
def rem (a b : Int) : Int := a.tmod b

/-- `n / d` rounded to the nearest natural number, ties to even (R381). -/
def rneDiv (n d : Nat) : Nat :=
  let q := n / d
  let r := n % d
  if 2 * r > d || (2 * r == d && q % 2 == 1) then q + 1 else q

end Sys2Proof.Machine
end

