-- ==== Sys2Proof/Machine/Float.lean ====
section
/-! DEFINITION. IEEE-754 binary64 as 45_floating_point.md R381 and R382 use it. Every finite value is a whole number of
units of 2^-1074, the smallest subnormal, so an operation is computed exactly on integers and rounded once, to nearest
with ties to even, by `roundRatio`. -/
namespace Sys2Proof.Machine

/-- One in units of 2^-1074. -/
def Fp.one : Nat := 2 ^ 1074

/-- The pattern of +Infinity. -/
def Fp.infinity : Nat := 0x7FF0000000000000

/-- The sign bit. -/
def Fp.sign (v : Word) : Bool := v.getLsbD 63

/-- The biased exponent, bits 62:52. -/
def Fp.exponent (v : Word) : Nat := (v.extractLsb' 52 11).toNat

/-- The fraction, bits 51:0. -/
def Fp.fraction (v : Word) : Nat := (v.extractLsb' 0 52).toNat

/-- A NaN: exponent all ones, fraction not 0. -/
def Fp.isNaN (v : Word) : Bool := Fp.exponent v == 2047 && Fp.fraction v != 0

/-- A signalling NaN: a NaN whose quiet bit, bit 51, is 0. -/
def Fp.isSNaN (v : Word) : Bool := Fp.isNaN v && !v.getLsbD 51

/-- A quiet NaN. -/
def Fp.isQNaN (v : Word) : Bool := Fp.isNaN v && v.getLsbD 51

/-- +Infinity or -Infinity. -/
def Fp.isInf (v : Word) : Bool := Fp.exponent v == 2047 && Fp.fraction v == 0

/-- +0 or -0. -/
def Fp.isZero (v : Word) : Bool := Fp.exponent v == 0 && Fp.fraction v == 0

/-- The magnitude in units of 2^-1074: the fraction itself when the exponent is 0 (zero and subnormals), else the fraction
with its leading 1, scaled. For an infinity the same expression gives 2^2098, more than every finite magnitude, which is
all that a comparison needs of it. -/
def Fp.magnitude (v : Word) : Nat :=
  if Fp.exponent v = 0 then Fp.fraction v else (2 ^ 52 + Fp.fraction v) * 2 ^ (Fp.exponent v - 1)

/-- `FP(v)` of a pattern that is no NaN, in units of 2^-1074 (R14). -/
def Fp.value (v : Word) : Int := if Fp.sign v then -(Fp.magnitude v : Int) else Fp.magnitude v

/-- A magnitude pattern with a sign. -/
def Fp.withSign (s : Bool) (mag : Nat) : Word := BitVec.ofNat 64 (mag + if s then 2 ^ 63 else 0)

/-- The magnitude pattern of `n / d` units of 2^-1074 (`d > 0`), rounded to nearest, ties to even; Infinity when the rounded
value is not finite (R381, R382). With `s` places dropped from a significand of 53 bits, the pattern is
`s·2^52 + significand`: a subnormal has `s = 0`, and a significand that rounds up to 2^53 carries into the exponent. -/
def Fp.roundRatio (n d : Nat) : Nat :=
  let s := Nat.log2 (n / d) - 52
  let pattern := s * 2 ^ 52 + rneDiv n (d * 2 ^ s)
  if pattern < Fp.infinity then pattern else Fp.infinity

/-- `bits(roundRNE(z / d))` of an exact integer number of units over `d`, not 0. -/
def Fp.roundSigned (z : Int) (d : Nat) : Word := Fp.withSign (decide (z < 0)) (Fp.roundRatio z.natAbs d)

/-- `v` with its sign flipped. -/
def Fp.neg (v : Word) : Word := v ^^^ 0x8000000000000000

/-- The sum of two patterns that make no NaN. An exact zero sum is +0 unless both operands are -0 (R384). -/
def Fp.add (a b : Word) : Word :=
  if Fp.isInf a then a
  else if Fp.isInf b then b
  else
    let z := Fp.value a + Fp.value b
    if z = 0 then Fp.withSign (Fp.sign a && Fp.sign b) 0 else Fp.roundSigned z 1

/-- The difference of two patterns that make no NaN (R385). -/
def Fp.sub (a b : Word) : Word := Fp.add a (Fp.neg b)

/-- The product of two patterns that make no NaN (R386). -/
def Fp.mul (a b : Word) : Word :=
  let s := Fp.sign a != Fp.sign b
  if Fp.isInf a || Fp.isInf b then Fp.withSign s Fp.infinity
  else Fp.withSign s (Fp.roundRatio (Fp.magnitude a * Fp.magnitude b) Fp.one)

/-- The quotient of two patterns that make no NaN (R387): a finite nonzero value over 0 is an infinity, a finite value over
an infinity is 0. -/
def Fp.div (a b : Word) : Word :=
  let s := Fp.sign a != Fp.sign b
  if Fp.isInf a || Fp.isZero b then Fp.withSign s Fp.infinity
  else if Fp.isInf b then Fp.withSign s 0
  else Fp.withSign s (Fp.roundRatio (Fp.magnitude a * Fp.one) (Fp.magnitude b))

/-- `bits(roundRNE(z))` of an integer (R389). -/
def Fp.ofInt (z : Int) : Word := if z = 0 then 0 else Fp.roundSigned (z * Fp.one) 1

/-- `roundRNE` of a finite pattern to an integer (R390). -/
def Fp.toInt (v : Word) : Int :=
  let m := rneDiv (Fp.magnitude v) Fp.one
  if Fp.sign v then -(m : Int) else m

end Sys2Proof.Machine
end

