-- ==== Sys2Proof/Syntax.lean ====
section
/-! DEFINITION. The instruction set as syntax: one constructor of `Instr` per row of the opcode table
(30_encoding.md R103, R105), the mnemonics, kinds and latency classes of R100 and R103, and the register
identifiers of 10_state.md R37. What a word means stands in Decode.lean, what an instruction does under Machine/. -/
namespace Sys2Proof

/-- The mnemonic of a row of the opcode table, `.` written `_` (R100 `mn`). -/
inductive Mnemonic where
  | NOP | ADD | ADDU | SUB | SUBU | DADD | DADDU | DSUB | DSUBU | ADDI | ADDIU | DADDI | DADDIU | SLT | SLTU
  | SLTI | SLTIU | MULT | MULTU | DMULT | DMULTU | DIV | DIVU | DDIV | DDIVU | MFHI | MFLO | AND | OR | XOR
  | NOR | ANDI | ORI | XORI | LUI | MOVZ | MOVN | SLL | SRL | SRA | SLLV | SRLV | SRAV | DSLL | DSRL | DSRA
  | DSLL32 | DSRL32 | DSRA32 | DSLLV | DSRLV | DSRAV | LB | LBU | LH | LHU | LW | LWU | LD | LDC1 | SB | SH
  | SW | SD | SDC1 | BEQ | BNE | BLEZ | BGTZ | BLTZ | BGEZ | BC1F | BC1T | J | JAL | JR | JALR | ADD_D
  | SUB_D | MUL_D | DIV_D | MOV_D | CVT_D_L | CVT_L_D | C_EQ_D | C_LT_D | DMFC1 | DMTC1 | SYSCALL | BREAK
  deriving DecidableEq, Repr

/-- The eleven operation kinds of R100. -/
inductive Kind where
  | integerArithmetic | logical | shift | load | store | branch | jump | floatingPoint
  | systemCall | trap | noOp
  deriving DecidableEq, Repr

/-- The latency classes of R103 (decision D25). -/
inductive LatencyClass where
  | intALU | intMul | intDiv | mem | branch | fpAdd | fpMul | fpDiv | other
  deriving DecidableEq, Repr

/-- The one identifier space the hazard unit and the pending markers work over (R37):
integer and floating-point numbers never meet. -/
inductive RegId where
  | gpr (i : RegNum)
  | fpr (i : RegNum)
  | hi
  | lo
  | fcc
  deriving DecidableEq, Repr

/-- One constructor per row of the opcode table, in the table's order. A field named `fs`, `ft` or `fd` names a
floating-point register, every other register field an integer one (R102). The arguments stand in the order of the
row's assembler syntax (R114). -/
inductive Instr where
  /-- `NOP` (R281). -/
  | nop
  /-- `ADD rd, rs, rt` (R223). -/
  | add (rd rs rt : RegNum)
  /-- `ADDU rd, rs, rt` (R224). -/
  | addu (rd rs rt : RegNum)
  /-- `SUB rd, rs, rt` (R225). -/
  | sub (rd rs rt : RegNum)
  /-- `SUBU rd, rs, rt` (R226). -/
  | subu (rd rs rt : RegNum)
  /-- `DADD rd, rs, rt` (R227). -/
  | dadd (rd rs rt : RegNum)
  /-- `DADDU rd, rs, rt` (R228). -/
  | daddu (rd rs rt : RegNum)
  /-- `DSUB rd, rs, rt` (R229). -/
  | dsub (rd rs rt : RegNum)
  /-- `DSUBU rd, rs, rt` (R230). -/
  | dsubu (rd rs rt : RegNum)
  /-- `ADDI rt, rs, imm` (R231). -/
  | addi (rt rs : RegNum) (imm : BitVec 16)
  /-- `ADDIU rt, rs, imm` (R232). -/
  | addiu (rt rs : RegNum) (imm : BitVec 16)
  /-- `DADDI rt, rs, imm` (R233). -/
  | daddi (rt rs : RegNum) (imm : BitVec 16)
  /-- `DADDIU rt, rs, imm` (R234). -/
  | daddiu (rt rs : RegNum) (imm : BitVec 16)
  /-- `SLT rd, rs, rt` (R235). -/
  | slt (rd rs rt : RegNum)
  /-- `SLTU rd, rs, rt` (R236). -/
  | sltu (rd rs rt : RegNum)
  /-- `SLTI rt, rs, imm` (R237). -/
  | slti (rt rs : RegNum) (imm : BitVec 16)
  /-- `SLTIU rt, rs, imm` (R238). -/
  | sltiu (rt rs : RegNum) (imm : BitVec 16)
  /-- `MULT rs, rt` (R239). -/
  | mult (rs rt : RegNum)
  /-- `MULTU rs, rt` (R240). -/
  | multu (rs rt : RegNum)
  /-- `DMULT rs, rt` (R241). -/
  | dmult (rs rt : RegNum)
  /-- `DMULTU rs, rt` (R242). -/
  | dmultu (rs rt : RegNum)
  /-- `DIV rs, rt` (R243). -/
  | div (rs rt : RegNum)
  /-- `DIVU rs, rt` (R244). -/
  | divu (rs rt : RegNum)
  /-- `DDIV rs, rt` (R245). -/
  | ddiv (rs rt : RegNum)
  /-- `DDIVU rs, rt` (R246). -/
  | ddivu (rs rt : RegNum)
  /-- `MFHI rd` (R247). -/
  | mfhi (rd : RegNum)
  /-- `MFLO rd` (R248). -/
  | mflo (rd : RegNum)
  /-- `AND rd, rs, rt` (R282). -/
  | and (rd rs rt : RegNum)
  /-- `OR rd, rs, rt` (R283). -/
  | or (rd rs rt : RegNum)
  /-- `XOR rd, rs, rt` (R284). -/
  | xor (rd rs rt : RegNum)
  /-- `NOR rd, rs, rt` (R285). -/
  | nor (rd rs rt : RegNum)
  /-- `ANDI rt, rs, imm` (R286). -/
  | andi (rt rs : RegNum) (imm : BitVec 16)
  /-- `ORI rt, rs, imm` (R287). -/
  | ori (rt rs : RegNum) (imm : BitVec 16)
  /-- `XORI rt, rs, imm` (R288). -/
  | xori (rt rs : RegNum) (imm : BitVec 16)
  /-- `LUI rt, imm` (R289). -/
  | lui (rt : RegNum) (imm : BitVec 16)
  /-- `MOVZ rd, rs, rt` (R290). -/
  | movz (rd rs rt : RegNum)
  /-- `MOVN rd, rs, rt` (R291). -/
  | movn (rd rs rt : RegNum)
  /-- `SLL rd, rt, sa` (R300). -/
  | sll (rd rt : RegNum) (sa : BitVec 5)
  /-- `SRL rd, rt, sa` (R301). -/
  | srl (rd rt : RegNum) (sa : BitVec 5)
  /-- `SRA rd, rt, sa` (R302). -/
  | sra (rd rt : RegNum) (sa : BitVec 5)
  /-- `SLLV rd, rt, rs` (R303). -/
  | sllv (rd rt rs : RegNum)
  /-- `SRLV rd, rt, rs` (R304). -/
  | srlv (rd rt rs : RegNum)
  /-- `SRAV rd, rt, rs` (R305). -/
  | srav (rd rt rs : RegNum)
  /-- `DSLL rd, rt, sa` (R306). -/
  | dsll (rd rt : RegNum) (sa : BitVec 5)
  /-- `DSRL rd, rt, sa` (R307). -/
  | dsrl (rd rt : RegNum) (sa : BitVec 5)
  /-- `DSRA rd, rt, sa` (R308). -/
  | dsra (rd rt : RegNum) (sa : BitVec 5)
  /-- `DSLL32 rd, rt, sa` (R309). -/
  | dsll32 (rd rt : RegNum) (sa : BitVec 5)
  /-- `DSRL32 rd, rt, sa` (R310). -/
  | dsrl32 (rd rt : RegNum) (sa : BitVec 5)
  /-- `DSRA32 rd, rt, sa` (R311). -/
  | dsra32 (rd rt : RegNum) (sa : BitVec 5)
  /-- `DSLLV rd, rt, rs` (R312). -/
  | dsllv (rd rt rs : RegNum)
  /-- `DSRLV rd, rt, rs` (R313). -/
  | dsrlv (rd rt rs : RegNum)
  /-- `DSRAV rd, rt, rs` (R314). -/
  | dsrav (rd rt rs : RegNum)
  /-- `LB rt, imm(rs)` (R323). -/
  | lb (rt rs : RegNum) (imm : BitVec 16)
  /-- `LBU rt, imm(rs)` (R324). -/
  | lbu (rt rs : RegNum) (imm : BitVec 16)
  /-- `LH rt, imm(rs)` (R325). -/
  | lh (rt rs : RegNum) (imm : BitVec 16)
  /-- `LHU rt, imm(rs)` (R326). -/
  | lhu (rt rs : RegNum) (imm : BitVec 16)
  /-- `LW rt, imm(rs)` (R327). -/
  | lw (rt rs : RegNum) (imm : BitVec 16)
  /-- `LWU rt, imm(rs)` (R328). -/
  | lwu (rt rs : RegNum) (imm : BitVec 16)
  /-- `LD rt, imm(rs)` (R329). -/
  | ld (rt rs : RegNum) (imm : BitVec 16)
  /-- `LDC1 ft, imm(rs)` (R330). -/
  | ldc1 (ft rs : RegNum) (imm : BitVec 16)
  /-- `SB rt, imm(rs)` (R331). -/
  | sb (rt rs : RegNum) (imm : BitVec 16)
  /-- `SH rt, imm(rs)` (R332). -/
  | sh (rt rs : RegNum) (imm : BitVec 16)
  /-- `SW rt, imm(rs)` (R333). -/
  | sw (rt rs : RegNum) (imm : BitVec 16)
  /-- `SD rt, imm(rs)` (R334). -/
  | sd (rt rs : RegNum) (imm : BitVec 16)
  /-- `SDC1 ft, imm(rs)` (R335). -/
  | sdc1 (ft rs : RegNum) (imm : BitVec 16)
  /-- `BEQ rs, rt, imm` (R359). -/
  | beq (rs rt : RegNum) (imm : BitVec 16)
  /-- `BNE rs, rt, imm` (R360). -/
  | bne (rs rt : RegNum) (imm : BitVec 16)
  /-- `BLEZ rs, imm` (R361). -/
  | blez (rs : RegNum) (imm : BitVec 16)
  /-- `BGTZ rs, imm` (R362). -/
  | bgtz (rs : RegNum) (imm : BitVec 16)
  /-- `BLTZ rs, imm` (R363). -/
  | bltz (rs : RegNum) (imm : BitVec 16)
  /-- `BGEZ rs, imm` (R364). -/
  | bgez (rs : RegNum) (imm : BitVec 16)
  /-- `BC1F imm` (R365). -/
  | bc1f (imm : BitVec 16)
  /-- `BC1T imm` (R366). -/
  | bc1t (imm : BitVec 16)
  /-- `J index` (R367). -/
  | j (index : BitVec 26)
  /-- `JAL index` (R368). -/
  | jal (index : BitVec 26)
  /-- `JR rs` (R369). -/
  | jr (rs : RegNum)
  /-- `JALR rd, rs` (R370). -/
  | jalr (rd rs : RegNum)
  /-- `ADD.D fd, fs, ft` (R384). -/
  | addD (fd fs ft : RegNum)
  /-- `SUB.D fd, fs, ft` (R385). -/
  | subD (fd fs ft : RegNum)
  /-- `MUL.D fd, fs, ft` (R386). -/
  | mulD (fd fs ft : RegNum)
  /-- `DIV.D fd, fs, ft` (R387). -/
  | divD (fd fs ft : RegNum)
  /-- `MOV.D fd, fs` (R388). -/
  | movD (fd fs : RegNum)
  /-- `CVT.D.L fd, fs` (R389). -/
  | cvtDL (fd fs : RegNum)
  /-- `CVT.L.D fd, fs` (R390). -/
  | cvtLD (fd fs : RegNum)
  /-- `C.EQ.D fs, ft` (R393). -/
  | cEqD (fs ft : RegNum)
  /-- `C.LT.D fs, ft` (R394). -/
  | cLtD (fs ft : RegNum)
  /-- `DMFC1 rt, fs` (R391). -/
  | dmfc1 (rt fs : RegNum)
  /-- `DMTC1 rt, fs` (R392). -/
  | dmtc1 (rt fs : RegNum)
  /-- `SYSCALL code` (R414). -/
  | syscall (code : BitVec 20)
  /-- `BREAK code` (R415). -/
  | brk (code : BitVec 20)
  deriving DecidableEq, Repr

end Sys2Proof
end

