-- ==== Sys2Proof/Config.lean ====
section
/-! DEFINITION. The configuration of an engine (00_scope.md R8, R9): everything that is fixed when the engine is built,
as one plain record, with the values the spec takes by default, and the one uninterpreted constant of the model, the
host's system-call callbacks (46_system.md R413). Whether a record is well formed (R447) is said in
Machine/Launch.lean. -/
namespace Sys2Proof

/-- The exception kinds of 60_exceptions.md R430, in the order of their codes. -/
inductive ExcKind where
  | invalidInstruction | malformedOperand | overflow | divideByZero | fpInvalid | fpDivideByZero
  | misaligned | outOfBounds | systemCall | breakpoint
  deriving DecidableEq, Repr

/-- The data byte order (R9 `cfg.byteOrder`, R74; decision D7). -/
inductive ByteOrder where
  | little
  | big
  deriving DecidableEq, Repr

/-- The handler addresses, one optional instruction address per kind (R445; decision D15). -/
structure HandlerTable where
  invalidInstruction : Option Word := none
  malformedOperand   : Option Word := none
  overflow           : Option Word := none
  divideByZero       : Option Word := none
  fpInvalid          : Option Word := none
  fpDivideByZero     : Option Word := none
  misaligned         : Option Word := none
  outOfBounds        : Option Word := none
  systemCall         : Option Word := none
  breakpoint         : Option Word := none
  deriving DecidableEq, Repr

/-- The Execute latency of each class (R9 `cfg.lat`; decision D25), 1 by default. -/
structure Latencies where
  intALU : Nat := 1
  intMul : Nat := 1
  intDiv : Nat := 1
  mem    : Nat := 1
  branch : Nat := 1
  fpAdd  : Nat := 1
  fpMul  : Nat := 1
  fpDiv  : Nat := 1
  other  : Nat := 1
  deriving DecidableEq, Repr

/-- The configuration record `Cfg` (R8, R9). The defaults are R9's; where R9 says OPEN, the default is the reference
value of R9 or of 95_test_vectors.md and a log entry names it (notes/assumptions/1.md). -/
structure Config where
  /-- `cfg.memSize`: the bytes of data memory. OPEN. -/
  memSize        : Nat := 4096
  /-- `cfg.byteOrder`. OPEN. -/
  byteOrder      : ByteOrder := .little
  /-- `cfg.checked`: the overflow-checked mnemonics (R221; decision D29). -/
  checked        : List Mnemonic := [.ADD, .ADDI, .SUB, .DADD, .DADDI, .DSUB]
  /-- `cfg.handler`. OPEN; every kind unconfigured by default. -/
  handler        : HandlerTable := {}
  /-- The call numbers for which `cfg.syscalls` has a callback. OPEN; empty by default. The callback of a number is
  `Config.callback`. -/
  syscalls       : List Nat := []
  /-- `cfg.haltCode`: the SYSCALL number that halts. -/
  haltCode       : Nat := 0
  /-- `cfg.lat`. -/
  lat            : Latencies := {}
  /-- `cfg.fpTrap.FpInvalid`. -/
  trapFpInvalid  : Bool := false
  /-- `cfg.fpTrap.FpDivideByZero`. -/
  trapFpDivByZero : Bool := false
  /-- `cfg.defaultNaN`: the pattern of every NaN result (R382). OPEN. -/
  defaultNaN     : Word := 0x7FF8000000000000
  /-- `cfg.cvtInvalid`: the result of CVT.L.D on an operand with no 64-bit value (R390). OPEN. -/
  cvtInvalid     : Word := 0x7FFFFFFFFFFFFFFF
  deriving DecidableEq, Repr

/-- What a system-call callback receives and returns (R413): the integer and floating-point register files and data
memory, the memory as (address, byte) pairs. -/
structure CallbackView where
  x   : Vector Word 32
  f   : Vector Word 32
  mem : List Host.Cell
  deriving DecidableEq, Repr, Inhabited

/-- The host's callback of each call number: `(Regs × FRegs × Mem) → (Regs × FRegs × Mem)`, total, pure and not given by
the spec (R413; decision D39). It has no body: nothing can be proved of the values it returns
(notes/assumptions/2.md). -/
opaque Config.callback : Nat → CallbackView → CallbackView

end Sys2Proof
end

