-- ==== Sys2Proof/Machine/State.lean ====
section
/-! DEFINITION. The whole state of the block as plain data (10_state.md R30): the register files, HI, LO, FCC, the
pending-write markers, data memory, the program counter, the five slots, the controller, the counters; the launch inputs
`cfg`, `base` and `prog` that the step relation takes (R8, R30, R47); and two fields of the model's own, `turn` and `report`.
The reasons a step can stop, and the state after reset (R49). -/
namespace Sys2Proof.Machine

/-- The pipeline stages (R2), youngest entry first. -/
inductive Stage where
  | IF | ID | EX | MEM | WB
  deriving DecidableEq, Repr

/-- The decoded record (R100). It is stored as the instruction, its fetch address and its word; `mn`, `kind`, the fields,
`srcs`, `dsts`, `target` and `lat` are functions of these (Decode.lean). -/
structure Instruction where
  op   : Instr
  pc   : Word
  word : Word32
  deriving DecidableEq, Repr

/-- What a slot's entry stands for (R39, R113): a decoded instruction, or a token for a fetch or decode fault whose `addr`
is its fetch address (R80, R433). -/
inductive SlotContent where
  | instr (i : Instruction)
  | faultToken (kind : ExcKind) (addr : Word)
  deriving DecidableEq, Repr

/-- The system-call classification of an entry (R39 `sys`, R410). -/
inductive SysClass where
  | none | call | halt
  deriving DecidableEq, Repr

/-- A slot's entry (R39). `ops` and `res` list the registers they hold a value for. -/
structure Entry where
  inst    : SlotContent
  ops     : List (RegId × Word) := []
  ready   : Bool := false
  rem     : Nat := 0
  done    : Bool := false
  res     : List (RegId × Word) := []
  ea      : Word := 0
  sval    : Word := 0
  taken   : Bool := false
  target  : Word := 0
  sys     : SysClass := .none
  discard : Bool := false
  deriving DecidableEq, Repr

/-- The five slots; `none` is a bubble (R39). -/
structure Slots where
  IF  : Option Entry := none
  ID  : Option Entry := none
  EX  : Option Entry := none
  MEM : Option Entry := none
  WB  : Option Entry := none
  deriving DecidableEq, Repr

/-- The pending-write markers `pend : RegId → Nat` (R40), one count per register identifier. -/
structure PendingMarks where
  gpr : Vector Nat 32 := Vector.replicate 32 0
  fpr : Vector Nat 32 := Vector.replicate 32 0
  hi  : Nat := 0
  lo  : Nat := 0
  fcc : Nat := 0
  deriving DecidableEq, Repr

/-- The controller state `ctrl` (R42). -/
inductive Ctrl where
  | normal
  | flushRequested (depth : Nat) (newPC : Word)
  | halted
  | fatal (kind : ExcKind) (pc : Word)
  deriving DecidableEq, Repr

/-- What the report says of an occupied slot (R185 `occupancy`): the entry's mnemonic, or its fault token. -/
inductive OccupantName where
  | mnemonic (m : Mnemonic)
  | faultToken (kind : ExcKind)
  deriving DecidableEq, Repr

/-- An occupied slot in the report: the entry's `pc` and name. -/
structure Occupant where
  pc   : Word
  name : OccupantName
  deriving DecidableEq, Repr

/-- The report's occupancy, one optional occupant a stage. -/
structure Occupancy where
  IF  : Option Occupant := none
  ID  : Option Occupant := none
  EX  : Option Occupant := none
  MEM : Option Occupant := none
  WB  : Option Occupant := none
  deriving DecidableEq, Repr

/-- The exception record as the report carries it (R431): `{kind, code, pc, stage, addr}`. -/
structure FaultReport where
  kind  : ExcKind
  code  : Nat
  pc    : Word
  stage : Stage
  addr  : Word
  deriving DecidableEq, Repr

/-- The flush as the report carries it (R185): the halt system call has no redirect address. -/
structure FlushReport where
  depth : Nat
  newPC : Option Word
  deriving DecidableEq, Repr

/-- What `step()` returns (R185). The defaults are the empty report of R150. -/
structure CycleReport where
  cycle     : Option Nat := none
  occupancy : Occupancy := {}
  stall     : Bool := false
  fault     : Option FaultReport := none
  flush     : Option FlushReport := none
  halted    : Bool := false
  fatal     : Bool := false
  deriving DecidableEq, Repr

/-- Data memory (R46): the (address, byte) pairs of the bytes that are not 0, addresses strictly rising. An address that is
not listed reads as 0, the reset contents of R49. -/
abbrev Memory := List Host.Cell

/-- The state of the block (R30). -/
structure State where
  /-- The configuration (R8): fixed at construction, changed by no step. -/
  cfg   : Config
  /-- The base load address of the instruction stream (R9): a launch input, changed by no step. -/
  base  : Word
  /-- Instruction memory (R47): word `k` at address `base + 4k`, changed by no step. -/
  prog  : List Word32
  /-- The integer registers (R31); `x[0]` reads as 0 (R32). -/
  x     : Vector Word 32
  /-- The floating-point registers (R34). -/
  f     : Vector Word 32
  /-- The high half of the multiply and divide result (R35). -/
  HI    : Word
  /-- The low half of the multiply and divide result (R35). -/
  LO    : Word
  /-- The floating-point condition bit (R36). -/
  FCC   : Bool
  /-- The pending-write markers (R40). -/
  pend  : PendingMarks
  /-- Data memory (R46). -/
  mem   : Memory
  /-- The next fetch address (R38). -/
  pc    : Word
  /-- Cycles completed (R41). -/
  cycle : Nat
  /-- Stall cycles so far (R43). -/
  stalls : Nat
  /-- The pipeline slots (R39). -/
  slots : Slots
  /-- The controller (R42). -/
  ctrl  : Ctrl
  /-- The halt system call has completed Execute and has not yet committed (R42, R411). -/
  haltPending : Bool
  /-- An unhandled exception is draining (R42, R442). -/
  fatalPending : Option (ExcKind × Word)
  /-- The model's own: the stage whose turn it is in the stage phase of R157; IF between cycles. -/
  turn  : Stage
  /-- The model's own place for what the last `step()` returned (R185); inside a cycle it is the report being made, which is
  where the transient exception record of R44 lives. -/
  report : CycleReport
  deriving DecidableEq, Repr

/-- Why the machine stops with a fault: it never does, so there is no constructor. Every exception of the block is a change
of its state (R440 to R442), a terminal engine answers its own unchanged state (R150), and the spec leaves no behaviour
undefined (93_implementation_defined.md). Safe: no run is cut short. -/
inductive Fault where
  deriving DecidableEq, Repr

/-- Why a request is refused. -/
inductive Refusal where
  /-- Raised by an arm of `exec` whose instruction has no meaning yet. Safe. -/
  | notModelled (mnemonic : String)
  /-- Raised by `construct` for a malformed configuration (R447): the engine is not created and no cycle runs. Never raised
  during execution. Safe: it is the spec's own refusal. -/
  | configurationError
  deriving DecidableEq, Repr

/-- What a step or a meaning answers. -/
abbrev Result := Host.Outcome State Fault Refusal

/-- The fresh engine state (R49, R470) of the default configuration, with no program: `pc = base = 0`, every register, HI, LO,
FCC, marker and counter 0, memory 0, every slot empty, the controller Normal. A launch with another configuration, program,
base or data image is `construct` (Machine/Launch.lean). -/
def State.reset : State where
  cfg   := {}
  base  := 0
  prog  := []
  x     := Vector.replicate 32 0
  f     := Vector.replicate 32 0
  HI    := 0
  LO    := 0
  FCC   := false
  pend  := {}
  mem   := []
  pc    := 0
  cycle := 0
  stalls := 0
  slots := {}
  ctrl  := .normal
  haltPending := false
  fatalPending := none
  turn  := .IF
  report := {}

end Sys2Proof.Machine
end

