-- ==== Sys2Proof/Machine/Flags.lean ====
section
/-! DEFINITION. The conditions an execution unit tests: integer overflow (41_integer_arith.md R221), the floating-point
invalid-operation and divide-by-zero conditions (45_floating_point.md R383), and the two compare results that FCC takes
(R393, R394). The block has no other flag (10_state.md R36). -/
namespace Sys2Proof.Machine

/-- The mnemonic is overflow-checked: it is in `cfg.checked` (R221). -/
def checks (c : Config) (m : Mnemonic) : Bool := c.checked.contains m

/-- The overflow condition of a checked mnemonic on the exact signed result of width `w` (R221). -/
def overflowsSigned (c : Config) (m : Mnemonic) (w : Nat) (z : Int) : Bool := checks c m && !fitsSigned w z

/-- The overflow condition of a checked mnemonic on the exact unsigned result of width `w` (R221). -/
def overflowsUnsigned (c : Config) (m : Mnemonic) (w n : Nat) : Bool := checks c m && !fitsUnsigned w n

/-- An operand is a signalling NaN (R383). -/
def anySNaN (a b : Word) : Bool := Fp.isSNaN a || Fp.isSNaN b

/-- An operand is a NaN. -/
def anyNaN (a b : Word) : Bool := Fp.isNaN a || Fp.isNaN b

/-- `invalid(a + b)` (R383): a signalling NaN, or infinities of opposite sign. -/
def invalidAdd (a b : Word) : Bool := anySNaN a b || (Fp.isInf a && Fp.isInf b && Fp.sign a != Fp.sign b)

/-- `invalid(a - b)` (R383): a signalling NaN, or infinities of equal sign. -/
def invalidSub (a b : Word) : Bool := anySNaN a b || (Fp.isInf a && Fp.isInf b && Fp.sign a == Fp.sign b)

/-- `invalid(a × b)` (R383): a signalling NaN, or `0 × ∞`. -/
def invalidMul (a b : Word) : Bool :=
  anySNaN a b || (Fp.isZero a && Fp.isInf b) || (Fp.isInf a && Fp.isZero b)

/-- `invalid(a / b)` (R383): a signalling NaN, `0 / 0` or `∞ / ∞`. -/
def invalidDiv (a b : Word) : Bool :=
  anySNaN a b || (Fp.isZero a && Fp.isZero b) || (Fp.isInf a && Fp.isInf b)

/-- `divByZero(a / b)` (R383): a finite nonzero dividend over ±0. -/
def divByZero (a b : Word) : Bool := !Fp.isNaN a && !Fp.isInf a && !Fp.isZero a && Fp.isZero b

/-- The operand of CVT.L.D has no 64-bit value (R390): a NaN, an infinity, or a value that rounds outside [-2^63, 2^63). -/
def invalidCvt (a : Word) : Bool := Fp.isNaN a || Fp.isInf a || !fitsSigned 64 (Fp.toInt a)

/-- The invalid-operation condition of C.EQ.D, a quiet compare: a signalling NaN (R393). -/
def invalidEq (a b : Word) : Bool := anySNaN a b

/-- The invalid-operation condition of C.LT.D, a signalling compare: any NaN (R394). -/
def invalidLt (a b : Word) : Bool := anyNaN a b

/-- What C.EQ.D writes to FCC: false when unordered, else `FP(a) = FP(b)`, so that `+0 = -0` (R393). -/
def compareEq (a b : Word) : Bool := !anyNaN a b && Fp.value a == Fp.value b

/-- What C.LT.D writes to FCC: false when unordered, else `FP(a) < FP(b)` (R394). -/
def compareLt (a b : Word) : Bool := !anyNaN a b && decide (Fp.value a < Fp.value b)

end Sys2Proof.Machine
end

