-- ==== Sys2Proof/Machine/Memory.lean ====
section
/-! DEFINITION. Data memory (20_memory.md): reading and writing one byte in the canonical form, the checks of R73, and the
multi-byte accesses of R74 and R75 in the configured byte order. -/
namespace Sys2Proof.Machine

/-- Byte `mem[a]`: what is listed at `a`, else 0 (R46, R49). -/
def Memory.byte : Memory → Nat → Byte
  | [], _ => 0
  | (b, v) :: rest, a => if a = b then v else Memory.byte rest a

/-- `mem` with byte `v` at `a`, in the canonical form: writing 0 removes the entry. -/
def Memory.setByte : Memory → Nat → Byte → Memory
  | [], a, v => if v = 0 then [] else [(a, v)]
  | (b, u) :: rest, a, v =>
    if a < b then (if v = 0 then (b, u) :: rest else (a, v) :: (b, u) :: rest)
    else if a = b then (if v = 0 then rest else (a, v) :: rest)
    else (b, u) :: Memory.setByte rest a v

/-- The canonical form: addresses strictly rising, no listed byte 0. -/
def Memory.wf : Memory → Bool
  | [] => true
  | (a, v) :: rest => v != 0 && rest.all (fun c => a < c.1) && Memory.wf rest

/-- Every listed address lies in a memory of `size` bytes (R46). -/
def Memory.within (size : Nat) (m : Memory) : Bool := m.all (fun c => c.1 < size)

/-- A memory of `size` bytes from (address, byte) pairs, in the canonical form; a pair outside the memory is dropped. -/
def Memory.ofCells (size : Nat) (cells : List Host.Cell) : Memory :=
  cells.foldl (fun m c => if c.1 < size then Memory.setByte m c.1 c.2 else m) []

/-- The access widths of R72. -/
inductive Width where
  | byte | half | word | double
  deriving DecidableEq, Repr

/-- The width in bytes (R72): 1, 2, 4 or 8. -/
def Width.bytes : Width → Nat
  | .byte => 1
  | .half => 2
  | .word => 4
  | .double => 8

/-- The checks of R73 in their order: `Misaligned`, then `OutOfBounds` with `a + n` computed without wrap-around (R71). -/
def accessFault (memSize : Nat) (a : Word) (n : Nat) : Option ExcKind :=
  if a.toNat % n ≠ 0 then some .misaligned
  else if memSize < a.toNat + n then some .outOfBounds
  else none

/-- Bytes as a number, the first the least significant. -/
def littleEndian : List Byte → Nat
  | [] => 0
  | b :: rest => b.toNat + 256 * littleEndian rest

/-- The `n` low bytes of a value, the least significant first. -/
def lowBytes : Nat → Nat → List Byte
  | 0, _ => []
  | n + 1, v => BitVec.ofNat 8 v :: lowBytes n (v / 256)

/-- Bytes in the order they stand in memory, lowest address first, from least significant first (and back). -/
def inOrder (o : ByteOrder) (bs : List Byte) : List Byte :=
  match o with
  | .little => bs
  | .big => bs.reverse

/-- Bytes `mem[a]`, …, `mem[a+n-1]`. -/
def Memory.bytesAt (m : Memory) (a n : Nat) : List Byte := (List.range n).map (fun k => m.byte (a + k))

/-- Bytes written to `a`, `a+1`, …. -/
def Memory.setBytes : Memory → Nat → List Byte → Memory
  | m, _, [] => m
  | m, a, b :: rest => Memory.setBytes (m.setByte a b) (a + 1) rest

/-- `MemRead(a, n)` after its checks (R74): the unsigned value of the `8n` bits. -/
def memRead (o : ByteOrder) (m : Memory) (a n : Nat) : Nat := littleEndian (inOrder o (m.bytesAt a n))

/-- `MemWrite(a, n, v)` after its checks (R75): bits `[8n-1:0]` of `v`. -/
def memWrite (o : ByteOrder) (m : Memory) (a n : Nat) (v : Word) : Memory :=
  m.setBytes a (inOrder o (lowBytes n v.toNat))

/-- How a load extends its value to 64 bits (43_load_store.md). -/
inductive Extension where
  | signed
  | unsigned
  deriving DecidableEq, Repr

/-- The 64-bit value a load of width `w` delivers from the `8n`-bit value it read. -/
def extendLoaded (w : Width) (ext : Extension) (v : Nat) : Word :=
  match ext with
  | .signed => (BitVec.ofNat (8 * w.bytes) v).signExtend 64
  | .unsigned => BitVec.ofNat 64 v

end Sys2Proof.Machine
end

