-- ==== Sys2Proof/WellFormed.lean ====
section
/-! DEFINITION. When a term of `Instr` is an instruction of this hardware. Every field's width is its type's
(30_encoding.md R105), so one check is left: the all-zero word is the NOP row and no other (R111, R281), so the
shift `SLL r0, r0, 0` is not an instruction of its own. -/
namespace Sys2Proof

/-- The check: `SLL r0, r0, 0` is refused, because its word 0x00000000 is NOP (R111, R115, R281). -/
def Instr.wellFormed : Instr → Bool
  | .sll rd rt sa => !(rd == 0 && rt == 0 && sa == 0)
  | .nop | .add _ _ _ | .addu _ _ _ | .sub _ _ _ | .subu _ _ _ | .dadd _ _ _ | .daddu _ _ _ | .dsub _ _ _
  | .dsubu _ _ _ | .addi _ _ _ | .addiu _ _ _ | .daddi _ _ _ | .daddiu _ _ _ | .slt _ _ _ | .sltu _ _ _
  | .slti _ _ _ | .sltiu _ _ _ | .mult _ _ | .multu _ _ | .dmult _ _ | .dmultu _ _ | .div _ _ | .divu _ _
  | .ddiv _ _ | .ddivu _ _ | .mfhi _ | .mflo _ | .and _ _ _ | .or _ _ _ | .xor _ _ _ | .nor _ _ _
  | .andi _ _ _ | .ori _ _ _ | .xori _ _ _ | .lui _ _ | .movz _ _ _ | .movn _ _ _ | .srl _ _ _ | .sra _ _ _
  | .sllv _ _ _ | .srlv _ _ _ | .srav _ _ _ | .dsll _ _ _ | .dsrl _ _ _ | .dsra _ _ _ | .dsll32 _ _ _
  | .dsrl32 _ _ _ | .dsra32 _ _ _ | .dsllv _ _ _ | .dsrlv _ _ _ | .dsrav _ _ _ | .lb _ _ _ | .lbu _ _ _
  | .lh _ _ _ | .lhu _ _ _ | .lw _ _ _ | .lwu _ _ _ | .ld _ _ _ | .ldc1 _ _ _ | .sb _ _ _ | .sh _ _ _
  | .sw _ _ _ | .sd _ _ _ | .sdc1 _ _ _ | .beq _ _ _ | .bne _ _ _ | .blez _ _ | .bgtz _ _ | .bltz _ _
  | .bgez _ _ | .bc1f _ | .bc1t _ | .j _ | .jal _ | .jr _ | .jalr _ _ | .addD _ _ _ | .subD _ _ _
  | .mulD _ _ _ | .divD _ _ _ | .movD _ _ | .cvtDL _ _ | .cvtLD _ _ | .cEqD _ _ | .cLtD _ _ | .dmfc1 _ _
  | .dmtc1 _ _ | .syscall _ | .brk _ => true

end Sys2Proof
end

