-- ==== Sys2Proof/Decode.lean ====
section
/-! DEFINITION. The opcode table, the decoder and the encoder (30_encoding.md). The table's masks and matches are R107
to R110 with the must-be-zero fields of R109; the decoder is R111 word for word (rows tried in table order, the first
match wins, its fields extracted by the row's format); the sets and classes of R103 that the decoder attaches to an
instruction stand here too. Instruction words are 32-bit values, not bytes (R78). -/
namespace Sys2Proof

/-- A row of the opcode table: a word belongs to it iff `word & mask = match` (R111). -/
structure OpcodeRow where
  mnemonic : Mnemonic
  mask     : Word32
  pattern  : Word32
  deriving DecidableEq, Repr

/-- Why a word is no instruction (R101, R112, R113). -/
inductive DecodeFault where
  /-- The word matches no row, or a must-be-zero field of its row is nonzero (R109, R112). -/
  | invalidInstruction
  /-- A load or store immediate does not fit; under this binding no word gives it (R113). -/
  | malformedOperand
  deriving DecidableEq, Repr

/-! ## The opcode table (R107 to R110, masks with the must-be-zero fields of R109) -/

/-- The row of a mnemonic. -/
def opcodeRow : Mnemonic → OpcodeRow
  | .NOP => ⟨.NOP, 0xFFFFFFFF, 0x00000000⟩
  | .ADD => ⟨.ADD, 0xFC0007FF, 0x00000020⟩
  | .ADDU => ⟨.ADDU, 0xFC0007FF, 0x00000021⟩
  | .SUB => ⟨.SUB, 0xFC0007FF, 0x00000022⟩
  | .SUBU => ⟨.SUBU, 0xFC0007FF, 0x00000023⟩
  | .DADD => ⟨.DADD, 0xFC0007FF, 0x0000002C⟩
  | .DADDU => ⟨.DADDU, 0xFC0007FF, 0x0000002D⟩
  | .DSUB => ⟨.DSUB, 0xFC0007FF, 0x0000002E⟩
  | .DSUBU => ⟨.DSUBU, 0xFC0007FF, 0x0000002F⟩
  | .ADDI => ⟨.ADDI, 0xFC000000, 0x20000000⟩
  | .ADDIU => ⟨.ADDIU, 0xFC000000, 0x24000000⟩
  | .DADDI => ⟨.DADDI, 0xFC000000, 0x60000000⟩
  | .DADDIU => ⟨.DADDIU, 0xFC000000, 0x64000000⟩
  | .SLT => ⟨.SLT, 0xFC0007FF, 0x0000002A⟩
  | .SLTU => ⟨.SLTU, 0xFC0007FF, 0x0000002B⟩
  | .SLTI => ⟨.SLTI, 0xFC000000, 0x28000000⟩
  | .SLTIU => ⟨.SLTIU, 0xFC000000, 0x2C000000⟩
  | .MULT => ⟨.MULT, 0xFC00FFFF, 0x00000018⟩
  | .MULTU => ⟨.MULTU, 0xFC00FFFF, 0x00000019⟩
  | .DMULT => ⟨.DMULT, 0xFC00FFFF, 0x0000001C⟩
  | .DMULTU => ⟨.DMULTU, 0xFC00FFFF, 0x0000001D⟩
  | .DIV => ⟨.DIV, 0xFC00FFFF, 0x0000001A⟩
  | .DIVU => ⟨.DIVU, 0xFC00FFFF, 0x0000001B⟩
  | .DDIV => ⟨.DDIV, 0xFC00FFFF, 0x0000001E⟩
  | .DDIVU => ⟨.DDIVU, 0xFC00FFFF, 0x0000001F⟩
  | .MFHI => ⟨.MFHI, 0xFFFF07FF, 0x00000010⟩
  | .MFLO => ⟨.MFLO, 0xFFFF07FF, 0x00000012⟩
  | .AND => ⟨.AND, 0xFC0007FF, 0x00000024⟩
  | .OR => ⟨.OR, 0xFC0007FF, 0x00000025⟩
  | .XOR => ⟨.XOR, 0xFC0007FF, 0x00000026⟩
  | .NOR => ⟨.NOR, 0xFC0007FF, 0x00000027⟩
  | .ANDI => ⟨.ANDI, 0xFC000000, 0x30000000⟩
  | .ORI => ⟨.ORI, 0xFC000000, 0x34000000⟩
  | .XORI => ⟨.XORI, 0xFC000000, 0x38000000⟩
  | .LUI => ⟨.LUI, 0xFFE00000, 0x3C000000⟩
  | .MOVZ => ⟨.MOVZ, 0xFC0007FF, 0x0000000A⟩
  | .MOVN => ⟨.MOVN, 0xFC0007FF, 0x0000000B⟩
  | .SLL => ⟨.SLL, 0xFFE0003F, 0x00000000⟩
  | .SRL => ⟨.SRL, 0xFFE0003F, 0x00000002⟩
  | .SRA => ⟨.SRA, 0xFFE0003F, 0x00000003⟩
  | .SLLV => ⟨.SLLV, 0xFC0007FF, 0x00000004⟩
  | .SRLV => ⟨.SRLV, 0xFC0007FF, 0x00000006⟩
  | .SRAV => ⟨.SRAV, 0xFC0007FF, 0x00000007⟩
  | .DSLL => ⟨.DSLL, 0xFFE0003F, 0x00000038⟩
  | .DSRL => ⟨.DSRL, 0xFFE0003F, 0x0000003A⟩
  | .DSRA => ⟨.DSRA, 0xFFE0003F, 0x0000003B⟩
  | .DSLL32 => ⟨.DSLL32, 0xFFE0003F, 0x0000003C⟩
  | .DSRL32 => ⟨.DSRL32, 0xFFE0003F, 0x0000003E⟩
  | .DSRA32 => ⟨.DSRA32, 0xFFE0003F, 0x0000003F⟩
  | .DSLLV => ⟨.DSLLV, 0xFC0007FF, 0x00000014⟩
  | .DSRLV => ⟨.DSRLV, 0xFC0007FF, 0x00000016⟩
  | .DSRAV => ⟨.DSRAV, 0xFC0007FF, 0x00000017⟩
  | .LB => ⟨.LB, 0xFC000000, 0x80000000⟩
  | .LBU => ⟨.LBU, 0xFC000000, 0x90000000⟩
  | .LH => ⟨.LH, 0xFC000000, 0x84000000⟩
  | .LHU => ⟨.LHU, 0xFC000000, 0x94000000⟩
  | .LW => ⟨.LW, 0xFC000000, 0x8C000000⟩
  | .LWU => ⟨.LWU, 0xFC000000, 0x9C000000⟩
  | .LD => ⟨.LD, 0xFC000000, 0xDC000000⟩
  | .LDC1 => ⟨.LDC1, 0xFC000000, 0xD4000000⟩
  | .SB => ⟨.SB, 0xFC000000, 0xA0000000⟩
  | .SH => ⟨.SH, 0xFC000000, 0xA4000000⟩
  | .SW => ⟨.SW, 0xFC000000, 0xAC000000⟩
  | .SD => ⟨.SD, 0xFC000000, 0xFC000000⟩
  | .SDC1 => ⟨.SDC1, 0xFC000000, 0xF4000000⟩
  | .BEQ => ⟨.BEQ, 0xFC000000, 0x10000000⟩
  | .BNE => ⟨.BNE, 0xFC000000, 0x14000000⟩
  | .BLEZ => ⟨.BLEZ, 0xFC1F0000, 0x18000000⟩
  | .BGTZ => ⟨.BGTZ, 0xFC1F0000, 0x1C000000⟩
  | .BLTZ => ⟨.BLTZ, 0xFC1F0000, 0x04000000⟩
  | .BGEZ => ⟨.BGEZ, 0xFC1F0000, 0x04010000⟩
  | .BC1F => ⟨.BC1F, 0xFFFF0000, 0x45000000⟩
  | .BC1T => ⟨.BC1T, 0xFFFF0000, 0x45010000⟩
  | .J => ⟨.J, 0xFC000000, 0x08000000⟩
  | .JAL => ⟨.JAL, 0xFC000000, 0x0C000000⟩
  | .JR => ⟨.JR, 0xFC1FFFFF, 0x00000008⟩
  | .JALR => ⟨.JALR, 0xFC1F07FF, 0x00000009⟩
  | .ADD_D => ⟨.ADD_D, 0xFFE0003F, 0x46200000⟩
  | .SUB_D => ⟨.SUB_D, 0xFFE0003F, 0x46200001⟩
  | .MUL_D => ⟨.MUL_D, 0xFFE0003F, 0x46200002⟩
  | .DIV_D => ⟨.DIV_D, 0xFFE0003F, 0x46200003⟩
  | .MOV_D => ⟨.MOV_D, 0xFFFF003F, 0x46200006⟩
  | .CVT_D_L => ⟨.CVT_D_L, 0xFFFF003F, 0x46A00021⟩
  | .CVT_L_D => ⟨.CVT_L_D, 0xFFFF003F, 0x46200025⟩
  | .C_EQ_D => ⟨.C_EQ_D, 0xFFE007FF, 0x46200032⟩
  | .C_LT_D => ⟨.C_LT_D, 0xFFE007FF, 0x4620003C⟩
  | .DMFC1 => ⟨.DMFC1, 0xFFE007FF, 0x44200000⟩
  | .DMTC1 => ⟨.DMTC1, 0xFFE007FF, 0x44A00000⟩
  | .SYSCALL => ⟨.SYSCALL, 0xFC00003F, 0x0000000C⟩
  | .BREAK => ⟨.BREAK, 0xFC00003F, 0x0000000D⟩

/-- Rows 1 to 15 of the table, in its order. -/
def mnemonics1 : List Mnemonic :=
  [.NOP, .ADD, .ADDU, .SUB, .SUBU, .DADD, .DADDU, .DSUB, .DSUBU, .ADDI, .ADDIU, .DADDI, .DADDIU, .SLT, .SLTU]

/-- Rows 16 to 30 of the table, in its order. -/
def mnemonics2 : List Mnemonic :=
  [.SLTI, .SLTIU, .MULT, .MULTU, .DMULT, .DMULTU, .DIV, .DIVU, .DDIV, .DDIVU, .MFHI, .MFLO, .AND, .OR, .XOR]

/-- Rows 31 to 45 of the table, in its order. -/
def mnemonics3 : List Mnemonic :=
  [.NOR, .ANDI, .ORI, .XORI, .LUI, .MOVZ, .MOVN, .SLL, .SRL, .SRA, .SLLV, .SRLV, .SRAV, .DSLL, .DSRL]

/-- Rows 46 to 60 of the table, in its order. -/
def mnemonics4 : List Mnemonic :=
  [.DSRA, .DSLL32, .DSRL32, .DSRA32, .DSLLV, .DSRLV, .DSRAV, .LB, .LBU, .LH, .LHU, .LW, .LWU, .LD, .LDC1]

/-- Rows 61 to 75 of the table, in its order. -/
def mnemonics5 : List Mnemonic :=
  [.SB, .SH, .SW, .SD, .SDC1, .BEQ, .BNE, .BLEZ, .BGTZ, .BLTZ, .BGEZ, .BC1F, .BC1T, .J, .JAL]

/-- Rows 76 to 90 of the table, in its order. -/
def mnemonics6 : List Mnemonic :=
  [.JR, .JALR, .ADD_D, .SUB_D, .MUL_D, .DIV_D, .MOV_D, .CVT_D_L, .CVT_L_D, .C_EQ_D, .C_LT_D, .DMFC1, .DMTC1, .SYSCALL, .BREAK]

/-- Every mnemonic, in the order of the opcode table: NOP stands before SLL (R111). -/
def allMnemonics : List Mnemonic :=
  mnemonics1 ++ mnemonics2 ++ mnemonics3 ++ mnemonics4 ++ mnemonics5 ++ mnemonics6

/-- The opcode table in its order. -/
def opcodeTable : List OpcodeRow := allMnemonics.map opcodeRow

/-! ## Fields (R105) -/

/-- `len` bits of a word from bit `lo` up. -/
def field (w : Word32) (lo len : Nat) : BitVec len := w.extractLsb' lo len

/-- Bits 25:21: `rs`. -/
def rsField (w : Word32) : RegNum := field w 21 5

/-- Bits 20:16: `rt`, or `ft` of the FR format and of LDC1 and SDC1. -/
def rtField (w : Word32) : RegNum := field w 16 5

/-- Bits 15:11: `rd`, or `fs` of the FR and FMV formats. -/
def rdField (w : Word32) : RegNum := field w 11 5

/-- Bits 10:6: `sa`, or `fd` of the FR format. -/
def saField (w : Word32) : BitVec 5 := field w 6 5

/-- Bits 15:0: `imm`. -/
def immField (w : Word32) : BitVec 16 := field w 0 16

/-- Bits 25:0: `index`. -/
def indexField (w : Word32) : BitVec 26 := field w 0 26

/-- Bits 25:6: `code`. -/
def codeField (w : Word32) : BitVec 20 := field w 6 20

/-- The instruction of a row, its fields extracted by the row's format (R105, R111). -/
def buildInstr (m : Mnemonic) (w : Word32) : Instr :=
  match m with
  | .NOP => .nop
  | .ADD => .add (rdField w) (rsField w) (rtField w)
  | .ADDU => .addu (rdField w) (rsField w) (rtField w)
  | .SUB => .sub (rdField w) (rsField w) (rtField w)
  | .SUBU => .subu (rdField w) (rsField w) (rtField w)
  | .DADD => .dadd (rdField w) (rsField w) (rtField w)
  | .DADDU => .daddu (rdField w) (rsField w) (rtField w)
  | .DSUB => .dsub (rdField w) (rsField w) (rtField w)
  | .DSUBU => .dsubu (rdField w) (rsField w) (rtField w)
  | .ADDI => .addi (rtField w) (rsField w) (immField w)
  | .ADDIU => .addiu (rtField w) (rsField w) (immField w)
  | .DADDI => .daddi (rtField w) (rsField w) (immField w)
  | .DADDIU => .daddiu (rtField w) (rsField w) (immField w)
  | .SLT => .slt (rdField w) (rsField w) (rtField w)
  | .SLTU => .sltu (rdField w) (rsField w) (rtField w)
  | .SLTI => .slti (rtField w) (rsField w) (immField w)
  | .SLTIU => .sltiu (rtField w) (rsField w) (immField w)
  | .MULT => .mult (rsField w) (rtField w)
  | .MULTU => .multu (rsField w) (rtField w)
  | .DMULT => .dmult (rsField w) (rtField w)
  | .DMULTU => .dmultu (rsField w) (rtField w)
  | .DIV => .div (rsField w) (rtField w)
  | .DIVU => .divu (rsField w) (rtField w)
  | .DDIV => .ddiv (rsField w) (rtField w)
  | .DDIVU => .ddivu (rsField w) (rtField w)
  | .MFHI => .mfhi (rdField w)
  | .MFLO => .mflo (rdField w)
  | .AND => .and (rdField w) (rsField w) (rtField w)
  | .OR => .or (rdField w) (rsField w) (rtField w)
  | .XOR => .xor (rdField w) (rsField w) (rtField w)
  | .NOR => .nor (rdField w) (rsField w) (rtField w)
  | .ANDI => .andi (rtField w) (rsField w) (immField w)
  | .ORI => .ori (rtField w) (rsField w) (immField w)
  | .XORI => .xori (rtField w) (rsField w) (immField w)
  | .LUI => .lui (rtField w) (immField w)
  | .MOVZ => .movz (rdField w) (rsField w) (rtField w)
  | .MOVN => .movn (rdField w) (rsField w) (rtField w)
  | .SLL => .sll (rdField w) (rtField w) (saField w)
  | .SRL => .srl (rdField w) (rtField w) (saField w)
  | .SRA => .sra (rdField w) (rtField w) (saField w)
  | .SLLV => .sllv (rdField w) (rtField w) (rsField w)
  | .SRLV => .srlv (rdField w) (rtField w) (rsField w)
  | .SRAV => .srav (rdField w) (rtField w) (rsField w)
  | .DSLL => .dsll (rdField w) (rtField w) (saField w)
  | .DSRL => .dsrl (rdField w) (rtField w) (saField w)
  | .DSRA => .dsra (rdField w) (rtField w) (saField w)
  | .DSLL32 => .dsll32 (rdField w) (rtField w) (saField w)
  | .DSRL32 => .dsrl32 (rdField w) (rtField w) (saField w)
  | .DSRA32 => .dsra32 (rdField w) (rtField w) (saField w)
  | .DSLLV => .dsllv (rdField w) (rtField w) (rsField w)
  | .DSRLV => .dsrlv (rdField w) (rtField w) (rsField w)
  | .DSRAV => .dsrav (rdField w) (rtField w) (rsField w)
  | .LB => .lb (rtField w) (rsField w) (immField w)
  | .LBU => .lbu (rtField w) (rsField w) (immField w)
  | .LH => .lh (rtField w) (rsField w) (immField w)
  | .LHU => .lhu (rtField w) (rsField w) (immField w)
  | .LW => .lw (rtField w) (rsField w) (immField w)
  | .LWU => .lwu (rtField w) (rsField w) (immField w)
  | .LD => .ld (rtField w) (rsField w) (immField w)
  | .LDC1 => .ldc1 (rtField w) (rsField w) (immField w)
  | .SB => .sb (rtField w) (rsField w) (immField w)
  | .SH => .sh (rtField w) (rsField w) (immField w)
  | .SW => .sw (rtField w) (rsField w) (immField w)
  | .SD => .sd (rtField w) (rsField w) (immField w)
  | .SDC1 => .sdc1 (rtField w) (rsField w) (immField w)
  | .BEQ => .beq (rsField w) (rtField w) (immField w)
  | .BNE => .bne (rsField w) (rtField w) (immField w)
  | .BLEZ => .blez (rsField w) (immField w)
  | .BGTZ => .bgtz (rsField w) (immField w)
  | .BLTZ => .bltz (rsField w) (immField w)
  | .BGEZ => .bgez (rsField w) (immField w)
  | .BC1F => .bc1f (immField w)
  | .BC1T => .bc1t (immField w)
  | .J => .j (indexField w)
  | .JAL => .jal (indexField w)
  | .JR => .jr (rsField w)
  | .JALR => .jalr (rdField w) (rsField w)
  | .ADD_D => .addD (saField w) (rdField w) (rtField w)
  | .SUB_D => .subD (saField w) (rdField w) (rtField w)
  | .MUL_D => .mulD (saField w) (rdField w) (rtField w)
  | .DIV_D => .divD (saField w) (rdField w) (rtField w)
  | .MOV_D => .movD (saField w) (rdField w)
  | .CVT_D_L => .cvtDL (saField w) (rdField w)
  | .CVT_L_D => .cvtLD (saField w) (rdField w)
  | .C_EQ_D => .cEqD (rdField w) (rtField w)
  | .C_LT_D => .cLtD (rdField w) (rtField w)
  | .DMFC1 => .dmfc1 (rtField w) (rdField w)
  | .DMTC1 => .dmtc1 (rtField w) (rdField w)
  | .SYSCALL => .syscall (codeField w)
  | .BREAK => .brk (codeField w)

/-- The decoder (R101, R111): pure, stateless and total. -/
def decodeWord (w : Word32) : Except DecodeFault Instr :=
  match opcodeTable.find? (fun r => w &&& r.mask == r.pattern) with
  | some r => .ok (buildInstr r.mnemonic w)
  | none => .error .invalidInstruction

/-- The instruction the decoder reads from a word given as its `nbits` low bits (every bit above them is 0). -/
def decodeTableWord (nbits w : Nat) : Option Instr :=
  match decodeWord (BitVec.ofNat 32 (w % 2 ^ nbits)) with
  | .ok i => some i
  | .error _ => none

/-! ## The mnemonic, kind and latency class of an instruction (R103) -/

/-- The mnemonic of an instruction: its row of the opcode table. -/
def Instr.mnemonic : Instr → Mnemonic
  | .nop => .NOP
  | .add _ _ _ => .ADD
  | .addu _ _ _ => .ADDU
  | .sub _ _ _ => .SUB
  | .subu _ _ _ => .SUBU
  | .dadd _ _ _ => .DADD
  | .daddu _ _ _ => .DADDU
  | .dsub _ _ _ => .DSUB
  | .dsubu _ _ _ => .DSUBU
  | .addi _ _ _ => .ADDI
  | .addiu _ _ _ => .ADDIU
  | .daddi _ _ _ => .DADDI
  | .daddiu _ _ _ => .DADDIU
  | .slt _ _ _ => .SLT
  | .sltu _ _ _ => .SLTU
  | .slti _ _ _ => .SLTI
  | .sltiu _ _ _ => .SLTIU
  | .mult _ _ => .MULT
  | .multu _ _ => .MULTU
  | .dmult _ _ => .DMULT
  | .dmultu _ _ => .DMULTU
  | .div _ _ => .DIV
  | .divu _ _ => .DIVU
  | .ddiv _ _ => .DDIV
  | .ddivu _ _ => .DDIVU
  | .mfhi _ => .MFHI
  | .mflo _ => .MFLO
  | .and _ _ _ => .AND
  | .or _ _ _ => .OR
  | .xor _ _ _ => .XOR
  | .nor _ _ _ => .NOR
  | .andi _ _ _ => .ANDI
  | .ori _ _ _ => .ORI
  | .xori _ _ _ => .XORI
  | .lui _ _ => .LUI
  | .movz _ _ _ => .MOVZ
  | .movn _ _ _ => .MOVN
  | .sll _ _ _ => .SLL
  | .srl _ _ _ => .SRL
  | .sra _ _ _ => .SRA
  | .sllv _ _ _ => .SLLV
  | .srlv _ _ _ => .SRLV
  | .srav _ _ _ => .SRAV
  | .dsll _ _ _ => .DSLL
  | .dsrl _ _ _ => .DSRL
  | .dsra _ _ _ => .DSRA
  | .dsll32 _ _ _ => .DSLL32
  | .dsrl32 _ _ _ => .DSRL32
  | .dsra32 _ _ _ => .DSRA32
  | .dsllv _ _ _ => .DSLLV
  | .dsrlv _ _ _ => .DSRLV
  | .dsrav _ _ _ => .DSRAV
  | .lb _ _ _ => .LB
  | .lbu _ _ _ => .LBU
  | .lh _ _ _ => .LH
  | .lhu _ _ _ => .LHU
  | .lw _ _ _ => .LW
  | .lwu _ _ _ => .LWU
  | .ld _ _ _ => .LD
  | .ldc1 _ _ _ => .LDC1
  | .sb _ _ _ => .SB
  | .sh _ _ _ => .SH
  | .sw _ _ _ => .SW
  | .sd _ _ _ => .SD
  | .sdc1 _ _ _ => .SDC1
  | .beq _ _ _ => .BEQ
  | .bne _ _ _ => .BNE
  | .blez _ _ => .BLEZ
  | .bgtz _ _ => .BGTZ
  | .bltz _ _ => .BLTZ
  | .bgez _ _ => .BGEZ
  | .bc1f _ => .BC1F
  | .bc1t _ => .BC1T
  | .j _ => .J
  | .jal _ => .JAL
  | .jr _ => .JR
  | .jalr _ _ => .JALR
  | .addD _ _ _ => .ADD_D
  | .subD _ _ _ => .SUB_D
  | .mulD _ _ _ => .MUL_D
  | .divD _ _ _ => .DIV_D
  | .movD _ _ => .MOV_D
  | .cvtDL _ _ => .CVT_D_L
  | .cvtLD _ _ => .CVT_L_D
  | .cEqD _ _ => .C_EQ_D
  | .cLtD _ _ => .C_LT_D
  | .dmfc1 _ _ => .DMFC1
  | .dmtc1 _ _ => .DMTC1
  | .syscall _ => .SYSCALL
  | .brk _ => .BREAK

/-- The operation kind of a row (R103). -/
def Mnemonic.kind : Mnemonic → Kind
  | .NOP => .noOp
  | .ADD | .ADDU | .SUB | .SUBU | .DADD | .DADDU | .DSUB | .DSUBU | .ADDI | .ADDIU | .DADDI | .DADDIU | .SLT
  | .SLTU | .SLTI | .SLTIU | .MULT | .MULTU | .DMULT | .DMULTU | .DIV | .DIVU | .DDIV | .DDIVU | .MFHI
  | .MFLO => .integerArithmetic
  | .AND | .OR | .XOR | .NOR | .ANDI | .ORI | .XORI | .LUI | .MOVZ | .MOVN => .logical
  | .SLL | .SRL | .SRA | .SLLV | .SRLV | .SRAV | .DSLL | .DSRL | .DSRA | .DSLL32 | .DSRL32 | .DSRA32 | .DSLLV
  | .DSRLV | .DSRAV => .shift
  | .LB | .LBU | .LH | .LHU | .LW | .LWU | .LD | .LDC1 => .load
  | .SB | .SH | .SW | .SD | .SDC1 => .store
  | .BEQ | .BNE | .BLEZ | .BGTZ | .BLTZ | .BGEZ | .BC1F | .BC1T => .branch
  | .J | .JAL | .JR | .JALR => .jump
  | .ADD_D | .SUB_D | .MUL_D | .DIV_D | .MOV_D | .CVT_D_L | .CVT_L_D | .C_EQ_D | .C_LT_D | .DMFC1 | .DMTC1 => .floatingPoint
  | .SYSCALL => .systemCall
  | .BREAK => .trap

/-- The latency class of a row (R103, decision D25). -/
def Mnemonic.latencyClass : Mnemonic → LatencyClass
  | .NOP | .ADD | .ADDU | .SUB | .SUBU | .DADD | .DADDU | .DSUB | .DSUBU | .ADDI | .ADDIU | .DADDI | .DADDIU
  | .SLT | .SLTU | .SLTI | .SLTIU | .MFHI | .MFLO | .AND | .OR | .XOR | .NOR | .ANDI | .ORI | .XORI | .LUI
  | .MOVZ | .MOVN | .SLL | .SRL | .SRA | .SLLV | .SRLV | .SRAV | .DSLL | .DSRL | .DSRA | .DSLL32 | .DSRL32
  | .DSRA32 | .DSLLV | .DSRLV | .DSRAV => .intALU
  | .MULT | .MULTU | .DMULT | .DMULTU => .intMul
  | .DIV | .DIVU | .DDIV | .DDIVU => .intDiv
  | .LB | .LBU | .LH | .LHU | .LW | .LWU | .LD | .LDC1 | .SB | .SH | .SW | .SD | .SDC1 => .mem
  | .BEQ | .BNE | .BLEZ | .BGTZ | .BLTZ | .BGEZ | .BC1F | .BC1T | .J | .JAL | .JR | .JALR => .branch
  | .ADD_D | .SUB_D | .MOV_D | .CVT_D_L | .CVT_L_D | .C_EQ_D | .C_LT_D | .DMFC1 | .DMTC1 => .fpAdd
  | .MUL_D => .fpMul
  | .DIV_D => .fpDiv
  | .SYSCALL | .BREAK => .other

/-- The operation kind of an instruction (R100 `kind`). -/
def Instr.kind (i : Instr) : Kind := i.mnemonic.kind

/-- The latency class of an instruction (R100 `lat`). -/
def Instr.latencyClass (i : Instr) : LatencyClass := i.mnemonic.latencyClass

/-- The source registers, in the order of R103's table; they are what the hazard unit resolves (R170). -/
def Instr.srcs : Instr → List RegId
  | .add _ rs rt | .addu _ rs rt | .sub _ rs rt | .subu _ rs rt | .dadd _ rs rt | .daddu _ rs rt
  | .dsub _ rs rt | .dsubu _ rs rt | .slt _ rs rt | .sltu _ rs rt | .and _ rs rt | .or _ rs rt | .xor _ rs rt
  | .nor _ rs rt | .mult rs rt | .multu rs rt | .dmult rs rt | .dmultu rs rt | .div rs rt | .divu rs rt
  | .ddiv rs rt | .ddivu rs rt | .sllv _ rt rs | .srlv _ rt rs | .srav _ rt rs | .dsllv _ rt rs
  | .dsrlv _ rt rs | .dsrav _ rt rs | .sb rt rs _ | .sh rt rs _ | .sw rt rs _ | .sd rt rs _ | .beq rs rt _
  | .bne rs rt _ => [.gpr rs, .gpr rt]
  | .movz rd rs rt | .movn rd rs rt => [.gpr rs, .gpr rt, .gpr rd]
  | .addi _ rs _ | .addiu _ rs _ | .daddi _ rs _ | .daddiu _ rs _ | .slti _ rs _ | .sltiu _ rs _
  | .andi _ rs _ | .ori _ rs _ | .xori _ rs _ | .lb _ rs _ | .lbu _ rs _ | .lh _ rs _ | .lhu _ rs _
  | .lw _ rs _ | .lwu _ rs _ | .ld _ rs _ | .ldc1 _ rs _ | .blez rs _ | .bgtz rs _ | .bltz rs _ | .bgez rs _
  | .jr rs | .jalr _ rs => [.gpr rs]
  | .sll _ rt _ | .srl _ rt _ | .sra _ rt _ | .dsll _ rt _ | .dsrl _ rt _ | .dsra _ rt _ | .dsll32 _ rt _
  | .dsrl32 _ rt _ | .dsra32 _ rt _ => [.gpr rt]
  | .dmtc1 rt _ => [.gpr rt]
  | .sdc1 ft rs _ => [.gpr rs, .fpr ft]
  | .mfhi _ => [.hi]
  | .mflo _ => [.lo]
  | .bc1f _ | .bc1t _ => [.fcc]
  | .addD _ fs ft | .subD _ fs ft | .mulD _ fs ft | .divD _ fs ft | .cEqD fs ft | .cLtD fs ft => [.fpr fs, .fpr ft]
  | .movD _ fs | .cvtDL _ fs | .cvtLD _ fs | .dmfc1 _ fs => [.fpr fs]
  | .nop | .lui _ _ | .j _ | .jal _ | .syscall _ | .brk _ => []

/-- An integer destination: `r0` is never one (R103, R175). -/
def gprDst (r : RegNum) : List RegId := if r = 0 then [] else [.gpr r]

/-- The destination registers, `GPR(0)` removed (R103, R175). JAL writes `r31` implicitly (R33). -/
def Instr.dsts : Instr → List RegId
  | .add rd _ _ | .addu rd _ _ | .sub rd _ _ | .subu rd _ _ | .dadd rd _ _ | .daddu rd _ _ | .dsub rd _ _
  | .dsubu rd _ _ | .slt rd _ _ | .sltu rd _ _ | .and rd _ _ | .or rd _ _ | .xor rd _ _ | .nor rd _ _
  | .movz rd _ _ | .movn rd _ _ | .mfhi rd | .mflo rd | .sll rd _ _ | .srl rd _ _ | .sra rd _ _
  | .dsll rd _ _ | .dsrl rd _ _ | .dsra rd _ _ | .dsll32 rd _ _ | .dsrl32 rd _ _ | .dsra32 rd _ _
  | .sllv rd _ _ | .srlv rd _ _ | .srav rd _ _ | .dsllv rd _ _ | .dsrlv rd _ _ | .dsrav rd _ _ | .jalr rd _ => gprDst rd
  | .addi rt _ _ | .addiu rt _ _ | .daddi rt _ _ | .daddiu rt _ _ | .slti rt _ _ | .sltiu rt _ _
  | .andi rt _ _ | .ori rt _ _ | .xori rt _ _ | .lui rt _ | .lb rt _ _ | .lbu rt _ _ | .lh rt _ _
  | .lhu rt _ _ | .lw rt _ _ | .lwu rt _ _ | .ld rt _ _ | .dmfc1 rt _ => gprDst rt
  | .mult _ _ | .multu _ _ | .dmult _ _ | .dmultu _ _ | .div _ _ | .divu _ _ | .ddiv _ _ | .ddivu _ _ => [.hi, .lo]
  | .ldc1 ft _ _ => [.fpr ft]
  | .addD fd _ _ | .subD fd _ _ | .mulD fd _ _ | .divD fd _ _ | .movD fd _ | .cvtDL fd _ | .cvtLD fd _ => [.fpr fd]
  | .dmtc1 _ fs => [.fpr fs]
  | .cEqD _ _ | .cLtD _ _ => [.fcc]
  | .jal _ => gprDst 31
  | .nop | .sb _ _ _ | .sh _ _ _ | .sw _ _ _ | .sd _ _ _ | .sdc1 _ _ _ | .beq _ _ _ | .bne _ _ _ | .blez _ _
  | .bgtz _ _ | .bltz _ _ | .bgez _ _ | .bc1f _ | .bc1t _ | .j _ | .jr _ | .syscall _ | .brk _ => []

/-! ## The decoded fields (R100) -/

/-- The fields of R100's record as decoded, 0 when the instruction has none of that name. -/
structure DecodedFields where
  rs    : RegNum    := 0
  rt    : RegNum    := 0
  rd    : RegNum    := 0
  sa    : BitVec 5  := 0
  fs    : RegNum    := 0
  ft    : RegNum    := 0
  fd    : RegNum    := 0
  imm   : BitVec 16 := 0
  index : BitVec 26 := 0
  code  : BitVec 20 := 0
  deriving DecidableEq, Repr

/-- The decoded fields of an instruction (R100). DESIGN CHOICE (notes/assumptions/17.md): the sub-opcode that stands in the rt
bits of BLTZ and BGEZ (R105) is no field of theirs, so `rt` is absent, and 0, for both; and the register of LDC1 and SDC1
that stands in the rt bits and is written `ft` (R102, R330, R335) is their field `ft`, so `rt` is absent, and 0, there. -/
def Instr.fields : Instr → DecodedFields
  | .nop => {}
  | .add rd rs rt | .addu rd rs rt | .sub rd rs rt | .subu rd rs rt | .dadd rd rs rt | .daddu rd rs rt
  | .dsub rd rs rt | .dsubu rd rs rt | .slt rd rs rt | .sltu rd rs rt | .and rd rs rt | .or rd rs rt
  | .xor rd rs rt | .nor rd rs rt | .movz rd rs rt | .movn rd rs rt | .sllv rd rt rs | .srlv rd rt rs
  | .srav rd rt rs | .dsllv rd rt rs | .dsrlv rd rt rs | .dsrav rd rt rs => { rd := rd, rs := rs, rt := rt }
  | .addi rt rs imm | .addiu rt rs imm | .daddi rt rs imm | .daddiu rt rs imm | .slti rt rs imm
  | .sltiu rt rs imm | .andi rt rs imm | .ori rt rs imm | .xori rt rs imm | .lb rt rs imm | .lbu rt rs imm
  | .lh rt rs imm | .lhu rt rs imm | .lw rt rs imm | .lwu rt rs imm | .ld rt rs imm | .sb rt rs imm
  | .sh rt rs imm | .sw rt rs imm | .sd rt rs imm | .beq rs rt imm | .bne rs rt imm => { imm := imm, rs := rs, rt := rt }
  | .mult rs rt | .multu rs rt | .dmult rs rt | .dmultu rs rt | .div rs rt | .divu rs rt | .ddiv rs rt
  | .ddivu rs rt => { rs := rs, rt := rt }
  | .mfhi rd | .mflo rd => { rd := rd }
  | .lui rt imm => { imm := imm, rt := rt }
  | .sll rd rt sa | .srl rd rt sa | .sra rd rt sa | .dsll rd rt sa | .dsrl rd rt sa | .dsra rd rt sa
  | .dsll32 rd rt sa | .dsrl32 rd rt sa | .dsra32 rd rt sa => { rd := rd, rt := rt, sa := sa }
  | .ldc1 ft rs imm | .sdc1 ft rs imm => { ft := ft, imm := imm, rs := rs }
  | .blez rs imm | .bgtz rs imm | .bltz rs imm | .bgez rs imm => { imm := imm, rs := rs }
  | .bc1f imm | .bc1t imm => { imm := imm }
  | .j index | .jal index => { index := index }
  | .jr rs => { rs := rs }
  | .jalr rd rs => { rd := rd, rs := rs }
  | .addD fd fs ft | .subD fd fs ft | .mulD fd fs ft | .divD fd fs ft => { fd := fd, fs := fs, ft := ft }
  | .movD fd fs | .cvtDL fd fs | .cvtLD fd fs => { fd := fd, fs := fs }
  | .cEqD fs ft | .cLtD fs ft => { fs := fs, ft := ft }
  | .dmfc1 rt fs | .dmtc1 rt fs => { fs := fs, rt := rt }
  | .syscall code | .brk code => { code := code }

/-! ## Static targets (R106, R351) -/

/-- The target of a conditional branch at `pc`: `pc + 4 + (sext_64(imm) << 2)` modulo 2^64. -/
def branchTarget (pc : Word) (imm : BitVec 16) : Word := pc + 4 + (imm.signExtend 64 <<< 2)

/-- The target of J and JAL at `pc`: `(pc + 4)[63:28] ++ index ++ 0b00`. -/
def jumpTarget (pc : Word) (index : BitVec 26) : Word :=
  (pc + 4).extractLsb' 28 36 ++ (index ++ (0 : BitVec 2))

/-- The static target the decoder computes, where the instruction has one (R100 `target`, R106). -/
def Instr.target (pc : Word) : Instr → Option Word
  | .beq _ _ imm | .bne _ _ imm | .blez _ imm | .bgtz _ imm | .bltz _ imm | .bgez _ imm | .bc1f imm
  | .bc1t imm => some (branchTarget pc imm)
  | .j index | .jal index => some (jumpTarget pc index)
  | .nop | .add _ _ _ | .addu _ _ _ | .sub _ _ _ | .subu _ _ _ | .dadd _ _ _ | .daddu _ _ _ | .dsub _ _ _
  | .dsubu _ _ _ | .addi _ _ _ | .addiu _ _ _ | .daddi _ _ _ | .daddiu _ _ _ | .slt _ _ _ | .sltu _ _ _
  | .slti _ _ _ | .sltiu _ _ _ | .mult _ _ | .multu _ _ | .dmult _ _ | .dmultu _ _ | .div _ _ | .divu _ _
  | .ddiv _ _ | .ddivu _ _ | .mfhi _ | .mflo _ | .and _ _ _ | .or _ _ _ | .xor _ _ _ | .nor _ _ _
  | .andi _ _ _ | .ori _ _ _ | .xori _ _ _ | .lui _ _ | .movz _ _ _ | .movn _ _ _ | .sll _ _ _ | .srl _ _ _
  | .sra _ _ _ | .sllv _ _ _ | .srlv _ _ _ | .srav _ _ _ | .dsll _ _ _ | .dsrl _ _ _ | .dsra _ _ _
  | .dsll32 _ _ _ | .dsrl32 _ _ _ | .dsra32 _ _ _ | .dsllv _ _ _ | .dsrlv _ _ _ | .dsrav _ _ _ | .lb _ _ _
  | .lbu _ _ _ | .lh _ _ _ | .lhu _ _ _ | .lw _ _ _ | .lwu _ _ _ | .ld _ _ _ | .ldc1 _ _ _ | .sb _ _ _
  | .sh _ _ _ | .sw _ _ _ | .sd _ _ _ | .sdc1 _ _ _ | .jr _ | .jalr _ _ | .addD _ _ _ | .subD _ _ _
  | .mulD _ _ _ | .divD _ _ _ | .movD _ _ | .cvtDL _ _ | .cvtLD _ _ | .cEqD _ _ | .cLtD _ _ | .dmfc1 _ _
  | .dmtc1 _ _ | .syscall _ | .brk _ => none

/-! ## The encoder, written from the same formats (R105) -/

/-- A field put at bit `lo` of a word. -/
def place {n : Nat} (v : BitVec n) (lo : Nat) : Word32 := v.setWidth 32 <<< lo

/-- R format (and FR with `rt`, `rd`, `sa` standing for `ft`, `fs`, `fd`, and FMV). -/
def encodeR (m : Mnemonic) (rs rt rd : RegNum) (sa : BitVec 5) : Word32 :=
  (opcodeRow m).pattern ||| place rs 21 ||| place rt 16 ||| place rd 11 ||| place sa 6

/-- I format (and REGIMM, and FB with `rs` and `rt` zero). -/
def encodeI (m : Mnemonic) (rs rt : RegNum) (imm : BitVec 16) : Word32 :=
  (opcodeRow m).pattern ||| place rs 21 ||| place rt 16 ||| place imm 0

/-- J format. -/
def encodeJ (m : Mnemonic) (index : BitVec 26) : Word32 := (opcodeRow m).pattern ||| place index 0

/-- SYS format. -/
def encodeSys (m : Mnemonic) (code : BitVec 20) : Word32 := (opcodeRow m).pattern ||| place code 6

/-- The word of an instruction. -/
def encode : Instr → Word32
  | .nop => encodeR .NOP 0 0 0 0
  | .add rd rs rt => encodeR .ADD rs rt rd 0
  | .addu rd rs rt => encodeR .ADDU rs rt rd 0
  | .sub rd rs rt => encodeR .SUB rs rt rd 0
  | .subu rd rs rt => encodeR .SUBU rs rt rd 0
  | .dadd rd rs rt => encodeR .DADD rs rt rd 0
  | .daddu rd rs rt => encodeR .DADDU rs rt rd 0
  | .dsub rd rs rt => encodeR .DSUB rs rt rd 0
  | .dsubu rd rs rt => encodeR .DSUBU rs rt rd 0
  | .addi rt rs imm => encodeI .ADDI rs rt imm
  | .addiu rt rs imm => encodeI .ADDIU rs rt imm
  | .daddi rt rs imm => encodeI .DADDI rs rt imm
  | .daddiu rt rs imm => encodeI .DADDIU rs rt imm
  | .slt rd rs rt => encodeR .SLT rs rt rd 0
  | .sltu rd rs rt => encodeR .SLTU rs rt rd 0
  | .slti rt rs imm => encodeI .SLTI rs rt imm
  | .sltiu rt rs imm => encodeI .SLTIU rs rt imm
  | .mult rs rt => encodeR .MULT rs rt 0 0
  | .multu rs rt => encodeR .MULTU rs rt 0 0
  | .dmult rs rt => encodeR .DMULT rs rt 0 0
  | .dmultu rs rt => encodeR .DMULTU rs rt 0 0
  | .div rs rt => encodeR .DIV rs rt 0 0
  | .divu rs rt => encodeR .DIVU rs rt 0 0
  | .ddiv rs rt => encodeR .DDIV rs rt 0 0
  | .ddivu rs rt => encodeR .DDIVU rs rt 0 0
  | .mfhi rd => encodeR .MFHI 0 0 rd 0
  | .mflo rd => encodeR .MFLO 0 0 rd 0
  | .and rd rs rt => encodeR .AND rs rt rd 0
  | .or rd rs rt => encodeR .OR rs rt rd 0
  | .xor rd rs rt => encodeR .XOR rs rt rd 0
  | .nor rd rs rt => encodeR .NOR rs rt rd 0
  | .andi rt rs imm => encodeI .ANDI rs rt imm
  | .ori rt rs imm => encodeI .ORI rs rt imm
  | .xori rt rs imm => encodeI .XORI rs rt imm
  | .lui rt imm => encodeI .LUI 0 rt imm
  | .movz rd rs rt => encodeR .MOVZ rs rt rd 0
  | .movn rd rs rt => encodeR .MOVN rs rt rd 0
  | .sll rd rt sa => encodeR .SLL 0 rt rd sa
  | .srl rd rt sa => encodeR .SRL 0 rt rd sa
  | .sra rd rt sa => encodeR .SRA 0 rt rd sa
  | .sllv rd rt rs => encodeR .SLLV rs rt rd 0
  | .srlv rd rt rs => encodeR .SRLV rs rt rd 0
  | .srav rd rt rs => encodeR .SRAV rs rt rd 0
  | .dsll rd rt sa => encodeR .DSLL 0 rt rd sa
  | .dsrl rd rt sa => encodeR .DSRL 0 rt rd sa
  | .dsra rd rt sa => encodeR .DSRA 0 rt rd sa
  | .dsll32 rd rt sa => encodeR .DSLL32 0 rt rd sa
  | .dsrl32 rd rt sa => encodeR .DSRL32 0 rt rd sa
  | .dsra32 rd rt sa => encodeR .DSRA32 0 rt rd sa
  | .dsllv rd rt rs => encodeR .DSLLV rs rt rd 0
  | .dsrlv rd rt rs => encodeR .DSRLV rs rt rd 0
  | .dsrav rd rt rs => encodeR .DSRAV rs rt rd 0
  | .lb rt rs imm => encodeI .LB rs rt imm
  | .lbu rt rs imm => encodeI .LBU rs rt imm
  | .lh rt rs imm => encodeI .LH rs rt imm
  | .lhu rt rs imm => encodeI .LHU rs rt imm
  | .lw rt rs imm => encodeI .LW rs rt imm
  | .lwu rt rs imm => encodeI .LWU rs rt imm
  | .ld rt rs imm => encodeI .LD rs rt imm
  | .ldc1 ft rs imm => encodeI .LDC1 rs ft imm
  | .sb rt rs imm => encodeI .SB rs rt imm
  | .sh rt rs imm => encodeI .SH rs rt imm
  | .sw rt rs imm => encodeI .SW rs rt imm
  | .sd rt rs imm => encodeI .SD rs rt imm
  | .sdc1 ft rs imm => encodeI .SDC1 rs ft imm
  | .beq rs rt imm => encodeI .BEQ rs rt imm
  | .bne rs rt imm => encodeI .BNE rs rt imm
  | .blez rs imm => encodeI .BLEZ rs 0 imm
  | .bgtz rs imm => encodeI .BGTZ rs 0 imm
  | .bltz rs imm => encodeI .BLTZ rs 0 imm
  | .bgez rs imm => encodeI .BGEZ rs 0 imm
  | .bc1f imm => encodeI .BC1F 0 0 imm
  | .bc1t imm => encodeI .BC1T 0 0 imm
  | .j index => encodeJ .J index
  | .jal index => encodeJ .JAL index
  | .jr rs => encodeR .JR rs 0 0 0
  | .jalr rd rs => encodeR .JALR rs 0 rd 0
  | .addD fd fs ft => encodeR .ADD_D 0 ft fs fd
  | .subD fd fs ft => encodeR .SUB_D 0 ft fs fd
  | .mulD fd fs ft => encodeR .MUL_D 0 ft fs fd
  | .divD fd fs ft => encodeR .DIV_D 0 ft fs fd
  | .movD fd fs => encodeR .MOV_D 0 0 fs fd
  | .cvtDL fd fs => encodeR .CVT_D_L 0 0 fs fd
  | .cvtLD fd fs => encodeR .CVT_L_D 0 0 fs fd
  | .cEqD fs ft => encodeR .C_EQ_D 0 ft fs 0
  | .cLtD fs ft => encodeR .C_LT_D 0 ft fs 0
  | .dmfc1 rt fs => encodeR .DMFC1 0 rt fs 0
  | .dmtc1 rt fs => encodeR .DMTC1 0 rt fs 0
  | .syscall code => encodeSys .SYSCALL code
  | .brk code => encodeSys .BREAK code

end Sys2Proof
end

