-- ==== Sys2Proof/Machine/Operands.lean ====
section
/-! DEFINITION. The operands of an instruction rule (00_scope.md R12, 30_encoding.md R106): the values the hazard unit
captured in the entry, the immediates, the effective address, the shift amounts and the register targets; and what an
entry's instruction says of its registers (R103). -/
namespace Sys2Proof.Machine

/-- The value a list of register values gives for `r`, where it has one. -/
def valueOf (r : RegId) : List (RegId × Word) → Option Word
  | [] => none
  | (q, v) :: rest => if q = r then some v else valueOf r rest

/-- The operand value delivered for `r` (R12, R170): `x[0]` reads as 0. -/
def Entry.op (e : Entry) (r : RegId) : Word := if r = .gpr 0 then 0 else (valueOf r e.ops).getD 0

/-- `x[r]` in an instruction rule (R12). -/
def Entry.x (e : Entry) (r : RegNum) : Word := e.op (.gpr r)

/-- `f[r]` in an instruction rule (R12). -/
def Entry.f (e : Entry) (r : RegNum) : Word := e.op (.fpr r)

/-- `FCC` in an instruction rule: bit 0 of the delivered value (R160). -/
def Entry.fcc (e : Entry) : Bool := (e.op .fcc).getLsbD 0

/-- The fetch address of an entry (R38): the instruction's `pc`, or the token's address (R433). -/
def Entry.pc (e : Entry) : Word :=
  match e.inst with
  | .instr i => i.pc
  | .faultToken _ a => a

/-- The sources of an entry (R103); a fault token has none (R433). -/
def Entry.srcs (e : Entry) : List RegId :=
  match e.inst with
  | .instr i => i.op.srcs
  | .faultToken _ _ => []

/-- The destinations of an entry (R103); a fault token has none (R433). -/
def Entry.dsts (e : Entry) : List RegId :=
  match e.inst with
  | .instr i => i.op.dsts
  | .faultToken _ _ => []

/-- Whether the entry's instruction is of the kind load (R170). -/
def Entry.isLoad (e : Entry) : Bool :=
  match e.inst with
  | .instr i => i.op.kind == .load
  | .faultToken _ _ => false

/-- The call number of a SYSCALL entry: `zext(code)` (R106, R410). -/
def Entry.callNumber (e : Entry) : Nat :=
  match e.inst with
  | .instr i => i.op.fields.code.toNat
  | .faultToken _ _ => 0

/-- The effective address of a load or store (R320): `x[rs] + sext_64(imm)` modulo 2^64. -/
def Entry.effectiveAddress (e : Entry) (rs : RegNum) (imm : BitVec 16) : Word := e.x rs + sextImm imm

/-- The link value of JAL and JALR (R352): `pc + 4`. -/
def Entry.link (e : Entry) : Word := e.pc + 4

/-- The amount of a word shift by register: `x[rs][4:0]` (R106). -/
def Entry.amount5 (e : Entry) (rs : RegNum) : Nat := ((e.x rs).extractLsb' 0 5).toNat

/-- The amount of a doubleword shift by register: `x[rs][5:0]` (R106). -/
def Entry.amount6 (e : Entry) (rs : RegNum) : Nat := ((e.x rs).extractLsb' 0 6).toNat

end Sys2Proof.Machine
end

