-- ==== Sys2Proof/Machine/Ops.lean ====
section
/-! DEFINITION. The named operations over registers, markers, slots and the controller, taking an exception, and the effect
of each stage on the entry it holds (40_pipeline.md R160 to R176, 60_exceptions.md R441). A meaning of an instruction is
one call of `runStage` with its execution unit and its memory access: the stage whose turn it is performs its part of the
instruction on the entry in its slot. There is no return from an exception: nothing is saved, and a handler goes on by
ordinary control transfers (R444, decision D18). -/
namespace Sys2Proof.Machine

/-! ## Registers (10_state.md R31 to R36) -/

/-- The element of a 32-entry file a register number names. -/
def regGet {α : Type} (v : Vector α 32) (i : RegNum) : α := v[i.toNat]'i.isLt

/-- A 32-entry file with one element replaced. -/
def regSet {α : Type} (v : Vector α 32) (i : RegNum) (a : α) : Vector α 32 := v.set i.toNat a i.isLt

/-- `RF[r]`: the register file's value, `x[0]` always 0 (R32). -/
def State.readReg (s : State) : RegId → Word
  | .gpr i => if i = 0 then 0 else regGet s.x i
  | .fpr i => regGet s.f i
  | .hi => s.HI
  | .lo => s.LO
  | .fcc => boolWord s.FCC

/-- A register write: a write to `x[0]` is discarded (R32), FCC takes bit 0 (R160). -/
def State.writeReg (s : State) (r : RegId) (v : Word) : State :=
  match r with
  | .gpr i => if i = 0 then s else { s with x := regSet s.x i v }
  | .fpr i => { s with f := regSet s.f i v }
  | .hi => { s with HI := v }
  | .lo => { s with LO := v }
  | .fcc => { s with FCC := v.getLsbD 0 }

/-- The results of an entry written in their order (R160). -/
def State.writeRegs (s : State) : List (RegId × Word) → State
  | [] => s
  | (r, v) :: rest => (s.writeReg r v).writeRegs rest

/-! ## Pending-write markers (10_state.md R40) -/

/-- `pend[r]`. -/
def PendingMarks.get (p : PendingMarks) : RegId → Nat
  | .gpr i => regGet p.gpr i
  | .fpr i => regGet p.fpr i
  | .hi => p.hi
  | .lo => p.lo
  | .fcc => p.fcc

/-- The markers with `pend[r]` replaced. -/
def PendingMarks.put (p : PendingMarks) (r : RegId) (n : Nat) : PendingMarks :=
  match r with
  | .gpr i => { p with gpr := regSet p.gpr i n }
  | .fpr i => { p with fpr := regSet p.fpr i n }
  | .hi => { p with hi := n }
  | .lo => { p with lo := n }
  | .fcc => { p with fcc := n }

/-- `pend[r]` incremented for each `r` of a list (R154). -/
def PendingMarks.mark (p : PendingMarks) : List RegId → PendingMarks
  | [] => p
  | r :: rest => (p.put r (p.get r + 1)).mark rest

/-- `pend[r]` decremented for each `r` of a list (R152, R160). -/
def PendingMarks.unmark (p : PendingMarks) : List RegId → PendingMarks
  | [] => p
  | r :: rest => (p.put r (p.get r - 1)).unmark rest

/-! ## Slots (10_state.md R39) -/

/-- `slot[t]`. -/
def Slots.get (sl : Slots) : Stage → Option Entry
  | .IF => sl.IF
  | .ID => sl.ID
  | .EX => sl.EX
  | .MEM => sl.MEM
  | .WB => sl.WB

/-- The slots with `slot[t]` replaced. -/
def Slots.put (sl : Slots) (t : Stage) (e : Option Entry) : Slots :=
  match t with
  | .IF => { sl with IF := e }
  | .ID => { sl with ID := e }
  | .EX => { sl with EX := e }
  | .MEM => { sl with MEM := e }
  | .WB => { sl with WB := e }

/-- The state with an entry put into a slot. -/
def State.putEntry (s : State) (t : Stage) (e : Entry) : State := { s with slots := s.slots.put t (some e) }

/-- A slot's entry, if any, marked for discard. -/
def markDiscard (o : Option Entry) : Option Entry := o.map (fun e => { e with discard := true })

/-- The entry of stage `t` and every younger entry marked for discard (R441; with `t = ID`, the two entries behind an
instruction in Execute, R165, R166). -/
def Slots.discardThrough (sl : Slots) : Stage → Slots
  | .IF => { sl with IF := markDiscard sl.IF }
  | .ID => { sl with IF := markDiscard sl.IF, ID := markDiscard sl.ID }
  | .EX => { sl with IF := markDiscard sl.IF, ID := markDiscard sl.ID, EX := markDiscard sl.EX }
  | .MEM =>
    { sl with IF := markDiscard sl.IF, ID := markDiscard sl.ID, EX := markDiscard sl.EX, MEM := markDiscard sl.MEM }
  | .WB =>
    { IF := markDiscard sl.IF, ID := markDiscard sl.ID, EX := markDiscard sl.EX, MEM := markDiscard sl.MEM,
      WB := markDiscard sl.WB }

/-! ## The exception and trap controller (60_exceptions.md) -/

/-- The number of stages younger than `t`: the flush depth of an exception raised there (R441). -/
def Stage.depth : Stage → Nat
  | .IF => 0
  | .ID => 1
  | .EX => 2
  | .MEM => 3
  | .WB => 4

/-- The code of an exception kind (R430). -/
def codeOf : ExcKind → Nat
  | .invalidInstruction => 1
  | .malformedOperand => 2
  | .overflow => 3
  | .divideByZero => 4
  | .fpInvalid => 5
  | .fpDivideByZero => 6
  | .misaligned => 7
  | .outOfBounds => 8
  | .systemCall => 9
  | .breakpoint => 10

/-- `cfg.handler(kind)` (R445). -/
def handlerOf (c : Config) : ExcKind → Option Word
  | .invalidInstruction => c.handler.invalidInstruction
  | .malformedOperand => c.handler.malformedOperand
  | .overflow => c.handler.overflow
  | .divideByZero => c.handler.divideByZero
  | .fpInvalid => c.handler.fpInvalid
  | .fpDivideByZero => c.handler.fpDivideByZero
  | .misaligned => c.handler.misaligned
  | .outOfBounds => c.handler.outOfBounds
  | .systemCall => c.handler.systemCall
  | .breakpoint => c.handler.breakpoint

/-- `ctrl := FlushRequested(depth, newPC)`, and the report says so (R185). -/
def State.requestFlush (s : State) (depth : Nat) (newPC : Word) : State :=
  { s with ctrl := .flushRequested depth newPC, report := { s.report with flush := some ⟨depth, some newPC⟩ } }

/-- An unhandled exception becomes the pending fatal one, and a requested redirect is withdrawn (R441, R442). -/
def State.requestFatal (s : State) (kind : ExcKind) (pc : Word) : State :=
  { s with
    fatalPending := some (kind, pc)
    ctrl := match s.ctrl with
      | .flushRequested _ _ => .normal
      | c => c }

/-- The exception is recorded in the report (R431, R185) and its instruction and every younger one are marked for discard. -/
def State.squash (s : State) (t : Stage) (kind : ExcKind) (pc addr : Word) : State :=
  { s with
    slots := s.slots.discardThrough t
    report := { s.report with fault := some ⟨kind, codeOf kind, pc, t, addr⟩ } }

/-- TAKING AN EXCEPTION (R441, R442): the faulting entry and the younger ones are squashed; with a handler the pending fatal
exception is superseded and fetch is redirected to it, with none the exception is left pending until the older
instructions have drained. Nothing is saved in any register (R444). It is performed where the exception is raised: the
entries of the stages still to be processed in this cycle are thereby marked, so they are skipped (R157, R432). -/
def State.takeException (s : State) (t : Stage) (kind : ExcKind) (pc addr : Word) : State :=
  match handlerOf s.cfg kind with
  | some h => { (s.squash t kind pc addr).requestFlush t.depth h with fatalPending := none }
  | none => (s.squash t kind pc addr).requestFatal kind pc

/-! ## Execute (R164 to R166) -/

/-- What an execution unit answers (R164): the entry with its results, or an exception. -/
inductive ExecResult where
  | latched (e : Entry)
  | raise (kind : ExcKind)
  deriving DecidableEq, Repr

/-- Execute's part of a completed entry beyond its own slot: a taken transfer redirects fetch and discards Decode and Fetch
(R165), a table call refetches its successors, the halt call stops fetch (R166). -/
def State.afterExecute (s : State) (e : Entry) : State :=
  if e.taken then { s with slots := s.slots.discardThrough .ID }.requestFlush 2 e.target
  else match e.sys with
    | .none => s
    | .call => { s with slots := s.slots.discardThrough .ID }.requestFlush 2 (e.pc + 4)
    | .halt =>
      { s with
        slots := s.slots.discardThrough .ID
        haltPending := true
        report := { s.report with flush := some ⟨2, none⟩ } }

/-- The entry as its execution unit receives it: no result, transfer or call of its own yet (R164: these are what the unit
produces). -/
def Entry.unexecuted (e : Entry) : Entry := { e with res := [], taken := false, sys := .none }

/-- Execute (R164): a busy cycle while more than one is left; else the unit runs on the captured operands. -/
def executeStage (unit : Config → Entry → ExecResult) (e : Entry) (s : State) : State :=
  if 1 < e.rem then s.putEntry .EX { e with rem := e.rem - 1 }
  else match unit s.cfg e.unexecuted with
    | .raise kind => s.takeException .EX kind e.pc e.pc
    | .latched e' => (s.putEntry .EX { e' with done := true }).afterExecute { e' with done := true }

/-! ## Memory (R162, 43_load_store.md R321) -/

/-- The memory access of an instruction. -/
inductive Access where
  | none
  | load (w : Width) (ext : Extension) (dst : RegId)
  | store (w : Width)
  deriving DecidableEq, Repr

/-- Memory (R162): the load or store of the entry, its checks first (R73); nothing for any other instruction. -/
def memoryStage (access : Access) (e : Entry) (s : State) : State :=
  match access with
  | .none => s.putEntry .MEM { e with done := true }
  | .load w ext dst =>
    match accessFault s.cfg.memSize e.ea w.bytes with
    | some kind => s.takeException .MEM kind e.pc e.ea
    | none =>
      s.putEntry .MEM
        { e with
          res := [(dst, extendLoaded w ext (memRead s.cfg.byteOrder s.mem e.ea.toNat w.bytes))]
          done := true }
  | .store w =>
    match accessFault s.cfg.memSize e.ea w.bytes with
    | some kind => s.takeException .MEM kind e.pc e.ea
    | none =>
      { s with mem := memWrite s.cfg.byteOrder s.mem e.ea.toNat w.bytes e.sval }.putEntry .MEM { e with done := true }

/-! ## Write-back (R160) -/

/-- A callback's call (46_system.md R413): it receives the two register files and data memory and returns their new contents;
`x[0]` stays 0 whatever is returned, and no byte outside data memory comes to exist. -/
def runCallback (callback : CallbackView → CallbackView) (s : State) : State :=
  let v := callback ⟨s.x, s.f, s.mem⟩
  { s with x := regSet v.x 0 0, f := v.f, mem := Memory.ofCells s.cfg.memSize v.mem }

/-- Write-back's system-call effect (R160). -/
def State.commitCall (s : State) (e : Entry) : State :=
  match e.sys with
  | .none => s
  | .call => runCallback (Config.callback e.callNumber) s
  | .halt => { s with ctrl := .halted }

/-- Write-back (R160): the results are committed, the markers cleared, the system call performed. It never raises. -/
def writeBackStage (e : Entry) (s : State) : State :=
  let s1 := s.writeRegs e.res
  ({ s1 with pend := s1.pend.unmark e.dsts }.commitCall e).putEntry .WB { e with done := true }

/-! ## Decode: the hazard and forwarding unit (R170 to R176) -/

/-- The entry in a slot that will write `r`: occupied, not discarded, with `r` among its destinations. -/
def writerIn (o : Option Entry) (r : RegId) : Option Entry :=
  match o with
  | some e => if !e.discard && e.dsts.contains r then some e else none
  | none => none

/-- A source's value, or none when it must stall (R170): the producer in Execute before the one in Memory (R176), and the
register file, after this cycle's Write-back, when there is none. -/
def State.resolve (s : State) (r : RegId) : Option Word :=
  if r = .gpr 0 then some 0
  else match writerIn s.slots.EX r with
    | some p => if !p.done || p.isLoad then none else some ((valueOf r p.res).getD 0)
    | none =>
      match writerIn s.slots.MEM r with
      | some p => some ((valueOf r p.res).getD 0)
      | none => some (s.readReg r)

/-- The operand values of the sources that could be resolved. -/
def State.operands (s : State) : List RegId → List (RegId × Word)
  | [] => []
  | r :: rest =>
    match s.resolve r with
    | some v => (r, v) :: s.operands rest
    | none => s.operands rest

/-- Decode of an instruction (R170): its operands are captured, and it is ready when every source was resolved. -/
def decodeStage (e : Entry) (s : State) : State :=
  s.putEntry .ID { e with ops := s.operands e.srcs, ready := e.srcs.all (fun r => (s.resolve r).isSome) }

/-! ## One stage's part of an instruction -/

/-- The part of an instruction that belongs to the stage whose turn it is (R157), on the entry in that stage's slot: operand
resolution in Decode, the execution unit in Execute, the access in Memory, the commit in Write-back, nothing in Fetch. A
stage whose slot is empty is skipped. -/
def runStage (unit : Config → Entry → ExecResult) (access : Access) (s : State) : Result :=
  match s.slots.get s.turn with
  | none => .next s
  | some e =>
    match s.turn with
    | .IF => .next s
    | .ID => .next (decodeStage e s)
    | .EX => .next (executeStage unit e s)
    | .MEM => .next (memoryStage access e s)
    | .WB => .next (writeBackStage e s)

/-- An instruction that computes and accesses no memory. -/
def compute (unit : Config → Entry → ExecResult) (s : State) : Result := runStage unit .none s

/-- The entry with its register results latched (R12, R164). -/
def Entry.latch (e : Entry) (res : List (RegId × Word)) : ExecResult := .latched { e with res := res }

/-- The entry as a taken control transfer to `target` (R14, R355). -/
def Entry.jump (e : Entry) (target : Word) : Entry := { e with taken := true, target := target }

/-- A load (R320, R321): the effective address in Execute, the access in Memory. -/
def load (w : Width) (ext : Extension) (dst : RegId) (rs : RegNum) (imm : BitVec 16) (s : State) : Result :=
  runStage (fun _ e => .latched { e with ea := e.effectiveAddress rs imm }) (.load w ext dst) s

/-- A store (R320, R321): the effective address and the data in Execute, the access in Memory. -/
def store (w : Width) (src : RegId) (rs : RegNum) (imm : BitVec 16) (s : State) : Result :=
  runStage (fun _ e => .latched { e with ea := e.effectiveAddress rs imm, sval := e.op src }) (.store w) s

/-- A conditional branch (R355, R356): taken to its static target when the condition holds, else nothing. -/
def branch (cond : Entry → Bool) (imm : BitVec 16) (s : State) : Result :=
  compute (fun _ e => .latched (if cond e then e.jump (branchTarget e.pc imm) else e)) s

end Sys2Proof.Machine
end

