-- ==== Sys2Proof/Machine/ControlTransfer.lean ====
section
/-! DEFINITION. The branch and jump instructions (44_control_transfer.md R359 to R370): conditions and register targets are
evaluated in Execute on the operands read in Decode, there is no delay slot, and the link value is `pc + 4` (R352). A
bad target is not checked here: it faults when it is fetched (R357). -/
namespace Sys2Proof.Machine

/-- BEQ (R359). -/
def execBeq (rs rt : RegNum) (imm : BitVec 16) (s : State) : Result := branch (fun e => e.x rs == e.x rt) imm s

/-- BNE (R360). -/
def execBne (rs rt : RegNum) (imm : BitVec 16) (s : State) : Result := branch (fun e => e.x rs != e.x rt) imm s

/-- BLEZ (R361): a signed 64-bit test. -/
def execBlez (rs : RegNum) (imm : BitVec 16) (s : State) : Result := branch (fun e => decide ((e.x rs).toInt ≤ 0)) imm s

/-- BGTZ (R362). -/
def execBgtz (rs : RegNum) (imm : BitVec 16) (s : State) : Result := branch (fun e => decide (0 < (e.x rs).toInt)) imm s

/-- BLTZ (R363). -/
def execBltz (rs : RegNum) (imm : BitVec 16) (s : State) : Result := branch (fun e => decide ((e.x rs).toInt < 0)) imm s

/-- BGEZ (R364). -/
def execBgez (rs : RegNum) (imm : BitVec 16) (s : State) : Result := branch (fun e => decide (0 ≤ (e.x rs).toInt)) imm s

/-- BC1F (R365). -/
def execBc1f (imm : BitVec 16) (s : State) : Result := branch (fun e => !e.fcc) imm s

/-- BC1T (R366). -/
def execBc1t (imm : BitVec 16) (s : State) : Result := branch (fun e => e.fcc) imm s

/-- J (R367). -/
def execJ (index : BitVec 26) (s : State) : Result :=
  compute (fun _ e => .latched (e.jump (jumpTarget e.pc index))) s

/-- JAL (R368): the link goes to `r31`. -/
def execJal (index : BitVec 26) (s : State) : Result :=
  compute (fun _ e => .latched { e.jump (jumpTarget e.pc index) with res := [(.gpr 31, e.link)] }) s

/-- JR (R369). -/
def execJr (rs : RegNum) (s : State) : Result := compute (fun _ e => .latched (e.jump (e.x rs))) s

/-- JALR (R370): the target is the value of `rs` read before the link is written. -/
def execJalr (rd rs : RegNum) (s : State) : Result :=
  compute (fun _ e => .latched { e.jump (e.x rs) with res := [(.gpr rd, e.link)] }) s

end Sys2Proof.Machine
end

