-- ==== Sys2Proof/Machine/FloatingPoint.lean ====
section
/-! DEFINITION. The floating-point instructions (45_floating_point.md R384 to R394). An invalid or divide-by-zero condition
raises only while its trap is enabled (R383); otherwise the instruction completes with its default result, and leaves no
other trace. -/
namespace Sys2Proof.Machine

/-- A pattern into a floating-point register. -/
def fprResult (fd : RegNum) (value : Config → Entry → Word) (c : Config) (e : Entry) : ExecResult :=
  e.latch [(.fpr fd, value c e)]

/-- An arithmetic operation (R382, R383): a NaN result, from an invalid operation or a NaN operand, is `cfg.defaultNaN`. -/
def fpArith (fd fs ft : RegNum) (invalid : Word → Word → Bool) (op : Word → Word → Word) (c : Config) (e : Entry) :
    ExecResult :=
  if invalid (e.f fs) (e.f ft) && c.trapFpInvalid then .raise .fpInvalid
  else e.latch [(.fpr fd,
    if invalid (e.f fs) (e.f ft) || anyNaN (e.f fs) (e.f ft) then c.defaultNaN else op (e.f fs) (e.f ft))]

/-- A compare into FCC (R393, R394). -/
def fpCompare (fs ft : RegNum) (invalid result : Word → Word → Bool) (c : Config) (e : Entry) : ExecResult :=
  if invalid (e.f fs) (e.f ft) && c.trapFpInvalid then .raise .fpInvalid
  else e.latch [(.fcc, boolWord (result (e.f fs) (e.f ft)))]

/-- ADD.D (R384). -/
def execAddD (fd fs ft : RegNum) (s : State) : Result := compute (fpArith fd fs ft invalidAdd Fp.add) s

/-- SUB.D (R385). -/
def execSubD (fd fs ft : RegNum) (s : State) : Result := compute (fpArith fd fs ft invalidSub Fp.sub) s

/-- MUL.D (R386). -/
def execMulD (fd fs ft : RegNum) (s : State) : Result := compute (fpArith fd fs ft invalidMul Fp.mul) s

/-- DIV.D (R387): the invalid condition is tested before the divide-by-zero one. -/
def execDivD (fd fs ft : RegNum) (s : State) : Result :=
  compute (fun c e =>
    if invalidDiv (e.f fs) (e.f ft) && c.trapFpInvalid then .raise .fpInvalid
    else if divByZero (e.f fs) (e.f ft) && c.trapFpDivByZero then .raise .fpDivideByZero
    else fpArith fd fs ft invalidDiv Fp.div c e) s

/-- MOV.D (R388): the pattern is copied. -/
def execMovD (fd fs : RegNum) (s : State) : Result := compute (fprResult fd (fun _ e => e.f fs)) s

/-- CVT.D.L (R389): the source is an integer held in a floating-point register. -/
def execCvtDL (fd fs : RegNum) (s : State) : Result := compute (fprResult fd (fun _ e => Fp.ofInt (e.f fs).toInt)) s

/-- CVT.L.D (R390): rounded to nearest even, not truncated. -/
def execCvtLD (fd fs : RegNum) (s : State) : Result :=
  compute (fun c e =>
    if invalidCvt (e.f fs) && c.trapFpInvalid then .raise .fpInvalid
    else e.latch [(.fpr fd, if invalidCvt (e.f fs) then c.cvtInvalid else trunc64 (Fp.toInt (e.f fs)))]) s

/-- DMFC1 (R391): the destination is an integer register. -/
def execDmfc1 (rt fs : RegNum) (s : State) : Result := compute (fun _ e => e.latch [(.gpr rt, e.f fs)]) s

/-- DMTC1 (R392): the destination is the floating-point register of the `fs` field. -/
def execDmtc1 (rt fs : RegNum) (s : State) : Result := compute (fprResult fs (fun _ e => e.x rt)) s

/-- C.EQ.D (R393). -/
def execCEqD (fs ft : RegNum) (s : State) : Result := compute (fpCompare fs ft invalidEq compareEq) s

/-- C.LT.D (R394). -/
def execCLtD (fs ft : RegNum) (s : State) : Result := compute (fpCompare fs ft invalidLt compareLt) s

end Sys2Proof.Machine
end

