-- ==== Sys2Proof/Machine/IntegerArith.lean ====
section
/-! DEFINITION. The integer arithmetic instructions (41_integer_arith.md R223 to R248). Each computes the exact integer
result, raises `Overflow` when its mnemonic is checked and the result does not fit (R221), and latches the result for
Write-back. A word operation reads bits 31:0 of its operands and sign-extends its result (R222). -/
namespace Sys2Proof.Machine

/-- The exact result of a word operation into an integer register (R221, R222). -/
def wordResult (m : Mnemonic) (rd : RegNum) (exact : Entry → Int) (c : Config) (e : Entry) : ExecResult :=
  if overflowsSigned c m 32 (exact e) then .raise .overflow
  else e.latch [(.gpr rd, sext32to64 (trunc32 (exact e)))]

/-- The exact result of a doubleword operation into an integer register (R221). -/
def doubleResult (m : Mnemonic) (rd : RegNum) (exact : Entry → Int) (c : Config) (e : Entry) : ExecResult :=
  if overflowsSigned c m 64 (exact e) then .raise .overflow
  else e.latch [(.gpr rd, trunc64 (exact e))]

/-- A value into an integer register, with no condition. -/
def gprResult (rd : RegNum) (value : Entry → Word) (_ : Config) (e : Entry) : ExecResult :=
  e.latch [(.gpr rd, value e)]

/-- A pair of results into HI and LO (R35), HI first. -/
def hiLo (e : Entry) (hi lo : Word) : ExecResult := e.latch [(.hi, hi), (.lo, lo)]

/-- `sint(x[r][31:0])`. -/
def Entry.sword (e : Entry) (r : RegNum) : Int := (lowWord (e.x r)).toInt

/-- `uint(x[r][31:0])`. -/
def Entry.uword (e : Entry) (r : RegNum) : Nat := (lowWord (e.x r)).toNat

/-- `sint(x[r])`. -/
def Entry.sdouble (e : Entry) (r : RegNum) : Int := (e.x r).toInt

/-- `uint(x[r])`. -/
def Entry.udouble (e : Entry) (r : RegNum) : Nat := (e.x r).toNat

/-! ## Add and subtract -/

/-- ADD (R223). -/
def execAdd (rd rs rt : RegNum) (s : State) : Result :=
  compute (wordResult .ADD rd (fun e => e.sword rs + e.sword rt)) s

/-- ADDU (R224). -/
def execAddu (rd rs rt : RegNum) (s : State) : Result :=
  compute (wordResult .ADDU rd (fun e => e.sword rs + e.sword rt)) s

/-- SUB (R225). -/
def execSub (rd rs rt : RegNum) (s : State) : Result :=
  compute (wordResult .SUB rd (fun e => e.sword rs - e.sword rt)) s

/-- SUBU (R226). -/
def execSubu (rd rs rt : RegNum) (s : State) : Result :=
  compute (wordResult .SUBU rd (fun e => e.sword rs - e.sword rt)) s

/-- DADD (R227). -/
def execDadd (rd rs rt : RegNum) (s : State) : Result :=
  compute (doubleResult .DADD rd (fun e => e.sdouble rs + e.sdouble rt)) s

/-- DADDU (R228). -/
def execDaddu (rd rs rt : RegNum) (s : State) : Result :=
  compute (doubleResult .DADDU rd (fun e => e.sdouble rs + e.sdouble rt)) s

/-- DSUB (R229). -/
def execDsub (rd rs rt : RegNum) (s : State) : Result :=
  compute (doubleResult .DSUB rd (fun e => e.sdouble rs - e.sdouble rt)) s

/-- DSUBU (R230). -/
def execDsubu (rd rs rt : RegNum) (s : State) : Result :=
  compute (doubleResult .DSUBU rd (fun e => e.sdouble rs - e.sdouble rt)) s

/-- ADDI (R231). -/
def execAddi (rt rs : RegNum) (imm : BitVec 16) (s : State) : Result :=
  compute (wordResult .ADDI rt (fun e => e.sword rs + (sextImm imm).toInt)) s

/-- ADDIU (R232). -/
def execAddiu (rt rs : RegNum) (imm : BitVec 16) (s : State) : Result :=
  compute (wordResult .ADDIU rt (fun e => e.sword rs + (sextImm imm).toInt)) s

/-- DADDI (R233). -/
def execDaddi (rt rs : RegNum) (imm : BitVec 16) (s : State) : Result :=
  compute (doubleResult .DADDI rt (fun e => e.sdouble rs + (sextImm imm).toInt)) s

/-- DADDIU (R234). -/
def execDaddiu (rt rs : RegNum) (imm : BitVec 16) (s : State) : Result :=
  compute (doubleResult .DADDIU rt (fun e => e.sdouble rs + (sextImm imm).toInt)) s

/-! ## Set on less than -/

/-- SLT (R235). -/
def execSlt (rd rs rt : RegNum) (s : State) : Result :=
  compute (gprResult rd (fun e => boolWord (decide (e.sdouble rs < e.sdouble rt)))) s

/-- SLTU (R236). -/
def execSltu (rd rs rt : RegNum) (s : State) : Result :=
  compute (gprResult rd (fun e => boolWord (decide (e.udouble rs < e.udouble rt)))) s

/-- SLTI (R237). -/
def execSlti (rt rs : RegNum) (imm : BitVec 16) (s : State) : Result :=
  compute (gprResult rt (fun e => boolWord (decide (e.sdouble rs < (sextImm imm).toInt)))) s

/-- SLTIU (R238): the immediate is sign-extended and compared unsigned. -/
def execSltiu (rt rs : RegNum) (imm : BitVec 16) (s : State) : Result :=
  compute (gprResult rt (fun e => boolWord (decide (e.udouble rs < (sextImm imm).toNat)))) s

/-! ## Multiply and divide -/

/-- MULT (R239): the halves of the exact product, each sign-extended. -/
def execMult (rs rt : RegNum) (s : State) : Result :=
  compute (fun c e =>
    let p := e.sword rs * e.sword rt
    if overflowsSigned c .MULT 32 p then .raise .overflow
    else hiLo e (sext32to64 ((trunc64 p).extractLsb' 32 32)) (sext32to64 ((trunc64 p).extractLsb' 0 32))) s

/-- MULTU (R240): an unsigned product whose halves are still sign-extended. -/
def execMultu (rs rt : RegNum) (s : State) : Result :=
  compute (fun c e =>
    let p := e.uword rs * e.uword rt
    if overflowsUnsigned c .MULTU 32 p then .raise .overflow
    else hiLo e (sext32to64 ((BitVec.ofNat 64 p).extractLsb' 32 32)) (sext32to64 ((BitVec.ofNat 64 p).extractLsb' 0 32))) s

/-- DMULT (R241). -/
def execDmult (rs rt : RegNum) (s : State) : Result :=
  compute (fun c e =>
    let p := e.sdouble rs * e.sdouble rt
    if overflowsSigned c .DMULT 64 p then .raise .overflow
    else hiLo e ((BitVec.ofInt 128 p).extractLsb' 64 64) ((BitVec.ofInt 128 p).extractLsb' 0 64)) s

/-- DMULTU (R242). -/
def execDmultu (rs rt : RegNum) (s : State) : Result :=
  compute (fun c e =>
    let p := e.udouble rs * e.udouble rt
    if overflowsUnsigned c .DMULTU 64 p then .raise .overflow
    else hiLo e ((BitVec.ofNat 128 p).extractLsb' 64 64) ((BitVec.ofNat 128 p).extractLsb' 0 64)) s

/-- DIV (R243): a zero divisor always faults; `-2^31 / -1` wraps unless DIV is checked. -/
def execDiv (rs rt : RegNum) (s : State) : Result :=
  compute (fun c e =>
    let a := e.sword rs
    let b := e.sword rt
    if b = 0 then .raise .divideByZero
    else if overflowsSigned c .DIV 32 (quot a b) then .raise .overflow
    else hiLo e (sext32to64 (trunc32 (rem a b))) (sext32to64 (trunc32 (quot a b)))) s

/-- DIVU (R244): no overflow condition. -/
def execDivu (rs rt : RegNum) (s : State) : Result :=
  compute (fun _ e =>
    let a := e.uword rs
    let b := e.uword rt
    if b = 0 then .raise .divideByZero
    else hiLo e (sext32to64 (BitVec.ofNat 32 (a % b))) (sext32to64 (BitVec.ofNat 32 (a / b)))) s

/-- DDIV (R245). -/
def execDdiv (rs rt : RegNum) (s : State) : Result :=
  compute (fun c e =>
    let a := e.sdouble rs
    let b := e.sdouble rt
    if b = 0 then .raise .divideByZero
    else if overflowsSigned c .DDIV 64 (quot a b) then .raise .overflow
    else hiLo e (trunc64 (rem a b)) (trunc64 (quot a b))) s

/-- DDIVU (R246): no overflow condition. -/
def execDdivu (rs rt : RegNum) (s : State) : Result :=
  compute (fun _ e =>
    let a := e.udouble rs
    let b := e.udouble rt
    if b = 0 then .raise .divideByZero
    else hiLo e (BitVec.ofNat 64 (a % b)) (BitVec.ofNat 64 (a / b))) s

/-- MFHI (R247): HI is a forwarded source like a register. -/
def execMfhi (rd : RegNum) (s : State) : Result := compute (gprResult rd (fun e => e.op .hi)) s

/-- MFLO (R248). -/
def execMflo (rd : RegNum) (s : State) : Result := compute (gprResult rd (fun e => e.op .lo)) s

end Sys2Proof.Machine
end

