-- ==== Sys2Proof/Machine/LoadStore.lean ====
section
/-! DEFINITION. The load and store instructions (43_load_store.md R323 to R335): each is the shared load or store with its
width, its extension and the register it names; LDC1 and SDC1 name a floating-point register (R102) and copy the pattern
unchanged. -/
namespace Sys2Proof.Machine

/-- LB (R323). -/
def execLb (rt rs : RegNum) (imm : BitVec 16) (s : State) : Result := load .byte .signed (.gpr rt) rs imm s

/-- LBU (R324). -/
def execLbu (rt rs : RegNum) (imm : BitVec 16) (s : State) : Result := load .byte .unsigned (.gpr rt) rs imm s

/-- LH (R325). -/
def execLh (rt rs : RegNum) (imm : BitVec 16) (s : State) : Result := load .half .signed (.gpr rt) rs imm s

/-- LHU (R326). -/
def execLhu (rt rs : RegNum) (imm : BitVec 16) (s : State) : Result := load .half .unsigned (.gpr rt) rs imm s

/-- LW (R327). -/
def execLw (rt rs : RegNum) (imm : BitVec 16) (s : State) : Result := load .word .signed (.gpr rt) rs imm s

/-- LWU (R328). -/
def execLwu (rt rs : RegNum) (imm : BitVec 16) (s : State) : Result := load .word .unsigned (.gpr rt) rs imm s

/-- LD (R329). -/
def execLd (rt rs : RegNum) (imm : BitVec 16) (s : State) : Result := load .double .unsigned (.gpr rt) rs imm s

/-- LDC1 (R330). -/
def execLdc1 (ft rs : RegNum) (imm : BitVec 16) (s : State) : Result := load .double .unsigned (.fpr ft) rs imm s

/-- SB (R331). -/
def execSb (rt rs : RegNum) (imm : BitVec 16) (s : State) : Result := store .byte (.gpr rt) rs imm s

/-- SH (R332). -/
def execSh (rt rs : RegNum) (imm : BitVec 16) (s : State) : Result := store .half (.gpr rt) rs imm s

/-- SW (R333). -/
def execSw (rt rs : RegNum) (imm : BitVec 16) (s : State) : Result := store .word (.gpr rt) rs imm s

/-- SD (R334). -/
def execSd (rt rs : RegNum) (imm : BitVec 16) (s : State) : Result := store .double (.gpr rt) rs imm s

/-- SDC1 (R335). -/
def execSdc1 (ft rs : RegNum) (imm : BitVec 16) (s : State) : Result := store .double (.fpr ft) rs imm s

end Sys2Proof.Machine
end

