-- ==== Sys2Proof/Machine/LogicalShift.lean ====
section
/-! DEFINITION. The no-op, logical and shift instructions (42_logical_shift.md R281 to R314). None of them raises; each
latches one 64-bit result, but NOP, which has none. -/
namespace Sys2Proof.Machine

/-- NOP (R281). -/
def execNop (s : State) : Result := compute (fun _ e => .latched e) s

/-! ## Logical -/

/-- AND (R282). -/
def execAnd (rd rs rt : RegNum) (s : State) : Result := compute (gprResult rd (fun e => e.x rs &&& e.x rt)) s

/-- OR (R283). -/
def execOr (rd rs rt : RegNum) (s : State) : Result := compute (gprResult rd (fun e => e.x rs ||| e.x rt)) s

/-- XOR (R284). -/
def execXor (rd rs rt : RegNum) (s : State) : Result := compute (gprResult rd (fun e => e.x rs ^^^ e.x rt)) s

/-- NOR (R285). -/
def execNor (rd rs rt : RegNum) (s : State) : Result := compute (gprResult rd (fun e => ~~~(e.x rs ||| e.x rt))) s

/-- ANDI (R286): the immediate is zero-extended. -/
def execAndi (rt rs : RegNum) (imm : BitVec 16) (s : State) : Result :=
  compute (gprResult rt (fun e => e.x rs &&& zextImm imm)) s

/-- ORI (R287). -/
def execOri (rt rs : RegNum) (imm : BitVec 16) (s : State) : Result :=
  compute (gprResult rt (fun e => e.x rs ||| zextImm imm)) s

/-- XORI (R288). -/
def execXori (rt rs : RegNum) (imm : BitVec 16) (s : State) : Result :=
  compute (gprResult rt (fun e => e.x rs ^^^ zextImm imm)) s

/-- LUI (R289): `sext32to64(imm ++ 0x0000)`. -/
def execLui (rt : RegNum) (imm : BitVec 16) (s : State) : Result :=
  compute (gprResult rt (fun _ => sext32to64 (imm ++ (0 : BitVec 16)))) s

/-- MOVZ (R290): `rd` is always written, with its old value when the condition fails. -/
def execMovz (rd rs rt : RegNum) (s : State) : Result :=
  compute (gprResult rd (fun e => if e.x rt = 0 then e.x rs else e.x rd)) s

/-- MOVN (R291). -/
def execMovn (rd rs rt : RegNum) (s : State) : Result :=
  compute (gprResult rd (fun e => if e.x rt ≠ 0 then e.x rs else e.x rd)) s

/-! ## Word shifts (R292): the low word shifted, the result sign-extended -/

/-- SLL (R300). -/
def execSll (rd rt : RegNum) (sa : BitVec 5) (s : State) : Result :=
  compute (gprResult rd (fun e => sext32to64 (lowWord (e.x rt) <<< sa.toNat))) s

/-- SRL (R301). -/
def execSrl (rd rt : RegNum) (sa : BitVec 5) (s : State) : Result :=
  compute (gprResult rd (fun e => sext32to64 (lowWord (e.x rt) >>> sa.toNat))) s

/-- SRA (R302). -/
def execSra (rd rt : RegNum) (sa : BitVec 5) (s : State) : Result :=
  compute (gprResult rd (fun e => sext32to64 ((lowWord (e.x rt)).sshiftRight sa.toNat))) s

/-- SLLV (R303). -/
def execSllv (rd rt rs : RegNum) (s : State) : Result :=
  compute (gprResult rd (fun e => sext32to64 (lowWord (e.x rt) <<< e.amount5 rs))) s

/-- SRLV (R304). -/
def execSrlv (rd rt rs : RegNum) (s : State) : Result :=
  compute (gprResult rd (fun e => sext32to64 (lowWord (e.x rt) >>> e.amount5 rs))) s

/-- SRAV (R305). -/
def execSrav (rd rt rs : RegNum) (s : State) : Result :=
  compute (gprResult rd (fun e => sext32to64 ((lowWord (e.x rt)).sshiftRight (e.amount5 rs)))) s

/-! ## Doubleword shifts -/

/-- DSLL (R306). -/
def execDsll (rd rt : RegNum) (sa : BitVec 5) (s : State) : Result :=
  compute (gprResult rd (fun e => e.x rt <<< sa.toNat)) s

/-- DSRL (R307). -/
def execDsrl (rd rt : RegNum) (sa : BitVec 5) (s : State) : Result :=
  compute (gprResult rd (fun e => e.x rt >>> sa.toNat)) s

/-- DSRA (R308). -/
def execDsra (rd rt : RegNum) (sa : BitVec 5) (s : State) : Result :=
  compute (gprResult rd (fun e => (e.x rt).sshiftRight sa.toNat)) s

/-- DSLL32 (R309): the amount is `sa + 32`. -/
def execDsll32 (rd rt : RegNum) (sa : BitVec 5) (s : State) : Result :=
  compute (gprResult rd (fun e => e.x rt <<< (sa.toNat + 32))) s

/-- DSRL32 (R310). -/
def execDsrl32 (rd rt : RegNum) (sa : BitVec 5) (s : State) : Result :=
  compute (gprResult rd (fun e => e.x rt >>> (sa.toNat + 32))) s

/-- DSRA32 (R311). -/
def execDsra32 (rd rt : RegNum) (sa : BitVec 5) (s : State) : Result :=
  compute (gprResult rd (fun e => (e.x rt).sshiftRight (sa.toNat + 32))) s

/-- DSLLV (R312). -/
def execDsllv (rd rt rs : RegNum) (s : State) : Result :=
  compute (gprResult rd (fun e => e.x rt <<< e.amount6 rs)) s

/-- DSRLV (R313). -/
def execDsrlv (rd rt rs : RegNum) (s : State) : Result :=
  compute (gprResult rd (fun e => e.x rt >>> e.amount6 rs)) s

/-- DSRAV (R314). -/
def execDsrav (rd rt rs : RegNum) (s : State) : Result :=
  compute (gprResult rd (fun e => (e.x rt).sshiftRight (e.amount6 rs))) s

end Sys2Proof.Machine
end

