-- ==== Sys2Proof/Machine/System.lean ====
section
/-! DEFINITION. SYSCALL and BREAK (46_system.md R410 to R415). -/
namespace Sys2Proof.Machine

/-- SYSCALL (R410, R414): the halt number halts, a number of the table calls its callback at Write-back, any other number
raises `SystemCall`. -/
def execSyscall (code : BitVec 20) (s : State) : Result :=
  compute (fun c e =>
    if code.toNat = c.haltCode then .latched { e with sys := .halt }
    else if c.syscalls.contains code.toNat then .latched { e with sys := .call }
    else .raise .systemCall) s

/-- BREAK (R415): raises `Breakpoint`; the code is ignored. -/
def execBreak (_ : BitVec 20) (s : State) : Result := compute (fun _ _ => .raise .breakpoint) s

end Sys2Proof.Machine
end

