-- ==== Sys2Proof/Machine/Pipeline.lean ====
section
/-! DEFINITION. One cycle of the pipeline engine (40_pipeline.md): the boundary phase (R152 to R156), the stage phase (R157),
the controller resolution (60_exceptions.md R440, R442), the stall count (R178) and the report (R185). `Step.lean` puts
them together. -/
namespace Sys2Proof.Machine

/-! ## The decoder at Fetch (20_memory.md R80, 30_encoding.md R101) -/

/-- The first address after the instruction stream, `base + 4·len(prog)`, computed without wrap-around (R80, D35). -/
def State.streamEnd (s : State) : Nat := s.base.toNat + 4 * s.prog.length

/-- The exception kind of a decode fault (R101, R430). -/
def decodeFaultKind : DecodeFault → ExcKind
  | .invalidInstruction => .invalidInstruction
  | .malformedOperand => .malformedOperand

/-- What a fetched word at `pc` puts into the slot: the decoded record, or a fault token (R101, R433). -/
def decodeAt (pc : Word) (w : Word32) : SlotContent :=
  match decodeWord w with
  | .ok i => .instr ⟨i, pc, w⟩
  | .error f => .faultToken (decodeFaultKind f) pc

/-- The result of fetching at `pc` (R80): nothing at the end of the stream, a token for a misaligned address or one outside
the stream, else the decoded word `prog[(pc - base) / 4]`. DESIGN CHOICE (notes/assumptions/18.md): with a base that is no
multiple of 4 an aligned `pc` inside the stream lies within a word, and the quotient is rounded down to that word. -/
def State.fetchAt (s : State) (pc : Word) : Option SlotContent :=
  if pc.toNat = s.streamEnd then none
  else if pc.toNat % 4 ≠ 0 then some (.faultToken .misaligned pc)
  else if pc.toNat < s.base.toNat then some (.faultToken .outOfBounds pc)
  else match s.prog[(pc.toNat - s.base.toNat) / 4]? with
    | some w => some (decodeAt pc w)
    | none => some (.faultToken .outOfBounds pc)

/-! ## The boundary phase -/

/-- A slot's entry unless it is marked for discard (R152). -/
def keep (o : Option Entry) : Option Entry :=
  match o with
  | some e => if e.discard then none else some e
  | none => none

/-- The destinations of a slot's entry if it is marked for discard. -/
def discardedDsts (o : Option Entry) : List RegId :=
  match o with
  | some e => if e.discard then e.dsts else []
  | none => []

/-- Discard (R152): marked entries leave their slots; one that leaves Execute or Memory takes its markers with it. -/
def State.dropDiscarded (s : State) : State :=
  { s with
    slots :=
      { IF := keep s.slots.IF, ID := keep s.slots.ID, EX := keep s.slots.EX, MEM := keep s.slots.MEM,
        WB := keep s.slots.WB }
    pend := (s.pend.unmark (discardedDsts s.slots.EX)).unmark (discardedDsts s.slots.MEM) }

/-- Execute holds an entry that has not completed (R153 `exBusy`). -/
def Slots.exBusy (sl : Slots) : Bool :=
  match sl.EX with
  | some e => !e.done
  | none => false

/-- The entry that moves from Decode into Execute (R153 `idMoves`): Execute is not busy and the entry is ready. -/
def Slots.issuing (sl : Slots) : Option Entry :=
  if sl.exBusy then none
  else match sl.ID with
    | some d => if d.ready then some d else none
    | none => none

/-- Decode holds its entry (R153). -/
def Slots.idHolds (sl : Slots) : Bool := sl.ID.isSome && sl.issuing.isNone

/-- The slots after the advance, before Fetch (R153): a front that does not move keeps its IF entry. -/
def Slots.advance (sl : Slots) (issued : Option Entry) : Slots :=
  { WB := sl.MEM
    MEM := if sl.exBusy then none else sl.EX
    EX := if sl.exBusy then sl.EX else issued
    ID := if sl.idHolds then sl.ID else sl.IF
    IF := if sl.idHolds then sl.IF else none }

/-- `cfg.lat(class)` (R9). -/
def latencyOf (c : Config) : LatencyClass → Nat
  | .intALU => c.lat.intALU
  | .intMul => c.lat.intMul
  | .intDiv => c.lat.intDiv
  | .mem => c.lat.mem
  | .branch => c.lat.branch
  | .fpAdd => c.lat.fpAdd
  | .fpMul => c.lat.fpMul
  | .fpDiv => c.lat.fpDiv
  | .other => c.lat.other

/-- The Execute latency of an entry's instruction; a fault token never reaches Execute. -/
def Entry.latency (c : Config) (e : Entry) : Nat :=
  match e.inst with
  | .instr i => latencyOf c i.op.latencyClass
  | .faultToken _ _ => 1

/-- Advance and entry into Execute (R153, R154): the entry that moves from Decode gets its latency and sets its markers. -/
def State.advance (s : State) : State :=
  match s.slots.issuing with
  | some d =>
    { s with slots := s.slots.advance (some { d with rem := d.latency s.cfg }), pend := s.pend.mark d.dsts }
  | none => { s with slots := s.slots.advance none }

/-- Redirect (R155). -/
def State.redirect (s : State) : State :=
  match s.ctrl with
  | .flushRequested _ newPC => { s with pc := newPC, ctrl := .normal }
  | _ => s

/-- Fetch (R156): into an IF slot that does not hold, unless a halt or a fatal exception is pending. -/
def State.fetch (s : State) : State :=
  if s.slots.IF.isSome || s.haltPending || s.fatalPending.isSome then s
  else match s.fetchAt s.pc with
    | none => s
    | some c => { s with slots := { s.slots with IF := some { inst := c } }, pc := s.pc + 4 }

/-- An entry at the start of a cycle (R156): nothing done and not ready. -/
def beginEntry (o : Option Entry) : Option Entry := o.map (fun e => { e with done := false, ready := false })

/-- How the report names an entry (R185). -/
def occupantOf (o : Option Entry) : Option Occupant :=
  o.map (fun e =>
    ⟨e.pc, match e.inst with
      | .instr i => .mnemonic i.op.mnemonic
      | .faultToken k _ => .faultToken k⟩)

/-- The occupancy of the slots (R185). -/
def Slots.occupancy (sl : Slots) : Occupancy :=
  { IF := occupantOf sl.IF, ID := occupantOf sl.ID, EX := occupantOf sl.EX, MEM := occupantOf sl.MEM,
    WB := occupantOf sl.WB }

/-- The cycle begins (R156): it is counted, every entry starts it with nothing done, and its report is opened (R185). -/
def State.begin (s : State) : State :=
  { s with
    cycle := s.cycle + 1
    slots :=
      { IF := beginEntry s.slots.IF, ID := beginEntry s.slots.ID, EX := beginEntry s.slots.EX,
        MEM := beginEntry s.slots.MEM, WB := beginEntry s.slots.WB }
    report := { cycle := some (s.cycle + 1), occupancy := s.slots.occupancy } }

/-- The boundary phase (R151 (1)): discard, advance, redirect, fetch. -/
def State.boundary (s : State) : State := s.dropDiscarded.advance.redirect.fetch.begin

/-! ## The stage phase (R157) -/

/-- One stage after another: what the first answers is handed on only when it is a state. -/
def andThen (r : Result) (f : State → Result) : Result :=
  match r with
  | .next s => f s
  | .fault x => .fault x
  | .refused x => .refused x

/-- What Execute makes of its entry in the last of its cycles. The operands were captured in Decode (R170), so this is
settled while Execute is still busy. -/
def State.completion (s : State) (e : Entry) : Option Entry :=
  match e.inst with
  | .instr i =>
    match exec i.op { s with turn := .EX, slots := { s.slots with EX := some { e with rem := 1 } } } with
    | .next t => t.slots.EX
    | .fault _ => none
    | .refused _ => none
  | .faultToken _ _ => none

/-- The entries behind Execute stand on a wrong path: Execute is busy with an instruction that will complete as a taken
transfer (R165) or as the halt call (R411), so that they are discarded and not fetched again. The successors of a table call
stand on the right path: they are fetched again (R413). -/
def State.wrongPath (s : State) : Bool :=
  match s.slots.EX with
  | some e =>
    if e.discard || e.done then false
    else match s.completion e with
      | some r => r.done && (r.taken || r.sys == .halt)
      | none => false
  | none => false

/-- The turn of one stage (R157): an empty slot and a discarded entry are skipped, an instruction performs its part, and a
fault token raises its fault in Decode (R170, R433) and does nothing anywhere else. A token on a wrong path raises nothing:
an older flush discards it first, and a wrong-path fetch never faults (R80, decision D11; DEDUCED,
notes/assumptions/8.md). -/
def stageTurn (t : Stage) (s : State) : Result :=
  match s.slots.get t with
  | none => .next s
  | some e =>
    if e.discard then .next s
    else match e.inst with
      | .instr i => exec i.op { s with turn := t }
      | .faultToken kind addr => .next (if t = .ID ∧ s.wrongPath = false then s.takeException .ID kind addr addr else s)

/-- The stage phase: Write-back, Memory, Execute, Decode (R157). Fetch's work was done at the boundary (R151). -/
def stagePhase (s : State) : Result :=
  andThen (stageTurn .WB s) fun s1 => andThen (stageTurn .MEM s1) fun s2 => andThen (stageTurn .EX s2) (stageTurn .ID)

/-! ## The end of the cycle -/

/-- A slot holds no entry that is not marked for discard. -/
def idle (o : Option Entry) : Bool :=
  match o with
  | some e => e.discard
  | none => true

/-- The fatal drain is over (R442): IF, ID, EX and MEM hold no entry that is not marked for discard. -/
def Slots.drainedFront (sl : Slots) : Bool := idle sl.IF && idle sl.ID && idle sl.EX && idle sl.MEM

/-- Controller resolution (R440, R442): a pending fatal exception becomes `Fatal` from `Normal` once the older instructions
have drained. -/
def State.resolveFatal (s : State) : State :=
  match s.ctrl, s.fatalPending with
  | .normal, some (kind, pc) => if s.slots.drainedFront then { s with ctrl := .fatal kind pc } else s
  | _, _ => s

/-- A stall cycle (R178): Execute holds an entry that is not done, or Decode one that is not ready, not marked for discard. -/
def Slots.stalled (sl : Slots) : Bool :=
  (match sl.EX with
    | some e => !e.discard && !e.done
    | none => false) ||
  (match sl.ID with
    | some e => !e.discard && !e.ready
    | none => false)

/-- `ctrl` is `Halted`. -/
def Ctrl.isHalted : Ctrl → Bool
  | .halted => true
  | _ => false

/-- `ctrl` is `Fatal`. -/
def Ctrl.isFatal : Ctrl → Bool
  | .fatal _ _ => true
  | _ => false

/-- The stall count and the report (R151 (4), R178, R185); the stage phase is over. -/
def State.account (s : State) : State :=
  { s with
    stalls := if s.slots.stalled then s.stalls + 1 else s.stalls
    turn := .IF
    report :=
      { s.report with stall := s.slots.stalled, halted := s.ctrl.isHalted, fatal := s.ctrl.isFatal } }

/-- What a terminal engine's `step()` returns (R150): only `halted` or `fatal` set; nothing else of the state changes. -/
def State.terminalStep (s : State) : State :=
  { s with report := { halted := s.ctrl.isHalted, fatal := s.ctrl.isFatal } }

/-- One cycle of an engine that is not terminal (R151). -/
def State.runCycle (s : State) : Result :=
  andThen (stagePhase s.boundary) fun t => .next t.resolveFatal.account

/-! ## An instruction put where the next step runs it -/

/-- The register file's values of the sources, as Decode would capture them with nothing in flight (R173). -/
def State.fileOperands (s : State) (rs : List RegId) : List (RegId × Word) := rs.map (fun r => (r, s.readReg r))

/-- The state with the one-word program `w` loaded at `base` and its instruction alone in the pipeline, issued to Execute with
one cycle left there, so that the next step runs its execution unit; a word that does not decode stands in Decode as its
fault token, so that the next step raises its fault (notes/assumptions/3.md). -/
def State.issueWord (s : State) (w : Word32) : State :=
  let s0 : State :=
    { s with
      prog := [w], pc := s.base + 4, slots := {}, pend := {}, ctrl := .normal, haltPending := false, fatalPending := none
      turn := .IF }
  match decodeWord w with
  | .ok i =>
    { s0 with
      slots := { EX := some { inst := .instr ⟨i, s.base, w⟩, ops := s.fileOperands i.srcs, rem := 1 } }
      pend := PendingMarks.mark {} i.dsts }
  | .error f => { s0 with slots := { ID := some { inst := .faultToken (decodeFaultKind f) s.base } } }

end Sys2Proof.Machine
end

