-- ==== Sys2Proof/Machine/Step.lean ====
section
/-! DEFINITION. `step()` (40_pipeline.md R150, R151): one clock cycle of the engine, and the placing of a word where the next
step runs it. -/
namespace Sys2Proof.Machine

/-- One cycle (R150, R151). A terminal engine accepts no further cycle: its state does not change, and the report says so. -/
def step (s : State) : Host.Outcome State Fault Refusal :=
  match s.ctrl with
  | .halted => .next s.terminalStep
  | .fatal _ _ => .next s.terminalStep
  | .normal => s.runCycle
  | .flushRequested _ _ => s.runCycle

/-- `s` with the word whose `nbits` low bits are given placed so that the next step runs it (`State.issueWord`). -/
def State.withFetchWord (s : State) (nbits w : Nat) : State := s.issueWord (BitVec.ofNat 32 (w % 2 ^ nbits))

end Sys2Proof.Machine
end

