-- ==== Sys2Proof/Machine/Launch.lean ====
section
/-! DEFINITION. The host's side of the engine (40_pipeline.md R187): construction with the configuration checks of R447
(70_reset_and_hazards.md R470), preloading before the first step (10_state.md R50, R471), the snapshot (R186), and the three
ways a run ends (R181). Cancelling a run is not calling `step` again (D53). -/
namespace Sys2Proof.Machine

/-- The launch inputs (R9): `labels` is read by no rule. -/
structure Launch where
  cfg    : Config := {}
  prog   : List Word32 := []
  base   : Word := 0
  labels : List (String × Word) := []
  image  : List Host.Cell := []
  deriving DecidableEq, Repr

/-- The ten exception kinds (R430). -/
def allKinds : List ExcKind :=
  [.invalidInstruction, .malformedOperand, .overflow, .divideByZero, .fpInvalid, .fpDivideByZero, .misaligned,
    .outOfBounds, .systemCall, .breakpoint]

/-- The nine latency classes (R103). -/
def allClasses : List LatencyClass := [.intALU, .intMul, .intDiv, .mem, .branch, .fpAdd, .fpMul, .fpDiv, .other]

/-- A handler address is valid (R445): a multiple of 4 within `[base, base + 4·len(prog))`. -/
def handlerValid (l : Launch) (h : Word) : Bool :=
  h.toNat % 4 == 0 && decide (l.base.toNat ≤ h.toNat) && decide (h.toNat < l.base.toNat + 4 * l.prog.length)

/-- The configuration is well formed (R447, ranges of R9). -/
def Launch.valid (l : Launch) : Bool :=
  decide (8 ≤ l.cfg.memSize) && l.cfg.memSize % 8 == 0 &&
  allClasses.all (fun c => decide (1 ≤ latencyOf l.cfg c)) &&
  allKinds.all (fun k =>
    match handlerOf l.cfg k with
    | some h => handlerValid l h
    | none => true) &&
  l.cfg.checked.all (fun m => m.kind == .integerArithmetic) &&
  Fp.isQNaN l.cfg.defaultNaN

/-- Construction (R470): a malformed configuration is refused (R447); else the fresh state of R49. -/
def construct (l : Launch) : Result :=
  if l.valid then
    .next { State.reset with
      cfg := l.cfg, base := l.base, prog := l.prog, pc := l.base, mem := Memory.ofCells l.cfg.memSize l.image }
  else .refused .configurationError

/-- The host sets a register before the first step (R50); `x[0]` stays 0, and after the first step nothing is set. -/
def State.preloadReg (s : State) (r : RegId) (v : Word) : State := if s.cycle = 0 then s.writeReg r v else s

/-- The host sets a byte of data memory before the first step (R50). -/
def State.preloadByte (s : State) (a : Nat) (v : Byte) : State :=
  if s.cycle = 0 ∧ a < s.cfg.memSize then { s with mem := s.mem.setByte a v } else s

/-- The snapshot: read-only views of the register file and memory (R186), and the cycle count (R41). -/
structure Snapshot where
  cycle : Nat
  reg  : List (RegId × Word)
  mem  : Memory
  deriving DecidableEq, Repr

/-- Every register identifier (R37). -/
def allRegs : List RegId :=
  (List.range 32).map (fun i => RegId.gpr (BitVec.ofNat 5 i)) ++
  (List.range 32).map (fun i => RegId.fpr (BitVec.ofNat 5 i)) ++ [.hi, .lo, .fcc]

/-- The snapshot of a state. -/
def State.snapshot (s : State) : Snapshot := ⟨s.cycle, allRegs.map (fun r => (r, s.readReg r)), s.mem⟩

/-- The run has drained (R181): nothing pending, IF, ID, EX and MEM empty, and `pc` at the end of the stream. -/
def State.drained (s : State) : Bool :=
  decide (s.ctrl = .normal) && !s.haltPending && s.fatalPending.isNone && s.slots.IF.isNone && s.slots.ID.isNone &&
  s.slots.EX.isNone && s.slots.MEM.isNone && decide (s.pc.toNat = s.streamEnd)

/-- The three ways a run ends (R181). -/
inductive RunEnd where
  | halted
  | fatal (kind : ExcKind) (pc : Word)
  | drained
  deriving DecidableEq, Repr

/-- How a run has ended in a state, if it has (R181). -/
def State.runEnd (s : State) : Option RunEnd :=
  match s.ctrl with
  | .halted => some .halted
  | .fatal k p => some (.fatal k p)
  | _ => if s.drained then some .drained else none

end Sys2Proof.Machine
end

