-- ==== Sys2Proof/Safety.lean ====
section
/-! DEFINITION. What a sound state of the engine is, in the terms claims use: the invariants of 40_pipeline.md R180 between
cycles, the hard-wired register (10_state.md R32) and the canonical form of data memory (R46), and what a run may answer. -/
namespace Sys2Proof.Machine

/-- Data memory is in its canonical form and lists no address outside it (R46). -/
def State.memSound (s : State) : Prop := Memory.wf s.mem = true ∧ Memory.within s.cfg.memSize s.mem = true

/-- The cell of the hard-wired register holds 0 (R32). -/
def State.zeroSound (s : State) : Prop := regGet s.x 0 = 0

/-- How many times a slot's entry will write `r`: its occurrences among the entry's destinations. -/
def writesIn (o : Option Entry) (r : RegId) : Nat :=
  match o with
  | some e => e.dsts.count r
  | none => 0

/-- Between cycles every pending-write marker counts the entries in Execute and Memory that will write its register; the
Write-back entry has committed (R40, R180). -/
def State.marksSound (s : State) : Prop := ∀ r, s.pend.get r = writesIn s.slots.EX r + writesIn s.slots.MEM r

/-- A slot that is empty or holds a decoded instruction, not a fault token. -/
def holdsInstr (o : Option Entry) : Prop := ∀ e, o = some e → ∃ i, e.inst = .instr i

/-- Every source of the entry has a captured operand value. -/
def Entry.captured (e : Entry) : Prop := ∀ r ∈ e.srcs, ∃ v, valueOf r e.ops = some v

/-- Every destination of the entry has a result. -/
def Entry.delivered (e : Entry) : Prop := ∀ r ∈ e.dsts, ∃ v, valueOf r e.res = some v

/-- The entry's results name each register once, only registers its instruction writes or the hard-wired one, and FCC gets a
truth value (R103, R160, R164). -/
def Entry.named (e : Entry) : Prop :=
  (e.res.map Prod.fst).Nodup ∧ (∀ p ∈ e.res, p.1 = .gpr 0 ∨ p.1 ∈ e.dsts) ∧
  ∀ p ∈ e.res, p.1 = .fcc → p.2 = boolWord (p.2.getLsbD 0)

/-- Fault tokens stay in Fetch and Decode, and never become ready (R433). -/
def State.tokensSound (s : State) : Prop :=
  holdsInstr s.slots.EX ∧ holdsInstr s.slots.MEM ∧ holdsInstr s.slots.WB ∧
  ∀ e, s.slots.ID = some e → e.ready = true → ∃ i, e.inst = .instr i

/-- Every entry past Decode has its operands captured (R180), and so has a ready one in Decode. -/
def State.operandsSound (s : State) : Prop :=
  (∀ e, s.slots.EX = some e → e.captured) ∧ (∀ e, s.slots.MEM = some e → e.captured) ∧
  (∀ e, s.slots.WB = some e → e.captured) ∧ ∀ e, s.slots.ID = some e → e.ready = true → e.captured

/-- What the hazard unit may forward exists (R171): a completed entry in Execute has results of its own destinations only,
and all of them unless it is a load; an entry in Memory that stays has completed (R162) with all of its results. -/
def State.resultsSound (s : State) : Prop :=
  (∀ e, s.slots.EX = some e → e.done = true → e.named ∧ (e.isLoad = false → e.delivered)) ∧
  (∀ e, s.slots.MEM = some e → e.discard = false → e.done = true ∧ e.named ∧ e.delivered)

/-- Between cycles no stage has its turn. -/
def State.atRest (s : State) : Prop := s.turn = .IF

/-- The invariant of a sound state between cycles. -/
structure State.Inv (s : State) : Prop where
  mem      : s.memSound
  zero     : s.zeroSound
  marks    : s.marksSound
  tokens   : s.tokensSound
  operands : s.operandsSound
  results  : s.resultsSound
  rest     : s.atRest

/-- A terminal engine (R42, R150). -/
def State.terminal (s : State) : Prop := s.ctrl.isHalted = true ∨ s.ctrl.isFatal = true

/-- A safe answer of a step: a state, never a fault or a refusal. -/
def safeAnswer (r : Result) : Prop := ∃ t, r = .next t

end Sys2Proof.Machine
end

