-- ==== Sys2Proof/Certificates/Slice0/Obligations.lean ====
section
/-! DEFINITION. The statements for the provers. The words they use come first: where an instruction stands (`AtDecode`,
`AtExecute`, `AtMemory`, `AtWriteBack`), the state it leaves (`finished`, `transferred`), and the spec's own readings of
bytes and of binary64 values, written here independently of the model's. -/
namespace Sys2Proof.Claims

open Sys2Proof Sys2Proof.Machine

/-! ## Where an instruction stands -/

/-- It is Execute's turn, and its slot holds `e` with one cycle left (R164 `X.rem = 1`). -/
def AtExecute (s : State) (e : Entry) : Prop := s.turn = .EX ∧ s.slots.EX = some e ∧ e.rem = 1

/-- It is Memory's turn, and its slot holds `e`. -/
def AtMemory (s : State) (e : Entry) : Prop := s.turn = .MEM ∧ s.slots.MEM = some e

/-- It is Write-back's turn, and its slot holds `e`. -/
def AtWriteBack (s : State) (e : Entry) : Prop := s.turn = .WB ∧ s.slots.WB = some e

/-- It is Decode's turn, and its slot holds `e`. -/
def AtDecode (s : State) (e : Entry) : Prop := s.turn = .ID ∧ s.slots.ID = some e

/-- The instruction in Execute, in its last cycle there, will complete as a taken transfer (R165) or as the halt call (R411): what
was fetched behind it is on a wrong path, discarded and not fetched again. -/
def LeavesThePath (s : State) (e : Entry) : Prop :=
  ∃ i t r, e.inst = .instr i ∧
    exec i.op { s with turn := .EX, slots := { s.slots with EX := some { e with rem := 1 } } } = .next t ∧
    t.slots.EX = some r ∧ r.done = true ∧ (r.taken = true ∨ r.sys = .halt)

/-- What is left of a slot when the marked entries have gone (R152). -/
def kept (o : Option Entry) : Option Entry :=
  match o with
  | some e => if e.discard = true then none else some e
  | none => none

/-- How often `r` is a destination of a slot's entry that is marked for discard. -/
def droppedMarks (o : Option Entry) (r : RegId) : Nat :=
  match o with
  | some e => if e.discard = true then e.dsts.count r else 0
  | none => 0

/-- Execute stays busy: what is left there has not completed (R153 `exBusy`). -/
def Busy (s : State) : Prop := ∃ x, kept s.slots.EX = some x ∧ x.done = false

/-- The front moves at the next boundary: Fetch or Decode is left empty, or Decode's entry is ready and Execute takes it
(R153). -/
def FrontMoves (s : State) : Prop :=
  kept s.slots.IF = none ∨ kept s.slots.ID = none ∨ ∃ d, kept s.slots.ID = some d ∧ d.ready = true ∧ ¬ Busy s

/-! ## The state an instruction leaves -/

/-- Execute has completed with these results and nothing else: no transfer, no call, every other field of the state as it was. -/
def finished (s : State) (e : Entry) (res : List (RegId × Word)) : State :=
  { s with slots := { s.slots with EX := some { e with res := res, taken := false, sys := .none, done := true } } }

/-- Execute has completed a memory instruction: its address and its store data are latched (R320). -/
def addressed (s : State) (e : Entry) (ea sval : Word) : State :=
  { s with
    slots :=
      { s.slots with
        EX := some { e with res := [], ea := ea, sval := sval, taken := false, sys := .none, done := true } } }

/-- An entry marked for discard. -/
def discarded (o : Option Entry) : Option Entry :=
  match o with
  | some e => some { e with discard := true }
  | none => none

/-- Execute has completed a taken transfer: Decode and Fetch are discarded and fetch is redirected (R165, R185). -/
def transferred (s : State) (e : Entry) (target : Word) (res : List (RegId × Word)) : State :=
  { s with
    slots :=
      { s.slots with
        IF := discarded s.slots.IF
        ID := discarded s.slots.ID
        EX := some { e with res := res, taken := true, target := target, sys := .none, done := true } }
    ctrl := .flushRequested 2 target
    report := { s.report with flush := some ⟨2, some target⟩ } }

/-- The exact result `z` of a checked operation of width `w` does not fit (R221). -/
abbrev Overflows (c : Config) (m : Mnemonic) (w : Nat) (z : Int) : Prop :=
  m ∈ c.checked ∧ ¬ (-(2 : Int) ^ (w - 1) ≤ z ∧ z < (2 : Int) ^ (w - 1))

/-- The low word of an operand. -/
def low (v : Word) : Word32 := v.setWidth 32

/-- 1 or 0. -/
def bit (p : Prop) [Decidable p] : Word := if p then 1 else 0

/-! ## Bytes of data memory (R74, R75) -/

/-- The place of byte `k` of a value of `n` bytes. -/
def bytePlace (o : ByteOrder) (n k : Nat) : Nat :=
  match o with
  | .little => k
  | .big => n - 1 - k

/-- `v` is the value of the `n` bytes at `a` (R74). -/
def MemoryHolds (c : Config) (m : Memory) (a n : Nat) (v : BitVec (8 * n)) : Prop :=
  ∀ k, k < n → v.extractLsb' (8 * k) 8 = m.byte (a + bytePlace c.byteOrder n k)

/-- An access that passes its checks (R73). -/
abbrev Accessible (c : Config) (a : Word) (n : Nat) : Prop := a.toNat % n = 0 ∧ a.toNat + n ≤ c.memSize

/-- Memory's part of a load that delivers `v` to `dst`. -/
def delivers (s : State) (e : Entry) (dst : RegId) (v : Word) : State :=
  { s with slots := { s.slots with MEM := some { e with res := [(dst, v)], done := true } } }

/-! ## Binary64 (R14, R381 to R383), written apart from the model's -/

/-- A NaN pattern. -/
abbrev IsNaN (v : Word) : Prop := v.extractLsb' 52 11 = 0x7FF ∧ v.extractLsb' 0 52 ≠ 0

/-- A signalling NaN: its quiet bit is 0. -/
abbrev IsSignalling (v : Word) : Prop := IsNaN v ∧ v.getLsbD 51 = false

/-- An infinity. -/
abbrev IsInfinite (v : Word) : Prop := v.extractLsb' 52 11 = 0x7FF ∧ v.extractLsb' 0 52 = 0

/-- +0 or -0. -/
abbrev IsZero (v : Word) : Prop := v.extractLsb' 0 63 = 0

/-- A finite pattern. -/
abbrev IsFinite (v : Word) : Prop := v.extractLsb' 52 11 ≠ 0x7FF

/-- The sign bit. -/
def negative (v : Word) : Bool := v.getLsbD 63

/-- The value of a pattern that is no NaN, as a rational; an infinity is given ±2^1024, beyond every finite value. -/
def real (v : Word) : ℚ :=
  (if negative v then -1 else 1) *
  (if v.extractLsb' 52 11 = 0 then ((v.extractLsb' 0 52).toNat : ℚ) * 2 ^ (-1074 : ℤ)
   else (2 ^ 52 + ((v.extractLsb' 0 52).toNat : ℚ)) * 2 ^ (((v.extractLsb' 52 11).toNat : ℤ) - 1075))

/-- `v` is the nonzero number `q` rounded to nearest, ties to the even fraction: an infinity from the halfway point above the
largest finite value on, else the closest finite value; the sign is that of `q` (R381, R382). -/
def Rounded (q : ℚ) (v : Word) : Prop :=
  negative v = decide (q < 0) ∧
  if (2 : ℚ) ^ (1024 : ℤ) - 2 ^ (970 : ℤ) ≤ |q| then IsInfinite v
  else IsFinite v ∧ (∀ w, IsFinite w → |real v - q| ≤ |real w - q|) ∧
    ((∃ w, IsFinite w ∧ real w ≠ real v ∧ |real w - q| = |real v - q|) → v.getLsbD 0 = false)

/-- `z` is the rational `q` rounded to the nearest integer, ties to even (R390). -/
def RoundedInt (q : ℚ) (z : ℤ) : Prop := |q - z| ≤ 1 / 2 ∧ (|q - z| = 1 / 2 → z % 2 = 0)

/-- The invalid-operation condition of an addition, and with the sign of the second operand flipped of a subtraction (R383). -/
abbrev InvalidAdd (a b : Word) : Prop :=
  IsSignalling a ∨ IsSignalling b ∨ (IsInfinite a ∧ IsInfinite b ∧ negative a ≠ negative b)

/-- The invalid-operation condition of a subtraction (R383). -/
abbrev InvalidSub (a b : Word) : Prop :=
  IsSignalling a ∨ IsSignalling b ∨ (IsInfinite a ∧ IsInfinite b ∧ negative a = negative b)

/-- The invalid-operation condition of a multiplication (R383). -/
abbrev InvalidMul (a b : Word) : Prop :=
  IsSignalling a ∨ IsSignalling b ∨ (IsZero a ∧ IsInfinite b) ∨ (IsInfinite a ∧ IsZero b)

/-- The invalid-operation condition of a division (R383). -/
abbrev InvalidDiv (a b : Word) : Prop :=
  IsSignalling a ∨ IsSignalling b ∨ (IsZero a ∧ IsZero b) ∨ (IsInfinite a ∧ IsInfinite b)

/-- The divide-by-zero condition (R383). -/
abbrev DividesByZero (a b : Word) : Prop := IsFinite a ∧ ¬ IsZero a ∧ IsZero b

/-- An infinity or a zero with a sign. -/
def signed (neg : Bool) (magnitude : Word) : Word := if neg then magnitude ||| 0x8000000000000000 else magnitude

/-! ## The hazard unit -/

/-- Where Decode finds the value of a source (R170, R171, R172, R173, R176): 0 for `r0`; the producer in Execute, which
stalls if it is a load or is not done; else the producer in Memory; else the register file. -/
def sourceValue (s : State) (r : RegId) : Option Word :=
  let writes := fun (o : Option Entry) => match o with
    | some p => decide (p.discard = false ∧ r ∈ p.dsts)
    | none => false
  if r = .gpr 0 then some 0
  else match s.slots.EX, s.slots.MEM with
    | some p, m =>
      if writes (some p) then (if p.done = true ∧ p.isLoad = false then some ((valueOf r p.res).getD 0) else none)
      else if writes m then some ((valueOf r ((m.map Entry.res).getD [])).getD 0) else some (s.readReg r)
    | none, m => if writes m then some ((valueOf r ((m.map Entry.res).getD [])).getD 0) else some (s.readReg r)

/-! ## Runs and launches -/

/-- `n` cycles. -/
def after (n : Nat) (s : State) : Result := Host.Core.run Sys2Proof.core n s

end Sys2Proof.Claims

open Sys2Proof Sys2Proof.Machine Sys2Proof.Claims

/-! ## Encoding -/

/-- Decoding the word of a well-formed instruction gives it back, every operand at every value (R105, R111). -/
def Obligations.DecodeOfEncode : Prop := ∀ i : Instr, i.wellFormed = true → decodeWord (encode i) = .ok i

/-- Every word that decodes is the word of exactly the instruction it decodes to: no bit is dropped (R105, R109, R111). -/
def Obligations.EncodeOfDecode : Prop :=
  ∀ (w : Word32) (i : Instr), decodeWord w = .ok i → i.wellFormed = true ∧ encode i = w

/-- R111: a word lies in two different rows of the opcode table only when it is the all-zero word and the rows are NOP and
SLL, and that word decodes to NOP; a word of any one row decodes to an instruction of that row. -/
def Obligations.RowsOfTheTableAreDisjoint : Prop :=
  (∀ (w : Word32) (a b : Mnemonic), a ≠ b →
    w &&& (opcodeRow a).mask = (opcodeRow a).pattern → w &&& (opcodeRow b).mask = (opcodeRow b).pattern →
    w = 0 ∧ ((a = .NOP ∧ b = .SLL) ∨ (a = .SLL ∧ b = .NOP))) ∧
  decodeWord 0 = .ok .nop ∧
  ∀ (w : Word32) (m : Mnemonic), w ≠ 0 → w &&& (opcodeRow m).mask = (opcodeRow m).pattern →
    ∃ i, decodeWord w = .ok i ∧ i.mnemonic = m

/-- R112: a word that matches no row is an invalid instruction, and no word is a malformed operand (R113). -/
def Obligations.UnmatchedWordsAreInvalid : Prop :=
  ∀ w : Word32,
    ((∀ m, w &&& (opcodeRow m).mask ≠ (opcodeRow m).pattern) → decodeWord w = .error .invalidInstruction) ∧
    decodeWord w ≠ .error .malformedOperand

/-- Words written out from the spec's formats and tables, one or two of each family (R105, R107, R108, R110). -/
def Obligations.WordsOfTheSpecDecode : Prop :=
  decodeWord 0b000000_00001_00010_00011_00000_100000 = .ok (.add 3 1 2) ∧
  decodeWord 0b011000_00100_00101_0000000000000001 = .ok (.daddi 5 4 1) ∧
  decodeWord 0b000000_00001_00010_00000_00000_011000 = .ok (.mult 1 2) ∧
  decodeWord 0b000000_00000_00001_00010_00100_000011 = .ok (.sra 2 1 4) ∧
  decodeWord 0b110111_00001_00010_0000000000000000 = .ok (.ld 2 1 0) ∧
  decodeWord 0b111101_00001_00010_0000000000001000 = .ok (.sdc1 2 1 8) ∧
  decodeWord 0b000001_00001_00001_0000000000000011 = .ok (.bgez 1 3) ∧
  decodeWord 0b010001_01000_00001_0000000000000011 = .ok (.bc1t 3) ∧
  decodeWord 0b000011_00000000000000000010000000 = .ok (.jal 0x80) ∧
  decodeWord 0b010001_10001_00011_00010_00100_000000 = .ok (.addD 4 2 3) ∧
  decodeWord 0b010001_00101_00010_00100_00000000000 = .ok (.dmtc1 2 4) ∧
  decodeWord 0b000000_00000000000000000101_001101 = .ok (.brk 5) ∧
  decodeWord 0x00000001 = .error .invalidInstruction

/-- R175 and R35, R36: `r0` is a destination of no instruction; HI and LO are destinations of exactly the multiplies and
divides, both at once, and sources of exactly MFHI and MFLO; FCC is the destination of exactly the two compares and a source
of exactly the two FP branches. -/
def Obligations.SpecialRegistersAreNamedOnlyByTheirInstructions : Prop :=
  ∀ i : Instr,
    RegId.gpr 0 ∉ i.dsts ∧
    (RegId.hi ∈ i.dsts ↔ i.mnemonic ∈ [.MULT, .MULTU, .DMULT, .DMULTU, .DIV, .DIVU, .DDIV, .DDIVU]) ∧
    (RegId.lo ∈ i.dsts ↔ RegId.hi ∈ i.dsts) ∧
    (RegId.hi ∈ i.srcs ↔ i.mnemonic = .MFHI) ∧ (RegId.lo ∈ i.srcs ↔ i.mnemonic = .MFLO) ∧
    (RegId.fcc ∈ i.dsts ↔ i.mnemonic ∈ [.C_EQ_D, .C_LT_D]) ∧ (RegId.fcc ∈ i.srcs ↔ i.mnemonic ∈ [.BC1F, .BC1T])

/-! ## Integer arithmetic -/

/-- ADD, ADDU, SUB, SUBU on the low words of their operands: the wrapped word, sign-extended, or `Overflow` when the
mnemonic is checked and the exact result does not fit (R221 to R226). -/
def Obligations.WordAddAndSubtract : Prop :=
  ∀ (s : State) (e : Entry) (rd rs rt : RegNum), AtExecute s e →
    (if Overflows s.cfg .ADD 32 ((low (e.x rs)).toInt + (low (e.x rt)).toInt) then
      exec (.add rd rs rt) s = .next (s.takeException .EX .overflow e.pc e.pc)
    else exec (.add rd rs rt) s = .next (finished s e [(.gpr rd, (low (e.x rs) + low (e.x rt)).signExtend 64)])) ∧
    (if Overflows s.cfg .ADDU 32 ((low (e.x rs)).toInt + (low (e.x rt)).toInt) then
      exec (.addu rd rs rt) s = .next (s.takeException .EX .overflow e.pc e.pc)
    else exec (.addu rd rs rt) s = .next (finished s e [(.gpr rd, (low (e.x rs) + low (e.x rt)).signExtend 64)])) ∧
    (if Overflows s.cfg .SUB 32 ((low (e.x rs)).toInt - (low (e.x rt)).toInt) then
      exec (.sub rd rs rt) s = .next (s.takeException .EX .overflow e.pc e.pc)
    else exec (.sub rd rs rt) s = .next (finished s e [(.gpr rd, (low (e.x rs) - low (e.x rt)).signExtend 64)])) ∧
    (if Overflows s.cfg .SUBU 32 ((low (e.x rs)).toInt - (low (e.x rt)).toInt) then
      exec (.subu rd rs rt) s = .next (s.takeException .EX .overflow e.pc e.pc)
    else exec (.subu rd rs rt) s = .next (finished s e [(.gpr rd, (low (e.x rs) - low (e.x rt)).signExtend 64)]))

/-- DADD, DADDU, DSUB, DSUBU on their whole operands (R227 to R230). -/
def Obligations.DoublewordAddAndSubtract : Prop :=
  ∀ (s : State) (e : Entry) (rd rs rt : RegNum), AtExecute s e →
    (if Overflows s.cfg .DADD 64 ((e.x rs).toInt + (e.x rt).toInt) then
      exec (.dadd rd rs rt) s = .next (s.takeException .EX .overflow e.pc e.pc)
    else exec (.dadd rd rs rt) s = .next (finished s e [(.gpr rd, e.x rs + e.x rt)])) ∧
    (if Overflows s.cfg .DADDU 64 ((e.x rs).toInt + (e.x rt).toInt) then
      exec (.daddu rd rs rt) s = .next (s.takeException .EX .overflow e.pc e.pc)
    else exec (.daddu rd rs rt) s = .next (finished s e [(.gpr rd, e.x rs + e.x rt)])) ∧
    (if Overflows s.cfg .DSUB 64 ((e.x rs).toInt - (e.x rt).toInt) then
      exec (.dsub rd rs rt) s = .next (s.takeException .EX .overflow e.pc e.pc)
    else exec (.dsub rd rs rt) s = .next (finished s e [(.gpr rd, e.x rs - e.x rt)])) ∧
    (if Overflows s.cfg .DSUBU 64 ((e.x rs).toInt - (e.x rt).toInt) then
      exec (.dsubu rd rs rt) s = .next (s.takeException .EX .overflow e.pc e.pc)
    else exec (.dsubu rd rs rt) s = .next (finished s e [(.gpr rd, e.x rs - e.x rt)]))

/-- ADDI, ADDIU, DADDI, DADDIU: the immediate is sign-extended by all four (R231 to R234). -/
def Obligations.AddImmediate : Prop :=
  ∀ (s : State) (e : Entry) (rt rs : RegNum) (imm : BitVec 16), AtExecute s e →
    (if Overflows s.cfg .ADDI 32 ((low (e.x rs)).toInt + imm.toInt) then
      exec (.addi rt rs imm) s = .next (s.takeException .EX .overflow e.pc e.pc)
    else exec (.addi rt rs imm) s =
      .next (finished s e [(.gpr rt, (low (e.x rs) + imm.signExtend 32).signExtend 64)])) ∧
    (if Overflows s.cfg .ADDIU 32 ((low (e.x rs)).toInt + imm.toInt) then
      exec (.addiu rt rs imm) s = .next (s.takeException .EX .overflow e.pc e.pc)
    else exec (.addiu rt rs imm) s =
      .next (finished s e [(.gpr rt, (low (e.x rs) + imm.signExtend 32).signExtend 64)])) ∧
    (if Overflows s.cfg .DADDI 64 ((e.x rs).toInt + imm.toInt) then
      exec (.daddi rt rs imm) s = .next (s.takeException .EX .overflow e.pc e.pc)
    else exec (.daddi rt rs imm) s = .next (finished s e [(.gpr rt, e.x rs + imm.signExtend 64)])) ∧
    (if Overflows s.cfg .DADDIU 64 ((e.x rs).toInt + imm.toInt) then
      exec (.daddiu rt rs imm) s = .next (s.takeException .EX .overflow e.pc e.pc)
    else exec (.daddiu rt rs imm) s = .next (finished s e [(.gpr rt, e.x rs + imm.signExtend 64)]))

/-- SLT, SLTU, SLTI, SLTIU: 1 or 0 from a 64-bit comparison; SLTIU compares its sign-extended immediate unsigned; none is
affected by the checked set (R221, R235 to R238). -/
def Obligations.SetOnLessThan : Prop :=
  ∀ (s : State) (e : Entry) (rd rs rt : RegNum) (imm : BitVec 16), AtExecute s e →
    exec (.slt rd rs rt) s = .next (finished s e [(.gpr rd, bit ((e.x rs).toInt < (e.x rt).toInt))]) ∧
    exec (.sltu rd rs rt) s = .next (finished s e [(.gpr rd, bit ((e.x rs).toNat < (e.x rt).toNat))]) ∧
    exec (.slti rt rs imm) s = .next (finished s e [(.gpr rt, bit ((e.x rs).toInt < imm.toInt))]) ∧
    exec (.sltiu rt rs imm) s = .next (finished s e [(.gpr rt, bit ((e.x rs).toNat < (imm.signExtend 64).toNat))])

/-- MULT, MULTU, DMULT, DMULTU: HI and LO together take the halves of the full product, the word forms sign-extending both
halves; `Overflow` only when the mnemonic is checked and the product does not fit the operand width (R239 to R242). -/
def Obligations.MultiplyIntoHiAndLo : Prop :=
  ∀ (s : State) (e : Entry) (rs rt : RegNum), AtExecute s e →
    (if Overflows s.cfg .MULT 32 ((low (e.x rs)).toInt * (low (e.x rt)).toInt) then
      exec (.mult rs rt) s = .next (s.takeException .EX .overflow e.pc e.pc)
    else
      let p := (low (e.x rs)).signExtend 64 * (low (e.x rt)).signExtend 64
      exec (.mult rs rt) s = .next (finished s e
        [(.hi, (p.extractLsb' 32 32).signExtend 64), (.lo, (p.extractLsb' 0 32).signExtend 64)])) ∧
    (if .MULTU ∈ s.cfg.checked ∧ 2 ^ 32 ≤ (low (e.x rs)).toNat * (low (e.x rt)).toNat then
      exec (.multu rs rt) s = .next (s.takeException .EX .overflow e.pc e.pc)
    else
      let p := (low (e.x rs)).setWidth 64 * (low (e.x rt)).setWidth 64
      exec (.multu rs rt) s = .next (finished s e
        [(.hi, (p.extractLsb' 32 32).signExtend 64), (.lo, (p.extractLsb' 0 32).signExtend 64)])) ∧
    (if Overflows s.cfg .DMULT 64 ((e.x rs).toInt * (e.x rt).toInt) then
      exec (.dmult rs rt) s = .next (s.takeException .EX .overflow e.pc e.pc)
    else
      let p := (e.x rs).signExtend 128 * (e.x rt).signExtend 128
      exec (.dmult rs rt) s = .next (finished s e [(.hi, p.extractLsb' 64 64), (.lo, p.extractLsb' 0 64)])) ∧
    (if .DMULTU ∈ s.cfg.checked ∧ 2 ^ 64 ≤ (e.x rs).toNat * (e.x rt).toNat then
      exec (.dmultu rs rt) s = .next (s.takeException .EX .overflow e.pc e.pc)
    else
      let p := (e.x rs).setWidth 128 * (e.x rt).setWidth 128
      exec (.dmultu rs rt) s = .next (finished s e [(.hi, p.extractLsb' 64 64), (.lo, p.extractLsb' 0 64)]))

/-- DIV, DIVU, DDIV, DDIVU with a nonzero divisor: LO takes the quotient truncated toward zero, HI the remainder with the
dividend's sign; the one quotient that does not fit wraps, or raises `Overflow` when the mnemonic is checked; the unsigned
forms have no overflow (R11, R221, R243 to R246). -/
def Obligations.DivideIntoHiAndLo : Prop :=
  ∀ (s : State) (e : Entry) (rs rt : RegNum), AtExecute s e →
    (low (e.x rt) ≠ 0 →
      (if .DIV ∈ s.cfg.checked ∧ low (e.x rs) = BitVec.intMin 32 ∧ low (e.x rt) = -1 then
        exec (.div rs rt) s = .next (s.takeException .EX .overflow e.pc e.pc)
      else exec (.div rs rt) s = .next (finished s e
        [(.hi, ((low (e.x rs)).srem (low (e.x rt))).signExtend 64),
          (.lo, ((low (e.x rs)).sdiv (low (e.x rt))).signExtend 64)])) ∧
      exec (.divu rs rt) s = .next (finished s e
        [(.hi, (low (e.x rs) % low (e.x rt)).signExtend 64), (.lo, (low (e.x rs) / low (e.x rt)).signExtend 64)])) ∧
    (e.x rt ≠ 0 →
      (if .DDIV ∈ s.cfg.checked ∧ e.x rs = BitVec.intMin 64 ∧ e.x rt = -1 then
        exec (.ddiv rs rt) s = .next (s.takeException .EX .overflow e.pc e.pc)
      else exec (.ddiv rs rt) s =
        .next (finished s e [(.hi, (e.x rs).srem (e.x rt)), (.lo, (e.x rs).sdiv (e.x rt))])) ∧
      exec (.ddivu rs rt) s = .next (finished s e [(.hi, e.x rs % e.x rt), (.lo, e.x rs / e.x rt)]))

/-- A zero divisor raises `DivideByZero` from all four divides, whatever is checked; a word divide looks at the low word of
its divisor only (R222, R243 to R246). -/
def Obligations.ZeroDivisorRaisesDivideByZero : Prop :=
  ∀ (s : State) (e : Entry) (rs rt : RegNum), AtExecute s e →
    (low (e.x rt) = 0 →
      exec (.div rs rt) s = .next (s.takeException .EX .divideByZero e.pc e.pc) ∧
      exec (.divu rs rt) s = .next (s.takeException .EX .divideByZero e.pc e.pc)) ∧
    (e.x rt = 0 →
      exec (.ddiv rs rt) s = .next (s.takeException .EX .divideByZero e.pc e.pc) ∧
      exec (.ddivu rs rt) s = .next (s.takeException .EX .divideByZero e.pc e.pc))

/-! ## Moves, logic and shifts -/

/-- MFHI, MFLO, MOVZ, MOVN, LUI and NOP: HI and LO are captured sources; MOVZ and MOVN write their destination's old value
when the condition fails; NOP has no result (R247, R248, R281, R289 to R291). -/
def Obligations.MovesBetweenRegisters : Prop :=
  ∀ (s : State) (e : Entry) (rd rs rt : RegNum) (imm : BitVec 16), AtExecute s e →
    exec (.mfhi rd) s = .next (finished s e [(.gpr rd, e.op .hi)]) ∧
    exec (.mflo rd) s = .next (finished s e [(.gpr rd, e.op .lo)]) ∧
    (e.x rt = 0 →
      exec (.movz rd rs rt) s = .next (finished s e [(.gpr rd, e.x rs)]) ∧
      exec (.movn rd rs rt) s = .next (finished s e [(.gpr rd, e.x rd)])) ∧
    (e.x rt ≠ 0 →
      exec (.movz rd rs rt) s = .next (finished s e [(.gpr rd, e.x rd)]) ∧
      exec (.movn rd rs rt) s = .next (finished s e [(.gpr rd, e.x rs)])) ∧
    exec (.lui rt imm) s = .next (finished s e [(.gpr rt, (imm.setWidth 32 <<< 16).signExtend 64)]) ∧
    exec .nop s = .next (finished s e [])

/-- AND, OR, XOR, NOR bit by bit on the whole operands, and ANDI, ORI, XORI with the immediate zero-extended (R282 to
R288). -/
def Obligations.LogicalBitByBit : Prop :=
  ∀ (s : State) (e : Entry) (rd rs rt : RegNum) (imm : BitVec 16), AtExecute s e →
    ∃ a o x n ai oi xi : Word,
      exec (.and rd rs rt) s = .next (finished s e [(.gpr rd, a)]) ∧
      exec (.or rd rs rt) s = .next (finished s e [(.gpr rd, o)]) ∧
      exec (.xor rd rs rt) s = .next (finished s e [(.gpr rd, x)]) ∧
      exec (.nor rd rs rt) s = .next (finished s e [(.gpr rd, n)]) ∧
      exec (.andi rt rs imm) s = .next (finished s e [(.gpr rt, ai)]) ∧
      exec (.ori rt rs imm) s = .next (finished s e [(.gpr rt, oi)]) ∧
      exec (.xori rt rs imm) s = .next (finished s e [(.gpr rt, xi)]) ∧
      ∀ k < 64,
        a.getLsbD k = ((e.x rs).getLsbD k && (e.x rt).getLsbD k) ∧
        o.getLsbD k = ((e.x rs).getLsbD k || (e.x rt).getLsbD k) ∧
        x.getLsbD k = ((e.x rs).getLsbD k ^^ (e.x rt).getLsbD k) ∧
        n.getLsbD k = !((e.x rs).getLsbD k || (e.x rt).getLsbD k) ∧
        ai.getLsbD k = ((e.x rs).getLsbD k && imm.getLsbD k) ∧
        oi.getLsbD k = ((e.x rs).getLsbD k || imm.getLsbD k) ∧
        xi.getLsbD k = ((e.x rs).getLsbD k ^^ imm.getLsbD k)

/-- SLL, SRL, SRA by `sa`, and SLLV, SRLV, SRAV by `x[rs] mod 32`: each shifts the low word of `rt` and sign-extends the
32-bit result; an arithmetic right shift is division by a power of two rounded down (R292, R300 to R305). -/
def Obligations.WordShifts : Prop :=
  ∀ (s : State) (e : Entry) (rd rt rs : RegNum) (sa : BitVec 5), AtExecute s e →
    let v := low (e.x rt)
    let n := (e.x rs).toNat % 32
    exec (.sll rd rt sa) s =
      .next (finished s e [(.gpr rd, (BitVec.ofNat 32 (v.toNat * 2 ^ sa.toNat)).signExtend 64)]) ∧
    exec (.srl rd rt sa) s =
      .next (finished s e [(.gpr rd, (BitVec.ofNat 32 (v.toNat / 2 ^ sa.toNat)).signExtend 64)]) ∧
    exec (.sra rd rt sa) s = .next (finished s e [(.gpr rd, BitVec.ofInt 64 (v.toInt / 2 ^ sa.toNat))]) ∧
    exec (.sllv rd rt rs) s = .next (finished s e [(.gpr rd, (BitVec.ofNat 32 (v.toNat * 2 ^ n)).signExtend 64)]) ∧
    exec (.srlv rd rt rs) s = .next (finished s e [(.gpr rd, (BitVec.ofNat 32 (v.toNat / 2 ^ n)).signExtend 64)]) ∧
    exec (.srav rd rt rs) s = .next (finished s e [(.gpr rd, BitVec.ofInt 64 (v.toInt / 2 ^ n))])

/-- DSLL, DSRL, DSRA by `sa`, DSLL32, DSRL32, DSRA32 by `sa + 32`, DSLLV, DSRLV, DSRAV by `x[rs] mod 64`, on the whole
operand (R306 to R314). -/
def Obligations.DoublewordShifts : Prop :=
  ∀ (s : State) (e : Entry) (rd rt rs : RegNum) (sa : BitVec 5), AtExecute s e →
    let v := e.x rt
    let n := (e.x rs).toNat % 64
    exec (.dsll rd rt sa) s = .next (finished s e [(.gpr rd, BitVec.ofNat 64 (v.toNat * 2 ^ sa.toNat))]) ∧
    exec (.dsrl rd rt sa) s = .next (finished s e [(.gpr rd, BitVec.ofNat 64 (v.toNat / 2 ^ sa.toNat))]) ∧
    exec (.dsra rd rt sa) s = .next (finished s e [(.gpr rd, BitVec.ofInt 64 (v.toInt / 2 ^ sa.toNat))]) ∧
    exec (.dsll32 rd rt sa) s =
      .next (finished s e [(.gpr rd, BitVec.ofNat 64 (v.toNat * 2 ^ (sa.toNat + 32)))]) ∧
    exec (.dsrl32 rd rt sa) s =
      .next (finished s e [(.gpr rd, BitVec.ofNat 64 (v.toNat / 2 ^ (sa.toNat + 32)))]) ∧
    exec (.dsra32 rd rt sa) s =
      .next (finished s e [(.gpr rd, BitVec.ofInt 64 (v.toInt / 2 ^ (sa.toNat + 32)))]) ∧
    exec (.dsllv rd rt rs) s = .next (finished s e [(.gpr rd, BitVec.ofNat 64 (v.toNat * 2 ^ n))]) ∧
    exec (.dsrlv rd rt rs) s = .next (finished s e [(.gpr rd, BitVec.ofNat 64 (v.toNat / 2 ^ n))]) ∧
    exec (.dsrav rd rt rs) s = .next (finished s e [(.gpr rd, BitVec.ofInt 64 (v.toInt / 2 ^ n))])

/-! ## Loads and stores -/

/-- R320: every load and store latches `x[rs] + sext_64(imm)` modulo 2^64 in Execute, a store its data operand too; Execute
checks nothing and raises nothing. -/
def Obligations.MemoryInstructionsLatchTheirAddress : Prop :=
  ∀ (s : State) (e : Entry) (rt rs : RegNum) (imm : BitVec 16), AtExecute s e →
    (∀ i ∈ [Instr.lb rt rs imm, .lbu rt rs imm, .lh rt rs imm, .lhu rt rs imm, .lw rt rs imm, .lwu rt rs imm,
        .ld rt rs imm, .ldc1 rt rs imm],
      exec i s = .next (addressed s e (e.x rs + imm.signExtend 64) e.sval)) ∧
    (∀ i ∈ [Instr.sb rt rs imm, .sh rt rs imm, .sw rt rs imm, .sd rt rs imm],
      exec i s = .next (addressed s e (e.x rs + imm.signExtend 64) (e.x rt))) ∧
    exec (.sdc1 rt rs imm) s = .next (addressed s e (e.x rs + imm.signExtend 64) (e.f rt))

/-- LB, LBU, LH, LHU, LW, LWU, LD, LDC1 in Memory: an access that passes its checks delivers the bytes at the latched address
in the configured order, sign- or zero-extended, LDC1's to a floating-point register; nothing else changes, memory
included (R74, R321, R323 to R330). -/
def Obligations.LoadsDeliverTheBytesOfMemory : Prop :=
  ∀ (s : State) (e : Entry) (rt rs : RegNum) (imm : BitVec 16), AtMemory s e →
    (Accessible s.cfg e.ea 1 → ∃ v : BitVec 8, MemoryHolds s.cfg s.mem e.ea.toNat 1 v ∧
      exec (.lb rt rs imm) s = .next (delivers s e (.gpr rt) (v.signExtend 64)) ∧
      exec (.lbu rt rs imm) s = .next (delivers s e (.gpr rt) (v.setWidth 64))) ∧
    (Accessible s.cfg e.ea 2 → ∃ v : BitVec 16, MemoryHolds s.cfg s.mem e.ea.toNat 2 v ∧
      exec (.lh rt rs imm) s = .next (delivers s e (.gpr rt) (v.signExtend 64)) ∧
      exec (.lhu rt rs imm) s = .next (delivers s e (.gpr rt) (v.setWidth 64))) ∧
    (Accessible s.cfg e.ea 4 → ∃ v : BitVec 32, MemoryHolds s.cfg s.mem e.ea.toNat 4 v ∧
      exec (.lw rt rs imm) s = .next (delivers s e (.gpr rt) (v.signExtend 64)) ∧
      exec (.lwu rt rs imm) s = .next (delivers s e (.gpr rt) (v.setWidth 64))) ∧
    (Accessible s.cfg e.ea 8 → ∃ v : BitVec 64, MemoryHolds s.cfg s.mem e.ea.toNat 8 v ∧
      exec (.ld rt rs imm) s = .next (delivers s e (.gpr rt) v) ∧
      exec (.ldc1 rt rs imm) s = .next (delivers s e (.fpr rt) v))

/-- SB, SH, SW, SD, SDC1 in Memory, over a memory in its canonical form: an access that passes its checks stores the low
bytes of the latched data at the latched address in the configured order, every other byte reads as before, the memory
keeps its form and its bounds, and nothing else of the state changes (R75, R321, R331 to R335). -/
def Obligations.StoresWriteTheirBytesOnly : Prop :=
  ∀ (s : State) (e : Entry) (rt rs : RegNum) (imm : BitVec 16), AtMemory s e → s.memSound →
    ∀ p ∈ [(Instr.sb rt rs imm, 1), (.sh rt rs imm, 2), (.sw rt rs imm, 4), (.sd rt rs imm, 8), (.sdc1 rt rs imm, 8)],
      Accessible s.cfg e.ea p.2 →
      ∃ m : Memory,
        exec p.1 s = .next { s with mem := m, slots := { s.slots with MEM := some { e with done := true } } } ∧
        (∀ k < p.2, m.byte (e.ea.toNat + bytePlace s.cfg.byteOrder p.2 k) = e.sval.extractLsb' (8 * k) 8) ∧
        (∀ a, a < e.ea.toNat ∨ e.ea.toNat + p.2 ≤ a → m.byte a = s.mem.byte a) ∧
        Memory.wf m = true ∧ Memory.within s.cfg.memSize m = true

/-- R73: an access is checked for alignment first, then for its range without wrap-around; a failing load or store raises
`Misaligned` or `OutOfBounds` from Memory with its address, and memory, the registers and the pending markers stay. -/
def Obligations.FailingAccessesRaiseAndDoNothingElse : Prop :=
  ∀ (s : State) (e : Entry) (rt rs : RegNum) (imm : BitVec 16), AtMemory s e →
    ∀ p ∈ [(Instr.lb rt rs imm, 1), (.lbu rt rs imm, 1), (.lh rt rs imm, 2), (.lhu rt rs imm, 2), (.lw rt rs imm, 4),
        (.lwu rt rs imm, 4), (.ld rt rs imm, 8), (.ldc1 rt rs imm, 8), (.sb rt rs imm, 1), (.sh rt rs imm, 2),
        (.sw rt rs imm, 4), (.sd rt rs imm, 8), (.sdc1 rt rs imm, 8)],
      ¬ Accessible s.cfg e.ea p.2 →
      ∃ t, exec p.1 s = .next t ∧
        t = s.takeException .MEM (if e.ea.toNat % p.2 ≠ 0 then .misaligned else .outOfBounds) e.pc e.ea ∧
        t.mem = s.mem ∧ t.x = s.x ∧ t.f = s.f ∧ t.HI = s.HI ∧ t.LO = s.LO ∧ t.FCC = s.FCC ∧ t.pend = s.pend

/-- R76: what a write stored, a read of the same width at the same aligned in-range address returns, in either byte order. -/
def Obligations.StoreThenLoadReturnsTheValue : Prop :=
  ∀ (o : ByteOrder) (m : Memory) (a n : Nat) (v : Word), Memory.wf m = true → n ∈ [1, 2, 4, 8] →
    memRead o (memWrite o m a n v) a n = (v.setWidth (8 * n)).toNat

/-- Every instruction that is no load and no store does nothing in Memory but complete there, and touches no byte (R162). -/
def Obligations.OtherInstructionsPassMemory : Prop :=
  ∀ (i : Instr) (s : State) (e : Entry), AtMemory s e → i.kind ≠ .load → i.kind ≠ .store →
    exec i s = .next { s with slots := { s.slots with MEM := some { e with done := true } } }

/-! ## Branches and jumps -/

/-- BEQ, BNE, BLEZ, BGTZ, BLTZ, BGEZ, BC1F, BC1T: when the condition on the captured operands holds, the transfer to
`pc + 4 + 4·sext(imm)` is taken, with no result; else Execute completes and nothing is flushed (R351, R356, R359 to
R366). -/
def Obligations.BranchesAreTakenOnTheirConditions : Prop :=
  ∀ (s : State) (e : Entry) (rs rt : RegNum) (imm : BitVec 16), AtExecute s e →
    let target := e.pc + 4 + imm.signExtend 64 * 4
    ∀ p ∈ [(Instr.beq rs rt imm, decide (e.x rs = e.x rt)), (.bne rs rt imm, decide (e.x rs ≠ e.x rt)),
        (.blez rs imm, decide ((e.x rs).toInt ≤ 0)), (.bgtz rs imm, decide (0 < (e.x rs).toInt)),
        (.bltz rs imm, (e.x rs).getLsbD 63), (.bgez rs imm, !(e.x rs).getLsbD 63),
        (.bc1f imm, !(e.op .fcc).getLsbD 0), (.bc1t imm, (e.op .fcc).getLsbD 0)],
      exec p.1 s = .next (if p.2 = true then transferred s e target [] else finished s e [])

/-- J and JAL to the word `index` of the 256 MB region of `pc + 4`, JR and JALR to the captured operand, bad targets included:
always taken; JAL links `pc + 4` in `r31` and JALR in `rd`, from the operand read before (R351, R352, R357, R367 to R370). -/
def Obligations.JumpsAreAlwaysTaken : Prop :=
  ∀ (s : State) (e : Entry) (rd rs : RegNum) (index : BitVec 26), AtExecute s e →
    let after : Word := e.pc + 4
    let region : Word := after &&& 0xFFFFFFFFF0000000
    let target : Word := region ||| index.setWidth 64 <<< 2
    exec (.j index) s = .next (transferred s e target []) ∧
    exec (.jal index) s = .next (transferred s e target [(.gpr 31, e.pc + 4)]) ∧
    exec (.jr rs) s = .next (transferred s e (e.x rs) []) ∧
    exec (.jalr rd rs) s = .next (transferred s e (e.x rs) [(.gpr rd, e.pc + 4)])

/-! ## Floating point -/

/-- ADD.D, SUB.D, MUL.D, DIV.D of finite operands, no zero divisor, with a nonzero exact result: the register result is the
exact rational result rounded once to nearest, ties to even (R381, R384 to R387). -/
def Obligations.FloatArithmeticRoundsToNearestEven : Prop :=
  ∀ (s : State) (e : Entry) (fd fs ft : RegNum), AtExecute s e → IsFinite (e.f fs) → IsFinite (e.f ft) →
    ∀ p ∈ [(Instr.addD fd fs ft, real (e.f fs) + real (e.f ft)), (.subD fd fs ft, real (e.f fs) - real (e.f ft)),
        (.mulD fd fs ft, real (e.f fs) * real (e.f ft)), (.divD fd fs ft, real (e.f fs) / real (e.f ft))],
      p.2 ≠ 0 → ∃ v, Rounded p.2 v ∧ exec p.1 s = .next (finished s e [(.fpr fd, v)])

/-- The exact zeros and the infinities of the four operations, where no condition of R383 is raised: `x - x` is +0 and the
sum of two -0 is -0; a zero product or quotient and an infinite one take the exclusive or of the signs; an infinite operand
of a sum wins; a finite nonzero value over a zero is an infinity unless that traps (R382 to R387). -/
def Obligations.FloatZerosAndInfinities : Prop :=
  ∀ (s : State) (e : Entry) (fd fs ft : RegNum), AtExecute s e → ¬ IsNaN (e.f fs) → ¬ IsNaN (e.f ft) →
    let a := e.f fs
    let b := e.f ft
    let is := fun (i : Instr) (v : Word) => exec i s = .next (finished s e [(.fpr fd, v)])
    let xor := negative a != negative b
    (IsFinite a → IsFinite b → real a + real b = 0 →
      is (.addD fd fs ft) (signed (negative a && negative b) 0)) ∧
    (IsFinite a → IsFinite b → real a - real b = 0 →
      is (.subD fd fs ft) (signed (negative a && !negative b) 0)) ∧
    (IsInfinite a → ¬ InvalidAdd a b → is (.addD fd fs ft) a) ∧
    (IsFinite a → IsInfinite b → is (.addD fd fs ft) b) ∧
    (IsInfinite a → ¬ InvalidSub a b → is (.subD fd fs ft) a) ∧
    (IsFinite a → IsInfinite b → is (.subD fd fs ft) (signed (!negative b) 0x7FF0000000000000)) ∧
    (IsFinite a → IsFinite b → (IsZero a ∨ IsZero b) → is (.mulD fd fs ft) (signed xor 0)) ∧
    ((IsInfinite a ∨ IsInfinite b) → ¬ InvalidMul a b → is (.mulD fd fs ft) (signed xor 0x7FF0000000000000)) ∧
    (IsZero a → IsFinite b → ¬ IsZero b → is (.divD fd fs ft) (signed xor 0)) ∧
    (IsFinite a → IsInfinite b → is (.divD fd fs ft) (signed xor 0)) ∧
    (IsInfinite a → IsFinite b → is (.divD fd fs ft) (signed xor 0x7FF0000000000000)) ∧
    (DividesByZero a b → s.cfg.trapFpDivByZero = false →
      is (.divD fd fs ft) (signed xor 0x7FF0000000000000))

/-- R382, R383: an invalid operation of the four raises `FpInvalid` while its trap is enabled, and else gives the configured
NaN, as any NaN operand does; a finite nonzero value over a zero raises `FpDivideByZero` while that trap is enabled. -/
def Obligations.FloatInvalidAndDivideByZero : Prop :=
  ∀ (s : State) (e : Entry) (fd fs ft : RegNum), AtExecute s e →
    let a := e.f fs
    let b := e.f ft
    (∀ p ∈ [(Instr.addD fd fs ft, decide (InvalidAdd a b)), (.subD fd fs ft, decide (InvalidSub a b)),
        (.mulD fd fs ft, decide (InvalidMul a b)), (.divD fd fs ft, decide (InvalidDiv a b))],
      (p.2 = true → s.cfg.trapFpInvalid = true →
        exec p.1 s = .next (s.takeException .EX .fpInvalid e.pc e.pc)) ∧
      ((p.2 = true ∧ s.cfg.trapFpInvalid = false) ∨ (p.2 = false ∧ (IsNaN a ∨ IsNaN b)) →
        exec p.1 s = .next (finished s e [(.fpr fd, s.cfg.defaultNaN)]))) ∧
    (DividesByZero a b → s.cfg.trapFpDivByZero = true →
      exec (.divD fd fs ft) s = .next (s.takeException .EX .fpDivideByZero e.pc e.pc))

/-- MOV.D, DMFC1, DMTC1 copy 64-bit patterns unchanged, signalling NaNs included, between the register files they name
(R382, R388, R391, R392). -/
def Obligations.FloatMovesCopyPatterns : Prop :=
  ∀ (s : State) (e : Entry) (fd fs rt : RegNum), AtExecute s e →
    exec (.movD fd fs) s = .next (finished s e [(.fpr fd, e.f fs)]) ∧
    exec (.dmfc1 rt fs) s = .next (finished s e [(.gpr rt, e.f fs)]) ∧
    exec (.dmtc1 rt fs) s = .next (finished s e [(.fpr fs, e.x rt)])

/-- CVT.D.L rounds the signed 64-bit integer to nearest even, 0 giving +0; CVT.L.D rounds a finite value to the nearest
integer, ties to even, and a NaN, an infinity or a value that rounds outside the signed 64-bit range raises `FpInvalid`
while its trap is enabled, else gives the configured pattern (R389, R390). -/
def Obligations.FloatConversions : Prop :=
  ∀ (s : State) (e : Entry) (fd fs : RegNum), AtExecute s e →
    (∃ v, exec (.cvtDL fd fs) s = .next (finished s e [(.fpr fd, v)]) ∧
      (if e.f fs = 0 then v = 0 else Rounded ((e.f fs).toInt : ℚ) v)) ∧
    (∀ z : ℤ, IsFinite (e.f fs) → RoundedInt (real (e.f fs)) z → -(2 : ℤ) ^ 63 ≤ z → z < 2 ^ 63 →
      exec (.cvtLD fd fs) s = .next (finished s e [(.fpr fd, BitVec.ofInt 64 z)])) ∧
    (¬ IsFinite (e.f fs) ∨ (∃ z : ℤ, RoundedInt (real (e.f fs)) z ∧ ¬ (-(2 : ℤ) ^ 63 ≤ z ∧ z < 2 ^ 63)) →
      exec (.cvtLD fd fs) s =
        if s.cfg.trapFpInvalid = true then .next (s.takeException .EX .fpInvalid e.pc e.pc)
        else .next (finished s e [(.fpr fd, s.cfg.cvtInvalid)]))

/-- C.EQ.D and C.LT.D: FCC takes whether the two values are equal, or the first is less, infinities included, +0 equal to -0;
a NaN operand gives false; C.EQ.D of a signalling NaN and C.LT.D of any NaN raise `FpInvalid` while its trap is enabled
(R383, R393, R394). -/
def Obligations.FloatCompares : Prop :=
  ∀ (s : State) (e : Entry) (fs ft : RegNum), AtExecute s e →
    let a := e.f fs
    let b := e.f ft
    (¬ IsNaN a → ¬ IsNaN b →
      exec (.cEqD fs ft) s = .next (finished s e [(.fcc, bit (real a = real b))]) ∧
      exec (.cLtD fs ft) s = .next (finished s e [(.fcc, bit (real a < real b))])) ∧
    (IsNaN a ∨ IsNaN b →
      exec (.cEqD fs ft) s =
        (if (IsSignalling a ∨ IsSignalling b) ∧ s.cfg.trapFpInvalid = true then
          .next (s.takeException .EX .fpInvalid e.pc e.pc)
        else .next (finished s e [(.fcc, 0)])) ∧
      exec (.cLtD fs ft) s =
        (if s.cfg.trapFpInvalid = true then .next (s.takeException .EX .fpInvalid e.pc e.pc)
        else .next (finished s e [(.fcc, 0)])))

/-! ## System calls and breakpoints -/

/-- R410, R412, R414: the call number is the code field; the halt number sets the halt pending, a number of the table is
refetched behind, and any other number raises `SystemCall`; in the first two cases Decode and Fetch are discarded (R166). -/
def Obligations.SyscallIsClassifiedInExecute : Prop :=
  ∀ (s : State) (e : Entry) (code : BitVec 20), AtExecute s e →
    let done := fun (c : SysClass) =>
      { s.slots with
        IF := discarded s.slots.IF
        ID := discarded s.slots.ID
        EX := some { e with res := [], taken := false, sys := c, done := true } }
    (code.toNat = s.cfg.haltCode → exec (.syscall code) s = .next
      { s with
        slots := done .halt, haltPending := true
        report := { s.report with flush := some ⟨2, none⟩ } }) ∧
    (code.toNat ≠ s.cfg.haltCode → code.toNat ∈ s.cfg.syscalls → exec (.syscall code) s = .next
      { s with
        slots := done .call, ctrl := .flushRequested 2 (e.pc + 4)
        report := { s.report with flush := some ⟨2, some (e.pc + 4)⟩ } }) ∧
    (code.toNat ≠ s.cfg.haltCode → code.toNat ∉ s.cfg.syscalls →
      exec (.syscall code) s = .next (s.takeException .EX .systemCall e.pc e.pc))

/-- R415: BREAK takes the `Breakpoint` exception from Execute, always, its code ignored: the entry and the two younger ones
are marked for discard, nothing else is written, and with a handler fetch is redirected there. -/
def Obligations.BreakTakesTheBreakpointException : Prop :=
  ∀ (s : State) (e : Entry) (code : BitVec 20), AtExecute s e →
    exec (.brk code) s = .next
      { s with
        slots :=
          { s.slots with IF := discarded s.slots.IF, ID := discarded s.slots.ID, EX := discarded s.slots.EX }
        ctrl := match s.cfg.handler.breakpoint, s.ctrl with
          | some h, _ => .flushRequested 2 h
          | none, .flushRequested _ _ => .normal
          | none, c => c
        fatalPending := match s.cfg.handler.breakpoint with
          | some _ => none
          | none => some (.breakpoint, e.pc)
        report :=
          { s.report with
            fault := some ⟨.breakpoint, 10, e.pc, .EX, e.pc⟩
            flush := match s.cfg.handler.breakpoint with
              | some h => some ⟨2, some h⟩
              | none => s.report.flush } }

/-- R160, R413: a table call at Write-back gives the callback the two register files and data memory as they stand after the
entry's own results, and puts in what it returns: `x[0]` stays 0, a byte inside data memory takes the returned one, the
last of several, HI, LO and FCC stay, and so does everything else but the markers and the entry. -/
def Obligations.TableCallsRunTheirCallbackAtWriteBack : Prop :=
  ∀ (s : State) (e : Entry) (i : Instr), AtWriteBack s e → e.sys = .call → e.res = [] →
    let v := Config.callback e.callNumber ⟨s.x, s.f, s.mem⟩
    ∃ t, exec i s = .next t ∧
      t.readReg (.gpr 0) = 0 ∧ (∀ r : RegNum, r ≠ 0 → t.readReg (.gpr r) = regGet v.x r) ∧ t.f = v.f ∧
      (∀ a b, (∃ before rest, v.mem = before ++ (a, b) :: rest ∧ ∀ c ∈ rest, c.1 ≠ a) → a < s.cfg.memSize →
        t.mem.byte a = b) ∧
      (∀ a, (∀ c ∈ v.mem, c.1 ≠ a) ∨ s.cfg.memSize ≤ a → t.mem.byte a = 0) ∧ t.memSound ∧
      t = { s with
        x := t.x, f := t.f, mem := t.mem, pend := t.pend
        slots := { s.slots with WB := some { e with done := true } } }

/-! ## The stages, for every instruction -/

/-- R160: at Write-back every instruction commits: each register named by the entry's results takes its value (FCC bit 0),
a write to `r0` is discarded, every other register, memory and the exception state stay, each marker goes down by the number
of times its register is a destination, and the halt call halts. -/
def Obligations.WriteBackCommitsTheResults : Prop :=
  ∀ (i : Instr) (s : State) (e : Entry), AtWriteBack s e → (e.res.map Prod.fst).Nodup → e.sys ≠ .call →
    ∃ t, exec i s = .next t ∧
      (∀ r v, (r, v) ∈ e.res → r ≠ .gpr 0 → t.readReg r = if r = .fcc then bit (v.getLsbD 0 = true) else v) ∧
      (∀ r, r ∉ e.res.map Prod.fst → t.readReg r = s.readReg r) ∧ t.readReg (.gpr 0) = 0 ∧
      (∀ r, t.pend.get r = s.pend.get r - e.dsts.count r) ∧
      t = { s with
        x := t.x, f := t.f, HI := t.HI, LO := t.LO, FCC := t.FCC, pend := t.pend
        ctrl := if e.sys = .halt then .halted else s.ctrl
        slots := { s.slots with WB := some { e with done := true } } }

/-- R164: while more than one Execute cycle is left, Execute only counts one down: no result, no exception, not done. -/
def Obligations.BusyExecuteOnlyCountsDown : Prop :=
  ∀ (i : Instr) (s : State) (e : Entry), s.turn = .EX → s.slots.EX = some e → 1 < e.rem →
    exec i s = .next { s with slots := { s.slots with EX := some { e with rem := e.rem - 1 } } }

/-- R170: Decode captures a value for every source it can resolve; the entry is ready exactly when it could resolve them all,
and then each captured operand is the source's value; no other field of the state changes. -/
def Obligations.DecodeCapturesEverySource : Prop :=
  ∀ (i : Instr) (s : State) (e : Entry), AtDecode s e →
    ∃ d : Entry,
      exec i s = .next { s with slots := { s.slots with ID := some d } } ∧
      (d.ready = true ↔ ∀ r ∈ e.srcs, (sourceValue s r).isSome = true) ∧
      (∀ r ∈ e.srcs, ∀ v, sourceValue s r = some v → d.op r = v) ∧
      d = { e with ops := d.ops, ready := d.ready }

/-- R171, R176, R48: a value that Decode captures is the one the register holds once the older instructions in Memory and
Execute have committed in program order: forwarding gives the value the sequential order gives. -/
def Obligations.ForwardingGivesTheSequentialValue : Prop :=
  ∀ (s : State) (r : RegId) (v : Word), s.resultsSound → s.resolve r = some v →
    let results := fun (o : Option Entry) => match o with
      | some p => if p.discard then [] else p.res
      | none => []
    ((s.writeRegs (results s.slots.MEM)).writeRegs
      (if (match s.slots.EX with | some p => p.done | none => false) then results s.slots.EX else [])).readReg r = v

/-- R175 and R172: with a producer in Execute, not discarded, a source other than `r0` has no value in the cycle in which
that producer is a load or is not done; with none it always has one. -/
def Obligations.OnlyAnUnfinishedProducerStalls : Prop :=
  ∀ (s : State) (r : RegId),
    s.resolve r = none ↔
      r ≠ .gpr 0 ∧ ∃ p, s.slots.EX = some p ∧ p.discard = false ∧ r ∈ p.dsts ∧ (p.isLoad = true ∨ p.done = false)

/-- Every meaning answers a next state, in every state and whatever stage has its turn; no step ever stops with a fault or a
refusal. -/
def Obligations.NothingEverStops : Prop :=
  (∀ (i : Instr) (s : State), safeAnswer (exec i s)) ∧ ∀ s : State, safeAnswer (step s)

/-- The frame of every instruction in every stage: the configuration, the program, `pc`, the counters and the turn never
change; registers and markers change, and `Halted` is entered, in Write-back only; no instruction enters `Fatal`; data
memory changes in Memory or in Write-back only; and no register, marker or byte changes in Decode or Execute. -/
def Obligations.EveryStageKeepsItsFrame : Prop :=
  ∀ (i : Instr) (s t : State), exec i s = .next t →
    t.cfg = s.cfg ∧ t.base = s.base ∧ t.prog = s.prog ∧ t.pc = s.pc ∧ t.cycle = s.cycle ∧ t.stalls = s.stalls ∧
    t.turn = s.turn ∧
    (s.turn ≠ .WB → t.x = s.x ∧ t.f = s.f ∧ t.HI = s.HI ∧ t.LO = s.LO ∧ t.FCC = s.FCC ∧ t.pend = s.pend) ∧
    (s.turn ≠ .WB → t.ctrl.isHalted = true → s.ctrl.isHalted = true) ∧
    (t.ctrl.isFatal = true → s.ctrl.isFatal = true) ∧
    (s.turn ≠ .WB → s.turn ≠ .MEM → t.mem = s.mem) ∧
    (s.turn = .MEM → i.kind ≠ .store → t.mem = s.mem) ∧
    (s.turn = .WB → (∀ e, s.slots.WB = some e → e.sys ≠ .call) → t.mem = s.mem) ∧
    (s.turn ≠ .EX → t.haltPending = s.haltPending) ∧
    (s.turn = .IF ∨ s.turn = .ID → t.ctrl = s.ctrl ∧ t.fatalPending = s.fatalPending ∧ t.report = s.report)

/-- What an instruction does in Execute depends on its sources only: two entries that differ in captured operands, but agree
on every source of the instruction, leave the same state but for those captured operands (R103, R170). -/
def Obligations.ExecuteReadsOnlyTheSources : Prop :=
  ∀ (i : Instr) (s t : State) (e e' : Entry) (ops : List (RegId × Word)),
    s.turn = .EX → s.slots.EX = some e → (∀ r ∈ i.srcs, e.op r = ({ e with ops := ops } : Entry).op r) →
    exec i s = .next t → t.slots.EX = some e' →
    exec i { s with slots := { s.slots with EX := some { e with ops := ops } } } =
      .next { t with slots := { t.slots with EX := some { e' with ops := ops } } }

/-! ## Exceptions -/

/-- R441, R442, R431, R444: an exception squashes its entry and every younger one and touches no older one; it writes no
register, no marker and no byte; with a handler fetch is redirected there at flush depth 1, 2 or 3 and no fatal exception
stays pending, with none the fatal one is left pending and a requested redirect is withdrawn; the record goes into the
report with its code, 1 to 10 in the order of R430. -/
def Obligations.TakingAnException : Prop :=
  ∀ (s : State) (st : Stage) (k : ExcKind) (pc addr : Word), st = .ID ∨ st = .EX ∨ st = .MEM →
    let t := s.takeException st k pc addr
    t.slots.WB = s.slots.WB ∧ t.slots.IF = discarded s.slots.IF ∧ t.slots.ID = discarded s.slots.ID ∧
    t.slots.EX = (if st = .ID then s.slots.EX else discarded s.slots.EX) ∧
    t.slots.MEM = (if st = .MEM then discarded s.slots.MEM else s.slots.MEM) ∧
    (∀ h, handlerOf s.cfg k = some h →
      t.ctrl = .flushRequested (if st = .ID then 1 else if st = .EX then 2 else 3) h ∧ t.fatalPending = none ∧
      t.report.flush = some ⟨if st = .ID then 1 else if st = .EX then 2 else 3, some h⟩) ∧
    (handlerOf s.cfg k = none →
      t.fatalPending = some (k, pc) ∧ (s.ctrl = .normal → t.ctrl = .normal) ∧
      (∀ d a, s.ctrl = .flushRequested d a → t.ctrl = .normal) ∧ t.report.flush = s.report.flush) ∧
    (∃ n, ([.invalidInstruction, .malformedOperand, .overflow, .divideByZero, .fpInvalid, .fpDivideByZero, .misaligned,
        .outOfBounds, .systemCall, .breakpoint] : List ExcKind)[n]? = some k ∧
      t.report.fault = some ⟨k, n + 1, pc, st, addr⟩) ∧
    t = { s with slots := t.slots, ctrl := t.ctrl, fatalPending := t.fatalPending, report := t.report }

/-- R433, R432, R170 and R80: a fault token that is not discarded raises its kind from Decode, with its fetch address as `pc`
and `addr`, in the first cycle in which Decode processes it, unless it stands on a wrong path: unless the instruction in
Execute is not done and will complete as a taken transfer or as the halt call. A discarded one raises nothing, and in any
other stage a token does nothing. So a wrong-path fetch never faults: after a step that reports an exception from Decode,
what Execute holds has completed with no flush, or is busy and will complete as neither. That a token behind such an
instruction waits is the model's reading of R80 and decision D11 (notes/assumptions/8.md). -/
def Obligations.FaultTokensRaiseInDecode : Prop :=
  (∀ (s : State) (st : Stage) (e : Entry) (k : ExcKind) (a : Word), s.slots.get st = some e → e.inst = .faultToken k a →
    let wrong := ∃ p, s.slots.EX = some p ∧ p.discard = false ∧ p.done = false ∧ LeavesThePath s p
    (st = .ID ∧ e.discard = false ∧ ¬ wrong → stageTurn st s = .next (s.takeException .ID k a a)) ∧
    (st ≠ .ID ∨ e.discard = true ∨ wrong → stageTurn st s = .next s)) ∧
  ∀ (s t : State) (f : FaultReport) (p : Entry), step s = .next t → t.report.fault = some f → f.stage = .ID →
    t.slots.EX = some p → p.discard = false →
    (p.done = true → p.taken = false ∧ p.sys = .none) ∧ (p.done = false → ¬ LeavesThePath t p)

/-- R442: with a fatal exception pending the cycle ends in `Fatal`, from `Normal`, exactly when Fetch, Decode, Execute and
Memory hold no entry that is not discarded; until then `ctrl` stays. -/
def Obligations.FatalDrainEndsInFatal : Prop :=
  ∀ (s t : State) (k : ExcKind) (p : Word), stagePhase s.boundary = .next t → s.ctrl.isHalted = false →
    s.ctrl.isFatal = false → t.ctrl = .normal → t.fatalPending = some (k, p) →
    let front := [t.slots.IF, t.slots.ID, t.slots.EX, t.slots.MEM]
    ∃ u, step s = .next u ∧
      ((∀ o ∈ front, ∀ e, o = some e → e.discard = true) → u.ctrl = .fatal k p ∧ u.report.fatal = true) ∧
      ((∃ o ∈ front, ∃ e, o = some e ∧ e.discard = false) → u.ctrl = .normal ∧ u.report.fatal = false)

/-! ## The cycle -/

/-- R80: what fetching at `pc` gives: nothing at the end of the stream, else a `Misaligned` token for an address that is no
multiple of 4, else an `OutOfBounds` token outside the stream, else the decoded word of the program or its fault token. -/
def Obligations.FetchReadsTheStream : Prop :=
  ∀ (s : State) (pc : Word),
    (pc.toNat = s.base.toNat + 4 * s.prog.length → s.fetchAt pc = none) ∧
    (pc.toNat ≠ s.base.toNat + 4 * s.prog.length → pc.toNat % 4 ≠ 0 →
      s.fetchAt pc = some (.faultToken .misaligned pc)) ∧
    (pc.toNat % 4 = 0 → (pc.toNat < s.base.toNat ∨ s.base.toNat + 4 * s.prog.length < pc.toNat) →
      s.fetchAt pc = some (.faultToken .outOfBounds pc)) ∧
    (∀ (k : Nat) (w : Word32), s.prog[k]? = some w → pc.toNat = s.base.toNat + 4 * k → s.base.toNat % 4 = 0 →
      (∀ i, decodeWord w = .ok i → s.fetchAt pc = some (.instr ⟨i, pc, w⟩)) ∧
      (decodeWord w = .error .invalidInstruction → s.fetchAt pc = some (.faultToken .invalidInstruction pc)))

/-- R152, R153, R154 and R156: marked entries leave their slots, and one that leaves Execute or Memory takes its markers with
it; of what is left, Memory's entry goes to Write-back, a finished Execute entry goes to Memory, an unfinished one stays and
a bubble goes on, a ready Decode entry enters a free Execute with its latency and its destinations marked, and otherwise
holds. While the front holds, Fetch keeps its entry and, but for a redirect, `pc` stays; when it moves, Fetch is filled by
what fetching at `pc` gives, and `pc` advances by 4 unless that is nothing. -/
def Obligations.SlotsAdvanceInOrder : Prop :=
  ∀ s : State,
    let b := s.boundary
    let fresh := fun (o : Option Entry) => o.map (fun e => ({ e with done := false, ready := false } : Entry))
    let rest := fun (r : RegId) => s.pend.get r - droppedMarks s.slots.EX r - droppedMarks s.slots.MEM r
    b.slots.WB = fresh (kept s.slots.MEM) ∧
    (Busy s → b.slots.MEM = none ∧ b.slots.EX = fresh (kept s.slots.EX) ∧ ∀ r, b.pend.get r = rest r) ∧
    (¬ Busy s → b.slots.MEM = fresh (kept s.slots.EX)) ∧
    (∀ d, kept s.slots.ID = some d → ¬ Busy s → d.ready = true →
      b.slots.EX = fresh (some { d with rem := d.latency s.cfg }) ∧ b.slots.ID = fresh (kept s.slots.IF) ∧
      ∀ r, b.pend.get r = rest r + d.dsts.count r) ∧
    (∀ d, kept s.slots.ID = some d → Busy s ∨ d.ready = false →
      b.slots.ID = fresh (kept s.slots.ID) ∧ (¬ Busy s → b.slots.EX = none) ∧ ∀ r, b.pend.get r = rest r) ∧
    (kept s.slots.ID = none →
      b.slots.ID = fresh (kept s.slots.IF) ∧ (¬ Busy s → b.slots.EX = none) ∧ ∀ r, b.pend.get r = rest r) ∧
    (¬ FrontMoves s → b.slots.IF = fresh (kept s.slots.IF) ∧ (s.ctrl = .normal → b.pc = s.pc)) ∧
    (FrontMoves s → s.ctrl = .normal → s.haltPending = false → s.fatalPending = none →
      b.slots.IF = (s.fetchAt s.pc).map (fun c => ({ inst := c } : Entry)) ∧
      b.pc = if (s.fetchAt s.pc).isSome then s.pc + 4 else s.pc) ∧
    b.cycle = s.cycle + 1 ∧ b.x = s.x ∧ b.f = s.f ∧ b.HI = s.HI ∧ b.LO = s.LO ∧ b.FCC = s.FCC ∧ b.mem = s.mem ∧
    b.haltPending = s.haltPending ∧ b.fatalPending = s.fatalPending

/-- R155, R152: a requested redirect is applied at the next boundary: the two entries that a taken transfer or a call has
marked in Decode and Fetch are gone, `ctrl` is `Normal` again, and the word at the redirect address is in Fetch, or its
fault token, or nothing at the end of the stream; `pc` is the next address after it. -/
def Obligations.RedirectFetchesTheTarget : Prop :=
  ∀ (s : State) (d : Nat) (a : Word), s.ctrl = .flushRequested d a → s.haltPending = false → s.fatalPending = none →
    (∀ e, s.slots.ID = some e → e.discard = true) → (∀ e, s.slots.IF = some e → e.discard = true) →
    let b := s.boundary
    b.ctrl = .normal ∧ b.slots.ID = none ∧
    b.slots.IF = (s.fetchAt a).map (fun c => ({ inst := c } : Entry)) ∧
    b.pc = (if (s.fetchAt a).isSome then a + 4 else a)

/-- R156, R411, R442: while a halt or a fatal exception is pending nothing is fetched into an empty Fetch slot and, but for a
redirect, `pc` stays. -/
def Obligations.PendingHaltOrFatalStopsFetch : Prop :=
  ∀ s : State, s.haltPending = true ∨ s.fatalPending ≠ none → s.ctrl = .normal →
    (∀ e, s.slots.IF = some e → e.discard = true) → s.boundary.slots.IF = none ∧ s.boundary.pc = s.pc

/-- A step runs the decoded instruction. When the front moves, the word of the program at `pc` enters Fetch as the instruction
it decodes to, and as its fault token when it does not decode, and so does what any other fetch gives (R101, R153, R156).
When one slot alone is occupied after the boundary, by an instruction, the step is that instruction's part of that stage
run by `exec` on the boundary's state, followed by the controller's resolution, the stall count and the report (R151,
R157). -/
def Obligations.StepRunsTheDecodedInstruction : Prop :=
  (∀ s : State, FrontMoves s → s.ctrl = .normal → s.haltPending = false → s.fatalPending = none →
    (∀ c, s.fetchAt s.pc = some c → s.boundary.slots.IF = some { inst := c } ∧ s.boundary.pc = s.pc + 4) ∧
    ∀ (k : Nat) (w : Word32), s.prog[k]? = some w → s.pc.toNat = s.base.toNat + 4 * k → s.base.toNat % 4 = 0 →
      s.boundary.pc = s.pc + 4 ∧
      (∀ i, decodeWord w = .ok i → s.boundary.slots.IF = some { inst := .instr ⟨i, s.pc, w⟩ }) ∧
      (decodeWord w = .error .invalidInstruction →
        s.boundary.slots.IF = some { inst := .faultToken .invalidInstruction s.pc })) ∧
  ∀ (s t : State) (st : Stage) (e : Entry) (i : Instruction), s.ctrl.isHalted = false → s.ctrl.isFatal = false →
    st ≠ .IF → s.boundary.slots.get st = some e → e.inst = .instr i → e.discard = false →
    (∀ u, u ≠ st → u ≠ .IF → s.boundary.slots.get u = none) →
    exec i.op { s.boundary with turn := st } = .next t → step s = .next t.resolveFatal.account

/-- R150: a terminal engine changes nothing but what its `step()` returns, in which only `halted` or `fatal` is set. -/
def Obligations.TerminalEnginesStay : Prop :=
  ∀ s : State, s.terminal →
    step s = .next { s with report := { halted := s.ctrl.isHalted, fatal := s.ctrl.isFatal } }

/-- A step that is not terminal counts one cycle, counts one stall exactly when it reports a stall cycle, reports the cycle
number and `Halted` and `Fatal` as the state after it has them, and changes neither the configuration nor the program
(R41, R43, R151, R178, R185). -/
def Obligations.EveryStepIsCounted : Prop :=
  ∀ s t : State, ¬ s.terminal → step s = .next t →
    t.cycle = s.cycle + 1 ∧ t.stalls = s.stalls + (if t.report.stall then 1 else 0) ∧
    t.report.cycle = some (s.cycle + 1) ∧ t.report.halted = t.ctrl.isHalted ∧ t.report.fatal = t.ctrl.isFatal ∧
    (t.report.stall = true ↔
      (∃ e, t.slots.EX = some e ∧ e.discard = false ∧ e.done = false) ∨
      ∃ e, t.slots.ID = some e ∧ e.discard = false ∧ e.ready = false) ∧
    t.cfg = s.cfg ∧ t.base = s.base ∧ t.prog = s.prog

/-! ## Reset and launch -/

/-- R49: the fresh state: every register, HI, LO, FCC, marker and counter 0, every byte 0, every slot empty, the controller
`Normal` with nothing pending, `pc` at `base`. -/
def Obligations.ResetIsTheFreshState : Prop :=
  let s := State.reset
  (∀ r, s.readReg r = 0) ∧ (∀ r, s.pend.get r = 0) ∧ (∀ a, s.mem.byte a = 0) ∧ s.pc = s.base ∧ s.cycle = 0 ∧
  s.stalls = 0 ∧ (∀ st, s.slots.get st = none) ∧ s.ctrl = .normal ∧ s.haltPending = false ∧ s.fatalPending = none

/-- R447 with the validity of a handler address of R445: construction refuses exactly the malformed configurations, and a
refused one gives no engine; no step ever answers that refusal. -/
def Obligations.ConstructionRefusesMalformedConfigurations : Prop :=
  (∀ l : Launch,
    construct l = .refused .configurationError ↔
      l.cfg.memSize < 8 ∨ l.cfg.memSize % 8 ≠ 0 ∨ (∃ c, latencyOf l.cfg c = 0) ∨
      (∃ k h, handlerOf l.cfg k = some h ∧
        (h.toNat % 4 ≠ 0 ∨ h.toNat < l.base.toNat ∨ l.base.toNat + 4 * l.prog.length ≤ h.toNat)) ∨
      (∃ m ∈ l.cfg.checked, m.kind ≠ .integerArithmetic) ∨ ¬ IsNaN l.cfg.defaultNaN ∨ IsSignalling l.cfg.defaultNaN) ∧
  ∀ s : State, step s ≠ .refused .configurationError

/-- R49 with the launch's data image and program (R46, R47): a constructed engine holds the fresh value in every piece of
state, and a byte of data memory is the one the image gives it, when it gives one, else 0; the engine is sound. -/
def Obligations.ConstructionGivesTheFreshState : Prop :=
  ∀ (l : Launch) (s : State), construct l = .next s →
    s.Inv ∧ s.cfg = l.cfg ∧ s.base = l.base ∧ s.prog = l.prog ∧ s.pc = l.base ∧ s.ctrl = .normal ∧ s.cycle = 0 ∧
    s.stalls = 0 ∧ s.haltPending = false ∧ s.fatalPending = none ∧
    (∀ r, s.readReg r = 0) ∧ (∀ r, s.pend.get r = 0) ∧ (∀ st, s.slots.get st = none) ∧
    (∀ a b, (l.image.map Prod.fst).Nodup → (a, b) ∈ l.image → a < l.cfg.memSize → s.mem.byte a = b) ∧
    (∀ a, (∀ c ∈ l.image, c.1 ≠ a) → s.mem.byte a = 0)

/-! ## What every step keeps -/

/-- The reset state is sound. -/
def Obligations.ResetIsSound : Prop := State.reset.Inv

/-- From every sound state a step leads to a sound state: data memory keeps its canonical form and its bounds, `x[0]` its 0,
each marker counts the entries that will write its register, no fault token passes Decode, every entry past Decode has its
operands, and what may be forwarded is there (R32, R40, R46, R162, R171, R180, R433). -/
def Obligations.StepKeepsSoundStates : Prop := ∀ s t : State, s.Inv → step s = .next t → t.Inv

/-- A step changes no register but the destinations of the entry that Memory hands to Write-back, a table call's callback
apart, which changes only the two register files and data memory (R33, R35, R36, R160, R184). -/
def Obligations.OnlyDestinationsChange : Prop :=
  ∀ (s t : State) (r : RegId), s.Inv → step s = .next t →
    (∀ e, s.slots.MEM = some e → e.discard = false → r ∉ e.dsts ∧ (e.sys = .call → r = .hi ∨ r = .lo ∨ r = .fcc)) →
    t.readReg r = s.readReg r

/-- A step changes no byte of data memory unless the entry that Execute hands to Memory is a store that passes its checks,
and then no byte outside the store's own, or the entry that Memory hands to Write-back is a table call (R33, R46, R89). -/
def Obligations.OnlyStoresAndCallsChangeMemory : Prop :=
  ∀ (s t : State) (a : Nat), s.Inv → step s = .next t →
    (∀ e, s.slots.MEM = some e → e.discard = false → e.sys ≠ .call) →
    (∀ e i, s.slots.EX = some e → e.discard = false → e.done = true → e.inst = .instr i → i.op.kind = .store →
      ∀ n, (i.op.mnemonic, n) ∈ [(Mnemonic.SB, 1), (.SH, 2), (.SW, 4), (.SD, 8), (.SDC1, 8)] →
        ¬ Accessible s.cfg e.ea n ∨ a < e.ea.toNat ∨ e.ea.toNat + n ≤ a) →
    t.mem.byte a = s.mem.byte a

/-- The whole way of an instruction: DADDU alone in an engine at rest, the last word of its program, with every latency 1,
goes from Fetch through Write-back in five cycles; after them its destination holds the sum of its sources (nothing, if it is
`r0`), every other register and data memory are as they were, and the run has drained without a stall (R181, R182, R228). -/
def Obligations.AddDoublewordRetiresInFiveCycles : Prop :=
  ∀ (s : State) (w : Word32) (rd rs rt : RegNum), decodeWord w = .ok (.daddu rd rs rt) → s.Inv → s.slots = {} →
    s.ctrl = .normal → s.haltPending = false → s.fatalPending = none → s.cfg.lat.intALU = 1 → .DADDU ∉ s.cfg.checked →
    s.fetchAt s.pc = some (decodeAt s.pc w) → s.pc.toNat + 4 = s.base.toNat + 4 * s.prog.length → s.pc.toNat + 4 < 2 ^ 64 →
    ∃ t, after 5 s = .next t ∧
      (rd ≠ 0 → t.readReg (.gpr rd) = s.readReg (.gpr rs) + s.readReg (.gpr rt)) ∧
      (∀ r, r ≠ .gpr rd ∨ rd = 0 → t.readReg r = s.readReg r) ∧ t.mem = s.mem ∧ t.pend = s.pend ∧
      t.cycle = s.cycle + 5 ∧ t.stalls = s.stalls ∧ t.pc = s.pc + 4 ∧ t.drained = true
end

