-- ==== Sys2Proof/Laws/Bits.lean ====
section
/-! SUPPORT. The bit-vector primitives and the integer conditions: each as the arithmetic it stands for. -/
namespace Sys2Proof.Machine

set_option Elab.async false

/-! ## Conditions (R221) -/

theorem overflowsSigned_iff (c : Config) (m : Mnemonic) (w : Nat) (z : Int) :
    overflowsSigned c m w z = true ↔ m ∈ c.checked ∧ ¬ (-(2 : Int) ^ (w - 1) ≤ z ∧ z < (2 : Int) ^ (w - 1)) := by
  simp only [overflowsSigned, checks, fitsSigned, Bool.and_eq_true, Bool.not_eq_true', List.contains_iff_mem,
    ← Bool.not_eq_true, decide_eq_true_eq]

theorem overflowsUnsigned_iff (c : Config) (m : Mnemonic) (w n : Nat) :
    overflowsUnsigned c m w n = true ↔ m ∈ c.checked ∧ 2 ^ w ≤ n := by
  simp only [overflowsUnsigned, checks, fitsUnsigned, Bool.and_eq_true, Bool.not_eq_true', List.contains_iff_mem,
    decide_eq_false_iff_not, Nat.not_lt]

/-! ## Operands (R106) -/

theorem lowWord_eq (v : Word) : lowWord v = v.setWidth 32 := by
  unfold lowWord
  ext k hk
  simp

theorem sextImm_toInt (imm : BitVec 16) : (sextImm imm).toInt = imm.toInt := by
  simp [sextImm, BitVec.toInt_signExtend_of_le]

theorem ofInt_imm (w : Nat) (imm : BitVec 16) (h : 16 ≤ w) : BitVec.ofInt w imm.toInt = imm.signExtend w := by
  apply BitVec.eq_of_toInt_eq
  rw [BitVec.toInt_signExtend_of_le h, BitVec.toInt_ofInt]
  have h1 := BitVec.two_mul_toInt_lt (x := imm)
  have h2 := BitVec.le_two_mul_toInt (x := imm)
  have h3 : (2 : Nat) ^ 16 ≤ 2 ^ w := Nat.pow_le_pow_right (by omega) h
  apply Int.bmod_eq_of_le <;> omega

theorem amount5_eq (e : Entry) (rs : RegNum) : e.amount5 rs = (e.x rs).toNat % 32 := by
  simp [Entry.amount5, BitVec.extractLsb'_toNat]

theorem amount6_eq (e : Entry) (rs : RegNum) : e.amount6 rs = (e.x rs).toNat % 64 := by
  simp [Entry.amount6, BitVec.extractLsb'_toNat]

/-! ## Wrapping -/

theorem ofInt_sub (w : Nat) (a b : Int) : BitVec.ofInt w (a - b) = BitVec.ofInt w a - BitVec.ofInt w b := by
  rw [Int.sub_eq_add_neg, BitVec.ofInt_add, BitVec.ofInt_neg, BitVec.sub_eq_add_neg]

/-- A left shift is multiplication by a power of two. -/
theorem shiftLeft_eq_mul (w : Nat) (v : BitVec w) (n : Nat) : v <<< n = BitVec.ofNat w (v.toNat * 2 ^ n) := by
  apply BitVec.eq_of_toNat_eq
  simp [Nat.shiftLeft_eq]

/-- A logical right shift is division by a power of two. -/
theorem shiftRight_eq_div (w : Nat) (v : BitVec w) (n : Nat) : v >>> n = BitVec.ofNat w (v.toNat / 2 ^ n) := by
  apply BitVec.eq_of_toNat_eq
  simp [Nat.shiftRight_eq_div_pow]
  exact (Nat.mod_eq_of_lt (Nat.lt_of_le_of_lt (Nat.div_le_self _ _) v.isLt)).symm

/-- An arithmetic right shift is division by a power of two, rounded down. -/
theorem sshiftRight_toInt (w : Nat) (v : BitVec w) (n : Nat) : (v.sshiftRight n).toInt = v.toInt / 2 ^ n := by
  rw [BitVec.toInt_sshiftRight, Int.shiftRight_eq_div_pow]
  push_cast
  rfl

/-! ## Quotients (R11) -/

/-- The signed quotient fits, but for the most negative dividend over -1. -/
theorem quot_fits (w : Nat) (hw : 1 < w) (a b : BitVec w) :
    -(2 : Int) ^ (w - 1) ≤ quot a.toInt b.toInt ∧ quot a.toInt b.toInt < 2 ^ (w - 1) ↔
      ¬ (a = BitVec.intMin w ∧ b = -1) := by
  by_cases h : a = BitVec.intMin w ∧ b = -1
  · refine iff_of_false ?_ (not_not.mpr h)
    have hb : (-1 : BitVec w).toInt = -1 := by
      rw [show (-1 : BitVec w) = BitVec.allOnes w from BitVec.neg_one_eq_allOnes, BitVec.toInt_allOnes]
      simp
      omega
    rw [h.1, h.2, BitVec.toInt_intMin_of_pos (by omega), hb, quot]
    simp
  · refine iff_of_true ?_ h
    have hor : a ≠ BitVec.intMin w ∨ b ≠ -1#w := by
      rw [← not_and_or]
      exact fun hc => h ⟨hc.1, by rw [hc.2]; rfl⟩
    rw [quot, ← BitVec.toInt_sdiv_of_ne_or_ne a b hor]
    exact ⟨BitVec.le_toInt _, BitVec.toInt_lt⟩

theorem ofInt_quot (w : Nat) (a b : BitVec w) : BitVec.ofInt w (quot a.toInt b.toInt) = a.sdiv b := by
  apply BitVec.eq_of_toInt_eq
  rw [BitVec.toInt_ofInt, BitVec.toInt_sdiv, quot]

theorem ofInt_rem (w : Nat) (a b : BitVec w) : BitVec.ofInt w (rem a.toInt b.toInt) = a.srem b := by
  apply BitVec.eq_of_toInt_eq
  rw [BitVec.toInt_ofInt, rem, ← BitVec.toInt_srem, BitVec.toInt_bmod_cancel]

end Sys2Proof.Machine
end

