-- ==== Sys2Proof/Laws/Encoding.lean ====
section
/-! SUPPORT. The decoder and the encoder taken apart: what a placed field reads back as, which rows of the opcode table can
claim one word (only NOP and SLL, on the all-zero word), and that a word of one row decodes by that row. -/
namespace Sys2Proof

/-! ## Placed fields -/

theorem place_getLsbD {n : Nat} (v : BitVec n) (lo k : Nat) :
    (place v lo).getLsbD k = (decide (k < 32) && decide (lo ≤ k) && v.getLsbD (k - lo)) := by
  simp only [place, BitVec.getLsbD_shiftLeft, BitVec.getLsbD_setWidth]
  by_cases h1 : k < 32 <;> by_cases h2 : lo ≤ k <;> (simp [h1, h2]; try grind)

@[simp] theorem place_zero {n : Nat} (lo : Nat) : place (0#n) lo = 0 := by simp [place]

/-- A field that lies outside a mask leaves no bit under it. -/
theorem place_and_mask {n : Nat} (v : BitVec n) (lo : Nat) (m : Word32)
    (h : m &&& place (BitVec.allOnes n) lo = 0) : place v lo &&& m = 0 := by
  apply BitVec.eq_of_getLsbD_eq
  intro k hk
  have hm : (m &&& place (BitVec.allOnes n) lo).getLsbD k = false := by rw [h]; simp
  rw [BitVec.getLsbD_and, place_getLsbD] at hm
  rw [BitVec.getLsbD_and, place_getLsbD]
  by_cases hn : k - lo < n
  · simp [hn] at hm ⊢
    grind
  · simp [BitVec.getLsbD_of_ge v (k - lo) (by omega)]

theorem field_place_same {n : Nat} (v : BitVec n) (lo : Nat) (h : lo + n ≤ 32) : field (place v lo) lo n = v := by
  apply BitVec.eq_of_getLsbD_eq
  intro k hk
  simp only [field, BitVec.getLsbD_extractLsb', place_getLsbD]
  simp [hk, show lo + k < 32 by omega]

theorem field_or (a b : Word32) (lo n : Nat) : field (a ||| b) lo n = field a lo n ||| field b lo n := by
  simp [field, BitVec.extractLsb'_or]

theorem field_place_apart {n : Nat} (v : BitVec n) (lo lo' n' : Nat) (h : lo' + n' ≤ lo ∨ lo + n ≤ lo') :
    field (place v lo) lo' n' = 0 := by
  apply BitVec.eq_of_getLsbD_eq
  intro k hk
  simp only [field, BitVec.getLsbD_extractLsb', place_getLsbD]
  rcases h with h | h
  · simp [show ¬ (lo ≤ lo' + k) by omega]
  · simp [BitVec.getLsbD_of_ge v (lo' + k - lo) (by omega)]

/-! ## The fields of the four formats -/

theorem rsField_encodeR (m : Mnemonic) (rs rt rd : RegNum) (sa : BitVec 5) :
    rsField (encodeR m rs rt rd sa) = rsField (opcodeRow m).pattern ||| rs := by
  simp [rsField, encodeR, field_or, field_place_same, field_place_apart]

theorem rtField_encodeR (m : Mnemonic) (rs rt rd : RegNum) (sa : BitVec 5) :
    rtField (encodeR m rs rt rd sa) = rtField (opcodeRow m).pattern ||| rt := by
  simp [rtField, encodeR, field_or, field_place_same, field_place_apart]

theorem rdField_encodeR (m : Mnemonic) (rs rt rd : RegNum) (sa : BitVec 5) :
    rdField (encodeR m rs rt rd sa) = rdField (opcodeRow m).pattern ||| rd := by
  simp [rdField, encodeR, field_or, field_place_same, field_place_apart]

theorem saField_encodeR (m : Mnemonic) (rs rt rd : RegNum) (sa : BitVec 5) :
    saField (encodeR m rs rt rd sa) = saField (opcodeRow m).pattern ||| sa := by
  simp [saField, encodeR, field_or, field_place_same, field_place_apart]

theorem rsField_encodeI (m : Mnemonic) (rs rt : RegNum) (imm : BitVec 16) :
    rsField (encodeI m rs rt imm) = rsField (opcodeRow m).pattern ||| rs := by
  simp [rsField, encodeI, field_or, field_place_same, field_place_apart]

theorem rtField_encodeI (m : Mnemonic) (rs rt : RegNum) (imm : BitVec 16) :
    rtField (encodeI m rs rt imm) = rtField (opcodeRow m).pattern ||| rt := by
  simp [rtField, encodeI, field_or, field_place_same, field_place_apart]

theorem immField_encodeI (m : Mnemonic) (rs rt : RegNum) (imm : BitVec 16) :
    immField (encodeI m rs rt imm) = immField (opcodeRow m).pattern ||| imm := by
  simp [immField, encodeI, field_or, field_place_same, field_place_apart]

theorem indexField_encodeJ (m : Mnemonic) (index : BitVec 26) :
    indexField (encodeJ m index) = indexField (opcodeRow m).pattern ||| index := by
  simp [indexField, encodeJ, field_or, field_place_same]

theorem codeField_encodeSys (m : Mnemonic) (code : BitVec 20) :
    codeField (encodeSys m code) = codeField (opcodeRow m).pattern ||| code := by
  simp [codeField, encodeSys, field_or, field_place_same]

/-! ## The word of a format lies in its row when the mask leaves its fields free -/

theorem row_of_parts (p m ws : Word32) (hp : p &&& m = p) (h : ws &&& m = 0) : (p ||| ws) &&& m = p := by
  ext k hk
  have h1 := congrArg (fun x : Word32 => x.getLsbD k) hp
  have h2 := congrArg (fun x : Word32 => x.getLsbD k) h
  simp at h1 h2 ⊢
  grind

/-- A field is absent, or the row's mask leaves it free. -/
def FieldFree {n : Nat} (m : Mnemonic) (v : BitVec n) (lo : Nat) : Prop :=
  v = 0 ∨ (opcodeRow m).mask &&& place (BitVec.allOnes n) lo = 0

theorem FieldFree.place {n : Nat} {m : Mnemonic} {v : BitVec n} {lo : Nat} (h : FieldFree m v lo) :
    place v lo &&& (opcodeRow m).mask = 0 := by
  rcases h with rfl | h
  · simp
  · exact place_and_mask v lo _ h

theorem or_and_distrib (a b c : Word32) : (a ||| b) &&& c = (a &&& c) ||| (b &&& c) := by
  ext k hk
  simp
  grind

/-- The pattern of every row lies under its mask. -/
theorem pattern_under_mask (m : Mnemonic) : (opcodeRow m).pattern &&& (opcodeRow m).mask = (opcodeRow m).pattern := by
  cases m <;> decide

theorem encodeR_match {m : Mnemonic} {rs rt rd : RegNum} {sa : BitVec 5} (h1 : FieldFree m rs 21)
    (h2 : FieldFree m rt 16) (h3 : FieldFree m rd 11) (h4 : FieldFree m sa 6) :
    encodeR m rs rt rd sa &&& (opcodeRow m).mask = (opcodeRow m).pattern := by
  simp only [encodeR, BitVec.or_assoc]
  apply row_of_parts _ _ _ (pattern_under_mask m)
  simp [or_and_distrib, h1.place, h2.place, h3.place, h4.place]

theorem encodeI_match {m : Mnemonic} {rs rt : RegNum} {imm : BitVec 16} (h1 : FieldFree m rs 21)
    (h2 : FieldFree m rt 16) (h3 : FieldFree m imm 0) :
    encodeI m rs rt imm &&& (opcodeRow m).mask = (opcodeRow m).pattern := by
  simp only [encodeI, BitVec.or_assoc]
  apply row_of_parts _ _ _ (pattern_under_mask m)
  simp [or_and_distrib, h1.place, h2.place, h3.place]

theorem encodeJ_match {m : Mnemonic} {index : BitVec 26} (h : FieldFree m index 0) :
    encodeJ m index &&& (opcodeRow m).mask = (opcodeRow m).pattern :=
  row_of_parts _ _ _ (pattern_under_mask m) h.place

theorem encodeSys_match {m : Mnemonic} {code : BitVec 20} (h : FieldFree m code 6) :
    encodeSys m code &&& (opcodeRow m).mask = (opcodeRow m).pattern :=
  row_of_parts _ _ _ (pattern_under_mask m) h.place

/-! ## Which row a word decodes by -/

/-- Two rows ask for different values of one bit. -/
def rowsApart (a b : OpcodeRow) : Bool := a.mask &&& b.mask &&& (a.pattern ^^^ b.pattern) != 0

/-- Any two rows but NOP and SLL exclude each other. -/
theorem rows_apart : allMnemonics.all (fun a => allMnemonics.all (fun b =>
    a == b || (a == .NOP && b == .SLL) || (a == .SLL && b == .NOP) || rowsApart (opcodeRow a) (opcodeRow b))) = true := by
  decide +kernel

theorem mem_allMnemonics (m : Mnemonic) : m ∈ allMnemonics := by cases m <;> decide +kernel

theorem rowsApart_excludes {a b : OpcodeRow} (h : rowsApart a b = true) {w : Word32} (ha : w &&& a.mask = a.pattern) :
    w &&& b.mask ≠ b.pattern := by
  intro hb
  apply bne_iff_ne.mp h
  rw [← ha, ← hb]
  ext k hk
  simp
  grind

theorem find_unique {α : Type} (p : α → Bool) (l : List α) (r : α) (hr : r ∈ l) (hp : p r = true)
    (hu : ∀ q ∈ l, p q = true → q = r) : l.find? p = some r := by
  induction l with
  | nil => cases hr
  | cons a l ih =>
    by_cases ha : p a = true
    · rw [List.find?_cons_of_pos ha, hu a (by simp) ha]
    · have hne : r ≠ a := fun h => ha (h ▸ hp)
      rw [List.find?_cons_of_neg ha]
      exact ih (by simpa [hne] using hr) (fun q hq => hu q (by simp [hq]))

@[simp] theorem opcodeRow_mnemonic (m : Mnemonic) : (opcodeRow m).mnemonic = m := by cases m <;> rfl

/-- Only the all-zero word lies in the NOP row. -/
theorem zero_of_nop {w : Word32} (h : w &&& (opcodeRow .NOP).mask = (opcodeRow .NOP).pattern) : w = 0 := by
  have e : w &&& (opcodeRow .NOP).mask = w := BitVec.and_allOnes
  rw [← e, h]
  rfl

/-- A nonzero word of a row decodes by it. -/
theorem decode_of_match {m : Mnemonic} {w : Word32} (h : w &&& (opcodeRow m).mask = (opcodeRow m).pattern) (h0 : w ≠ 0) :
    decodeWord w = .ok (buildInstr m w) := by
  have hm : m ≠ .NOP := by
    rintro rfl
    exact h0 (zero_of_nop h)
  have hf : opcodeTable.find? (fun r => w &&& r.mask == r.pattern) = some (opcodeRow m) := by
    apply find_unique
    · exact List.mem_map_of_mem (mem_allMnemonics m)
    · simpa using h
    · intro q hq hqm
      obtain ⟨b, hb, rfl⟩ := List.mem_map.mp hq
      have hab := List.all_eq_true.mp (List.all_eq_true.mp rows_apart m (mem_allMnemonics m)) b hb
      simp only [Bool.or_eq_true, Bool.and_eq_true, beq_iff_eq] at hab hqm
      rcases hab with ((h1 | h1) | h1) | h1
      · rw [h1]
      · exact absurd h1.1 hm
      · exfalso
        rw [h1.2] at hqm
        exact h0 (zero_of_nop hqm)
      · exact absurd hqm (rowsApart_excludes h1 h)
  simp [decodeWord, hf]

/-- The all-zero word is NOP (R111). -/
theorem decode_zero : decodeWord 0 = .ok .nop := by decide +kernel

/-- The row a decoded word lies in, and its instruction (the converse of `decode_of_match`). -/
theorem match_of_decode {w : Word32} {i : Instr} (h : decodeWord w = .ok i) :
    ∃ m, w &&& (opcodeRow m).mask = (opcodeRow m).pattern ∧ i = buildInstr m w := by
  unfold decodeWord at h
  split at h
  · rename_i r hr
    obtain ⟨m, _, rfl⟩ := List.mem_map.mp (List.mem_of_find?_eq_some hr)
    exact ⟨m, by simpa using List.find?_some hr, by simpa using h.symm⟩
  · cases h

end Sys2Proof
end

