-- ==== Sys2Proof/Laws/Exec.lean ====
section
/-! SUPPORT. Every meaning is one execution unit and one memory access run by the stage whose turn it is (`exec_shape`), and
what its unit and its access may do: the unit keeps the entry's instruction and operands, its results are the
instruction's destinations, and only a load or a store accesses memory. -/
namespace Sys2Proof.Machine

set_option Elab.async false

@[simp] theorem valueOf_nil (r : RegId) : valueOf r [] = none := rfl

theorem valueOf_cons (r q : RegId) (v : Word) (rest : List (RegId × Word)) :
    valueOf r ((q, v) :: rest) = if q = r then some v else valueOf r rest := rfl

/-- An integer register is the hard-wired one or its own destination. -/
theorem gprDst_own (r : RegNum) : RegId.gpr r = .gpr 0 ∨ RegId.gpr r ∈ gprDst r := by
  unfold gprDst
  split
  · rename_i h; rw [h]; exact .inl rfl
  · exact .inr (by simp)

theorem gprDst_only (r : RegNum) : ∀ q ∈ gprDst r, q = .gpr r := by
  unfold gprDst
  split <;> simp

/-- A result list that a unit may latch for an instruction with these destinations. -/
structure ResultsFor (dsts : List RegId) (res : List (RegId × Word)) : Prop where
  once : (res.map Prod.fst).Nodup
  own  : ∀ p ∈ res, p.1 = .gpr 0 ∨ p.1 ∈ dsts
  bit  : ∀ p ∈ res, p.1 = .fcc → p.2 = boolWord (p.2.getLsbD 0)

/-- A result list that has a value for each destination. -/
def Delivers (dsts : List RegId) (res : List (RegId × Word)) : Prop := ∀ r ∈ dsts, ∃ v, valueOf r res = some v

theorem ResultsFor.none (dsts : List RegId) : ResultsFor dsts [] := ⟨by simp, by simp, by simp⟩

theorem ResultsFor.gpr (r : RegNum) (v : Word) : ResultsFor (gprDst r) [(.gpr r, v)] := by
  refine ⟨by simp, ?_, by simp⟩
  simpa using gprDst_own r

theorem ResultsFor.one (r : RegId) (v : Word) (h : r ≠ .fcc) : ResultsFor [r] [(r, v)] := ⟨by simp, by simp, by simp [h]⟩

theorem ResultsFor.hiLo (a b : Word) : ResultsFor [.hi, .lo] [(.hi, a), (.lo, b)] := ⟨by simp, by simp, by simp⟩

theorem ResultsFor.fcc (b : Bool) : ResultsFor [.fcc] [(.fcc, boolWord b)] := by
  refine ⟨by simp, by simp, ?_⟩
  cases b <;> simp [boolWord]

theorem Delivers.gpr (r : RegNum) (v : Word) : Delivers (gprDst r) [(.gpr r, v)] := by
  intro q hq
  rw [gprDst_only r q hq]
  simp [valueOf_cons]

theorem Delivers.one (r : RegId) (v : Word) : Delivers [r] [(r, v)] := by simp [Delivers, valueOf_cons]

theorem Delivers.hiLo (a b : Word) : Delivers [.hi, .lo] [(.hi, a), (.lo, b)] := by simp [Delivers, valueOf_cons]

theorem Delivers.none (res : List (RegId × Word)) : Delivers [] res := by simp [Delivers]

/-- What an execution unit may do to an entry it receives without results. -/
structure UnitSound (i : Instr) (unit : Config → Entry → ExecResult) : Prop where
  inst    : ∀ c e e', unit c e = .latched e' → e'.inst = e.inst
  ops     : ∀ c e e', unit c e = .latched e' → e'.ops = e.ops
  discard : ∀ c e e', unit c e = .latched e' → e'.discard = e.discard
  results : ∀ c e e', e.res = [] → unit c e = .latched e' → ResultsFor i.dsts e'.res
  deliver : ∀ c e e', i.kind ≠ .load → unit c e = .latched e' → Delivers i.dsts e'.res

/-- A unit that only latches results. -/
theorem UnitSound.of_latch {i : Instr} {unit : Config → Entry → ExecResult} (res : Config → Entry → List (RegId × Word))
    (h : ∀ c e e', unit c e = .latched e' → e' = { e with res := res c e })
    (hr : ∀ c e, ResultsFor i.dsts (res c e)) (hd : ∀ c e, Delivers i.dsts (res c e)) : UnitSound i unit where
  inst c e e' he := by rw [h c e e' he]
  ops c e e' he := by rw [h c e e' he]
  discard c e e' he := by rw [h c e e' he]
  results c e e' _ he := by rw [h c e e' he]; exact hr c e
  deliver c e e' _ he := by rw [h c e e' he]; exact hd c e

/-- A unit that latches no result: of an instruction without destinations, or of a load. -/
theorem UnitSound.of_plain {i : Instr} {unit : Config → Entry → ExecResult}
    (h : ∀ c e e', unit c e = .latched e' →
      e'.inst = e.inst ∧ e'.ops = e.ops ∧ e'.discard = e.discard ∧ e'.res = e.res)
    (hd : i.kind = .load ∨ i.dsts = []) : UnitSound i unit where
  inst c e e' he := (h c e e' he).1
  ops c e e' he := (h c e e' he).2.1
  discard c e e' he := (h c e e' he).2.2.1
  results c e e' h0 he := by rw [(h c e e' he).2.2.2, h0]; exact ResultsFor.none _
  deliver c e e' hk _ := by
    rcases hd with hd | hd
    · exact absurd hd hk
    · rw [hd]; exact Delivers.none _

/-- What the access of an instruction may be. -/
inductive AccessSound (i : Instr) : Access → Prop where
  | none (hl : i.kind ≠ .load) (hs : i.kind ≠ .store) : AccessSound i .none
  | load (w : Width) (ext : Extension) (dst : RegId) (hk : i.kind = .load) (hf : dst ≠ .fcc)
      (ho : dst = .gpr 0 ∨ dst ∈ i.dsts) (hd : ∀ r ∈ i.dsts, r = dst) : AccessSound i (.load w ext dst)
  | store (w : Width) (hk : i.kind = .store) (hd : i.dsts = []) : AccessSound i (.store w)

/-! ## The units, one lemma per shared unit -/

theorem wordResult_sound {i : Instr} (m : Mnemonic) (rd : RegNum) (x : Entry → Int) (h : i.dsts = gprDst rd) :
    UnitSound i (wordResult m rd x) :=
  .of_latch (fun _ e => [(.gpr rd, sext32to64 (trunc32 (x e)))])
    (by intro c e e' he; unfold wordResult Entry.latch at he; split at he <;> simp_all)
    (fun _ _ => h ▸ ResultsFor.gpr _ _) (fun _ _ => h ▸ Delivers.gpr _ _)

theorem doubleResult_sound {i : Instr} (m : Mnemonic) (rd : RegNum) (x : Entry → Int) (h : i.dsts = gprDst rd) :
    UnitSound i (doubleResult m rd x) :=
  .of_latch (fun _ e => [(.gpr rd, trunc64 (x e))])
    (by intro c e e' he; unfold doubleResult Entry.latch at he; split at he <;> simp_all)
    (fun _ _ => h ▸ ResultsFor.gpr _ _) (fun _ _ => h ▸ Delivers.gpr _ _)

theorem gprResult_sound {i : Instr} (rd : RegNum) (v : Entry → Word) (h : i.dsts = gprDst rd) :
    UnitSound i (gprResult rd v) :=
  .of_latch (fun _ e => [(.gpr rd, v e)])
    (by intro c e e' he; simp_all [gprResult, Entry.latch])
    (fun _ _ => h ▸ ResultsFor.gpr _ _) (fun _ _ => h ▸ Delivers.gpr _ _)

theorem fprResult_sound {i : Instr} (fd : RegNum) (v : Config → Entry → Word) (h : i.dsts = [.fpr fd]) :
    UnitSound i (fprResult fd v) :=
  .of_latch (fun c e => [(.fpr fd, v c e)])
    (by intro c e e' he; simp_all [fprResult, Entry.latch])
    (fun _ _ => h ▸ ResultsFor.one _ _ (by simp)) (fun _ _ => h ▸ Delivers.one _ _)

theorem fpArith_sound {i : Instr} (fd fs ft : RegNum) (inv : Word → Word → Bool) (op : Word → Word → Word)
    (h : i.dsts = [.fpr fd]) : UnitSound i (fpArith fd fs ft inv op) :=
  .of_latch (fun c e => [(.fpr fd, if inv (e.f fs) (e.f ft) || anyNaN (e.f fs) (e.f ft) then c.defaultNaN
      else op (e.f fs) (e.f ft))])
    (by intro c e e' he; unfold fpArith Entry.latch at he; split at he <;> simp_all)
    (fun _ _ => h ▸ ResultsFor.one _ _ (by simp)) (fun _ _ => h ▸ Delivers.one _ _)

theorem fpCompare_sound {i : Instr} (fs ft : RegNum) (inv res : Word → Word → Bool) (h : i.dsts = [.fcc]) :
    UnitSound i (fpCompare fs ft inv res) :=
  .of_latch (fun _ e => [(.fcc, boolWord (res (e.f fs) (e.f ft)))])
    (by intro c e e' he; unfold fpCompare Entry.latch at he; split at he <;> simp_all)
    (fun _ _ => h ▸ ResultsFor.fcc _) (fun _ _ => h ▸ Delivers.one _ _)

/-- A unit that latches a pair into HI and LO whenever it latches. -/
theorem hiLo_sound {i : Instr} {unit : Config → Entry → ExecResult} (h : i.dsts = [.hi, .lo])
    (hu : ∀ c e e', unit c e = .latched e' → ∃ a b, e' = { e with res := [(.hi, a), (.lo, b)] }) : UnitSound i unit where
  inst c e e' he := by obtain ⟨a, b, rfl⟩ := hu c e e' he; rfl
  ops c e e' he := by obtain ⟨a, b, rfl⟩ := hu c e e' he; rfl
  discard c e e' he := by obtain ⟨a, b, rfl⟩ := hu c e e' he; rfl
  results c e e' _ he := by obtain ⟨a, b, rfl⟩ := hu c e e' he; exact h ▸ ResultsFor.hiLo a b
  deliver c e e' _ he := by obtain ⟨a, b, rfl⟩ := hu c e e' he; exact h ▸ Delivers.hiLo a b

/-! ## The shape of every meaning -/

/-- A meaning runs one unit and one access, and both keep to the instruction's registers and kind. -/
def ShapeOf (i : Instr) : Prop :=
  ∃ unit access, (∀ s, exec i s = runStage unit access s) ∧ UnitSound i unit ∧ AccessSound i access

/-- A computing instruction has the shape when its unit is sound. -/
theorem ShapeOf.compute {i : Instr} {unit : Config → Entry → ExecResult} (h : ∀ s, exec i s = compute unit s)
    (hu : UnitSound i unit) (hk : (i.kind == .load || i.kind == .store) = false := by rfl) : ShapeOf i :=
  ⟨unit, .none, h, hu, .none (by intro e; simp [e] at hk) (by intro e; simp [e] at hk)⟩

theorem ShapeOf.load {i : Instr} {w : Width} {ext : Extension} {dst : RegId} {rs : RegNum} {imm : BitVec 16}
    (h : ∀ s, exec i s = load w ext dst rs imm s) (hk : i.kind = .load) (hf : dst ≠ .fcc)
    (ho : dst = .gpr 0 ∨ dst ∈ i.dsts) (hd : ∀ r ∈ i.dsts, r = dst) : ShapeOf i :=
  ⟨_, .load w ext dst, h, .of_plain (by intro c e e' he; simp at he; subst he; simp) (.inl hk), .load w ext dst hk hf ho hd⟩

theorem ShapeOf.store {i : Instr} {w : Width} {src : RegId} {rs : RegNum} {imm : BitVec 16}
    (h : ∀ s, exec i s = store w src rs imm s) (hk : i.kind = .store) (hd : i.dsts = []) : ShapeOf i :=
  ⟨_, .store w, h, .of_plain (by intro c e e' he; simp at he; subst he; simp) (.inr hd), .store w hk hd⟩

theorem ShapeOf.branch {i : Instr} {cond : Entry → Bool} {imm : BitVec 16} (h : ∀ s, exec i s = branch cond imm s)
    (hd : i.dsts = []) (hk : (i.kind == .load || i.kind == .store) = false := by rfl) : ShapeOf i :=
  .compute h (.of_plain (by
    intro c e e' he
    simp only [ExecResult.latched.injEq] at he
    subst he
    split <;> simp [Entry.jump]) (.inr hd)) hk

theorem exec_shape (i : Instr) : ShapeOf i := by
  cases i with
  | nop => exact .compute (fun _ => rfl) (.of_plain (by intro c e e' he; simp at he; simp [he]) (.inr rfl))
  | add rd rs rt => exact .compute (fun _ => rfl) (wordResult_sound _ rd _ rfl)
  | addu rd rs rt => exact .compute (fun _ => rfl) (wordResult_sound _ rd _ rfl)
  | sub rd rs rt => exact .compute (fun _ => rfl) (wordResult_sound _ rd _ rfl)
  | subu rd rs rt => exact .compute (fun _ => rfl) (wordResult_sound _ rd _ rfl)
  | dadd rd rs rt => exact .compute (fun _ => rfl) (doubleResult_sound _ rd _ rfl)
  | daddu rd rs rt => exact .compute (fun _ => rfl) (doubleResult_sound _ rd _ rfl)
  | dsub rd rs rt => exact .compute (fun _ => rfl) (doubleResult_sound _ rd _ rfl)
  | dsubu rd rs rt => exact .compute (fun _ => rfl) (doubleResult_sound _ rd _ rfl)
  | addi rt rs imm => exact .compute (fun _ => rfl) (wordResult_sound _ rt _ rfl)
  | addiu rt rs imm => exact .compute (fun _ => rfl) (wordResult_sound _ rt _ rfl)
  | daddi rt rs imm => exact .compute (fun _ => rfl) (doubleResult_sound _ rt _ rfl)
  | daddiu rt rs imm => exact .compute (fun _ => rfl) (doubleResult_sound _ rt _ rfl)
  | slt rd rs rt => exact .compute (fun _ => rfl) (gprResult_sound rd _ rfl)
  | sltu rd rs rt => exact .compute (fun _ => rfl) (gprResult_sound rd _ rfl)
  | slti rt rs imm => exact .compute (fun _ => rfl) (gprResult_sound rt _ rfl)
  | sltiu rt rs imm => exact .compute (fun _ => rfl) (gprResult_sound rt _ rfl)
  | mult rs rt =>
    exact .compute (fun _ => rfl) (hiLo_sound rfl (by intro c e e' he; dsimp only at he; split at he <;> simp [hiLo, Entry.latch] at he; exact ⟨_, _, he.symm⟩))
  | multu rs rt =>
    exact .compute (fun _ => rfl) (hiLo_sound rfl (by intro c e e' he; dsimp only at he; split at he <;> simp [hiLo, Entry.latch] at he; exact ⟨_, _, he.symm⟩))
  | dmult rs rt =>
    exact .compute (fun _ => rfl) (hiLo_sound rfl (by intro c e e' he; dsimp only at he; split at he <;> simp [hiLo, Entry.latch] at he; exact ⟨_, _, he.symm⟩))
  | dmultu rs rt =>
    exact .compute (fun _ => rfl) (hiLo_sound rfl (by intro c e e' he; dsimp only at he; split at he <;> simp [hiLo, Entry.latch] at he; exact ⟨_, _, he.symm⟩))
  | div rs rt =>
    exact .compute (fun _ => rfl) (hiLo_sound rfl (by intro c e e' he; dsimp only at he; split at he <;> (try split at he) <;> simp [hiLo, Entry.latch] at he; exact ⟨_, _, he.symm⟩))
  | divu rs rt =>
    exact .compute (fun _ => rfl) (hiLo_sound rfl (by intro c e e' he; dsimp only at he; split at he <;> simp [hiLo, Entry.latch] at he; exact ⟨_, _, he.symm⟩))
  | ddiv rs rt =>
    exact .compute (fun _ => rfl) (hiLo_sound rfl (by intro c e e' he; dsimp only at he; split at he <;> (try split at he) <;> simp [hiLo, Entry.latch] at he; exact ⟨_, _, he.symm⟩))
  | ddivu rs rt =>
    exact .compute (fun _ => rfl) (hiLo_sound rfl (by intro c e e' he; dsimp only at he; split at he <;> simp [hiLo, Entry.latch] at he; exact ⟨_, _, he.symm⟩))
  | mfhi rd => exact .compute (fun _ => rfl) (gprResult_sound rd _ rfl)
  | mflo rd => exact .compute (fun _ => rfl) (gprResult_sound rd _ rfl)
  | and rd rs rt => exact .compute (fun _ => rfl) (gprResult_sound rd _ rfl)
  | or rd rs rt => exact .compute (fun _ => rfl) (gprResult_sound rd _ rfl)
  | xor rd rs rt => exact .compute (fun _ => rfl) (gprResult_sound rd _ rfl)
  | nor rd rs rt => exact .compute (fun _ => rfl) (gprResult_sound rd _ rfl)
  | andi rt rs imm => exact .compute (fun _ => rfl) (gprResult_sound rt _ rfl)
  | ori rt rs imm => exact .compute (fun _ => rfl) (gprResult_sound rt _ rfl)
  | xori rt rs imm => exact .compute (fun _ => rfl) (gprResult_sound rt _ rfl)
  | lui rt imm => exact .compute (fun _ => rfl) (gprResult_sound rt _ rfl)
  | movz rd rs rt => exact .compute (fun _ => rfl) (gprResult_sound rd _ rfl)
  | movn rd rs rt => exact .compute (fun _ => rfl) (gprResult_sound rd _ rfl)
  | sll rd rt sa => exact .compute (fun _ => rfl) (gprResult_sound rd _ rfl)
  | srl rd rt sa => exact .compute (fun _ => rfl) (gprResult_sound rd _ rfl)
  | sra rd rt sa => exact .compute (fun _ => rfl) (gprResult_sound rd _ rfl)
  | sllv rd rt rs => exact .compute (fun _ => rfl) (gprResult_sound rd _ rfl)
  | srlv rd rt rs => exact .compute (fun _ => rfl) (gprResult_sound rd _ rfl)
  | srav rd rt rs => exact .compute (fun _ => rfl) (gprResult_sound rd _ rfl)
  | dsll rd rt sa => exact .compute (fun _ => rfl) (gprResult_sound rd _ rfl)
  | dsrl rd rt sa => exact .compute (fun _ => rfl) (gprResult_sound rd _ rfl)
  | dsra rd rt sa => exact .compute (fun _ => rfl) (gprResult_sound rd _ rfl)
  | dsll32 rd rt sa => exact .compute (fun _ => rfl) (gprResult_sound rd _ rfl)
  | dsrl32 rd rt sa => exact .compute (fun _ => rfl) (gprResult_sound rd _ rfl)
  | dsra32 rd rt sa => exact .compute (fun _ => rfl) (gprResult_sound rd _ rfl)
  | dsllv rd rt rs => exact .compute (fun _ => rfl) (gprResult_sound rd _ rfl)
  | dsrlv rd rt rs => exact .compute (fun _ => rfl) (gprResult_sound rd _ rfl)
  | dsrav rd rt rs => exact .compute (fun _ => rfl) (gprResult_sound rd _ rfl)
  | lb rt rs imm => exact .load (fun _ => rfl) rfl (by simp) (gprDst_own rt) (gprDst_only rt)
  | lbu rt rs imm => exact .load (fun _ => rfl) rfl (by simp) (gprDst_own rt) (gprDst_only rt)
  | lh rt rs imm => exact .load (fun _ => rfl) rfl (by simp) (gprDst_own rt) (gprDst_only rt)
  | lhu rt rs imm => exact .load (fun _ => rfl) rfl (by simp) (gprDst_own rt) (gprDst_only rt)
  | lw rt rs imm => exact .load (fun _ => rfl) rfl (by simp) (gprDst_own rt) (gprDst_only rt)
  | lwu rt rs imm => exact .load (fun _ => rfl) rfl (by simp) (gprDst_own rt) (gprDst_only rt)
  | ld rt rs imm => exact .load (fun _ => rfl) rfl (by simp) (gprDst_own rt) (gprDst_only rt)
  | ldc1 ft rs imm => exact .load (fun _ => rfl) rfl (by simp) (.inr (by simp [Instr.dsts])) (by simp [Instr.dsts])
  | sb rt rs imm => exact .store (fun _ => rfl) rfl rfl
  | sh rt rs imm => exact .store (fun _ => rfl) rfl rfl
  | sw rt rs imm => exact .store (fun _ => rfl) rfl rfl
  | sd rt rs imm => exact .store (fun _ => rfl) rfl rfl
  | sdc1 ft rs imm => exact .store (fun _ => rfl) rfl rfl
  | beq rs rt imm => exact .branch (fun _ => rfl) rfl
  | bne rs rt imm => exact .branch (fun _ => rfl) rfl
  | blez rs imm => exact .branch (fun _ => rfl) rfl
  | bgtz rs imm => exact .branch (fun _ => rfl) rfl
  | bltz rs imm => exact .branch (fun _ => rfl) rfl
  | bgez rs imm => exact .branch (fun _ => rfl) rfl
  | bc1f imm => exact .branch (fun _ => rfl) rfl
  | bc1t imm => exact .branch (fun _ => rfl) rfl
  | j index =>
    exact .compute (fun _ => rfl) (.of_plain (by intro c e e' he; simp at he; subst he; simp [Entry.jump]) (.inr rfl))
  | jal index =>
    exact .compute (fun _ => rfl)
      { inst := by intro c e e' he; simp at he; subst he; rfl
        ops := by intro c e e' he; simp at he; subst he; rfl
        discard := by intro c e e' he; simp at he; subst he; rfl
        results := by intro c e e' _ he; simp at he; subst he; exact ResultsFor.gpr 31 _
        deliver := by intro c e e' _ he; simp at he; subst he; exact Delivers.gpr 31 _ }
  | jr rs =>
    exact .compute (fun _ => rfl) (.of_plain (by intro c e e' he; simp at he; subst he; simp [Entry.jump]) (.inr rfl))
  | jalr rd rs =>
    exact .compute (fun _ => rfl)
      { inst := by intro c e e' he; simp at he; subst he; rfl
        ops := by intro c e e' he; simp at he; subst he; rfl
        discard := by intro c e e' he; simp at he; subst he; rfl
        results := by intro c e e' _ he; simp at he; subst he; exact ResultsFor.gpr rd _
        deliver := by intro c e e' _ he; simp at he; subst he; exact Delivers.gpr rd _ }
  | addD fd fs ft => exact .compute (fun _ => rfl) (fpArith_sound fd fs ft _ _ rfl)
  | subD fd fs ft => exact .compute (fun _ => rfl) (fpArith_sound fd fs ft _ _ rfl)
  | mulD fd fs ft => exact .compute (fun _ => rfl) (fpArith_sound fd fs ft _ _ rfl)
  | divD fd fs ft =>
    exact .compute (fun _ => rfl) (.of_latch
      (fun c e => [(.fpr fd, if invalidDiv (e.f fs) (e.f ft) || anyNaN (e.f fs) (e.f ft) then c.defaultNaN
        else Fp.div (e.f fs) (e.f ft))])
      (by
        intro c e e' he
        split at he
        · cases he
        · split at he
          · cases he
          · unfold fpArith Entry.latch at he
            split at he <;> simp_all)
      (fun _ _ => ResultsFor.one _ _ (by simp)) (fun _ _ => Delivers.one _ _))
  | movD fd fs => exact .compute (fun _ => rfl) (fprResult_sound fd _ rfl)
  | cvtDL fd fs => exact .compute (fun _ => rfl) (fprResult_sound fd _ rfl)
  | cvtLD fd fs =>
    exact .compute (fun _ => rfl) (.of_latch
      (fun c e => [(.fpr fd, if invalidCvt (e.f fs) then c.cvtInvalid else trunc64 (Fp.toInt (e.f fs)))])
      (by intro c e e' he; unfold Entry.latch at he; split at he <;> simp_all)
      (fun _ _ => ResultsFor.one _ _ (by simp)) (fun _ _ => Delivers.one _ _))
  | cEqD fs ft => exact .compute (fun _ => rfl) (fpCompare_sound fs ft _ _ rfl)
  | cLtD fs ft => exact .compute (fun _ => rfl) (fpCompare_sound fs ft _ _ rfl)
  | dmfc1 rt fs =>
    exact .compute (fun _ => rfl) (.of_latch (fun _ e => [(.gpr rt, e.f fs)])
      (by intro c e e' he; simp_all [Entry.latch]) (fun _ _ => ResultsFor.gpr rt _) (fun _ _ => Delivers.gpr rt _))
  | dmtc1 rt fs => exact .compute (fun _ => rfl) (fprResult_sound fs _ rfl)
  | syscall code =>
    exact .compute (fun _ => rfl) (.of_plain (by
      intro c e e' he
      split at he
      · simp at he; subst he; simp
      · split at he <;> simp at he
        subst he; simp) (.inr rfl))
  | brk code => exact .compute (fun _ => rfl) (.of_plain (by intro c e e' he; simp at he) (.inr rfl))

end Sys2Proof.Machine
end

