-- ==== Sys2Proof/Laws/Float.lean ====
section
/-! SUPPORT. Rounding: `rneDiv` gives the nearest whole number with ties to even, and `Fp.roundRatio` the magnitude pattern
that is nearest among all finite ones, with ties to the even pattern, or Infinity from the halfway point on. Magnitudes are
counted in units of 2^-1074 throughout. -/
namespace Sys2Proof.Machine

set_option Elab.async false

/-! ## The nearest whole number -/

/-- `rneDiv n d` is at most half a divisor away from `n / d`, and even when it is exactly half a one away. -/
theorem rneDiv_spec (n d : Nat) (hd : 0 < d) :
    2 * n ≤ 2 * (rneDiv n d * d) + d ∧ 2 * (rneDiv n d * d) ≤ 2 * n + d ∧
    (2 * n = 2 * (rneDiv n d * d) + d ∨ 2 * (rneDiv n d * d) = 2 * n + d → rneDiv n d % 2 = 0) := by
  have hn : d * (n / d) + n % d = n := Nat.div_add_mod n d
  have hr : n % d < d := Nat.mod_lt n hd
  have hm : n / d * d = d * (n / d) := Nat.mul_comm _ _
  unfold rneDiv
  simp only [Bool.or_eq_true, decide_eq_true_eq, Bool.and_eq_true, beq_iff_eq]
  split
  · rename_i h
    rw [Nat.add_mul, hm, Nat.one_mul]
    refine ⟨by omega, by omega, fun e => ?_⟩
    rcases h with h | ⟨-, h⟩ <;> omega
  · rename_i h
    rw [hm]
    refine ⟨by omega, by omega, fun e => ?_⟩
    by_contra hc
    exact h (.inr ⟨by omega, by omega⟩)

/-- Bounds pass through `rneDiv`. -/
theorem rneDiv_between (n d a b : Nat) (hd : 0 < d) (ha : a * d ≤ n) (hb : n ≤ b * d) :
    a ≤ rneDiv n d ∧ rneDiv n d ≤ b := by
  obtain ⟨h1, h2, h3⟩ := rneDiv_spec n d hd
  constructor
  · by_contra hc
    have h4 : (rneDiv n d + 1) * d ≤ a * d := Nat.mul_le_mul_right d (by omega)
    rw [Nat.add_mul] at h4
    omega
  · by_contra hc
    have h4 : (b + 1) * d ≤ rneDiv n d * d := Nat.mul_le_mul_right d (by omega)
    rw [Nat.add_mul] at h4
    omega

/-! ## Magnitude patterns -/

/-- The magnitude of the pattern `k`, 63 bits. -/
def patternMagnitude (k : Nat) : Nat :=
  if k / 2 ^ 52 = 0 then k % 2 ^ 52 else (2 ^ 52 + k % 2 ^ 52) * 2 ^ (k / 2 ^ 52 - 1)

/-- A pattern of `s` dropped places and significand `m`. -/
theorem patternMagnitude_scaled (s m : Nat) (h : m ≤ 2 ^ 53) (hs : s = 0 ∨ 2 ^ 52 ≤ m) :
    patternMagnitude (s * 2 ^ 52 + m) = m * 2 ^ s := by
  unfold patternMagnitude
  by_cases h1 : m < 2 ^ 52
  · have h0 : s = 0 := by omega
    subst h0
    rw [if_pos (by omega)]
    omega
  · by_cases h2 : m = 2 ^ 53
    · subst h2
      have hd : (s * 2 ^ 52 + 2 ^ 53) / 2 ^ 52 = s + 2 := by omega
      have hm : (s * 2 ^ 52 + 2 ^ 53) % 2 ^ 52 = 0 := by omega
      rw [if_neg (by omega), hd, hm, show s + 2 - 1 = s + 1 by omega, Nat.pow_succ]
      ring
    · have hd : (s * 2 ^ 52 + m) / 2 ^ 52 = s + 1 := by omega
      have hm : (s * 2 ^ 52 + m) % 2 ^ 52 = m - 2 ^ 52 := by omega
      rw [if_neg (by omega), hd, hm, show s + 1 - 1 = s by omega, show 2 ^ 52 + (m - 2 ^ 52) = m by omega]

/-- Every pattern is a significand with some places dropped. -/
theorem patternMagnitude_form (k : Nat) :
    ∃ s m, k = s * 2 ^ 52 + m ∧ m < 2 ^ 53 ∧ (s = 0 ∨ 2 ^ 52 ≤ m) ∧ patternMagnitude k = m * 2 ^ s := by
  by_cases h : k / 2 ^ 52 = 0
  · refine ⟨0, k, by omega, by omega, .inl rfl, ?_⟩
    unfold patternMagnitude
    rw [if_pos h]
    omega
  · refine ⟨k / 2 ^ 52 - 1, 2 ^ 52 + k % 2 ^ 52, by omega, by omega, .inr (by omega), ?_⟩
    unfold patternMagnitude
    rw [if_neg h]

/-- A magnitude is a multiple of 2^s, or less than 2^(52+s). -/
theorem patternMagnitude_multiple (k s : Nat) :
    (∃ m, patternMagnitude k = m * 2 ^ s) ∨ patternMagnitude k < 2 ^ 52 * 2 ^ s := by
  obtain ⟨t, m, -, hm, -, hk⟩ := patternMagnitude_form k
  rw [hk]
  by_cases h : s ≤ t
  · refine .inl ⟨m * 2 ^ (t - s), ?_⟩
    rw [Nat.mul_assoc, ← Nat.pow_add, show t - s + s = t by omega]
  · right
    have h1 : 2 ^ (t + 1) ≤ 2 ^ s := Nat.pow_le_pow_right (by omega) (by omega)
    have h2 : 0 < 2 ^ t := Nat.pos_of_ne_zero (by simp)
    rw [Nat.pow_succ] at h1
    calc m * 2 ^ t < 2 ^ 53 * 2 ^ t := Nat.mul_lt_mul_of_pos_right hm h2
      _ = 2 ^ 52 * (2 ^ t * 2) := by ring
      _ ≤ 2 ^ 52 * 2 ^ s := Nat.mul_le_mul_left _ h1

/-! ## The nearest pattern -/

/-- The places dropped and the significand of `n / d` units: the significand has 53 bits, or no place is dropped. -/
theorem roundRatio_parts (n d : Nat) (hd : 0 < d) :
    let s := Nat.log2 (n / d) - 52
    let m := rneDiv n (d * 2 ^ s)
    m ≤ 2 ^ 53 ∧ (s = 0 ∨ 2 ^ 52 * (d * 2 ^ s) ≤ n) ∧ n < 2 ^ 53 * (d * 2 ^ s) ∧ (s = 0 ∨ 2 ^ 52 ≤ m) := by
  intro s m
  have hD : 0 < d * 2 ^ s := Nat.mul_pos hd (Nat.pos_of_ne_zero (by simp))
  have hup : n < 2 ^ 53 * (d * 2 ^ s) := by
    have h1 : n / d < 2 ^ (Nat.log2 (n / d) + 1) := Nat.lt_log2_self
    have h2 : n / d < 2 ^ (53 + s) := Nat.lt_of_lt_of_le h1 (Nat.pow_le_pow_right (by omega) (by omega))
    rw [Nat.div_lt_iff_lt_mul hd, Nat.pow_add] at h2
    calc n < 2 ^ 53 * 2 ^ s * d := h2
      _ = 2 ^ 53 * (d * 2 ^ s) := by ring
  have hlo : s = 0 ∨ 2 ^ 52 * (d * 2 ^ s) ≤ n := by
    by_cases h0 : s = 0
    · exact .inl h0
    · right
      have hz : n / d ≠ 0 := by
        intro hz
        apply h0
        show Nat.log2 (n / d) - 52 = 0
        rw [hz]
        rfl
      have h1 : 2 ^ Nat.log2 (n / d) ≤ n / d := Nat.log2_self_le hz
      have h2 : 2 ^ (52 + s) ≤ n / d := Nat.le_trans (Nat.pow_le_pow_right (by omega) (by omega)) h1
      rw [Nat.le_div_iff_mul_le hd, Nat.pow_add] at h2
      calc 2 ^ 52 * (d * 2 ^ s) = 2 ^ 52 * 2 ^ s * d := by ring
        _ ≤ n := h2
  refine ⟨(rneDiv_between n _ 0 (2 ^ 53) hD (by omega) (by omega)).2, hlo, hup, ?_⟩
  rcases hlo with h | h
  · exact .inl h
  · exact .inr (rneDiv_between n _ (2 ^ 52) (2 ^ 53) hD h (by omega)).1

/-- What rounding gives (R381, R382): Infinity exactly from halfway above the largest finite magnitude on (`P` is 2^2045); else a finite
pattern no farther from `n / d` than any other, and an even one when another is as near. -/
theorem roundRatio_spec (n d P : Nat) (hd : 0 < d) (hP : P = 2 ^ 2045) :
    (if (2 ^ 54 - 1) * P * d ≤ 2 * n then Fp.roundRatio n d = Fp.infinity
    else Fp.roundRatio n d < Fp.infinity ∧
      ∀ k, |(patternMagnitude (Fp.roundRatio n d) * d : ℤ) - n| ≤ |(patternMagnitude k * d : ℤ) - n| ∧
        (patternMagnitude k ≠ patternMagnitude (Fp.roundRatio n d) →
          |(patternMagnitude k * d : ℤ) - n| = |(patternMagnitude (Fp.roundRatio n d) * d : ℤ) - n| →
          Fp.roundRatio n d % 2 = 0)) := by
  obtain ⟨hm, hlo, hup, hs⟩ := roundRatio_parts n d hd
  simp only [Fp.roundRatio]
  set s := Nat.log2 (n / d) - 52 with hsd
  set D := d * 2 ^ s with hDd
  have hD : 0 < D := Nat.mul_pos hd (Nat.pos_of_ne_zero (by simp))
  obtain ⟨r1, r2, r3⟩ := rneDiv_spec n D hD
  set m := rneDiv n D with hmd
  have hcut : (2 ^ 54 - 1) * P * d ≤ 2 * n ↔ Fp.infinity ≤ s * 2 ^ 52 + m := by
    have hinf : Fp.infinity = 2047 * 2 ^ 52 := by decide
    rw [hinf]
    rcases Nat.lt_trichotomy s 2045 with h | h | h
    · have hp : 2 ^ s * 2 ≤ P := by rw [hP, ← Nat.pow_succ]; exact Nat.pow_le_pow_right (by omega) (by omega)
      have hb : 2 * n < (2 ^ 54 - 1) * P * d := by
        have h1 : 2 ^ 53 * (d * (2 ^ s * 2)) ≤ 2 ^ 53 * (d * P) :=
          Nat.mul_le_mul_left _ (Nat.mul_le_mul_left _ hp)
        have h2 : 2 ^ 53 * (d * P) ≤ (2 ^ 54 - 1) * P * d := by
          calc 2 ^ 53 * (d * P) ≤ (2 ^ 54 - 1) * (d * P) := Nat.mul_le_mul_right _ (by norm_num)
            _ = (2 ^ 54 - 1) * P * d := by ring
        have h3 : 2 ^ 53 * (d * (2 ^ s * 2)) = 2 * (2 ^ 53 * D) := by rw [hDd]; ring
        omega
      constructor
      · intro hc; omega
      · intro hc; omega
    · have hDe : (2 ^ 54 - 1) * P * d = 2 ^ 54 * D - D := by
        rw [hDd, h, ← hP, Nat.sub_mul, Nat.sub_mul]
        ring_nf
      rw [hDe]
      constructor
      · intro hc
        have h1 : 2 ^ 53 - 1 ≤ m := by
          by_contra hc'
          have h4 : (m + 2) * D ≤ 2 ^ 53 * D := Nat.mul_le_mul_right D (by omega)
          rw [Nat.add_mul] at h4
          omega
        have h2 : m ≠ 2 ^ 53 - 1 := by
          intro e
          have h5 : m * D = 2 ^ 53 * D - D := by rw [e, Nat.sub_mul, Nat.one_mul]
          have := r3 (.inl (by omega))
          omega
        omega
      · intro hc
        have he : m = 2 ^ 53 := by omega
        rw [he] at r2
        omega
    · have hp : P * 2 ≤ 2 ^ s := by rw [hP, ← Nat.pow_succ]; exact Nat.pow_le_pow_right (by omega) (by omega)
      constructor
      · intro _
        omega
      · intro _
        have h0 : 2 ^ 52 * D ≤ n := by omega
        have h1 : 2 ^ 52 * (d * (P * 2)) ≤ 2 ^ 52 * D := Nat.mul_le_mul_left _ (Nat.mul_le_mul_left _ hp)
        have h2 : (2 ^ 54 - 1) * P * d ≤ 2 * (2 ^ 52 * (d * (P * 2))) := by
          calc (2 ^ 54 - 1) * P * d ≤ 2 ^ 54 * P * d :=
                Nat.mul_le_mul_right _ (Nat.mul_le_mul_right _ (by norm_num))
            _ = 2 * (2 ^ 52 * (d * (P * 2))) := by ring
        omega
  split
  · rename_i hc
    rw [if_neg (by have := hcut.mp hc; omega)]
  · rename_i hc
    have hfin : s * 2 ^ 52 + m < Fp.infinity := by
      by_contra h
      exact hc (hcut.mpr (by omega))
    rw [if_pos hfin]
    refine ⟨hfin, fun k => ?_⟩
    have hv : patternMagnitude (s * 2 ^ 52 + m) * d = m * D := by
      rw [patternMagnitude_scaled s m hm hs, hDd]
      ring
    have hvz : (patternMagnitude (s * 2 ^ 52 + m) : ℤ) * d = (m * D : ℕ) := by rw [← hv]; push_cast; rfl
    rw [hvz]
    have near : ∀ j : Nat, |((m * D : ℕ) : ℤ) - n| ≤ |((j * D : ℕ) : ℤ) - n| ∧
        (j ≠ m → |((j * D : ℕ) : ℤ) - n| = |((m * D : ℕ) : ℤ) - n| → m % 2 = 0) := by
      intro j
      have half : 2 * |((m * D : ℕ) : ℤ) - n| ≤ D := by
        rcases abs_cases (((m * D : ℕ) : ℤ) - n) with ⟨h, -⟩ | ⟨h, -⟩ <;> rw [h] <;> omega
      have far : j ≠ m → (D : ℤ) ≤ |((j * D : ℕ) : ℤ) - n| + |((m * D : ℕ) : ℤ) - n| := by
        intro hj
        have ht : |((j * D : ℕ) : ℤ) - ((m * D : ℕ) : ℤ)| ≤ |((j * D : ℕ) : ℤ) - n| + |((m * D : ℕ) : ℤ) - n| := by
          have := abs_sub_le (((j * D : ℕ) : ℤ)) (n : ℤ) (((m * D : ℕ) : ℤ))
          rwa [abs_sub_comm (n : ℤ)] at this
        have hgap : (D : ℤ) ≤ |((j * D : ℕ) : ℤ) - ((m * D : ℕ) : ℤ)| := by
          rcases Nat.lt_or_gt_of_ne hj with h | h
          · have h4 : (j + 1) * D ≤ m * D := Nat.mul_le_mul_right D h
            rw [Nat.add_mul] at h4
            rw [abs_of_nonpos (by omega)]
            omega
          · have h4 : (m + 1) * D ≤ j * D := Nat.mul_le_mul_right D h
            rw [Nat.add_mul] at h4
            rw [abs_of_nonneg (by omega)]
            omega
        omega
      constructor
      · by_cases hj : j = m
        · rw [hj]
        · have := far hj
          omega
      · intro hj he
        have hf := far hj
        rw [he] at hf
        apply r3
        rcases abs_cases (((m * D : ℕ) : ℤ) - n) with ⟨h, -⟩ | ⟨h, -⟩ <;> rw [h] at half hf <;> omega
    rcases patternMagnitude_multiple k s with ⟨j, hj⟩ | hj
    · have hkz : (patternMagnitude k : ℤ) * d = (j * D : ℕ) := by rw [hj, hDd]; push_cast; ring
      rw [hkz]
      refine ⟨(near j).1, fun hne he => ?_⟩
      have hjm : j ≠ m := by
        intro e
        apply hne
        rw [hj, patternMagnitude_scaled s m hm hs, e]
      have := (near j).2 hjm he
      omega
    · rcases hlo with h0 | hlo
      · have hkz : (patternMagnitude k : ℤ) * d = (patternMagnitude k * D : ℕ) := by rw [hDd, h0]; push_cast; ring
        rw [hkz]
        refine ⟨(near _).1, fun hne he => ?_⟩
        have hjm : patternMagnitude k ≠ m := by
          intro e
          apply hne
          rw [patternMagnitude_scaled s m hm hs, h0, ← e]
          simp
        have := (near _).2 hjm he
        omega
      · have h1 : patternMagnitude k * d < 2 ^ 52 * D := by
          calc patternMagnitude k * d < 2 ^ 52 * 2 ^ s * d := Nat.mul_lt_mul_of_pos_right hj hd
            _ = 2 ^ 52 * D := by rw [hDd]; ring
        have h2 := (near (2 ^ 52)).1
        have h3 : |(patternMagnitude k : ℤ) * d - n| = n - patternMagnitude k * d := by
          rw [abs_of_nonpos (by push_cast at *; omega)]
          ring
        have h4 : |((2 ^ 52 * D : ℕ) : ℤ) - n| = n - (2 ^ 52 * D : ℕ) := by
          rw [abs_of_nonpos (by omega)]
          ring
        have h5 : |((m * D : ℕ) : ℤ) - n| < |(patternMagnitude k : ℤ) * d - n| := by
          rw [h3]
          rw [h4] at h2
          push_cast at *
          omega
        exact ⟨h5.le, fun _ he => absurd he.symm h5.ne⟩

/-! ## Patterns and their fields -/

/-- The magnitude pattern of a word: its 63 low bits. -/
def Fp.pattern (v : Word) : Nat := v.toNat % 2 ^ 63

theorem Fp.pattern_lt (v : Word) : Fp.pattern v < 2 ^ 63 := Nat.mod_lt _ (by norm_num)

theorem Fp.toNat_eq (v : Word) : v.toNat = (if Fp.sign v then 2 ^ 63 else 0) + Fp.pattern v := by
  have h := v.isLt
  have hb : Fp.sign v = decide (2 ^ 63 ≤ v.toNat) := by
    rw [Fp.sign, ← BitVec.msb_eq_getLsbD_last]
    simp [BitVec.msb_eq_decide]
  rw [hb, Fp.pattern]
  by_cases hc : 2 ^ 63 ≤ v.toNat
  · rw [if_pos (by simpa using hc)]
    omega
  · rw [if_neg (by simpa using hc)]
    omega

theorem Fp.exponent_eq (v : Word) : Fp.exponent v = Fp.pattern v / 2 ^ 52 := by
  rw [Fp.exponent, BitVec.extractLsb'_toNat, Nat.shiftRight_eq_div_pow, Fp.pattern]
  omega

theorem Fp.fraction_eq (v : Word) : Fp.fraction v = Fp.pattern v % 2 ^ 52 := by
  rw [Fp.fraction, BitVec.extractLsb'_toNat, Fp.pattern]
  simp

theorem Fp.magnitude_eq (v : Word) : Fp.magnitude v = patternMagnitude (Fp.pattern v) := by
  unfold Fp.magnitude patternMagnitude
  rw [Fp.exponent_eq, Fp.fraction_eq]

/-- A word is its sign and its pattern. -/
theorem Fp.eq_withSign (v : Word) : v = Fp.withSign (Fp.sign v) (Fp.pattern v) := by
  apply BitVec.eq_of_toNat_eq
  have h := Fp.toNat_eq v
  have hk := Fp.pattern_lt v
  rw [h, Fp.withSign]
  cases Fp.sign v <;> simp <;> omega

theorem Fp.pattern_withSign (b : Bool) (k : Nat) (hk : k < 2 ^ 63) : Fp.pattern (Fp.withSign b k) = k := by
  unfold Fp.pattern Fp.withSign
  cases b <;> simp <;> omega

theorem Fp.sign_withSign (b : Bool) (k : Nat) (hk : k < 2 ^ 63) : Fp.sign (Fp.withSign b k) = b := by
  have h := Fp.toNat_eq (Fp.withSign b k)
  rw [Fp.pattern_withSign b k hk] at h
  cases hs : Fp.sign (Fp.withSign b k) <;> rw [hs] at h <;> cases b
  · rfl
  · exfalso
    simp [Fp.withSign] at h
    omega
  · exfalso
    simp [Fp.withSign] at h
    omega
  · rfl

theorem Fp.sign_neg (v : Word) : Fp.sign (Fp.neg v) = !Fp.sign v := by simp [Fp.sign, Fp.neg]

/-- Flipping the sign keeps every field below it. -/
theorem Fp.neg_field (v : Word) (a b : Nat) (h : a + b ≤ 63) : (Fp.neg v).extractLsb' a b = v.extractLsb' a b := by
  apply BitVec.eq_of_getLsbD_eq
  intro i hi
  have hz : (0x8000000000000000#64).getLsbD (a + i) = false := by
    show Nat.testBit 9223372036854775808 (a + i) = false
    rw [show (9223372036854775808 : Nat) = 2 ^ 63 by norm_num, Nat.testBit_two_pow]
    simp
    omega
  simp [Fp.neg, hi, hz]

theorem Fp.value_neg (v : Word) : Fp.value (Fp.neg v) = -Fp.value v := by
  have hm : Fp.magnitude (Fp.neg v) = Fp.magnitude v := by
    unfold Fp.magnitude Fp.exponent Fp.fraction
    rw [Fp.neg_field _ _ _ (by omega), Fp.neg_field _ _ _ (by omega)]
  unfold Fp.value
  rw [Fp.sign_neg, hm]
  cases Fp.sign v <;> simp

end Sys2Proof.Machine
end

