-- ==== Sys2Proof/Laws/Memory.lean ====
section
/-! SUPPORT. Data memory: what a byte reads as after a write, that every operation keeps the canonical form and the bounds,
that equal contents are equal data, and the value a multi-byte read gives of what was written. -/
namespace Sys2Proof.Machine

set_option Elab.async false

/-! ## The canonical form -/

@[simp] theorem Memory.wf_nil : Memory.wf [] = true := rfl

@[simp] theorem Memory.wf_cons (a : Nat) (v : Byte) (rest : Memory) :
    Memory.wf ((a, v) :: rest) = true ↔ v ≠ 0 ∧ (∀ c ∈ rest, a < c.1) ∧ Memory.wf rest = true := by
  simp [Memory.wf, and_assoc]

@[simp] theorem Memory.byte_nil (a : Nat) : Memory.byte [] a = 0 := rfl

theorem Memory.byte_cons (b : Nat) (v : Byte) (rest : Memory) (a : Nat) :
    Memory.byte ((b, v) :: rest) a = if a = b then v else Memory.byte rest a := rfl

/-- An address below every listed one reads as 0. -/
theorem Memory.byte_below (m : Memory) (a : Nat) (h : ∀ c ∈ m, a < c.1) : m.byte a = 0 := by
  induction m with
  | nil => rfl
  | cons c rest ih =>
    have := h c (by simp)
    rw [Memory.byte_cons, if_neg (by omega), ih (fun d hd => h d (by simp [hd]))]

/-- What a byte reads as after a write (R46, R75). -/
theorem Memory.byte_setByte (m : Memory) (hm : m.wf = true) (a b : Nat) (v : Byte) :
    (m.setByte a v).byte b = if b = a then v else m.byte b := by
  induction m with
  | nil =>
    simp only [Memory.setByte]
    split <;> by_cases hb : b = a <;> simp_all [Memory.byte_cons]
  | cons c rest ih =>
    obtain ⟨k, u⟩ := c
    simp only [Memory.wf_cons] at hm
    obtain ⟨-, hk, hr⟩ := hm
    simp only [Memory.setByte]
    by_cases h1 : a < k
    · by_cases hv : v = 0
      · by_cases hb : b = a
        · subst hb
          simp only [h1, hv, if_true, Memory.byte_cons, if_neg (show b ≠ k by omega)]
          exact Memory.byte_below rest b (fun d hd => by have := hk d hd; omega)
        · simp [h1, hv, hb]
      · simp only [h1, if_true, if_neg hv, Memory.byte_cons]
    · by_cases h2 : a = k
      · subst h2
        by_cases hv : v = 0
        · by_cases hb : b = a
          · subst hb
            simpa [hv] using Memory.byte_below rest b hk
          · simp [hv, hb, Memory.byte_cons]
        · rw [if_neg h1, if_pos rfl, if_neg hv]
          by_cases hb : b = a <;> simp [hb, Memory.byte_cons]
      · simp only [h1, h2, if_false, Memory.byte_cons, ih hr]
        by_cases hb : b = k
        · simp [hb, show ¬ (k = a) by omega]
        · simp [hb]

/-- Every listed cell after a write was listed before, or is the written one. -/
theorem Memory.mem_setByte (m : Memory) (a : Nat) (v : Byte) {c : Host.Cell} (h : c ∈ m.setByte a v) :
    c ∈ m ∨ c = (a, v) := by
  induction m with
  | nil => by_cases hv : v = 0 <;> simp_all [Memory.setByte]
  | cons d rest ih =>
    obtain ⟨k, u⟩ := d
    simp only [Memory.setByte] at h
    split at h
    · split at h <;> (simp_all; try tauto)
    · split at h
      · split at h <;> (simp_all; try tauto)
      · rcases List.mem_cons.mp h with h | h
        · simp [h]
        · rcases ih h with h | h <;> simp [h]

theorem Memory.setByte_wf (m : Memory) (hm : m.wf = true) (a : Nat) (v : Byte) : (m.setByte a v).wf = true := by
  induction m with
  | nil =>
    simp only [Memory.setByte]
    split <;> simp_all
  | cons c rest ih =>
    obtain ⟨k, u⟩ := c
    have hm' := hm
    simp only [Memory.wf_cons] at hm
    obtain ⟨hu, hk, hr⟩ := hm
    simp only [Memory.setByte]
    split
    · rename_i h1
      split
      · exact hm'
      · rename_i hv
        rw [Memory.wf_cons]
        refine ⟨hv, ?_, hm'⟩
        intro d hd
        rcases List.mem_cons.mp hd with rfl | hd
        · exact h1
        · have := hk d hd; omega
    · split
      · rename_i h2
        split
        · exact hr
        · rename_i hv
          rw [Memory.wf_cons]
          exact ⟨hv, fun d hd => by have := hk d hd; omega, hr⟩
      · rw [Memory.wf_cons]
        refine ⟨hu, ?_, ih hr⟩
        intro d hd
        rcases Memory.mem_setByte rest a v hd with hd | rfl
        · exact hk d hd
        · show k < a; omega

theorem Memory.within_iff (size : Nat) (m : Memory) : m.within size = true ↔ ∀ c ∈ m, c.1 < size := by
  simp [Memory.within]

theorem Memory.setByte_within (size : Nat) (m : Memory) (hm : m.within size = true) (a : Nat) (ha : a < size) (v : Byte) :
    (m.setByte a v).within size = true := by
  rw [Memory.within_iff] at *
  intro c hc
  rcases Memory.mem_setByte m a v hc with hc | rfl
  · exact hm c hc
  · exact ha

/-- A byte outside the memory reads as 0. -/
theorem Memory.byte_outside (size : Nat) (m : Memory) (hm : m.within size = true) (a : Nat) (ha : size ≤ a) :
    m.byte a = 0 := by
  rw [Memory.within_iff] at hm
  induction m with
  | nil => rfl
  | cons c rest ih =>
    have := hm c (by simp)
    rw [Memory.byte_cons, if_neg (by omega), ih (fun d hd => hm d (by simp [hd]))]

/-- Two memories in the canonical form with the same bytes are the same data. -/
theorem Memory.ext_wf (m n : Memory) (hm : m.wf = true) (hn : n.wf = true) (h : ∀ a, m.byte a = n.byte a) : m = n := by
  induction m generalizing n with
  | nil =>
    cases n with
    | nil => rfl
    | cons c rest =>
      obtain ⟨k, u⟩ := c
      have := h k
      simp_all [Memory.byte_cons]
  | cons c rest ih =>
    obtain ⟨k, u⟩ := c
    simp only [Memory.wf_cons] at hm
    obtain ⟨hu, hk, hr⟩ := hm
    cases n with
    | nil =>
      have := h k
      simp_all [Memory.byte_cons]
    | cons d rest' =>
      obtain ⟨j, w⟩ := d
      simp only [Memory.wf_cons] at hn
      obtain ⟨hw, hj, hr'⟩ := hn
      have hkj : k = j := by
        rcases Nat.lt_trichotomy k j with h1 | h1 | h1
        · have hb := h k
          rw [Memory.byte_cons, Memory.byte_cons, if_pos rfl, if_neg (by omega),
            Memory.byte_below rest' k (fun c hc => by have := hj c hc; omega)] at hb
          exact absurd hb hu
        · exact h1
        · have hb := h j
          rw [Memory.byte_cons, Memory.byte_cons, if_neg (by omega), if_pos rfl,
            Memory.byte_below rest j (fun c hc => by have := hk c hc; omega)] at hb
          exact absurd hb.symm hw
      subst hkj
      have huw : u = w := by have hb := h k; simpa [Memory.byte_cons] using hb
      subst huw
      congr 1
      apply ih _ hr hr'
      intro a
      by_cases ha : a = k
      · subst ha
        rw [Memory.byte_below rest a hk, Memory.byte_below rest' a hj]
      · have hb := h a
        simpa [Memory.byte_cons, ha] using hb

/-! ## Several bytes -/

theorem Memory.setBytes_wf (bs : List Byte) : ∀ (m : Memory) (a : Nat), m.wf = true → (m.setBytes a bs).wf = true := by
  induction bs with
  | nil => intro m a h; exact h
  | cons b rest ih => intro m a h; exact ih _ _ (Memory.setByte_wf m h a b)

theorem Memory.setBytes_within (size : Nat) (bs : List Byte) : ∀ (m : Memory) (a : Nat), m.within size = true →
    a + bs.length ≤ size → (m.setBytes a bs).within size = true := by
  induction bs with
  | nil => intro m a h _; exact h
  | cons b rest ih =>
    intro m a h ha
    simp only [List.length_cons] at ha
    exact ih _ _ (Memory.setByte_within size m h a (by omega) b) (by omega)

/-- What a byte reads as after several are written: the written one inside, the old one outside. -/
theorem Memory.byte_setBytes (bs : List Byte) : ∀ (m : Memory) (a b : Nat), m.wf = true →
    (m.setBytes a bs).byte b = if a ≤ b ∧ b < a + bs.length then bs.getD (b - a) 0 else m.byte b := by
  induction bs with
  | nil =>
    intro m a b _
    simp [Memory.setBytes]
  | cons v rest ih =>
    intro m a b h
    simp only [Memory.setBytes, List.length_cons]
    rw [ih _ _ _ (Memory.setByte_wf m h a v), Memory.byte_setByte m h]
    by_cases h1 : b = a
    · subst h1
      simp
    · by_cases h2 : a + 1 ≤ b ∧ b < a + 1 + rest.length
      · rw [if_pos h2, if_pos (by omega)]
        obtain ⟨d, hd⟩ : ∃ d, b - a = d + 1 := ⟨b - a - 1, by omega⟩
        rw [hd, show b - (a + 1) = d by omega]
        simp
      · rw [if_neg h2, if_neg h1, if_neg (by omega)]

@[simp] theorem lowBytes_length (n v : Nat) : (lowBytes n v).length = n := by
  induction n generalizing v with
  | zero => rfl
  | succ n ih => simp [lowBytes, ih]

@[simp] theorem inOrder_length (o : ByteOrder) (bs : List Byte) : (inOrder o bs).length = bs.length := by
  cases o <;> simp [inOrder]

@[simp] theorem inOrder_inOrder (o : ByteOrder) (bs : List Byte) : inOrder o (inOrder o bs) = bs := by
  cases o <;> simp [inOrder]

/-- The number made of the low bytes of a value is the value modulo their size. -/
theorem littleEndian_lowBytes (n v : Nat) : littleEndian (lowBytes n v) = v % 2 ^ (8 * n) := by
  induction n generalizing v with
  | zero => simp [lowBytes, littleEndian, Nat.mod_one]
  | succ n ih =>
    have h8 : (2 : Nat) ^ (8 * (n + 1)) = 256 * 2 ^ (8 * n) := by rw [Nat.mul_add, Nat.pow_add, Nat.mul_comm]
    rw [lowBytes, littleEndian, ih, h8, Nat.mod_mul, BitVec.toNat_ofNat]

theorem littleEndian_lt (bs : List Byte) : littleEndian bs < 2 ^ (8 * bs.length) := by
  induction bs with
  | nil => simp [littleEndian]
  | cons b rest ih =>
    have h8 : (2 : Nat) ^ (8 * (rest.length + 1)) = 256 * 2 ^ (8 * rest.length) := by
      rw [Nat.mul_add, Nat.pow_add, Nat.mul_comm]
    simp only [littleEndian, List.length_cons, h8]
    have := b.isLt
    omega

/-- Reading the bytes just written gives them back. -/
theorem Memory.bytesAt_setBytes (m : Memory) (hm : m.wf = true) (a : Nat) (bs : List Byte) :
    (m.setBytes a bs).bytesAt a bs.length = bs := by
  apply List.ext_getElem
  · simp [Memory.bytesAt]
  · intro k h1 h2
    simp only [Memory.bytesAt, List.getElem_map, List.getElem_range]
    rw [Memory.byte_setBytes bs m a (a + k) hm, if_pos (by omega), Nat.add_sub_cancel_left]
    simp [List.getD_eq_getElem?_getD, h2]

/-- Reading apart from what was written gives the old bytes. -/
theorem Memory.bytesAt_apart (m : Memory) (hm : m.wf = true) (a : Nat) (bs : List Byte) (b n : Nat)
    (h : b + n ≤ a ∨ a + bs.length ≤ b) : (m.setBytes a bs).bytesAt b n = m.bytesAt b n := by
  simp only [Memory.bytesAt]
  apply List.map_congr_left
  intro k hk
  have := List.mem_range.mp hk
  rw [Memory.byte_setBytes bs m a (b + k) hm, if_neg (by omega)]

theorem memWrite_wf (o : ByteOrder) (m : Memory) (a n : Nat) (v : Word) (h : m.wf = true) : (memWrite o m a n v).wf = true :=
  Memory.setBytes_wf _ m a h

theorem memWrite_within (size : Nat) (o : ByteOrder) (m : Memory) (a n : Nat) (v : Word) (h : m.within size = true)
    (ha : a + n ≤ size) : (memWrite o m a n v).within size = true :=
  Memory.setBytes_within size _ m a h (by simpa using ha)

/-- A write leaves every byte outside its own alone. -/
theorem byte_memWrite_outside (o : ByteOrder) (m : Memory) (a n : Nat) (v : Word) (h : m.wf = true) (b : Nat)
    (hb : b < a ∨ a + n ≤ b) : (memWrite o m a n v).byte b = m.byte b := by
  rw [memWrite, Memory.byte_setBytes _ m a b h, if_neg (by simp; omega)]

/-- A read of what was written, of the same width at the same address (R76). -/
theorem memRead_memWrite (o : ByteOrder) (m : Memory) (a n : Nat) (v : Word) (h : m.wf = true) :
    memRead o (memWrite o m a n v) a n = v.toNat % 2 ^ (8 * n) := by
  have hl : (inOrder o (lowBytes n v.toNat)).length = n := by simp
  have hb := Memory.bytesAt_setBytes m h a (inOrder o (lowBytes n v.toNat))
  rw [hl] at hb
  rw [memRead, memWrite, hb, inOrder_inOrder, littleEndian_lowBytes]

theorem memRead_lt (o : ByteOrder) (m : Memory) (a n : Nat) : memRead o m a n < 2 ^ (8 * n) := by
  have h := littleEndian_lt (inOrder o (m.bytesAt a n))
  simpa [memRead, Memory.bytesAt] using h

/-! ## A memory made of cells -/

theorem Memory.ofCells_sound (size : Nat) (cells : List Host.Cell) :
    (Memory.ofCells size cells).wf = true ∧ (Memory.ofCells size cells).within size = true := by
  suffices H : ∀ m : Memory, m.wf = true ∧ m.within size = true →
      (cells.foldl (fun m c => if c.1 < size then Memory.setByte m c.1 c.2 else m) m).wf = true ∧
      Memory.within size (cells.foldl (fun m c => if c.1 < size then Memory.setByte m c.1 c.2 else m) m) = true from
    H [] ⟨rfl, rfl⟩
  induction cells with
  | nil => intro m h; exact h
  | cons c rest ih =>
    intro m h
    apply ih
    dsimp only
    split
    · rename_i hc
      exact ⟨Memory.setByte_wf m h.1 _ _, Memory.setByte_within size m h.2 _ hc _⟩
    · exact h

/-! ## The checks of an access (R73) -/

theorem accessFault_none {size n : Nat} {a : Word} :
    accessFault size a n = none ↔ a.toNat % n = 0 ∧ a.toNat + n ≤ size := by
  unfold accessFault
  split
  · simp_all
  · split <;> simp_all

/-- A byte of a memory made from cells: the last cell of its address gives it, when it lies in the memory; else 0. -/
theorem Memory.byte_ofCells (size : Nat) (cells : List Host.Cell) (a : Nat) :
    ((∀ c ∈ cells, c.1 ≠ a) ∨ size ≤ a → (Memory.ofCells size cells).byte a = 0) ∧
    ∀ b before rest, cells = before ++ (a, b) :: rest → (∀ c ∈ rest, c.1 ≠ a) → a < size →
      (Memory.ofCells size cells).byte a = b := by
  have other : ∀ cells : List Host.Cell, ∀ m : Memory, m.wf = true → ((∀ c ∈ cells, c.1 ≠ a) ∨ size ≤ a) →
      Memory.byte (cells.foldl (fun m c => if c.1 < size then Memory.setByte m c.1 c.2 else m) m) a = m.byte a := by
    intro cells
    induction cells with
    | nil => intro m _ _; rfl
    | cons c rest ih =>
      intro m hm h
      have h' : (∀ d ∈ rest, d.1 ≠ a) ∨ size ≤ a := h.imp (fun h d hd => h d (by simp [hd])) id
      rw [List.foldl_cons]
      split
      · rename_i hc
        rw [ih _ (Memory.setByte_wf m hm _ _) h', Memory.byte_setByte m hm, if_neg]
        rcases h with h | h
        · exact fun e => h c (by simp) e.symm
        · omega
      · exact ih m hm h'
  refine ⟨other cells [] rfl, ?_⟩
  rintro b before rest rfl hr ha
  unfold Memory.ofCells
  rw [List.foldl_append, List.foldl_cons]
  have hw := (Memory.ofCells_sound size before).1
  unfold Memory.ofCells at hw
  simp only [ha, if_true]
  rw [other rest _ (Memory.setByte_wf _ hw _ _) (.inl hr), Memory.byte_setByte _ hw, if_pos rfl]

end Sys2Proof.Machine
end

