-- ==== Sys2Proof/Laws/State.lean ====
section
/-! SUPPORT. What each update of the state leaves alone: one lemma per field, so that no later proof unfolds a record update.
Updates that choose between cases are split once, here. -/
namespace Sys2Proof.Machine

set_option Elab.async false

/-! ## One entry put into its slot -/

@[simp] theorem putEntry_cfg (s : State) (t : Stage) (e : Entry) : (s.putEntry t e).cfg = s.cfg := rfl
@[simp] theorem putEntry_base (s : State) (t : Stage) (e : Entry) : (s.putEntry t e).base = s.base := rfl
@[simp] theorem putEntry_prog (s : State) (t : Stage) (e : Entry) : (s.putEntry t e).prog = s.prog := rfl
@[simp] theorem putEntry_x (s : State) (t : Stage) (e : Entry) : (s.putEntry t e).x = s.x := rfl
@[simp] theorem putEntry_f (s : State) (t : Stage) (e : Entry) : (s.putEntry t e).f = s.f := rfl
@[simp] theorem putEntry_HI (s : State) (t : Stage) (e : Entry) : (s.putEntry t e).HI = s.HI := rfl
@[simp] theorem putEntry_LO (s : State) (t : Stage) (e : Entry) : (s.putEntry t e).LO = s.LO := rfl
@[simp] theorem putEntry_FCC (s : State) (t : Stage) (e : Entry) : (s.putEntry t e).FCC = s.FCC := rfl
@[simp] theorem putEntry_pend (s : State) (t : Stage) (e : Entry) : (s.putEntry t e).pend = s.pend := rfl
@[simp] theorem putEntry_mem (s : State) (t : Stage) (e : Entry) : (s.putEntry t e).mem = s.mem := rfl
@[simp] theorem putEntry_pc (s : State) (t : Stage) (e : Entry) : (s.putEntry t e).pc = s.pc := rfl
@[simp] theorem putEntry_cycle (s : State) (t : Stage) (e : Entry) : (s.putEntry t e).cycle = s.cycle := rfl
@[simp] theorem putEntry_stalls (s : State) (t : Stage) (e : Entry) : (s.putEntry t e).stalls = s.stalls := rfl
@[simp] theorem putEntry_ctrl (s : State) (t : Stage) (e : Entry) : (s.putEntry t e).ctrl = s.ctrl := rfl
@[simp] theorem putEntry_haltPending (s : State) (t : Stage) (e : Entry) : (s.putEntry t e).haltPending = s.haltPending := rfl
@[simp] theorem putEntry_fatalPending (s : State) (t : Stage) (e : Entry) : (s.putEntry t e).fatalPending = s.fatalPending := rfl
@[simp] theorem putEntry_turn (s : State) (t : Stage) (e : Entry) : (s.putEntry t e).turn = s.turn := rfl
@[simp] theorem putEntry_report (s : State) (t : Stage) (e : Entry) : (s.putEntry t e).report = s.report := rfl
@[simp] theorem putEntry_slots (s : State) (t : Stage) (e : Entry) : (s.putEntry t e).slots = s.slots.put t (some e) := rfl

/-! ## A redirect requested, a fatal exception left pending, an entry squashed -/

@[simp] theorem requestFlush_cfg (s : State) (d : Nat) (a : Word) : (s.requestFlush d a).cfg = s.cfg := rfl
@[simp] theorem requestFlush_base (s : State) (d : Nat) (a : Word) : (s.requestFlush d a).base = s.base := rfl
@[simp] theorem requestFlush_prog (s : State) (d : Nat) (a : Word) : (s.requestFlush d a).prog = s.prog := rfl
@[simp] theorem requestFlush_x (s : State) (d : Nat) (a : Word) : (s.requestFlush d a).x = s.x := rfl
@[simp] theorem requestFlush_f (s : State) (d : Nat) (a : Word) : (s.requestFlush d a).f = s.f := rfl
@[simp] theorem requestFlush_HI (s : State) (d : Nat) (a : Word) : (s.requestFlush d a).HI = s.HI := rfl
@[simp] theorem requestFlush_LO (s : State) (d : Nat) (a : Word) : (s.requestFlush d a).LO = s.LO := rfl
@[simp] theorem requestFlush_FCC (s : State) (d : Nat) (a : Word) : (s.requestFlush d a).FCC = s.FCC := rfl
@[simp] theorem requestFlush_pend (s : State) (d : Nat) (a : Word) : (s.requestFlush d a).pend = s.pend := rfl
@[simp] theorem requestFlush_mem (s : State) (d : Nat) (a : Word) : (s.requestFlush d a).mem = s.mem := rfl
@[simp] theorem requestFlush_pc (s : State) (d : Nat) (a : Word) : (s.requestFlush d a).pc = s.pc := rfl
@[simp] theorem requestFlush_cycle (s : State) (d : Nat) (a : Word) : (s.requestFlush d a).cycle = s.cycle := rfl
@[simp] theorem requestFlush_stalls (s : State) (d : Nat) (a : Word) : (s.requestFlush d a).stalls = s.stalls := rfl
@[simp] theorem requestFlush_slots (s : State) (d : Nat) (a : Word) : (s.requestFlush d a).slots = s.slots := rfl
@[simp] theorem requestFlush_haltPending (s : State) (d : Nat) (a : Word) : (s.requestFlush d a).haltPending = s.haltPending := rfl
@[simp] theorem requestFlush_fatalPending (s : State) (d : Nat) (a : Word) : (s.requestFlush d a).fatalPending = s.fatalPending := rfl
@[simp] theorem requestFlush_turn (s : State) (d : Nat) (a : Word) : (s.requestFlush d a).turn = s.turn := rfl
@[simp] theorem requestFlush_ctrl (s : State) (d : Nat) (a : Word) : (s.requestFlush d a).ctrl = .flushRequested d a := rfl
@[simp] theorem requestFatal_cfg (s : State) (k : ExcKind) (a : Word) : (s.requestFatal k a).cfg = s.cfg := rfl
@[simp] theorem requestFatal_base (s : State) (k : ExcKind) (a : Word) : (s.requestFatal k a).base = s.base := rfl
@[simp] theorem requestFatal_prog (s : State) (k : ExcKind) (a : Word) : (s.requestFatal k a).prog = s.prog := rfl
@[simp] theorem requestFatal_x (s : State) (k : ExcKind) (a : Word) : (s.requestFatal k a).x = s.x := rfl
@[simp] theorem requestFatal_f (s : State) (k : ExcKind) (a : Word) : (s.requestFatal k a).f = s.f := rfl
@[simp] theorem requestFatal_HI (s : State) (k : ExcKind) (a : Word) : (s.requestFatal k a).HI = s.HI := rfl
@[simp] theorem requestFatal_LO (s : State) (k : ExcKind) (a : Word) : (s.requestFatal k a).LO = s.LO := rfl
@[simp] theorem requestFatal_FCC (s : State) (k : ExcKind) (a : Word) : (s.requestFatal k a).FCC = s.FCC := rfl
@[simp] theorem requestFatal_pend (s : State) (k : ExcKind) (a : Word) : (s.requestFatal k a).pend = s.pend := rfl
@[simp] theorem requestFatal_mem (s : State) (k : ExcKind) (a : Word) : (s.requestFatal k a).mem = s.mem := rfl
@[simp] theorem requestFatal_pc (s : State) (k : ExcKind) (a : Word) : (s.requestFatal k a).pc = s.pc := rfl
@[simp] theorem requestFatal_cycle (s : State) (k : ExcKind) (a : Word) : (s.requestFatal k a).cycle = s.cycle := rfl
@[simp] theorem requestFatal_stalls (s : State) (k : ExcKind) (a : Word) : (s.requestFatal k a).stalls = s.stalls := rfl
@[simp] theorem requestFatal_slots (s : State) (k : ExcKind) (a : Word) : (s.requestFatal k a).slots = s.slots := rfl
@[simp] theorem requestFatal_haltPending (s : State) (k : ExcKind) (a : Word) : (s.requestFatal k a).haltPending = s.haltPending := rfl
@[simp] theorem requestFatal_turn (s : State) (k : ExcKind) (a : Word) : (s.requestFatal k a).turn = s.turn := rfl
@[simp] theorem requestFatal_report (s : State) (k : ExcKind) (a : Word) : (s.requestFatal k a).report = s.report := rfl
@[simp] theorem requestFatal_fatalPending (s : State) (k : ExcKind) (a : Word) : (s.requestFatal k a).fatalPending = some (k, a) := rfl
@[simp] theorem squash_cfg (s : State) (t : Stage) (k : ExcKind) (p a : Word) : (s.squash t k p a).cfg = s.cfg := rfl
@[simp] theorem squash_base (s : State) (t : Stage) (k : ExcKind) (p a : Word) : (s.squash t k p a).base = s.base := rfl
@[simp] theorem squash_prog (s : State) (t : Stage) (k : ExcKind) (p a : Word) : (s.squash t k p a).prog = s.prog := rfl
@[simp] theorem squash_x (s : State) (t : Stage) (k : ExcKind) (p a : Word) : (s.squash t k p a).x = s.x := rfl
@[simp] theorem squash_f (s : State) (t : Stage) (k : ExcKind) (p a : Word) : (s.squash t k p a).f = s.f := rfl
@[simp] theorem squash_HI (s : State) (t : Stage) (k : ExcKind) (p a : Word) : (s.squash t k p a).HI = s.HI := rfl
@[simp] theorem squash_LO (s : State) (t : Stage) (k : ExcKind) (p a : Word) : (s.squash t k p a).LO = s.LO := rfl
@[simp] theorem squash_FCC (s : State) (t : Stage) (k : ExcKind) (p a : Word) : (s.squash t k p a).FCC = s.FCC := rfl
@[simp] theorem squash_pend (s : State) (t : Stage) (k : ExcKind) (p a : Word) : (s.squash t k p a).pend = s.pend := rfl
@[simp] theorem squash_mem (s : State) (t : Stage) (k : ExcKind) (p a : Word) : (s.squash t k p a).mem = s.mem := rfl
@[simp] theorem squash_pc (s : State) (t : Stage) (k : ExcKind) (p a : Word) : (s.squash t k p a).pc = s.pc := rfl
@[simp] theorem squash_cycle (s : State) (t : Stage) (k : ExcKind) (p a : Word) : (s.squash t k p a).cycle = s.cycle := rfl
@[simp] theorem squash_stalls (s : State) (t : Stage) (k : ExcKind) (p a : Word) : (s.squash t k p a).stalls = s.stalls := rfl
@[simp] theorem squash_ctrl (s : State) (t : Stage) (k : ExcKind) (p a : Word) : (s.squash t k p a).ctrl = s.ctrl := rfl
@[simp] theorem squash_haltPending (s : State) (t : Stage) (k : ExcKind) (p a : Word) : (s.squash t k p a).haltPending = s.haltPending := rfl
@[simp] theorem squash_fatalPending (s : State) (t : Stage) (k : ExcKind) (p a : Word) : (s.squash t k p a).fatalPending = s.fatalPending := rfl
@[simp] theorem squash_turn (s : State) (t : Stage) (k : ExcKind) (p a : Word) : (s.squash t k p a).turn = s.turn := rfl
@[simp] theorem squash_slots (s : State) (t : Stage) (k : ExcKind) (p a : Word) :
    (s.squash t k p a).slots = s.slots.discardThrough t := rfl

/-! ## Taking an exception -/

@[simp] theorem takeException_cfg (s : State) (t : Stage) (k : ExcKind) (p a : Word) : (s.takeException t k p a).cfg = s.cfg := by
  unfold State.takeException; split <;> rfl
@[simp] theorem takeException_base (s : State) (t : Stage) (k : ExcKind) (p a : Word) : (s.takeException t k p a).base = s.base := by
  unfold State.takeException; split <;> rfl
@[simp] theorem takeException_prog (s : State) (t : Stage) (k : ExcKind) (p a : Word) : (s.takeException t k p a).prog = s.prog := by
  unfold State.takeException; split <;> rfl
@[simp] theorem takeException_x (s : State) (t : Stage) (k : ExcKind) (p a : Word) : (s.takeException t k p a).x = s.x := by
  unfold State.takeException; split <;> rfl
@[simp] theorem takeException_f (s : State) (t : Stage) (k : ExcKind) (p a : Word) : (s.takeException t k p a).f = s.f := by
  unfold State.takeException; split <;> rfl
@[simp] theorem takeException_HI (s : State) (t : Stage) (k : ExcKind) (p a : Word) : (s.takeException t k p a).HI = s.HI := by
  unfold State.takeException; split <;> rfl
@[simp] theorem takeException_LO (s : State) (t : Stage) (k : ExcKind) (p a : Word) : (s.takeException t k p a).LO = s.LO := by
  unfold State.takeException; split <;> rfl
@[simp] theorem takeException_FCC (s : State) (t : Stage) (k : ExcKind) (p a : Word) : (s.takeException t k p a).FCC = s.FCC := by
  unfold State.takeException; split <;> rfl
@[simp] theorem takeException_pend (s : State) (t : Stage) (k : ExcKind) (p a : Word) : (s.takeException t k p a).pend = s.pend := by
  unfold State.takeException; split <;> rfl
@[simp] theorem takeException_mem (s : State) (t : Stage) (k : ExcKind) (p a : Word) : (s.takeException t k p a).mem = s.mem := by
  unfold State.takeException; split <;> rfl
@[simp] theorem takeException_pc (s : State) (t : Stage) (k : ExcKind) (p a : Word) : (s.takeException t k p a).pc = s.pc := by
  unfold State.takeException; split <;> rfl
@[simp] theorem takeException_cycle (s : State) (t : Stage) (k : ExcKind) (p a : Word) : (s.takeException t k p a).cycle = s.cycle := by
  unfold State.takeException; split <;> rfl
@[simp] theorem takeException_stalls (s : State) (t : Stage) (k : ExcKind) (p a : Word) : (s.takeException t k p a).stalls = s.stalls := by
  unfold State.takeException; split <;> rfl
@[simp] theorem takeException_haltPending (s : State) (t : Stage) (k : ExcKind) (p a : Word) : (s.takeException t k p a).haltPending = s.haltPending := by
  unfold State.takeException; split <;> rfl
@[simp] theorem takeException_turn (s : State) (t : Stage) (k : ExcKind) (p a : Word) : (s.takeException t k p a).turn = s.turn := by
  unfold State.takeException; split <;> rfl
@[simp] theorem takeException_slots (s : State) (t : Stage) (k : ExcKind) (p a : Word) :
    (s.takeException t k p a).slots = s.slots.discardThrough t := by
  unfold State.takeException; split <;> rfl

/-! ## A register written -/

@[simp] theorem writeReg_cfg (s : State) (r : RegId) (v : Word) : (s.writeReg r v).cfg = s.cfg := by
  unfold State.writeReg; split
  · split <;> rfl
  all_goals rfl
@[simp] theorem writeReg_base (s : State) (r : RegId) (v : Word) : (s.writeReg r v).base = s.base := by
  unfold State.writeReg; split
  · split <;> rfl
  all_goals rfl
@[simp] theorem writeReg_prog (s : State) (r : RegId) (v : Word) : (s.writeReg r v).prog = s.prog := by
  unfold State.writeReg; split
  · split <;> rfl
  all_goals rfl
@[simp] theorem writeReg_pend (s : State) (r : RegId) (v : Word) : (s.writeReg r v).pend = s.pend := by
  unfold State.writeReg; split
  · split <;> rfl
  all_goals rfl
@[simp] theorem writeReg_mem (s : State) (r : RegId) (v : Word) : (s.writeReg r v).mem = s.mem := by
  unfold State.writeReg; split
  · split <;> rfl
  all_goals rfl
@[simp] theorem writeReg_pc (s : State) (r : RegId) (v : Word) : (s.writeReg r v).pc = s.pc := by
  unfold State.writeReg; split
  · split <;> rfl
  all_goals rfl
@[simp] theorem writeReg_cycle (s : State) (r : RegId) (v : Word) : (s.writeReg r v).cycle = s.cycle := by
  unfold State.writeReg; split
  · split <;> rfl
  all_goals rfl
@[simp] theorem writeReg_stalls (s : State) (r : RegId) (v : Word) : (s.writeReg r v).stalls = s.stalls := by
  unfold State.writeReg; split
  · split <;> rfl
  all_goals rfl
@[simp] theorem writeReg_slots (s : State) (r : RegId) (v : Word) : (s.writeReg r v).slots = s.slots := by
  unfold State.writeReg; split
  · split <;> rfl
  all_goals rfl
@[simp] theorem writeReg_ctrl (s : State) (r : RegId) (v : Word) : (s.writeReg r v).ctrl = s.ctrl := by
  unfold State.writeReg; split
  · split <;> rfl
  all_goals rfl
@[simp] theorem writeReg_haltPending (s : State) (r : RegId) (v : Word) : (s.writeReg r v).haltPending = s.haltPending := by
  unfold State.writeReg; split
  · split <;> rfl
  all_goals rfl
@[simp] theorem writeReg_fatalPending (s : State) (r : RegId) (v : Word) : (s.writeReg r v).fatalPending = s.fatalPending := by
  unfold State.writeReg; split
  · split <;> rfl
  all_goals rfl
@[simp] theorem writeReg_turn (s : State) (r : RegId) (v : Word) : (s.writeReg r v).turn = s.turn := by
  unfold State.writeReg; split
  · split <;> rfl
  all_goals rfl
@[simp] theorem writeReg_report (s : State) (r : RegId) (v : Word) : (s.writeReg r v).report = s.report := by
  unfold State.writeReg; split
  · split <;> rfl
  all_goals rfl

/-! ## Results written -/

@[simp] theorem writeRegs_cfg (s : State) (l : List (RegId × Word)) : (s.writeRegs l).cfg = s.cfg := by
  induction l generalizing s with
  | nil => rfl
  | cons c l ih => obtain ⟨r, v⟩ := c; simp [State.writeRegs, ih]
@[simp] theorem writeRegs_base (s : State) (l : List (RegId × Word)) : (s.writeRegs l).base = s.base := by
  induction l generalizing s with
  | nil => rfl
  | cons c l ih => obtain ⟨r, v⟩ := c; simp [State.writeRegs, ih]
@[simp] theorem writeRegs_prog (s : State) (l : List (RegId × Word)) : (s.writeRegs l).prog = s.prog := by
  induction l generalizing s with
  | nil => rfl
  | cons c l ih => obtain ⟨r, v⟩ := c; simp [State.writeRegs, ih]
@[simp] theorem writeRegs_pend (s : State) (l : List (RegId × Word)) : (s.writeRegs l).pend = s.pend := by
  induction l generalizing s with
  | nil => rfl
  | cons c l ih => obtain ⟨r, v⟩ := c; simp [State.writeRegs, ih]
@[simp] theorem writeRegs_mem (s : State) (l : List (RegId × Word)) : (s.writeRegs l).mem = s.mem := by
  induction l generalizing s with
  | nil => rfl
  | cons c l ih => obtain ⟨r, v⟩ := c; simp [State.writeRegs, ih]
@[simp] theorem writeRegs_pc (s : State) (l : List (RegId × Word)) : (s.writeRegs l).pc = s.pc := by
  induction l generalizing s with
  | nil => rfl
  | cons c l ih => obtain ⟨r, v⟩ := c; simp [State.writeRegs, ih]
@[simp] theorem writeRegs_cycle (s : State) (l : List (RegId × Word)) : (s.writeRegs l).cycle = s.cycle := by
  induction l generalizing s with
  | nil => rfl
  | cons c l ih => obtain ⟨r, v⟩ := c; simp [State.writeRegs, ih]
@[simp] theorem writeRegs_stalls (s : State) (l : List (RegId × Word)) : (s.writeRegs l).stalls = s.stalls := by
  induction l generalizing s with
  | nil => rfl
  | cons c l ih => obtain ⟨r, v⟩ := c; simp [State.writeRegs, ih]
@[simp] theorem writeRegs_slots (s : State) (l : List (RegId × Word)) : (s.writeRegs l).slots = s.slots := by
  induction l generalizing s with
  | nil => rfl
  | cons c l ih => obtain ⟨r, v⟩ := c; simp [State.writeRegs, ih]
@[simp] theorem writeRegs_ctrl (s : State) (l : List (RegId × Word)) : (s.writeRegs l).ctrl = s.ctrl := by
  induction l generalizing s with
  | nil => rfl
  | cons c l ih => obtain ⟨r, v⟩ := c; simp [State.writeRegs, ih]
@[simp] theorem writeRegs_haltPending (s : State) (l : List (RegId × Word)) : (s.writeRegs l).haltPending = s.haltPending := by
  induction l generalizing s with
  | nil => rfl
  | cons c l ih => obtain ⟨r, v⟩ := c; simp [State.writeRegs, ih]
@[simp] theorem writeRegs_fatalPending (s : State) (l : List (RegId × Word)) : (s.writeRegs l).fatalPending = s.fatalPending := by
  induction l generalizing s with
  | nil => rfl
  | cons c l ih => obtain ⟨r, v⟩ := c; simp [State.writeRegs, ih]
@[simp] theorem writeRegs_turn (s : State) (l : List (RegId × Word)) : (s.writeRegs l).turn = s.turn := by
  induction l generalizing s with
  | nil => rfl
  | cons c l ih => obtain ⟨r, v⟩ := c; simp [State.writeRegs, ih]
@[simp] theorem writeRegs_report (s : State) (l : List (RegId × Word)) : (s.writeRegs l).report = s.report := by
  induction l generalizing s with
  | nil => rfl
  | cons c l ih => obtain ⟨r, v⟩ := c; simp [State.writeRegs, ih]

/-! ## Execute's effects beyond its slot -/

@[simp] theorem afterExecute_cfg (s : State) (e : Entry) : (s.afterExecute e).cfg = s.cfg := by
  unfold State.afterExecute; split
  · rfl
  · split <;> rfl
@[simp] theorem afterExecute_base (s : State) (e : Entry) : (s.afterExecute e).base = s.base := by
  unfold State.afterExecute; split
  · rfl
  · split <;> rfl
@[simp] theorem afterExecute_prog (s : State) (e : Entry) : (s.afterExecute e).prog = s.prog := by
  unfold State.afterExecute; split
  · rfl
  · split <;> rfl
@[simp] theorem afterExecute_x (s : State) (e : Entry) : (s.afterExecute e).x = s.x := by
  unfold State.afterExecute; split
  · rfl
  · split <;> rfl
@[simp] theorem afterExecute_f (s : State) (e : Entry) : (s.afterExecute e).f = s.f := by
  unfold State.afterExecute; split
  · rfl
  · split <;> rfl
@[simp] theorem afterExecute_HI (s : State) (e : Entry) : (s.afterExecute e).HI = s.HI := by
  unfold State.afterExecute; split
  · rfl
  · split <;> rfl
@[simp] theorem afterExecute_LO (s : State) (e : Entry) : (s.afterExecute e).LO = s.LO := by
  unfold State.afterExecute; split
  · rfl
  · split <;> rfl
@[simp] theorem afterExecute_FCC (s : State) (e : Entry) : (s.afterExecute e).FCC = s.FCC := by
  unfold State.afterExecute; split
  · rfl
  · split <;> rfl
@[simp] theorem afterExecute_pend (s : State) (e : Entry) : (s.afterExecute e).pend = s.pend := by
  unfold State.afterExecute; split
  · rfl
  · split <;> rfl
@[simp] theorem afterExecute_mem (s : State) (e : Entry) : (s.afterExecute e).mem = s.mem := by
  unfold State.afterExecute; split
  · rfl
  · split <;> rfl
@[simp] theorem afterExecute_pc (s : State) (e : Entry) : (s.afterExecute e).pc = s.pc := by
  unfold State.afterExecute; split
  · rfl
  · split <;> rfl
@[simp] theorem afterExecute_cycle (s : State) (e : Entry) : (s.afterExecute e).cycle = s.cycle := by
  unfold State.afterExecute; split
  · rfl
  · split <;> rfl
@[simp] theorem afterExecute_stalls (s : State) (e : Entry) : (s.afterExecute e).stalls = s.stalls := by
  unfold State.afterExecute; split
  · rfl
  · split <;> rfl
@[simp] theorem afterExecute_fatalPending (s : State) (e : Entry) : (s.afterExecute e).fatalPending = s.fatalPending := by
  unfold State.afterExecute; split
  · rfl
  · split <;> rfl
@[simp] theorem afterExecute_turn (s : State) (e : Entry) : (s.afterExecute e).turn = s.turn := by
  unfold State.afterExecute; split
  · rfl
  · split <;> rfl

/-! ## The Execute stage -/

@[simp] theorem executeStage_cfg (u : Config → Entry → ExecResult) (e : Entry) (s : State) : (executeStage u e s).cfg = s.cfg := by
  unfold executeStage; split
  · rfl
  · split <;> simp
@[simp] theorem executeStage_base (u : Config → Entry → ExecResult) (e : Entry) (s : State) : (executeStage u e s).base = s.base := by
  unfold executeStage; split
  · rfl
  · split <;> simp
@[simp] theorem executeStage_prog (u : Config → Entry → ExecResult) (e : Entry) (s : State) : (executeStage u e s).prog = s.prog := by
  unfold executeStage; split
  · rfl
  · split <;> simp
@[simp] theorem executeStage_x (u : Config → Entry → ExecResult) (e : Entry) (s : State) : (executeStage u e s).x = s.x := by
  unfold executeStage; split
  · rfl
  · split <;> simp
@[simp] theorem executeStage_f (u : Config → Entry → ExecResult) (e : Entry) (s : State) : (executeStage u e s).f = s.f := by
  unfold executeStage; split
  · rfl
  · split <;> simp
@[simp] theorem executeStage_HI (u : Config → Entry → ExecResult) (e : Entry) (s : State) : (executeStage u e s).HI = s.HI := by
  unfold executeStage; split
  · rfl
  · split <;> simp
@[simp] theorem executeStage_LO (u : Config → Entry → ExecResult) (e : Entry) (s : State) : (executeStage u e s).LO = s.LO := by
  unfold executeStage; split
  · rfl
  · split <;> simp
@[simp] theorem executeStage_FCC (u : Config → Entry → ExecResult) (e : Entry) (s : State) : (executeStage u e s).FCC = s.FCC := by
  unfold executeStage; split
  · rfl
  · split <;> simp
@[simp] theorem executeStage_pend (u : Config → Entry → ExecResult) (e : Entry) (s : State) : (executeStage u e s).pend = s.pend := by
  unfold executeStage; split
  · rfl
  · split <;> simp
@[simp] theorem executeStage_mem (u : Config → Entry → ExecResult) (e : Entry) (s : State) : (executeStage u e s).mem = s.mem := by
  unfold executeStage; split
  · rfl
  · split <;> simp
@[simp] theorem executeStage_pc (u : Config → Entry → ExecResult) (e : Entry) (s : State) : (executeStage u e s).pc = s.pc := by
  unfold executeStage; split
  · rfl
  · split <;> simp
@[simp] theorem executeStage_cycle (u : Config → Entry → ExecResult) (e : Entry) (s : State) : (executeStage u e s).cycle = s.cycle := by
  unfold executeStage; split
  · rfl
  · split <;> simp
@[simp] theorem executeStage_stalls (u : Config → Entry → ExecResult) (e : Entry) (s : State) : (executeStage u e s).stalls = s.stalls := by
  unfold executeStage; split
  · rfl
  · split <;> simp
@[simp] theorem executeStage_turn (u : Config → Entry → ExecResult) (e : Entry) (s : State) : (executeStage u e s).turn = s.turn := by
  unfold executeStage; split
  · rfl
  · split <;> simp

/-! ## The Memory stage -/

@[simp] theorem memoryStage_cfg (a : Access) (e : Entry) (s : State) : (memoryStage a e s).cfg = s.cfg := by
  unfold memoryStage; split
  · rfl
  all_goals (split <;> simp)
@[simp] theorem memoryStage_base (a : Access) (e : Entry) (s : State) : (memoryStage a e s).base = s.base := by
  unfold memoryStage; split
  · rfl
  all_goals (split <;> simp)
@[simp] theorem memoryStage_prog (a : Access) (e : Entry) (s : State) : (memoryStage a e s).prog = s.prog := by
  unfold memoryStage; split
  · rfl
  all_goals (split <;> simp)
@[simp] theorem memoryStage_x (a : Access) (e : Entry) (s : State) : (memoryStage a e s).x = s.x := by
  unfold memoryStage; split
  · rfl
  all_goals (split <;> simp)
@[simp] theorem memoryStage_f (a : Access) (e : Entry) (s : State) : (memoryStage a e s).f = s.f := by
  unfold memoryStage; split
  · rfl
  all_goals (split <;> simp)
@[simp] theorem memoryStage_HI (a : Access) (e : Entry) (s : State) : (memoryStage a e s).HI = s.HI := by
  unfold memoryStage; split
  · rfl
  all_goals (split <;> simp)
@[simp] theorem memoryStage_LO (a : Access) (e : Entry) (s : State) : (memoryStage a e s).LO = s.LO := by
  unfold memoryStage; split
  · rfl
  all_goals (split <;> simp)
@[simp] theorem memoryStage_FCC (a : Access) (e : Entry) (s : State) : (memoryStage a e s).FCC = s.FCC := by
  unfold memoryStage; split
  · rfl
  all_goals (split <;> simp)
@[simp] theorem memoryStage_pend (a : Access) (e : Entry) (s : State) : (memoryStage a e s).pend = s.pend := by
  unfold memoryStage; split
  · rfl
  all_goals (split <;> simp)
@[simp] theorem memoryStage_pc (a : Access) (e : Entry) (s : State) : (memoryStage a e s).pc = s.pc := by
  unfold memoryStage; split
  · rfl
  all_goals (split <;> simp)
@[simp] theorem memoryStage_cycle (a : Access) (e : Entry) (s : State) : (memoryStage a e s).cycle = s.cycle := by
  unfold memoryStage; split
  · rfl
  all_goals (split <;> simp)
@[simp] theorem memoryStage_stalls (a : Access) (e : Entry) (s : State) : (memoryStage a e s).stalls = s.stalls := by
  unfold memoryStage; split
  · rfl
  all_goals (split <;> simp)
@[simp] theorem memoryStage_haltPending (a : Access) (e : Entry) (s : State) : (memoryStage a e s).haltPending = s.haltPending := by
  unfold memoryStage; split
  · rfl
  all_goals (split <;> simp)
@[simp] theorem memoryStage_turn (a : Access) (e : Entry) (s : State) : (memoryStage a e s).turn = s.turn := by
  unfold memoryStage; split
  · rfl
  all_goals (split <;> simp)

/-! ## The system call at Write-back -/

@[simp] theorem commitCall_cfg (s : State) (e : Entry) : (s.commitCall e).cfg = s.cfg := by
  unfold State.commitCall; split <;> rfl
@[simp] theorem commitCall_base (s : State) (e : Entry) : (s.commitCall e).base = s.base := by
  unfold State.commitCall; split <;> rfl
@[simp] theorem commitCall_prog (s : State) (e : Entry) : (s.commitCall e).prog = s.prog := by
  unfold State.commitCall; split <;> rfl
@[simp] theorem commitCall_HI (s : State) (e : Entry) : (s.commitCall e).HI = s.HI := by
  unfold State.commitCall; split <;> rfl
@[simp] theorem commitCall_LO (s : State) (e : Entry) : (s.commitCall e).LO = s.LO := by
  unfold State.commitCall; split <;> rfl
@[simp] theorem commitCall_FCC (s : State) (e : Entry) : (s.commitCall e).FCC = s.FCC := by
  unfold State.commitCall; split <;> rfl
@[simp] theorem commitCall_pend (s : State) (e : Entry) : (s.commitCall e).pend = s.pend := by
  unfold State.commitCall; split <;> rfl
@[simp] theorem commitCall_pc (s : State) (e : Entry) : (s.commitCall e).pc = s.pc := by
  unfold State.commitCall; split <;> rfl
@[simp] theorem commitCall_cycle (s : State) (e : Entry) : (s.commitCall e).cycle = s.cycle := by
  unfold State.commitCall; split <;> rfl
@[simp] theorem commitCall_stalls (s : State) (e : Entry) : (s.commitCall e).stalls = s.stalls := by
  unfold State.commitCall; split <;> rfl
@[simp] theorem commitCall_slots (s : State) (e : Entry) : (s.commitCall e).slots = s.slots := by
  unfold State.commitCall; split <;> rfl
@[simp] theorem commitCall_haltPending (s : State) (e : Entry) : (s.commitCall e).haltPending = s.haltPending := by
  unfold State.commitCall; split <;> rfl
@[simp] theorem commitCall_fatalPending (s : State) (e : Entry) : (s.commitCall e).fatalPending = s.fatalPending := by
  unfold State.commitCall; split <;> rfl
@[simp] theorem commitCall_turn (s : State) (e : Entry) : (s.commitCall e).turn = s.turn := by
  unfold State.commitCall; split <;> rfl
@[simp] theorem commitCall_report (s : State) (e : Entry) : (s.commitCall e).report = s.report := by
  unfold State.commitCall; split <;> rfl

/-! ## The Write-back stage -/

@[simp] theorem writeBackStage_cfg (e : Entry) (s : State) : (writeBackStage e s).cfg = s.cfg := by
  simp [writeBackStage]
@[simp] theorem writeBackStage_base (e : Entry) (s : State) : (writeBackStage e s).base = s.base := by
  simp [writeBackStage]
@[simp] theorem writeBackStage_prog (e : Entry) (s : State) : (writeBackStage e s).prog = s.prog := by
  simp [writeBackStage]
@[simp] theorem writeBackStage_pc (e : Entry) (s : State) : (writeBackStage e s).pc = s.pc := by
  simp [writeBackStage]
@[simp] theorem writeBackStage_cycle (e : Entry) (s : State) : (writeBackStage e s).cycle = s.cycle := by
  simp [writeBackStage]
@[simp] theorem writeBackStage_stalls (e : Entry) (s : State) : (writeBackStage e s).stalls = s.stalls := by
  simp [writeBackStage]
@[simp] theorem writeBackStage_haltPending (e : Entry) (s : State) : (writeBackStage e s).haltPending = s.haltPending := by
  simp [writeBackStage]
@[simp] theorem writeBackStage_fatalPending (e : Entry) (s : State) : (writeBackStage e s).fatalPending = s.fatalPending := by
  simp [writeBackStage]
@[simp] theorem writeBackStage_turn (e : Entry) (s : State) : (writeBackStage e s).turn = s.turn := by
  simp [writeBackStage]
@[simp] theorem writeBackStage_report (e : Entry) (s : State) : (writeBackStage e s).report = s.report := by
  simp [writeBackStage]
@[simp] theorem writeBackStage_slots (e : Entry) (s : State) :
    (writeBackStage e s).slots = s.slots.put .WB (some { e with done := true }) := by
  simp [writeBackStage]

/-! ## The Decode stage -/

@[simp] theorem decodeStage_cfg (e : Entry) (s : State) : (decodeStage e s).cfg = s.cfg := rfl
@[simp] theorem decodeStage_base (e : Entry) (s : State) : (decodeStage e s).base = s.base := rfl
@[simp] theorem decodeStage_prog (e : Entry) (s : State) : (decodeStage e s).prog = s.prog := rfl
@[simp] theorem decodeStage_x (e : Entry) (s : State) : (decodeStage e s).x = s.x := rfl
@[simp] theorem decodeStage_f (e : Entry) (s : State) : (decodeStage e s).f = s.f := rfl
@[simp] theorem decodeStage_HI (e : Entry) (s : State) : (decodeStage e s).HI = s.HI := rfl
@[simp] theorem decodeStage_LO (e : Entry) (s : State) : (decodeStage e s).LO = s.LO := rfl
@[simp] theorem decodeStage_FCC (e : Entry) (s : State) : (decodeStage e s).FCC = s.FCC := rfl
@[simp] theorem decodeStage_pend (e : Entry) (s : State) : (decodeStage e s).pend = s.pend := rfl
@[simp] theorem decodeStage_mem (e : Entry) (s : State) : (decodeStage e s).mem = s.mem := rfl
@[simp] theorem decodeStage_pc (e : Entry) (s : State) : (decodeStage e s).pc = s.pc := rfl
@[simp] theorem decodeStage_cycle (e : Entry) (s : State) : (decodeStage e s).cycle = s.cycle := rfl
@[simp] theorem decodeStage_stalls (e : Entry) (s : State) : (decodeStage e s).stalls = s.stalls := rfl
@[simp] theorem decodeStage_ctrl (e : Entry) (s : State) : (decodeStage e s).ctrl = s.ctrl := rfl
@[simp] theorem decodeStage_haltPending (e : Entry) (s : State) : (decodeStage e s).haltPending = s.haltPending := rfl
@[simp] theorem decodeStage_fatalPending (e : Entry) (s : State) : (decodeStage e s).fatalPending = s.fatalPending := rfl
@[simp] theorem decodeStage_turn (e : Entry) (s : State) : (decodeStage e s).turn = s.turn := rfl
@[simp] theorem decodeStage_report (e : Entry) (s : State) : (decodeStage e s).report = s.report := rfl

/-! ## The boundary phase -/

@[simp] theorem dropDiscarded_cfg (s : State) : (s.dropDiscarded).cfg = s.cfg := rfl
@[simp] theorem dropDiscarded_base (s : State) : (s.dropDiscarded).base = s.base := rfl
@[simp] theorem dropDiscarded_prog (s : State) : (s.dropDiscarded).prog = s.prog := rfl
@[simp] theorem dropDiscarded_x (s : State) : (s.dropDiscarded).x = s.x := rfl
@[simp] theorem dropDiscarded_f (s : State) : (s.dropDiscarded).f = s.f := rfl
@[simp] theorem dropDiscarded_HI (s : State) : (s.dropDiscarded).HI = s.HI := rfl
@[simp] theorem dropDiscarded_LO (s : State) : (s.dropDiscarded).LO = s.LO := rfl
@[simp] theorem dropDiscarded_FCC (s : State) : (s.dropDiscarded).FCC = s.FCC := rfl
@[simp] theorem dropDiscarded_mem (s : State) : (s.dropDiscarded).mem = s.mem := rfl
@[simp] theorem dropDiscarded_pc (s : State) : (s.dropDiscarded).pc = s.pc := rfl
@[simp] theorem dropDiscarded_cycle (s : State) : (s.dropDiscarded).cycle = s.cycle := rfl
@[simp] theorem dropDiscarded_stalls (s : State) : (s.dropDiscarded).stalls = s.stalls := rfl
@[simp] theorem dropDiscarded_ctrl (s : State) : (s.dropDiscarded).ctrl = s.ctrl := rfl
@[simp] theorem dropDiscarded_haltPending (s : State) : (s.dropDiscarded).haltPending = s.haltPending := rfl
@[simp] theorem dropDiscarded_fatalPending (s : State) : (s.dropDiscarded).fatalPending = s.fatalPending := rfl
@[simp] theorem dropDiscarded_turn (s : State) : (s.dropDiscarded).turn = s.turn := rfl
@[simp] theorem dropDiscarded_report (s : State) : (s.dropDiscarded).report = s.report := rfl
@[simp] theorem advance_cfg (s : State) : (s.advance).cfg = s.cfg := by
  unfold State.advance; split <;> rfl
@[simp] theorem advance_base (s : State) : (s.advance).base = s.base := by
  unfold State.advance; split <;> rfl
@[simp] theorem advance_prog (s : State) : (s.advance).prog = s.prog := by
  unfold State.advance; split <;> rfl
@[simp] theorem advance_x (s : State) : (s.advance).x = s.x := by
  unfold State.advance; split <;> rfl
@[simp] theorem advance_f (s : State) : (s.advance).f = s.f := by
  unfold State.advance; split <;> rfl
@[simp] theorem advance_HI (s : State) : (s.advance).HI = s.HI := by
  unfold State.advance; split <;> rfl
@[simp] theorem advance_LO (s : State) : (s.advance).LO = s.LO := by
  unfold State.advance; split <;> rfl
@[simp] theorem advance_FCC (s : State) : (s.advance).FCC = s.FCC := by
  unfold State.advance; split <;> rfl
@[simp] theorem advance_mem (s : State) : (s.advance).mem = s.mem := by
  unfold State.advance; split <;> rfl
@[simp] theorem advance_pc (s : State) : (s.advance).pc = s.pc := by
  unfold State.advance; split <;> rfl
@[simp] theorem advance_cycle (s : State) : (s.advance).cycle = s.cycle := by
  unfold State.advance; split <;> rfl
@[simp] theorem advance_stalls (s : State) : (s.advance).stalls = s.stalls := by
  unfold State.advance; split <;> rfl
@[simp] theorem advance_ctrl (s : State) : (s.advance).ctrl = s.ctrl := by
  unfold State.advance; split <;> rfl
@[simp] theorem advance_haltPending (s : State) : (s.advance).haltPending = s.haltPending := by
  unfold State.advance; split <;> rfl
@[simp] theorem advance_fatalPending (s : State) : (s.advance).fatalPending = s.fatalPending := by
  unfold State.advance; split <;> rfl
@[simp] theorem advance_turn (s : State) : (s.advance).turn = s.turn := by
  unfold State.advance; split <;> rfl
@[simp] theorem advance_report (s : State) : (s.advance).report = s.report := by
  unfold State.advance; split <;> rfl
@[simp] theorem redirect_cfg (s : State) : (s.redirect).cfg = s.cfg := by
  unfold State.redirect; split <;> rfl
@[simp] theorem redirect_base (s : State) : (s.redirect).base = s.base := by
  unfold State.redirect; split <;> rfl
@[simp] theorem redirect_prog (s : State) : (s.redirect).prog = s.prog := by
  unfold State.redirect; split <;> rfl
@[simp] theorem redirect_x (s : State) : (s.redirect).x = s.x := by
  unfold State.redirect; split <;> rfl
@[simp] theorem redirect_f (s : State) : (s.redirect).f = s.f := by
  unfold State.redirect; split <;> rfl
@[simp] theorem redirect_HI (s : State) : (s.redirect).HI = s.HI := by
  unfold State.redirect; split <;> rfl
@[simp] theorem redirect_LO (s : State) : (s.redirect).LO = s.LO := by
  unfold State.redirect; split <;> rfl
@[simp] theorem redirect_FCC (s : State) : (s.redirect).FCC = s.FCC := by
  unfold State.redirect; split <;> rfl
@[simp] theorem redirect_pend (s : State) : (s.redirect).pend = s.pend := by
  unfold State.redirect; split <;> rfl
@[simp] theorem redirect_mem (s : State) : (s.redirect).mem = s.mem := by
  unfold State.redirect; split <;> rfl
@[simp] theorem redirect_cycle (s : State) : (s.redirect).cycle = s.cycle := by
  unfold State.redirect; split <;> rfl
@[simp] theorem redirect_stalls (s : State) : (s.redirect).stalls = s.stalls := by
  unfold State.redirect; split <;> rfl
@[simp] theorem redirect_slots (s : State) : (s.redirect).slots = s.slots := by
  unfold State.redirect; split <;> rfl
@[simp] theorem redirect_haltPending (s : State) : (s.redirect).haltPending = s.haltPending := by
  unfold State.redirect; split <;> rfl
@[simp] theorem redirect_fatalPending (s : State) : (s.redirect).fatalPending = s.fatalPending := by
  unfold State.redirect; split <;> rfl
@[simp] theorem redirect_turn (s : State) : (s.redirect).turn = s.turn := by
  unfold State.redirect; split <;> rfl
@[simp] theorem redirect_report (s : State) : (s.redirect).report = s.report := by
  unfold State.redirect; split <;> rfl
@[simp] theorem fetch_cfg (s : State) : (s.fetch).cfg = s.cfg := by
  unfold State.fetch; split
  · rfl
  · split <;> rfl
@[simp] theorem fetch_base (s : State) : (s.fetch).base = s.base := by
  unfold State.fetch; split
  · rfl
  · split <;> rfl
@[simp] theorem fetch_prog (s : State) : (s.fetch).prog = s.prog := by
  unfold State.fetch; split
  · rfl
  · split <;> rfl
@[simp] theorem fetch_x (s : State) : (s.fetch).x = s.x := by
  unfold State.fetch; split
  · rfl
  · split <;> rfl
@[simp] theorem fetch_f (s : State) : (s.fetch).f = s.f := by
  unfold State.fetch; split
  · rfl
  · split <;> rfl
@[simp] theorem fetch_HI (s : State) : (s.fetch).HI = s.HI := by
  unfold State.fetch; split
  · rfl
  · split <;> rfl
@[simp] theorem fetch_LO (s : State) : (s.fetch).LO = s.LO := by
  unfold State.fetch; split
  · rfl
  · split <;> rfl
@[simp] theorem fetch_FCC (s : State) : (s.fetch).FCC = s.FCC := by
  unfold State.fetch; split
  · rfl
  · split <;> rfl
@[simp] theorem fetch_pend (s : State) : (s.fetch).pend = s.pend := by
  unfold State.fetch; split
  · rfl
  · split <;> rfl
@[simp] theorem fetch_mem (s : State) : (s.fetch).mem = s.mem := by
  unfold State.fetch; split
  · rfl
  · split <;> rfl
@[simp] theorem fetch_cycle (s : State) : (s.fetch).cycle = s.cycle := by
  unfold State.fetch; split
  · rfl
  · split <;> rfl
@[simp] theorem fetch_stalls (s : State) : (s.fetch).stalls = s.stalls := by
  unfold State.fetch; split
  · rfl
  · split <;> rfl
@[simp] theorem fetch_ctrl (s : State) : (s.fetch).ctrl = s.ctrl := by
  unfold State.fetch; split
  · rfl
  · split <;> rfl
@[simp] theorem fetch_haltPending (s : State) : (s.fetch).haltPending = s.haltPending := by
  unfold State.fetch; split
  · rfl
  · split <;> rfl
@[simp] theorem fetch_fatalPending (s : State) : (s.fetch).fatalPending = s.fatalPending := by
  unfold State.fetch; split
  · rfl
  · split <;> rfl
@[simp] theorem fetch_turn (s : State) : (s.fetch).turn = s.turn := by
  unfold State.fetch; split
  · rfl
  · split <;> rfl
@[simp] theorem fetch_report (s : State) : (s.fetch).report = s.report := by
  unfold State.fetch; split
  · rfl
  · split <;> rfl
@[simp] theorem begin_cfg (s : State) : (s.begin).cfg = s.cfg := rfl
@[simp] theorem begin_base (s : State) : (s.begin).base = s.base := rfl
@[simp] theorem begin_prog (s : State) : (s.begin).prog = s.prog := rfl
@[simp] theorem begin_x (s : State) : (s.begin).x = s.x := rfl
@[simp] theorem begin_f (s : State) : (s.begin).f = s.f := rfl
@[simp] theorem begin_HI (s : State) : (s.begin).HI = s.HI := rfl
@[simp] theorem begin_LO (s : State) : (s.begin).LO = s.LO := rfl
@[simp] theorem begin_FCC (s : State) : (s.begin).FCC = s.FCC := rfl
@[simp] theorem begin_pend (s : State) : (s.begin).pend = s.pend := rfl
@[simp] theorem begin_mem (s : State) : (s.begin).mem = s.mem := rfl
@[simp] theorem begin_pc (s : State) : (s.begin).pc = s.pc := rfl
@[simp] theorem begin_stalls (s : State) : (s.begin).stalls = s.stalls := rfl
@[simp] theorem begin_ctrl (s : State) : (s.begin).ctrl = s.ctrl := rfl
@[simp] theorem begin_haltPending (s : State) : (s.begin).haltPending = s.haltPending := rfl
@[simp] theorem begin_fatalPending (s : State) : (s.begin).fatalPending = s.fatalPending := rfl
@[simp] theorem begin_turn (s : State) : (s.begin).turn = s.turn := rfl
@[simp] theorem boundary_cfg (s : State) : (s.boundary).cfg = s.cfg := by
  simp [State.boundary]
@[simp] theorem boundary_base (s : State) : (s.boundary).base = s.base := by
  simp [State.boundary]
@[simp] theorem boundary_prog (s : State) : (s.boundary).prog = s.prog := by
  simp [State.boundary]
@[simp] theorem boundary_x (s : State) : (s.boundary).x = s.x := by
  simp [State.boundary]
@[simp] theorem boundary_f (s : State) : (s.boundary).f = s.f := by
  simp [State.boundary]
@[simp] theorem boundary_HI (s : State) : (s.boundary).HI = s.HI := by
  simp [State.boundary]
@[simp] theorem boundary_LO (s : State) : (s.boundary).LO = s.LO := by
  simp [State.boundary]
@[simp] theorem boundary_FCC (s : State) : (s.boundary).FCC = s.FCC := by
  simp [State.boundary]
@[simp] theorem boundary_mem (s : State) : (s.boundary).mem = s.mem := by
  simp [State.boundary]
@[simp] theorem boundary_stalls (s : State) : (s.boundary).stalls = s.stalls := by
  simp [State.boundary]
@[simp] theorem boundary_haltPending (s : State) : (s.boundary).haltPending = s.haltPending := by
  simp [State.boundary]
@[simp] theorem boundary_fatalPending (s : State) : (s.boundary).fatalPending = s.fatalPending := by
  simp [State.boundary]
@[simp] theorem boundary_turn (s : State) : (s.boundary).turn = s.turn := by
  simp [State.boundary]
@[simp] theorem boundary_cycle (s : State) : s.boundary.cycle = s.cycle + 1 := by
  simp [State.boundary, State.begin]

/-! ## The end of the cycle -/

@[simp] theorem resolveFatal_cfg (s : State) : (s.resolveFatal).cfg = s.cfg := by
  unfold State.resolveFatal; split
  · split <;> rfl
  · rfl
@[simp] theorem resolveFatal_base (s : State) : (s.resolveFatal).base = s.base := by
  unfold State.resolveFatal; split
  · split <;> rfl
  · rfl
@[simp] theorem resolveFatal_prog (s : State) : (s.resolveFatal).prog = s.prog := by
  unfold State.resolveFatal; split
  · split <;> rfl
  · rfl
@[simp] theorem resolveFatal_x (s : State) : (s.resolveFatal).x = s.x := by
  unfold State.resolveFatal; split
  · split <;> rfl
  · rfl
@[simp] theorem resolveFatal_f (s : State) : (s.resolveFatal).f = s.f := by
  unfold State.resolveFatal; split
  · split <;> rfl
  · rfl
@[simp] theorem resolveFatal_HI (s : State) : (s.resolveFatal).HI = s.HI := by
  unfold State.resolveFatal; split
  · split <;> rfl
  · rfl
@[simp] theorem resolveFatal_LO (s : State) : (s.resolveFatal).LO = s.LO := by
  unfold State.resolveFatal; split
  · split <;> rfl
  · rfl
@[simp] theorem resolveFatal_FCC (s : State) : (s.resolveFatal).FCC = s.FCC := by
  unfold State.resolveFatal; split
  · split <;> rfl
  · rfl
@[simp] theorem resolveFatal_pend (s : State) : (s.resolveFatal).pend = s.pend := by
  unfold State.resolveFatal; split
  · split <;> rfl
  · rfl
@[simp] theorem resolveFatal_mem (s : State) : (s.resolveFatal).mem = s.mem := by
  unfold State.resolveFatal; split
  · split <;> rfl
  · rfl
@[simp] theorem resolveFatal_pc (s : State) : (s.resolveFatal).pc = s.pc := by
  unfold State.resolveFatal; split
  · split <;> rfl
  · rfl
@[simp] theorem resolveFatal_cycle (s : State) : (s.resolveFatal).cycle = s.cycle := by
  unfold State.resolveFatal; split
  · split <;> rfl
  · rfl
@[simp] theorem resolveFatal_stalls (s : State) : (s.resolveFatal).stalls = s.stalls := by
  unfold State.resolveFatal; split
  · split <;> rfl
  · rfl
@[simp] theorem resolveFatal_slots (s : State) : (s.resolveFatal).slots = s.slots := by
  unfold State.resolveFatal; split
  · split <;> rfl
  · rfl
@[simp] theorem resolveFatal_haltPending (s : State) : (s.resolveFatal).haltPending = s.haltPending := by
  unfold State.resolveFatal; split
  · split <;> rfl
  · rfl
@[simp] theorem resolveFatal_fatalPending (s : State) : (s.resolveFatal).fatalPending = s.fatalPending := by
  unfold State.resolveFatal; split
  · split <;> rfl
  · rfl
@[simp] theorem resolveFatal_turn (s : State) : (s.resolveFatal).turn = s.turn := by
  unfold State.resolveFatal; split
  · split <;> rfl
  · rfl
@[simp] theorem resolveFatal_report (s : State) : (s.resolveFatal).report = s.report := by
  unfold State.resolveFatal; split
  · split <;> rfl
  · rfl
@[simp] theorem account_cfg (s : State) : (s.account).cfg = s.cfg := rfl
@[simp] theorem account_base (s : State) : (s.account).base = s.base := rfl
@[simp] theorem account_prog (s : State) : (s.account).prog = s.prog := rfl
@[simp] theorem account_x (s : State) : (s.account).x = s.x := rfl
@[simp] theorem account_f (s : State) : (s.account).f = s.f := rfl
@[simp] theorem account_HI (s : State) : (s.account).HI = s.HI := rfl
@[simp] theorem account_LO (s : State) : (s.account).LO = s.LO := rfl
@[simp] theorem account_FCC (s : State) : (s.account).FCC = s.FCC := rfl
@[simp] theorem account_pend (s : State) : (s.account).pend = s.pend := rfl
@[simp] theorem account_mem (s : State) : (s.account).mem = s.mem := rfl
@[simp] theorem account_pc (s : State) : (s.account).pc = s.pc := rfl
@[simp] theorem account_cycle (s : State) : (s.account).cycle = s.cycle := rfl
@[simp] theorem account_slots (s : State) : (s.account).slots = s.slots := rfl
@[simp] theorem account_ctrl (s : State) : (s.account).ctrl = s.ctrl := rfl
@[simp] theorem account_haltPending (s : State) : (s.account).haltPending = s.haltPending := rfl
@[simp] theorem account_fatalPending (s : State) : (s.account).fatalPending = s.fatalPending := rfl
@[simp] theorem terminalStep_cfg (s : State) : (s.terminalStep).cfg = s.cfg := rfl
@[simp] theorem terminalStep_base (s : State) : (s.terminalStep).base = s.base := rfl
@[simp] theorem terminalStep_prog (s : State) : (s.terminalStep).prog = s.prog := rfl
@[simp] theorem terminalStep_x (s : State) : (s.terminalStep).x = s.x := rfl
@[simp] theorem terminalStep_f (s : State) : (s.terminalStep).f = s.f := rfl
@[simp] theorem terminalStep_HI (s : State) : (s.terminalStep).HI = s.HI := rfl
@[simp] theorem terminalStep_LO (s : State) : (s.terminalStep).LO = s.LO := rfl
@[simp] theorem terminalStep_FCC (s : State) : (s.terminalStep).FCC = s.FCC := rfl
@[simp] theorem terminalStep_pend (s : State) : (s.terminalStep).pend = s.pend := rfl
@[simp] theorem terminalStep_mem (s : State) : (s.terminalStep).mem = s.mem := rfl
@[simp] theorem terminalStep_pc (s : State) : (s.terminalStep).pc = s.pc := rfl
@[simp] theorem terminalStep_cycle (s : State) : (s.terminalStep).cycle = s.cycle := rfl
@[simp] theorem terminalStep_stalls (s : State) : (s.terminalStep).stalls = s.stalls := rfl
@[simp] theorem terminalStep_slots (s : State) : (s.terminalStep).slots = s.slots := rfl
@[simp] theorem terminalStep_ctrl (s : State) : (s.terminalStep).ctrl = s.ctrl := rfl
@[simp] theorem terminalStep_haltPending (s : State) : (s.terminalStep).haltPending = s.haltPending := rfl
@[simp] theorem terminalStep_fatalPending (s : State) : (s.terminalStep).fatalPending = s.fatalPending := rfl
@[simp] theorem terminalStep_turn (s : State) : (s.terminalStep).turn = s.turn := rfl
@[simp] theorem account_turn (s : State) : s.account.turn = .IF := rfl

end Sys2Proof.Machine
end

