-- ==== Sys2Proof/Laws/Ops.lean ====
section
/-! SUPPORT. The shared operations, each with one lemma that says once everything it can do: registers, markers, slots, taking
an exception, and the four stages. -/
namespace Sys2Proof.Machine

set_option Elab.async false

/-! ## Registers -/

@[simp] theorem regGet_regSet_same {α : Type} (v : Vector α 32) (i : RegNum) (a : α) : regGet (regSet v i a) i = a := by
  simp [regGet, regSet]

theorem regGet_regSet {α : Type} (v : Vector α 32) (i j : RegNum) (a : α) :
    regGet (regSet v i a) j = if i = j then a else regGet v j := by
  by_cases h : i = j
  · subst h; simp
  · have h' : i.toNat ≠ j.toNat := fun e => h (BitVec.eq_of_toNat_eq e)
    simp [regGet, regSet, h, h']

/-- The value a register holds once `v` was written to it (R160): FCC takes bit 0. -/
def written (r : RegId) (v : Word) : Word := if r = .fcc then boolWord (v.getLsbD 0) else v

@[simp] theorem boolWord_bit (b : Bool) : (boolWord b).getLsbD 0 = b := by cases b <;> rfl

theorem writeReg_gpr (s : State) (i : RegNum) (v : Word) (h : i ≠ 0) :
    s.writeReg (.gpr i) v = { s with x := regSet s.x i v } := if_neg h

theorem readReg_gpr (s : State) (i : RegNum) (h : i ≠ 0) : s.readReg (.gpr i) = regGet s.x i := if_neg h

/-- What each register reads as after one is written (R32, R160). -/
theorem readReg_writeReg (s : State) (r q : RegId) (v : Word) :
    (s.writeReg r v).readReg q = if q = r ∧ r ≠ .gpr 0 then written r v else s.readReg q := by
  cases r with
  | gpr i =>
    by_cases hi : i = 0
    · simp [State.writeReg, hi]
    · rw [writeReg_gpr s i v hi]
      have hi' : RegId.gpr i ≠ .gpr 0 := by simpa using hi
      cases q with
      | gpr j =>
        by_cases hj : j = i
        · subst hj
          rw [readReg_gpr _ _ hi, if_pos ⟨rfl, hi'⟩]
          simp [written]
        · have hj' : ¬ i = j := fun e => hj e.symm
          rw [if_neg (by simp [hj])]
          simp [State.readReg, hj', regGet_regSet]
      | _ => simp [State.readReg]
  | fpr i =>
    cases q with
    | fpr j =>
      by_cases hj : j = i
      · subst hj; simp [State.writeReg, State.readReg, written]
      · have hj' : ¬ i = j := fun e => hj e.symm
        simp [State.writeReg, State.readReg, hj, hj', regGet_regSet]
    | _ => simp [State.writeReg, State.readReg]
  | hi => cases q <;> simp [State.writeReg, State.readReg, written]
  | lo => cases q <;> simp [State.writeReg, State.readReg, written]
  | fcc => cases q <;> simp [State.writeReg, State.readReg, written]

@[simp] theorem readReg_zero (s : State) : s.readReg (.gpr 0#5) = 0 := by simp [State.readReg]

/-- A register that no result names reads as before. -/
theorem readReg_writeRegs_other (res : List (RegId × Word)) (q : RegId) : ∀ (s : State), q ∉ res.map Prod.fst →
    (s.writeRegs res).readReg q = s.readReg q := by
  induction res with
  | nil => intro s _; rfl
  | cons p rest ih =>
    intro s h
    obtain ⟨r, v⟩ := p
    simp only [List.map_cons, List.mem_cons, not_or] at h
    rw [State.writeRegs, ih _ h.2, readReg_writeReg, if_neg (fun e => h.1 e.1)]

/-- A register that is named once reads as the result named for it. -/
theorem readReg_writeRegs_named (res : List (RegId × Word)) (q : RegId) (v : Word) (hq : q ≠ .gpr 0) :
    ∀ (s : State), (res.map Prod.fst).Nodup → valueOf q res = some v → (s.writeRegs res).readReg q = written q v := by
  induction res with
  | nil => intro s _ h; simp at h
  | cons p rest ih =>
    intro s hn h
    obtain ⟨r, u⟩ := p
    simp only [List.map_cons, List.nodup_cons] at hn
    rw [valueOf_cons] at h
    rw [State.writeRegs]
    split at h
    · rename_i hr
      subst hr
      injection h with h
      subst h
      rw [readReg_writeRegs_other rest r _ hn.1, readReg_writeReg, if_pos ⟨rfl, hq⟩]
    · exact ih _ hn.2 h

/-- A list that has a value for `q` names it. -/
theorem mem_of_valueOf {q : RegId} {v : Word} {res : List (RegId × Word)} (h : valueOf q res = some v) : (q, v) ∈ res := by
  induction res with
  | nil => simp at h
  | cons p rest ih =>
    obtain ⟨r, u⟩ := p
    rw [valueOf_cons] at h
    split at h
    · rename_i hr
      subst hr
      injection h with h
      simp [h]
    · exact List.mem_cons_of_mem _ (ih h)

/-- The hard-wired register's cell stays 0 (R32). -/
theorem writeReg_zero (s : State) (r : RegId) (v : Word) (h : regGet s.x 0 = 0) : regGet (s.writeReg r v).x 0 = 0 := by
  cases r with
  | gpr i =>
    by_cases hi : i = 0
    · simpa [State.writeReg, hi] using h
    · rw [State.writeReg, if_neg hi]
      show regGet (regSet s.x i v) 0 = 0
      rw [regGet_regSet, if_neg hi, h]
  | _ => exact h

theorem writeRegs_zero (res : List (RegId × Word)) : ∀ s : State, regGet s.x 0 = 0 → regGet (s.writeRegs res).x 0 = 0 := by
  induction res with
  | nil => intro s h; exact h
  | cons p rest ih => intro s h; exact ih _ (writeReg_zero s p.1 p.2 h)

/-! ## Pending-write markers -/

theorem get_put (p : PendingMarks) (r q : RegId) (n : Nat) : (p.put r n).get q = if q = r then n else p.get q := by
  cases r with
  | gpr i =>
    cases q with
    | gpr j =>
      by_cases h : j = i
      · subst h; simp [PendingMarks.put, PendingMarks.get]
      · have h' : ¬ i = j := fun e => h e.symm
        simp [PendingMarks.put, PendingMarks.get, regGet_regSet, h, h']
    | _ => simp [PendingMarks.put, PendingMarks.get]
  | fpr i =>
    cases q with
    | fpr j =>
      by_cases h : j = i
      · subst h; simp [PendingMarks.put, PendingMarks.get]
      · have h' : ¬ i = j := fun e => h e.symm
        simp [PendingMarks.put, PendingMarks.get, regGet_regSet, h, h']
    | _ => simp [PendingMarks.put, PendingMarks.get]
  | hi => cases q <;> simp [PendingMarks.put, PendingMarks.get]
  | lo => cases q <;> simp [PendingMarks.put, PendingMarks.get]
  | fcc => cases q <;> simp [PendingMarks.put, PendingMarks.get]

/-- Marking adds the number of times a register is listed (R154). -/
theorem get_mark (rs : List RegId) (q : RegId) : ∀ p : PendingMarks, (p.mark rs).get q = p.get q + rs.count q := by
  induction rs with
  | nil => intro p; simp [PendingMarks.mark]
  | cons r rest ih =>
    intro p
    rw [PendingMarks.mark, ih, get_put, List.count_cons]
    by_cases h : q = r
    · subst h; simp; omega
    · have h' : ¬ r = q := fun e => h e.symm
      simp [h, h']

/-- Unmarking takes it away (R152, R160). -/
theorem get_unmark (rs : List RegId) (q : RegId) : ∀ p : PendingMarks, (p.unmark rs).get q = p.get q - rs.count q := by
  induction rs with
  | nil => intro p; simp [PendingMarks.unmark]
  | cons r rest ih =>
    intro p
    rw [PendingMarks.unmark, ih, get_put, List.count_cons]
    by_cases h : q = r
    · subst h; simp; omega
    · have h' : ¬ r = q := fun e => h e.symm
      simp [h, h']

/-! ## Slots -/

theorem slots_get_put (sl : Slots) (t u : Stage) (e : Option Entry) :
    (sl.put t e).get u = if u = t then e else sl.get u := by
  cases t <;> cases u <;> simp [Slots.put, Slots.get]

/-- Whether stage `u` is stage `t` or a younger one. -/
def Stage.upTo (u t : Stage) : Bool := decide (u.depth ≤ t.depth)

/-- Which slots a flush marks (R441). -/
theorem slots_get_discardThrough (sl : Slots) (t u : Stage) :
    (sl.discardThrough t).get u = if u.upTo t then markDiscard (sl.get u) else sl.get u := by
  cases t <;> cases u <;> simp [Slots.discardThrough, Slots.get, Stage.upTo, Stage.depth]

/-! ## Taking an exception (R441, R442) -/

/-- What taking an exception can do: nothing but the discard marks, the report, the controller and the pending fatal
exception changes. -/
theorem takeException_cases (s : State) (t : Stage) (k : ExcKind) (pc addr : Word) :
    (∃ h, handlerOf s.cfg k = some h ∧ s.takeException t k pc addr =
      { s with
        slots := s.slots.discardThrough t, ctrl := .flushRequested t.depth h, fatalPending := none
        report := { s.report with fault := some ⟨k, codeOf k, pc, t, addr⟩, flush := some ⟨t.depth, some h⟩ } }) ∨
    (handlerOf s.cfg k = none ∧ s.takeException t k pc addr =
      { s with
        slots := s.slots.discardThrough t, fatalPending := some (k, pc)
        ctrl := match s.ctrl with
          | .flushRequested _ _ => .normal
          | c => c
        report := { s.report with fault := some ⟨k, codeOf k, pc, t, addr⟩ } }) := by
  unfold State.takeException
  cases hh : handlerOf s.cfg k with
  | some h => exact .inl ⟨h, rfl, rfl⟩
  | none => exact .inr ⟨rfl, rfl⟩

/-! ## The stages -/

/-- A meaning always answers a next state. -/
theorem exec_next (i : Instr) (s : State) : ∃ t, exec i s = .next t := by
  obtain ⟨u, a, h, -, -⟩ := exec_shape i
  rw [h]
  unfold runStage
  split
  · exact ⟨s, rfl⟩
  · split <;> exact ⟨_, rfl⟩

/-- The part of an instruction in one stage: which stage operation it is, by the turn. -/
theorem runStage_at {u : Config → Entry → ExecResult} {a : Access} {s : State} {e : Entry}
    (h : s.slots.get s.turn = some e) :
    runStage u a s = .next (match s.turn with
      | .IF => s
      | .ID => decodeStage e s
      | .EX => executeStage u e s
      | .MEM => memoryStage a e s
      | .WB => writeBackStage e s) := by
  unfold runStage
  rw [h]
  cases s.turn <;> rfl

/-- Execute: busy, or an exception, or the unit's entry with what follows from it. -/
theorem executeStage_cases (u : Config → Entry → ExecResult) (e : Entry) (s : State) :
    (1 < e.rem ∧ executeStage u e s = s.putEntry .EX { e with rem := e.rem - 1 }) ∨
    (e.rem ≤ 1 ∧ ∃ k, u s.cfg e.unexecuted = .raise k ∧ executeStage u e s = s.takeException .EX k e.pc e.pc) ∨
    (e.rem ≤ 1 ∧ ∃ e', u s.cfg e.unexecuted = .latched e' ∧
      executeStage u e s = (s.putEntry .EX { e' with done := true }).afterExecute { e' with done := true }) := by
  unfold executeStage
  by_cases hr : 1 < e.rem
  · exact .inl ⟨hr, by rw [if_pos hr]⟩
  · refine .inr ?_
    rw [if_neg hr]
    cases hu : u s.cfg e.unexecuted with
    | raise k => exact .inl ⟨by omega, k, rfl, rfl⟩
    | latched e' => exact .inr ⟨by omega, e', rfl, rfl⟩

/-- A unit that neither transfers nor calls leaves Execute with its results and nothing else. -/
theorem executeStage_latched {u : Config → Entry → ExecResult} {e e' : Entry} {s : State} (hr : e.rem ≤ 1)
    (hu : u s.cfg e.unexecuted = .latched e') (ht : e'.taken = false) (hs : e'.sys = .none) :
    executeStage u e s = s.putEntry .EX { e' with done := true } := by
  unfold executeStage
  rw [if_neg (by omega), hu]
  simp [State.afterExecute, ht, hs]

theorem executeStage_raise {u : Config → Entry → ExecResult} {e : Entry} {s : State} {k : ExcKind} (hr : e.rem ≤ 1)
    (hu : u s.cfg e.unexecuted = .raise k) : executeStage u e s = s.takeException .EX k e.pc e.pc := by
  unfold executeStage
  rw [if_neg (by omega), hu]

/-- The operands an instruction rule reads are those captured, whatever was executed. -/
@[simp] theorem unexecuted_op (e : Entry) (r : RegId) : e.unexecuted.op r = e.op r := rfl
@[simp] theorem unexecuted_x (e : Entry) (r : RegNum) : e.unexecuted.x r = e.x r := rfl
@[simp] theorem unexecuted_f (e : Entry) (r : RegNum) : e.unexecuted.f r = e.f r := rfl
@[simp] theorem unexecuted_pc (e : Entry) : e.unexecuted.pc = e.pc := rfl
@[simp] theorem unexecuted_res (e : Entry) : e.unexecuted.res = [] := rfl
@[simp] theorem unexecuted_inst (e : Entry) : e.unexecuted.inst = e.inst := rfl
@[simp] theorem unexecuted_ops (e : Entry) : e.unexecuted.ops = e.ops := rfl
@[simp] theorem unexecuted_discard (e : Entry) : e.unexecuted.discard = e.discard := rfl

theorem memoryStage_load_fault {s : State} {e : Entry} {w : Width} {ext : Extension} {dst : RegId} {k : ExcKind}
    (h : accessFault s.cfg.memSize e.ea w.bytes = some k) :
    memoryStage (.load w ext dst) e s = s.takeException .MEM k e.pc e.ea := by
  simp only [memoryStage, h]

theorem memoryStage_load {s : State} {e : Entry} {w : Width} {ext : Extension} {dst : RegId}
    (h : accessFault s.cfg.memSize e.ea w.bytes = none) :
    memoryStage (.load w ext dst) e s = s.putEntry .MEM
      { e with
        res := [(dst, extendLoaded w ext (memRead s.cfg.byteOrder s.mem e.ea.toNat w.bytes))]
        done := true } := by
  simp only [memoryStage, h]

theorem memoryStage_store_fault {s : State} {e : Entry} {w : Width} {k : ExcKind}
    (h : accessFault s.cfg.memSize e.ea w.bytes = some k) :
    memoryStage (.store w) e s = s.takeException .MEM k e.pc e.ea := by
  simp only [memoryStage, h]

theorem memoryStage_store {s : State} {e : Entry} {w : Width} (h : accessFault s.cfg.memSize e.ea w.bytes = none) :
    memoryStage (.store w) e s =
      { s with mem := memWrite s.cfg.byteOrder s.mem e.ea.toNat w.bytes e.sval }.putEntry .MEM { e with done := true } := by
  simp only [memoryStage, h]

/-- Memory: an exception with no other effect, or the access done (R73, R162). -/
theorem memoryStage_cases (a : Access) (e : Entry) (s : State) :
    (∃ k, memoryStage a e s = s.takeException .MEM k e.pc e.ea) ∨
    (∃ m res, (m = s.mem ∨ ∃ w : Width, a = .store w ∧ e.ea.toNat + w.bytes ≤ s.cfg.memSize ∧
        m = memWrite s.cfg.byteOrder s.mem e.ea.toNat w.bytes e.sval) ∧
      (res = e.res ∧ (∀ w ext dst, a ≠ .load w ext dst) ∨ ∃ w ext dst v, a = .load w ext dst ∧ res = [(dst, v)]) ∧
      memoryStage a e s = { s with mem := m }.putEntry .MEM { e with res := res, done := true }) := by
  cases a with
  | none => exact .inr ⟨s.mem, e.res, .inl rfl, .inl ⟨rfl, by simp⟩, rfl⟩
  | load w ext dst =>
    cases h : accessFault s.cfg.memSize e.ea w.bytes with
    | some k => exact .inl ⟨k, memoryStage_load_fault h⟩
    | none => exact .inr ⟨s.mem, _, .inl rfl, .inr ⟨w, ext, dst, _, rfl, rfl⟩, memoryStage_load h⟩
  | store w =>
    cases h : accessFault s.cfg.memSize e.ea w.bytes with
    | some k => exact .inl ⟨k, memoryStage_store_fault h⟩
    | none =>
      exact .inr ⟨_, e.res, .inr ⟨w, rfl, (accessFault_none.mp h).2, rfl⟩, .inl ⟨rfl, by simp⟩, memoryStage_store h⟩

/-- The operand list has a value for a source exactly when it was resolved. -/
theorem valueOf_operands (s : State) (rs : List RegId) (r : RegId) (h : r ∈ rs) : valueOf r (s.operands rs) = s.resolve r := by
  induction rs with
  | nil => cases h
  | cons q rest ih =>
    unfold State.operands
    by_cases hq : q = r
    · subst hq
      cases hv : s.resolve q with
      | some v => simp [valueOf_cons]
      | none =>
        by_cases hm : q ∈ rest
        · have e := ih hm
          rw [hv] at e
          exact e
        · have : ∀ l : List RegId, q ∉ l → valueOf q (s.operands l) = none := by
            intro l
            induction l with
            | nil => intro _; rfl
            | cons p l ihl =>
              intro hl
              simp only [List.mem_cons, not_or] at hl
              unfold State.operands
              split
              · rw [valueOf_cons, if_neg (fun e => hl.1 e.symm)]; exact ihl hl.2
              · exact ihl hl.2
          exact this rest hm
    · have hm : r ∈ rest := by
        rcases List.mem_cons.mp h with h | h
        · exact absurd h.symm hq
        · exact h
      split
      · rw [valueOf_cons, if_neg hq]; exact ih hm
      · exact ih hm

end Sys2Proof.Machine
end

