-- ==== Sys2Proof/Laws/PerInstr.lean ====
section
/-! SUPPORT. The family `EncodesItsRow`, one lemma per constructor of `Instr`: the word of the instruction lies in its own row
of the opcode table, and that row's fields read back the instruction (R105, R111). -/
namespace Sys2Proof.Laws.EncodesItsRow

set_option Elab.async false

/-- The word of an instruction lies in the row of its mnemonic, and the row's fields give the instruction back. -/
def Statement (i : Instr) : Prop :=
  encode i &&& (opcodeRow i.mnemonic).mask = (opcodeRow i.mnemonic).pattern ∧ buildInstr i.mnemonic (encode i) = i

theorem nop : Statement .nop :=
  ⟨encodeR_match (.inl rfl) (.inl rfl) (.inl rfl) (.inl rfl), rfl⟩

theorem add (rd : RegNum) (rs : RegNum) (rt : RegNum) : Statement (.add rd rs rt) :=
  ⟨encodeR_match (.inr (by decide)) (.inr (by decide)) (.inr (by decide)) (.inl rfl), by
    simp only [encode, buildInstr, Instr.mnemonic, rdField_encodeR, rsField_encodeR, rtField_encodeR]
    simp [opcodeRow, field, rdField, rsField, rtField]⟩

theorem addu (rd : RegNum) (rs : RegNum) (rt : RegNum) : Statement (.addu rd rs rt) :=
  ⟨encodeR_match (.inr (by decide)) (.inr (by decide)) (.inr (by decide)) (.inl rfl), by
    simp only [encode, buildInstr, Instr.mnemonic, rdField_encodeR, rsField_encodeR, rtField_encodeR]
    simp [opcodeRow, field, rdField, rsField, rtField]⟩

theorem sub (rd : RegNum) (rs : RegNum) (rt : RegNum) : Statement (.sub rd rs rt) :=
  ⟨encodeR_match (.inr (by decide)) (.inr (by decide)) (.inr (by decide)) (.inl rfl), by
    simp only [encode, buildInstr, Instr.mnemonic, rdField_encodeR, rsField_encodeR, rtField_encodeR]
    simp [opcodeRow, field, rdField, rsField, rtField]⟩

theorem subu (rd : RegNum) (rs : RegNum) (rt : RegNum) : Statement (.subu rd rs rt) :=
  ⟨encodeR_match (.inr (by decide)) (.inr (by decide)) (.inr (by decide)) (.inl rfl), by
    simp only [encode, buildInstr, Instr.mnemonic, rdField_encodeR, rsField_encodeR, rtField_encodeR]
    simp [opcodeRow, field, rdField, rsField, rtField]⟩

theorem dadd (rd : RegNum) (rs : RegNum) (rt : RegNum) : Statement (.dadd rd rs rt) :=
  ⟨encodeR_match (.inr (by decide)) (.inr (by decide)) (.inr (by decide)) (.inl rfl), by
    simp only [encode, buildInstr, Instr.mnemonic, rdField_encodeR, rsField_encodeR, rtField_encodeR]
    simp [opcodeRow, field, rdField, rsField, rtField]⟩

theorem daddu (rd : RegNum) (rs : RegNum) (rt : RegNum) : Statement (.daddu rd rs rt) :=
  ⟨encodeR_match (.inr (by decide)) (.inr (by decide)) (.inr (by decide)) (.inl rfl), by
    simp only [encode, buildInstr, Instr.mnemonic, rdField_encodeR, rsField_encodeR, rtField_encodeR]
    simp [opcodeRow, field, rdField, rsField, rtField]⟩

theorem dsub (rd : RegNum) (rs : RegNum) (rt : RegNum) : Statement (.dsub rd rs rt) :=
  ⟨encodeR_match (.inr (by decide)) (.inr (by decide)) (.inr (by decide)) (.inl rfl), by
    simp only [encode, buildInstr, Instr.mnemonic, rdField_encodeR, rsField_encodeR, rtField_encodeR]
    simp [opcodeRow, field, rdField, rsField, rtField]⟩

theorem dsubu (rd : RegNum) (rs : RegNum) (rt : RegNum) : Statement (.dsubu rd rs rt) :=
  ⟨encodeR_match (.inr (by decide)) (.inr (by decide)) (.inr (by decide)) (.inl rfl), by
    simp only [encode, buildInstr, Instr.mnemonic, rdField_encodeR, rsField_encodeR, rtField_encodeR]
    simp [opcodeRow, field, rdField, rsField, rtField]⟩

theorem addi (rt : RegNum) (rs : RegNum) (imm : BitVec 16) : Statement (.addi rt rs imm) :=
  ⟨encodeI_match (.inr (by decide)) (.inr (by decide)) (.inr (by decide)), by
    simp only [encode, buildInstr, Instr.mnemonic, rtField_encodeI, rsField_encodeI, immField_encodeI]
    simp [opcodeRow, field, rtField, rsField, immField]⟩

theorem addiu (rt : RegNum) (rs : RegNum) (imm : BitVec 16) : Statement (.addiu rt rs imm) :=
  ⟨encodeI_match (.inr (by decide)) (.inr (by decide)) (.inr (by decide)), by
    simp only [encode, buildInstr, Instr.mnemonic, rtField_encodeI, rsField_encodeI, immField_encodeI]
    simp [opcodeRow, field, rtField, rsField, immField]⟩

theorem daddi (rt : RegNum) (rs : RegNum) (imm : BitVec 16) : Statement (.daddi rt rs imm) :=
  ⟨encodeI_match (.inr (by decide)) (.inr (by decide)) (.inr (by decide)), by
    simp only [encode, buildInstr, Instr.mnemonic, rtField_encodeI, rsField_encodeI, immField_encodeI]
    simp [opcodeRow, field, rtField, rsField, immField]⟩

theorem daddiu (rt : RegNum) (rs : RegNum) (imm : BitVec 16) : Statement (.daddiu rt rs imm) :=
  ⟨encodeI_match (.inr (by decide)) (.inr (by decide)) (.inr (by decide)), by
    simp only [encode, buildInstr, Instr.mnemonic, rtField_encodeI, rsField_encodeI, immField_encodeI]
    simp [opcodeRow, field, rtField, rsField, immField]⟩

theorem slt (rd : RegNum) (rs : RegNum) (rt : RegNum) : Statement (.slt rd rs rt) :=
  ⟨encodeR_match (.inr (by decide)) (.inr (by decide)) (.inr (by decide)) (.inl rfl), by
    simp only [encode, buildInstr, Instr.mnemonic, rdField_encodeR, rsField_encodeR, rtField_encodeR]
    simp [opcodeRow, field, rdField, rsField, rtField]⟩

theorem sltu (rd : RegNum) (rs : RegNum) (rt : RegNum) : Statement (.sltu rd rs rt) :=
  ⟨encodeR_match (.inr (by decide)) (.inr (by decide)) (.inr (by decide)) (.inl rfl), by
    simp only [encode, buildInstr, Instr.mnemonic, rdField_encodeR, rsField_encodeR, rtField_encodeR]
    simp [opcodeRow, field, rdField, rsField, rtField]⟩

theorem slti (rt : RegNum) (rs : RegNum) (imm : BitVec 16) : Statement (.slti rt rs imm) :=
  ⟨encodeI_match (.inr (by decide)) (.inr (by decide)) (.inr (by decide)), by
    simp only [encode, buildInstr, Instr.mnemonic, rtField_encodeI, rsField_encodeI, immField_encodeI]
    simp [opcodeRow, field, rtField, rsField, immField]⟩

theorem sltiu (rt : RegNum) (rs : RegNum) (imm : BitVec 16) : Statement (.sltiu rt rs imm) :=
  ⟨encodeI_match (.inr (by decide)) (.inr (by decide)) (.inr (by decide)), by
    simp only [encode, buildInstr, Instr.mnemonic, rtField_encodeI, rsField_encodeI, immField_encodeI]
    simp [opcodeRow, field, rtField, rsField, immField]⟩

theorem mult (rs : RegNum) (rt : RegNum) : Statement (.mult rs rt) :=
  ⟨encodeR_match (.inr (by decide)) (.inr (by decide)) (.inl rfl) (.inl rfl), by
    simp only [encode, buildInstr, Instr.mnemonic, rsField_encodeR, rtField_encodeR]
    simp [opcodeRow, field, rsField, rtField]⟩

theorem multu (rs : RegNum) (rt : RegNum) : Statement (.multu rs rt) :=
  ⟨encodeR_match (.inr (by decide)) (.inr (by decide)) (.inl rfl) (.inl rfl), by
    simp only [encode, buildInstr, Instr.mnemonic, rsField_encodeR, rtField_encodeR]
    simp [opcodeRow, field, rsField, rtField]⟩

theorem dmult (rs : RegNum) (rt : RegNum) : Statement (.dmult rs rt) :=
  ⟨encodeR_match (.inr (by decide)) (.inr (by decide)) (.inl rfl) (.inl rfl), by
    simp only [encode, buildInstr, Instr.mnemonic, rsField_encodeR, rtField_encodeR]
    simp [opcodeRow, field, rsField, rtField]⟩

theorem dmultu (rs : RegNum) (rt : RegNum) : Statement (.dmultu rs rt) :=
  ⟨encodeR_match (.inr (by decide)) (.inr (by decide)) (.inl rfl) (.inl rfl), by
    simp only [encode, buildInstr, Instr.mnemonic, rsField_encodeR, rtField_encodeR]
    simp [opcodeRow, field, rsField, rtField]⟩

theorem div (rs : RegNum) (rt : RegNum) : Statement (.div rs rt) :=
  ⟨encodeR_match (.inr (by decide)) (.inr (by decide)) (.inl rfl) (.inl rfl), by
    simp only [encode, buildInstr, Instr.mnemonic, rsField_encodeR, rtField_encodeR]
    simp [opcodeRow, field, rsField, rtField]⟩

theorem divu (rs : RegNum) (rt : RegNum) : Statement (.divu rs rt) :=
  ⟨encodeR_match (.inr (by decide)) (.inr (by decide)) (.inl rfl) (.inl rfl), by
    simp only [encode, buildInstr, Instr.mnemonic, rsField_encodeR, rtField_encodeR]
    simp [opcodeRow, field, rsField, rtField]⟩

theorem ddiv (rs : RegNum) (rt : RegNum) : Statement (.ddiv rs rt) :=
  ⟨encodeR_match (.inr (by decide)) (.inr (by decide)) (.inl rfl) (.inl rfl), by
    simp only [encode, buildInstr, Instr.mnemonic, rsField_encodeR, rtField_encodeR]
    simp [opcodeRow, field, rsField, rtField]⟩

theorem ddivu (rs : RegNum) (rt : RegNum) : Statement (.ddivu rs rt) :=
  ⟨encodeR_match (.inr (by decide)) (.inr (by decide)) (.inl rfl) (.inl rfl), by
    simp only [encode, buildInstr, Instr.mnemonic, rsField_encodeR, rtField_encodeR]
    simp [opcodeRow, field, rsField, rtField]⟩

theorem mfhi (rd : RegNum) : Statement (.mfhi rd) :=
  ⟨encodeR_match (.inl rfl) (.inl rfl) (.inr (by decide)) (.inl rfl), by
    simp only [encode, buildInstr, Instr.mnemonic, rdField_encodeR]
    simp [opcodeRow, field, rdField]⟩

theorem mflo (rd : RegNum) : Statement (.mflo rd) :=
  ⟨encodeR_match (.inl rfl) (.inl rfl) (.inr (by decide)) (.inl rfl), by
    simp only [encode, buildInstr, Instr.mnemonic, rdField_encodeR]
    simp [opcodeRow, field, rdField]⟩

theorem and (rd : RegNum) (rs : RegNum) (rt : RegNum) : Statement (.and rd rs rt) :=
  ⟨encodeR_match (.inr (by decide)) (.inr (by decide)) (.inr (by decide)) (.inl rfl), by
    simp only [encode, buildInstr, Instr.mnemonic, rdField_encodeR, rsField_encodeR, rtField_encodeR]
    simp [opcodeRow, field, rdField, rsField, rtField]⟩

theorem or (rd : RegNum) (rs : RegNum) (rt : RegNum) : Statement (.or rd rs rt) :=
  ⟨encodeR_match (.inr (by decide)) (.inr (by decide)) (.inr (by decide)) (.inl rfl), by
    simp only [encode, buildInstr, Instr.mnemonic, rdField_encodeR, rsField_encodeR, rtField_encodeR]
    simp [opcodeRow, field, rdField, rsField, rtField]⟩

theorem xor (rd : RegNum) (rs : RegNum) (rt : RegNum) : Statement (.xor rd rs rt) :=
  ⟨encodeR_match (.inr (by decide)) (.inr (by decide)) (.inr (by decide)) (.inl rfl), by
    simp only [encode, buildInstr, Instr.mnemonic, rdField_encodeR, rsField_encodeR, rtField_encodeR]
    simp [opcodeRow, field, rdField, rsField, rtField]⟩

theorem nor (rd : RegNum) (rs : RegNum) (rt : RegNum) : Statement (.nor rd rs rt) :=
  ⟨encodeR_match (.inr (by decide)) (.inr (by decide)) (.inr (by decide)) (.inl rfl), by
    simp only [encode, buildInstr, Instr.mnemonic, rdField_encodeR, rsField_encodeR, rtField_encodeR]
    simp [opcodeRow, field, rdField, rsField, rtField]⟩

theorem andi (rt : RegNum) (rs : RegNum) (imm : BitVec 16) : Statement (.andi rt rs imm) :=
  ⟨encodeI_match (.inr (by decide)) (.inr (by decide)) (.inr (by decide)), by
    simp only [encode, buildInstr, Instr.mnemonic, rtField_encodeI, rsField_encodeI, immField_encodeI]
    simp [opcodeRow, field, rtField, rsField, immField]⟩

theorem ori (rt : RegNum) (rs : RegNum) (imm : BitVec 16) : Statement (.ori rt rs imm) :=
  ⟨encodeI_match (.inr (by decide)) (.inr (by decide)) (.inr (by decide)), by
    simp only [encode, buildInstr, Instr.mnemonic, rtField_encodeI, rsField_encodeI, immField_encodeI]
    simp [opcodeRow, field, rtField, rsField, immField]⟩

theorem xori (rt : RegNum) (rs : RegNum) (imm : BitVec 16) : Statement (.xori rt rs imm) :=
  ⟨encodeI_match (.inr (by decide)) (.inr (by decide)) (.inr (by decide)), by
    simp only [encode, buildInstr, Instr.mnemonic, rtField_encodeI, rsField_encodeI, immField_encodeI]
    simp [opcodeRow, field, rtField, rsField, immField]⟩

theorem lui (rt : RegNum) (imm : BitVec 16) : Statement (.lui rt imm) :=
  ⟨encodeI_match (.inl rfl) (.inr (by decide)) (.inr (by decide)), by
    simp only [encode, buildInstr, Instr.mnemonic, rtField_encodeI, immField_encodeI]
    simp [opcodeRow, field, rtField, immField]⟩

theorem movz (rd : RegNum) (rs : RegNum) (rt : RegNum) : Statement (.movz rd rs rt) :=
  ⟨encodeR_match (.inr (by decide)) (.inr (by decide)) (.inr (by decide)) (.inl rfl), by
    simp only [encode, buildInstr, Instr.mnemonic, rdField_encodeR, rsField_encodeR, rtField_encodeR]
    simp [opcodeRow, field, rdField, rsField, rtField]⟩

theorem movn (rd : RegNum) (rs : RegNum) (rt : RegNum) : Statement (.movn rd rs rt) :=
  ⟨encodeR_match (.inr (by decide)) (.inr (by decide)) (.inr (by decide)) (.inl rfl), by
    simp only [encode, buildInstr, Instr.mnemonic, rdField_encodeR, rsField_encodeR, rtField_encodeR]
    simp [opcodeRow, field, rdField, rsField, rtField]⟩

theorem sll (rd : RegNum) (rt : RegNum) (sa : BitVec 5) : Statement (.sll rd rt sa) :=
  ⟨encodeR_match (.inl rfl) (.inr (by decide)) (.inr (by decide)) (.inr (by decide)), by
    simp only [encode, buildInstr, Instr.mnemonic, rdField_encodeR, rtField_encodeR, saField_encodeR]
    simp [opcodeRow, field, rdField, rtField, saField]⟩

theorem srl (rd : RegNum) (rt : RegNum) (sa : BitVec 5) : Statement (.srl rd rt sa) :=
  ⟨encodeR_match (.inl rfl) (.inr (by decide)) (.inr (by decide)) (.inr (by decide)), by
    simp only [encode, buildInstr, Instr.mnemonic, rdField_encodeR, rtField_encodeR, saField_encodeR]
    simp [opcodeRow, field, rdField, rtField, saField]⟩

theorem sra (rd : RegNum) (rt : RegNum) (sa : BitVec 5) : Statement (.sra rd rt sa) :=
  ⟨encodeR_match (.inl rfl) (.inr (by decide)) (.inr (by decide)) (.inr (by decide)), by
    simp only [encode, buildInstr, Instr.mnemonic, rdField_encodeR, rtField_encodeR, saField_encodeR]
    simp [opcodeRow, field, rdField, rtField, saField]⟩

theorem sllv (rd : RegNum) (rt : RegNum) (rs : RegNum) : Statement (.sllv rd rt rs) :=
  ⟨encodeR_match (.inr (by decide)) (.inr (by decide)) (.inr (by decide)) (.inl rfl), by
    simp only [encode, buildInstr, Instr.mnemonic, rdField_encodeR, rtField_encodeR, rsField_encodeR]
    simp [opcodeRow, field, rdField, rtField, rsField]⟩

theorem srlv (rd : RegNum) (rt : RegNum) (rs : RegNum) : Statement (.srlv rd rt rs) :=
  ⟨encodeR_match (.inr (by decide)) (.inr (by decide)) (.inr (by decide)) (.inl rfl), by
    simp only [encode, buildInstr, Instr.mnemonic, rdField_encodeR, rtField_encodeR, rsField_encodeR]
    simp [opcodeRow, field, rdField, rtField, rsField]⟩

theorem srav (rd : RegNum) (rt : RegNum) (rs : RegNum) : Statement (.srav rd rt rs) :=
  ⟨encodeR_match (.inr (by decide)) (.inr (by decide)) (.inr (by decide)) (.inl rfl), by
    simp only [encode, buildInstr, Instr.mnemonic, rdField_encodeR, rtField_encodeR, rsField_encodeR]
    simp [opcodeRow, field, rdField, rtField, rsField]⟩

theorem dsll (rd : RegNum) (rt : RegNum) (sa : BitVec 5) : Statement (.dsll rd rt sa) :=
  ⟨encodeR_match (.inl rfl) (.inr (by decide)) (.inr (by decide)) (.inr (by decide)), by
    simp only [encode, buildInstr, Instr.mnemonic, rdField_encodeR, rtField_encodeR, saField_encodeR]
    simp [opcodeRow, field, rdField, rtField, saField]⟩

theorem dsrl (rd : RegNum) (rt : RegNum) (sa : BitVec 5) : Statement (.dsrl rd rt sa) :=
  ⟨encodeR_match (.inl rfl) (.inr (by decide)) (.inr (by decide)) (.inr (by decide)), by
    simp only [encode, buildInstr, Instr.mnemonic, rdField_encodeR, rtField_encodeR, saField_encodeR]
    simp [opcodeRow, field, rdField, rtField, saField]⟩

theorem dsra (rd : RegNum) (rt : RegNum) (sa : BitVec 5) : Statement (.dsra rd rt sa) :=
  ⟨encodeR_match (.inl rfl) (.inr (by decide)) (.inr (by decide)) (.inr (by decide)), by
    simp only [encode, buildInstr, Instr.mnemonic, rdField_encodeR, rtField_encodeR, saField_encodeR]
    simp [opcodeRow, field, rdField, rtField, saField]⟩

theorem dsll32 (rd : RegNum) (rt : RegNum) (sa : BitVec 5) : Statement (.dsll32 rd rt sa) :=
  ⟨encodeR_match (.inl rfl) (.inr (by decide)) (.inr (by decide)) (.inr (by decide)), by
    simp only [encode, buildInstr, Instr.mnemonic, rdField_encodeR, rtField_encodeR, saField_encodeR]
    simp [opcodeRow, field, rdField, rtField, saField]⟩

theorem dsrl32 (rd : RegNum) (rt : RegNum) (sa : BitVec 5) : Statement (.dsrl32 rd rt sa) :=
  ⟨encodeR_match (.inl rfl) (.inr (by decide)) (.inr (by decide)) (.inr (by decide)), by
    simp only [encode, buildInstr, Instr.mnemonic, rdField_encodeR, rtField_encodeR, saField_encodeR]
    simp [opcodeRow, field, rdField, rtField, saField]⟩

theorem dsra32 (rd : RegNum) (rt : RegNum) (sa : BitVec 5) : Statement (.dsra32 rd rt sa) :=
  ⟨encodeR_match (.inl rfl) (.inr (by decide)) (.inr (by decide)) (.inr (by decide)), by
    simp only [encode, buildInstr, Instr.mnemonic, rdField_encodeR, rtField_encodeR, saField_encodeR]
    simp [opcodeRow, field, rdField, rtField, saField]⟩

theorem dsllv (rd : RegNum) (rt : RegNum) (rs : RegNum) : Statement (.dsllv rd rt rs) :=
  ⟨encodeR_match (.inr (by decide)) (.inr (by decide)) (.inr (by decide)) (.inl rfl), by
    simp only [encode, buildInstr, Instr.mnemonic, rdField_encodeR, rtField_encodeR, rsField_encodeR]
    simp [opcodeRow, field, rdField, rtField, rsField]⟩

theorem dsrlv (rd : RegNum) (rt : RegNum) (rs : RegNum) : Statement (.dsrlv rd rt rs) :=
  ⟨encodeR_match (.inr (by decide)) (.inr (by decide)) (.inr (by decide)) (.inl rfl), by
    simp only [encode, buildInstr, Instr.mnemonic, rdField_encodeR, rtField_encodeR, rsField_encodeR]
    simp [opcodeRow, field, rdField, rtField, rsField]⟩

theorem dsrav (rd : RegNum) (rt : RegNum) (rs : RegNum) : Statement (.dsrav rd rt rs) :=
  ⟨encodeR_match (.inr (by decide)) (.inr (by decide)) (.inr (by decide)) (.inl rfl), by
    simp only [encode, buildInstr, Instr.mnemonic, rdField_encodeR, rtField_encodeR, rsField_encodeR]
    simp [opcodeRow, field, rdField, rtField, rsField]⟩

theorem lb (rt : RegNum) (rs : RegNum) (imm : BitVec 16) : Statement (.lb rt rs imm) :=
  ⟨encodeI_match (.inr (by decide)) (.inr (by decide)) (.inr (by decide)), by
    simp only [encode, buildInstr, Instr.mnemonic, rtField_encodeI, rsField_encodeI, immField_encodeI]
    simp [opcodeRow, field, rtField, rsField, immField]⟩

theorem lbu (rt : RegNum) (rs : RegNum) (imm : BitVec 16) : Statement (.lbu rt rs imm) :=
  ⟨encodeI_match (.inr (by decide)) (.inr (by decide)) (.inr (by decide)), by
    simp only [encode, buildInstr, Instr.mnemonic, rtField_encodeI, rsField_encodeI, immField_encodeI]
    simp [opcodeRow, field, rtField, rsField, immField]⟩

theorem lh (rt : RegNum) (rs : RegNum) (imm : BitVec 16) : Statement (.lh rt rs imm) :=
  ⟨encodeI_match (.inr (by decide)) (.inr (by decide)) (.inr (by decide)), by
    simp only [encode, buildInstr, Instr.mnemonic, rtField_encodeI, rsField_encodeI, immField_encodeI]
    simp [opcodeRow, field, rtField, rsField, immField]⟩

theorem lhu (rt : RegNum) (rs : RegNum) (imm : BitVec 16) : Statement (.lhu rt rs imm) :=
  ⟨encodeI_match (.inr (by decide)) (.inr (by decide)) (.inr (by decide)), by
    simp only [encode, buildInstr, Instr.mnemonic, rtField_encodeI, rsField_encodeI, immField_encodeI]
    simp [opcodeRow, field, rtField, rsField, immField]⟩

theorem lw (rt : RegNum) (rs : RegNum) (imm : BitVec 16) : Statement (.lw rt rs imm) :=
  ⟨encodeI_match (.inr (by decide)) (.inr (by decide)) (.inr (by decide)), by
    simp only [encode, buildInstr, Instr.mnemonic, rtField_encodeI, rsField_encodeI, immField_encodeI]
    simp [opcodeRow, field, rtField, rsField, immField]⟩

theorem lwu (rt : RegNum) (rs : RegNum) (imm : BitVec 16) : Statement (.lwu rt rs imm) :=
  ⟨encodeI_match (.inr (by decide)) (.inr (by decide)) (.inr (by decide)), by
    simp only [encode, buildInstr, Instr.mnemonic, rtField_encodeI, rsField_encodeI, immField_encodeI]
    simp [opcodeRow, field, rtField, rsField, immField]⟩

theorem ld (rt : RegNum) (rs : RegNum) (imm : BitVec 16) : Statement (.ld rt rs imm) :=
  ⟨encodeI_match (.inr (by decide)) (.inr (by decide)) (.inr (by decide)), by
    simp only [encode, buildInstr, Instr.mnemonic, rtField_encodeI, rsField_encodeI, immField_encodeI]
    simp [opcodeRow, field, rtField, rsField, immField]⟩

theorem ldc1 (ft : RegNum) (rs : RegNum) (imm : BitVec 16) : Statement (.ldc1 ft rs imm) :=
  ⟨encodeI_match (.inr (by decide)) (.inr (by decide)) (.inr (by decide)), by
    simp only [encode, buildInstr, Instr.mnemonic, rtField_encodeI, rsField_encodeI, immField_encodeI]
    simp [opcodeRow, field, rtField, rsField, immField]⟩

theorem sb (rt : RegNum) (rs : RegNum) (imm : BitVec 16) : Statement (.sb rt rs imm) :=
  ⟨encodeI_match (.inr (by decide)) (.inr (by decide)) (.inr (by decide)), by
    simp only [encode, buildInstr, Instr.mnemonic, rtField_encodeI, rsField_encodeI, immField_encodeI]
    simp [opcodeRow, field, rtField, rsField, immField]⟩

theorem sh (rt : RegNum) (rs : RegNum) (imm : BitVec 16) : Statement (.sh rt rs imm) :=
  ⟨encodeI_match (.inr (by decide)) (.inr (by decide)) (.inr (by decide)), by
    simp only [encode, buildInstr, Instr.mnemonic, rtField_encodeI, rsField_encodeI, immField_encodeI]
    simp [opcodeRow, field, rtField, rsField, immField]⟩

theorem sw (rt : RegNum) (rs : RegNum) (imm : BitVec 16) : Statement (.sw rt rs imm) :=
  ⟨encodeI_match (.inr (by decide)) (.inr (by decide)) (.inr (by decide)), by
    simp only [encode, buildInstr, Instr.mnemonic, rtField_encodeI, rsField_encodeI, immField_encodeI]
    simp [opcodeRow, field, rtField, rsField, immField]⟩

theorem sd (rt : RegNum) (rs : RegNum) (imm : BitVec 16) : Statement (.sd rt rs imm) :=
  ⟨encodeI_match (.inr (by decide)) (.inr (by decide)) (.inr (by decide)), by
    simp only [encode, buildInstr, Instr.mnemonic, rtField_encodeI, rsField_encodeI, immField_encodeI]
    simp [opcodeRow, field, rtField, rsField, immField]⟩

theorem sdc1 (ft : RegNum) (rs : RegNum) (imm : BitVec 16) : Statement (.sdc1 ft rs imm) :=
  ⟨encodeI_match (.inr (by decide)) (.inr (by decide)) (.inr (by decide)), by
    simp only [encode, buildInstr, Instr.mnemonic, rtField_encodeI, rsField_encodeI, immField_encodeI]
    simp [opcodeRow, field, rtField, rsField, immField]⟩

theorem beq (rs : RegNum) (rt : RegNum) (imm : BitVec 16) : Statement (.beq rs rt imm) :=
  ⟨encodeI_match (.inr (by decide)) (.inr (by decide)) (.inr (by decide)), by
    simp only [encode, buildInstr, Instr.mnemonic, rsField_encodeI, rtField_encodeI, immField_encodeI]
    simp [opcodeRow, field, rsField, rtField, immField]⟩

theorem bne (rs : RegNum) (rt : RegNum) (imm : BitVec 16) : Statement (.bne rs rt imm) :=
  ⟨encodeI_match (.inr (by decide)) (.inr (by decide)) (.inr (by decide)), by
    simp only [encode, buildInstr, Instr.mnemonic, rsField_encodeI, rtField_encodeI, immField_encodeI]
    simp [opcodeRow, field, rsField, rtField, immField]⟩

theorem blez (rs : RegNum) (imm : BitVec 16) : Statement (.blez rs imm) :=
  ⟨encodeI_match (.inr (by decide)) (.inl rfl) (.inr (by decide)), by
    simp only [encode, buildInstr, Instr.mnemonic, rsField_encodeI, immField_encodeI]
    simp [opcodeRow, field, rsField, immField]⟩

theorem bgtz (rs : RegNum) (imm : BitVec 16) : Statement (.bgtz rs imm) :=
  ⟨encodeI_match (.inr (by decide)) (.inl rfl) (.inr (by decide)), by
    simp only [encode, buildInstr, Instr.mnemonic, rsField_encodeI, immField_encodeI]
    simp [opcodeRow, field, rsField, immField]⟩

theorem bltz (rs : RegNum) (imm : BitVec 16) : Statement (.bltz rs imm) :=
  ⟨encodeI_match (.inr (by decide)) (.inl rfl) (.inr (by decide)), by
    simp only [encode, buildInstr, Instr.mnemonic, rsField_encodeI, immField_encodeI]
    simp [opcodeRow, field, rsField, immField]⟩

theorem bgez (rs : RegNum) (imm : BitVec 16) : Statement (.bgez rs imm) :=
  ⟨encodeI_match (.inr (by decide)) (.inl rfl) (.inr (by decide)), by
    simp only [encode, buildInstr, Instr.mnemonic, rsField_encodeI, immField_encodeI]
    simp [opcodeRow, field, rsField, immField]⟩

theorem bc1f (imm : BitVec 16) : Statement (.bc1f imm) :=
  ⟨encodeI_match (.inl rfl) (.inl rfl) (.inr (by decide)), by
    simp only [encode, buildInstr, Instr.mnemonic, immField_encodeI]
    simp [opcodeRow, field, immField]⟩

theorem bc1t (imm : BitVec 16) : Statement (.bc1t imm) :=
  ⟨encodeI_match (.inl rfl) (.inl rfl) (.inr (by decide)), by
    simp only [encode, buildInstr, Instr.mnemonic, immField_encodeI]
    simp [opcodeRow, field, immField]⟩

theorem j (index : BitVec 26) : Statement (.j index) :=
  ⟨encodeJ_match (.inr (by decide)), by
    simp only [encode, buildInstr, Instr.mnemonic, indexField_encodeJ]
    simp [opcodeRow, field, indexField]⟩

theorem jal (index : BitVec 26) : Statement (.jal index) :=
  ⟨encodeJ_match (.inr (by decide)), by
    simp only [encode, buildInstr, Instr.mnemonic, indexField_encodeJ]
    simp [opcodeRow, field, indexField]⟩

theorem jr (rs : RegNum) : Statement (.jr rs) :=
  ⟨encodeR_match (.inr (by decide)) (.inl rfl) (.inl rfl) (.inl rfl), by
    simp only [encode, buildInstr, Instr.mnemonic, rsField_encodeR]
    simp [opcodeRow, field, rsField]⟩

theorem jalr (rd : RegNum) (rs : RegNum) : Statement (.jalr rd rs) :=
  ⟨encodeR_match (.inr (by decide)) (.inl rfl) (.inr (by decide)) (.inl rfl), by
    simp only [encode, buildInstr, Instr.mnemonic, rdField_encodeR, rsField_encodeR]
    simp [opcodeRow, field, rdField, rsField]⟩

theorem addD (fd : RegNum) (fs : RegNum) (ft : RegNum) : Statement (.addD fd fs ft) :=
  ⟨encodeR_match (.inl rfl) (.inr (by decide)) (.inr (by decide)) (.inr (by decide)), by
    simp only [encode, buildInstr, Instr.mnemonic, saField_encodeR, rdField_encodeR, rtField_encodeR]
    simp [opcodeRow, field, saField, rdField, rtField]⟩

theorem subD (fd : RegNum) (fs : RegNum) (ft : RegNum) : Statement (.subD fd fs ft) :=
  ⟨encodeR_match (.inl rfl) (.inr (by decide)) (.inr (by decide)) (.inr (by decide)), by
    simp only [encode, buildInstr, Instr.mnemonic, saField_encodeR, rdField_encodeR, rtField_encodeR]
    simp [opcodeRow, field, saField, rdField, rtField]⟩

theorem mulD (fd : RegNum) (fs : RegNum) (ft : RegNum) : Statement (.mulD fd fs ft) :=
  ⟨encodeR_match (.inl rfl) (.inr (by decide)) (.inr (by decide)) (.inr (by decide)), by
    simp only [encode, buildInstr, Instr.mnemonic, saField_encodeR, rdField_encodeR, rtField_encodeR]
    simp [opcodeRow, field, saField, rdField, rtField]⟩

theorem divD (fd : RegNum) (fs : RegNum) (ft : RegNum) : Statement (.divD fd fs ft) :=
  ⟨encodeR_match (.inl rfl) (.inr (by decide)) (.inr (by decide)) (.inr (by decide)), by
    simp only [encode, buildInstr, Instr.mnemonic, saField_encodeR, rdField_encodeR, rtField_encodeR]
    simp [opcodeRow, field, saField, rdField, rtField]⟩

theorem movD (fd : RegNum) (fs : RegNum) : Statement (.movD fd fs) :=
  ⟨encodeR_match (.inl rfl) (.inl rfl) (.inr (by decide)) (.inr (by decide)), by
    simp only [encode, buildInstr, Instr.mnemonic, saField_encodeR, rdField_encodeR]
    simp [opcodeRow, field, saField, rdField]⟩

theorem cvtDL (fd : RegNum) (fs : RegNum) : Statement (.cvtDL fd fs) :=
  ⟨encodeR_match (.inl rfl) (.inl rfl) (.inr (by decide)) (.inr (by decide)), by
    simp only [encode, buildInstr, Instr.mnemonic, saField_encodeR, rdField_encodeR]
    simp [opcodeRow, field, saField, rdField]⟩

theorem cvtLD (fd : RegNum) (fs : RegNum) : Statement (.cvtLD fd fs) :=
  ⟨encodeR_match (.inl rfl) (.inl rfl) (.inr (by decide)) (.inr (by decide)), by
    simp only [encode, buildInstr, Instr.mnemonic, saField_encodeR, rdField_encodeR]
    simp [opcodeRow, field, saField, rdField]⟩

theorem cEqD (fs : RegNum) (ft : RegNum) : Statement (.cEqD fs ft) :=
  ⟨encodeR_match (.inl rfl) (.inr (by decide)) (.inr (by decide)) (.inl rfl), by
    simp only [encode, buildInstr, Instr.mnemonic, rdField_encodeR, rtField_encodeR]
    simp [opcodeRow, field, rdField, rtField]⟩

theorem cLtD (fs : RegNum) (ft : RegNum) : Statement (.cLtD fs ft) :=
  ⟨encodeR_match (.inl rfl) (.inr (by decide)) (.inr (by decide)) (.inl rfl), by
    simp only [encode, buildInstr, Instr.mnemonic, rdField_encodeR, rtField_encodeR]
    simp [opcodeRow, field, rdField, rtField]⟩

theorem dmfc1 (rt : RegNum) (fs : RegNum) : Statement (.dmfc1 rt fs) :=
  ⟨encodeR_match (.inl rfl) (.inr (by decide)) (.inr (by decide)) (.inl rfl), by
    simp only [encode, buildInstr, Instr.mnemonic, rtField_encodeR, rdField_encodeR]
    simp [opcodeRow, field, rtField, rdField]⟩

theorem dmtc1 (rt : RegNum) (fs : RegNum) : Statement (.dmtc1 rt fs) :=
  ⟨encodeR_match (.inl rfl) (.inr (by decide)) (.inr (by decide)) (.inl rfl), by
    simp only [encode, buildInstr, Instr.mnemonic, rtField_encodeR, rdField_encodeR]
    simp [opcodeRow, field, rtField, rdField]⟩

theorem syscall (code : BitVec 20) : Statement (.syscall code) :=
  ⟨encodeSys_match (.inr (by decide)), by
    simp only [encode, buildInstr, Instr.mnemonic, codeField_encodeSys]
    simp [opcodeRow, field, codeField]⟩

theorem brk (code : BitVec 20) : Statement (.brk code) :=
  ⟨encodeSys_match (.inr (by decide)), by
    simp only [encode, buildInstr, Instr.mnemonic, codeField_encodeSys]
    simp [opcodeRow, field, codeField]⟩

end Sys2Proof.Laws.EncodesItsRow
end

