-- ==== Sys2Proof/Laws/Pipeline.lean ====
section
/-! SUPPORT. The cycle: how a step splits into its phases, what a stage leaves of the other slots and of the fields no stage
touches, what the boundary does to the slots, and what each phase keeps of a sound state. -/
namespace Sys2Proof.Machine

set_option Elab.async false

/-! ## A step and its phases -/

/-- An engine that is not terminal runs a cycle. -/
theorem step_run (s : State) (hh : s.ctrl.isHalted = false) (hf : s.ctrl.isFatal = false) : step s = s.runCycle := by
  unfold step
  cases h : s.ctrl <;> simp_all [Ctrl.isHalted, Ctrl.isFatal]

theorem stageTurn_none {t : Stage} {s : State} (h : s.slots.get t = none) : stageTurn t s = .next s := by
  unfold stageTurn
  rw [h]

theorem stageTurn_skip {t : Stage} {s : State} {e : Entry} (h : s.slots.get t = some e) (hd : e.discard = true) :
    stageTurn t s = .next s := by
  unfold stageTurn
  rw [h]
  simp [hd]

theorem stageTurn_instr {t : Stage} {s : State} {e : Entry} {i : Instruction} (h : s.slots.get t = some e)
    (hd : e.discard = false) (hi : e.inst = .instr i) : stageTurn t s = exec i.op { s with turn := t } := by
  unfold stageTurn
  rw [h]
  simp [hd, hi]

theorem stageTurn_token {t : Stage} {s : State} {e : Entry} {k : ExcKind} {a : Word} (h : s.slots.get t = some e)
    (hd : e.discard = false) (hi : e.inst = .faultToken k a) :
    stageTurn t s = .next (if t = .ID ∧ s.wrongPath = false then s.takeException .ID k a a else s) := by
  unfold stageTurn
  rw [h]
  simp [hd, hi]

/-- A token on a wrong path does nothing (R80). -/
theorem stageTurn_token_wrongPath {s : State} {e : Entry} {k : ExcKind} {a : Word} (h : s.slots.get .ID = some e)
    (hi : e.inst = .faultToken k a) (hp : s.wrongPath = true) : stageTurn .ID s = .next s := by
  cases hd : e.discard with
  | true => exact stageTurn_skip h hd
  | false => rw [stageTurn_token h hd hi, if_neg (by simp [hp])]

/-- Every turn answers a state. -/
theorem stageTurn_next (t : Stage) (s : State) : ∃ u, stageTurn t s = .next u := by
  unfold stageTurn
  split
  · exact ⟨_, rfl⟩
  · split
    · exact ⟨_, rfl⟩
    · split
      · exact exec_next _ _
      · exact ⟨_, rfl⟩

/-- What a turn can be: nothing, the stage's instruction run, or a fault token raised in Decode, not on a wrong path. -/
theorem stageTurn_cases {t : Stage} {s u : State} (h : stageTurn t s = .next u) :
    u = s ∧ (∀ e, s.slots.get t = some e → e.discard = false →
      (t = .ID → s.wrongPath = true) ∧ ∃ k a, e.inst = .faultToken k a) ∨
    (∃ e i, s.slots.get t = some e ∧ e.discard = false ∧ e.inst = .instr i ∧ exec i.op { s with turn := t } = .next u) ∨
    ∃ e k a, s.slots.get t = some e ∧ e.discard = false ∧ e.inst = .faultToken k a ∧
      (t = .ID ∧ s.wrongPath = false) ∧ u = s.takeException .ID k a a := by
  cases hg : s.slots.get t with
  | none =>
    rw [stageTurn_none hg] at h
    injection h with h
    exact .inl ⟨h.symm, by simp⟩
  | some e =>
    cases hd : e.discard with
    | true =>
      rw [stageTurn_skip hg hd] at h
      injection h with h
      exact .inl ⟨h.symm, by simp [hd]⟩
    | false =>
      cases hi : e.inst with
      | instr i => exact .inr (.inl ⟨e, i, rfl, hd, hi, by rw [← stageTurn_instr hg hd hi, h]⟩)
      | faultToken k a =>
        rw [stageTurn_token hg hd hi] at h
        injection h with h
        by_cases ht : t = .ID ∧ s.wrongPath = false
        · rw [if_pos ht] at h
          exact .inr (.inr ⟨e, k, a, rfl, hd, hi, ht, h.symm⟩)
        · rw [if_neg ht] at h
          refine .inl ⟨h.symm, fun e' he _ => ⟨fun hid => by simpa [hid] using ht, k, a, ?_⟩⟩
          injection he with he
          rw [← he, hi]

/-- The stage phase answers a state. -/
theorem stagePhase_next (s : State) : ∃ u, stagePhase s = .next u := by
  obtain ⟨a, ha⟩ := stageTurn_next .WB s
  obtain ⟨b, hb⟩ := stageTurn_next .MEM a
  obtain ⟨c, hc⟩ := stageTurn_next .EX b
  obtain ⟨d, hd⟩ := stageTurn_next .ID c
  exact ⟨d, by simp [stagePhase, andThen, ha, hb, hc, hd]⟩

/-- The four turns of a stage phase. -/
theorem stagePhase_split {s t : State} (h : stagePhase s = .next t) :
    ∃ a b c, stageTurn .WB s = .next a ∧ stageTurn .MEM a = .next b ∧ stageTurn .EX b = .next c ∧
      stageTurn .ID c = .next t := by
  obtain ⟨a, ha⟩ := stageTurn_next .WB s
  obtain ⟨b, hb⟩ := stageTurn_next .MEM a
  obtain ⟨c, hc⟩ := stageTurn_next .EX b
  refine ⟨a, b, c, ha, hb, hc, ?_⟩
  simpa [stagePhase, andThen, ha, hb, hc] using h

/-- A cycle: the boundary, the stage phase, the resolution and the account. -/
theorem step_split {s u : State} (hn : ¬ s.terminal) (h : step s = .next u) :
    ∃ t, stagePhase s.boundary = .next t ∧ u = t.resolveFatal.account := by
  unfold State.terminal at hn
  rw [not_or, Bool.not_eq_true, Bool.not_eq_true] at hn
  rw [step_run s hn.1 hn.2, State.runCycle] at h
  obtain ⟨t, ht⟩ := stagePhase_next s.boundary
  rw [ht] at h
  injection h with h
  exact ⟨t, ht, h.symm⟩

/-- A terminal step changes the report only. -/
theorem step_terminal {s : State} (h : s.terminal) : step s = .next s.terminalStep := by
  unfold step
  cases hc : s.ctrl <;> simp_all [State.terminal, Ctrl.isHalted, Ctrl.isFatal]

/-! ## What a turn leaves -/

theorem runStage_turns {u : Config → Entry → ExecResult} {a : Access} {s t : State} (h : runStage u a s = .next t) :
    t = s ∨ (∃ e, s.turn = .ID ∧ s.slots.ID = some e ∧ t = decodeStage e s) ∨
    (∃ e, s.turn = .EX ∧ s.slots.EX = some e ∧ t = executeStage u e s) ∨
    (∃ e, s.turn = .MEM ∧ s.slots.MEM = some e ∧ t = memoryStage a e s) ∨
    ∃ e, s.turn = .WB ∧ s.slots.WB = some e ∧ t = writeBackStage e s := by
  unfold runStage at h
  split at h
  · injection h with h
    exact .inl h.symm
  · rename_i e he
    split at h <;> rename_i ht <;> injection h with h <;> rw [ht] at he
    · exact .inl h.symm
    · exact .inr (.inl ⟨e, ht, he, h.symm⟩)
    · exact .inr (.inr (.inl ⟨e, ht, he, h.symm⟩))
    · exact .inr (.inr (.inr (.inl ⟨e, ht, he, h.symm⟩)))
    · exact .inr (.inr (.inr (.inr ⟨e, ht, he, h.symm⟩)))

theorem takeException_get (s : State) (t : Stage) (k : ExcKind) (pc addr : Word) (u : Stage) :
    (s.takeException t k pc addr).slots.get u = if u.upTo t then markDiscard (s.slots.get u) else s.slots.get u := by
  rcases takeException_cases s t k pc addr with ⟨h, -, e⟩ | ⟨-, e⟩ <;> rw [e] <;> exact slots_get_discardThrough _ _ _

/-- What follows from a completed entry marks Decode and Fetch only. -/
theorem afterExecute_get (s : State) (e : Entry) (u : Stage) :
    (s.afterExecute e).slots.get u = s.slots.get u ∨
    (u.upTo .ID = true ∧ (s.afterExecute e).slots.get u = markDiscard (s.slots.get u)) := by
  unfold State.afterExecute State.requestFlush
  split
  · simp only [slots_get_discardThrough]
    split <;> simp_all
  · split
    · exact .inl rfl
    · simp only [slots_get_discardThrough]
      split <;> simp_all
    · simp only [slots_get_discardThrough]
      split <;> simp_all

/-- An instruction's part of one stage leaves every other slot as it was, but for discard marks. -/
theorem exec_slot_other {i : Instr} {s t : State} (h : exec i s = .next t) (u : Stage) (hu : u ≠ s.turn) :
    t.slots.get u = s.slots.get u ∨ t.slots.get u = markDiscard (s.slots.get u) := by
  obtain ⟨v, a, hx, -, -⟩ := exec_shape i
  rw [hx] at h
  rcases runStage_turns h with rfl | ⟨e, ht, -, rfl⟩ | ⟨e, ht, -, rfl⟩ | ⟨e, ht, -, rfl⟩ | ⟨e, ht, -, rfl⟩
  · exact .inl rfl
  · rw [ht] at hu
    left
    simp [decodeStage, State.putEntry, slots_get_put, hu]
  · rw [ht] at hu
    rcases executeStage_cases v e s with ⟨-, h⟩ | ⟨-, k, -, h⟩ | ⟨-, e', -, h⟩ <;> rw [h]
    · left
      simp [State.putEntry, slots_get_put, hu]
    · rw [takeException_get]
      split <;> simp
    · have hp : (s.putEntry .EX { e' with done := true }).slots.get u = s.slots.get u := by
        simp [State.putEntry, slots_get_put, hu]
      rcases afterExecute_get (s.putEntry .EX { e' with done := true }) { e' with done := true } u with h | ⟨-, h⟩ <;>
        rw [h, hp] <;> simp
  · rw [ht] at hu
    rcases memoryStage_cases a e s with ⟨k, h⟩ | ⟨m, r, -, -, h⟩ <;> rw [h]
    · rw [takeException_get]
      split <;> simp
    · left
      simp [State.putEntry, slots_get_put, hu]
  · rw [ht] at hu
    left
    simp [writeBackStage, State.putEntry, slots_get_put, hu]

theorem exec_slot_none {i : Instr} {s t : State} (h : exec i s = .next t) (u : Stage) (hu : u ≠ s.turn)
    (hn : s.slots.get u = none) : t.slots.get u = none := by
  rcases exec_slot_other h u hu with h | h <;> rw [h, hn]
  rfl

/-- The fields that no stage changes. -/
structure StageKeeps (s t : State) : Prop where
  cfg    : t.cfg = s.cfg
  base   : t.base = s.base
  prog   : t.prog = s.prog
  pc     : t.pc = s.pc
  cycle  : t.cycle = s.cycle
  stalls : t.stalls = s.stalls
  number : t.report.cycle = s.report.cycle

theorem StageKeeps.trans {a b c : State} (h : StageKeeps a b) (g : StageKeeps b c) : StageKeeps a c :=
  ⟨g.cfg.trans h.cfg, g.base.trans h.base, g.prog.trans h.prog, g.pc.trans h.pc, g.cycle.trans h.cycle,
    g.stalls.trans h.stalls, g.number.trans h.number⟩

theorem takeException_keeps (s : State) (t : Stage) (k : ExcKind) (pc addr : Word) :
    StageKeeps s (s.takeException t k pc addr) := by
  rcases takeException_cases s t k pc addr with ⟨h, -, e⟩ | ⟨-, e⟩ <;> rw [e] <;> exact ⟨rfl, rfl, rfl, rfl, rfl, rfl, rfl⟩

theorem exec_keeps {i : Instr} {s t : State} (h : exec i s = .next t) : StageKeeps s t := by
  obtain ⟨v, a, hx, -, -⟩ := exec_shape i
  rw [hx] at h
  rcases runStage_turns h with rfl | ⟨e, -, -, rfl⟩ | ⟨e, -, -, rfl⟩ | ⟨e, -, -, rfl⟩ | ⟨e, -, -, rfl⟩
  · exact ⟨rfl, rfl, rfl, rfl, rfl, rfl, rfl⟩
  · exact ⟨rfl, rfl, rfl, rfl, rfl, rfl, rfl⟩
  · rcases executeStage_cases v e s with ⟨-, h⟩ | ⟨-, k, -, h⟩ | ⟨-, e', -, h⟩ <;> rw [h]
    · exact ⟨rfl, rfl, rfl, rfl, rfl, rfl, rfl⟩
    · exact takeException_keeps s _ _ _ _
    · refine ⟨by simp, by simp, by simp, by simp, by simp, by simp, ?_⟩
      unfold State.afterExecute State.requestFlush
      split
      · rfl
      · split <;> rfl
  · rcases memoryStage_cases a e s with ⟨k, h⟩ | ⟨m, r, -, -, h⟩ <;> rw [h]
    · exact takeException_keeps s _ _ _ _
    · exact ⟨rfl, rfl, rfl, rfl, rfl, rfl, rfl⟩
  · refine ⟨by simp, by simp, by simp, by simp, by simp, by simp, ?_⟩
    unfold writeBackStage State.putEntry State.commitCall runCallback
    split <;> simp

theorem stageTurn_keeps {t : Stage} {s u : State} (h : stageTurn t s = .next u) : StageKeeps s u := by
  rcases stageTurn_cases h with ⟨rfl, -⟩ | ⟨e, i, -, -, -, hx⟩ | ⟨e, k, a, -, -, -, -, rfl⟩
  · exact ⟨rfl, rfl, rfl, rfl, rfl, rfl, rfl⟩
  · obtain ⟨a, b, c, d, e, f, g⟩ := exec_keeps hx
    exact ⟨a, b, c, d, e, f, g⟩
  · exact takeException_keeps s _ _ _ _

theorem stagePhase_keeps {s t : State} (h : stagePhase s = .next t) : StageKeeps s t := by
  obtain ⟨a, b, c, ha, hb, hc, hd⟩ := stagePhase_split h
  exact (((stageTurn_keeps ha).trans (stageTurn_keeps hb)).trans (stageTurn_keeps hc)).trans (stageTurn_keeps hd)

/-! ## The wrong path -/

/-- What an instruction makes of its last cycle in Execute: what its execution unit latches, or a discarded entry. -/
theorem completion_eq (i : Instruction) : ∃ unit access, (∀ s, exec i.op s = runStage unit access s) ∧
    ∀ (s : State) (e : Entry), e.inst = .instr i →
      s.completion e = match unit s.cfg ({ e with rem := 1 } : Entry).unexecuted with
        | .latched r => some { r with done := true }
        | .raise _ => some { e with rem := 1, discard := true } := by
  obtain ⟨unit, access, hx, -, -⟩ := exec_shape i.op
  refine ⟨unit, access, hx, fun s e hi => ?_⟩
  let s1 : State := { s with turn := .EX, slots := { s.slots with EX := some { e with rem := 1 } } }
  have hr : exec i.op s1 = .next (executeStage unit { e with rem := 1 } s1) := by
    rw [hx, runStage_at (s := s1) (e := { e with rem := 1 }) rfl]
  have hc : s.completion e = (executeStage unit { e with rem := 1 } s1).slots.get .EX := by
    unfold State.completion
    split
    · rename_i j hj
      rw [hi] at hj
      injection hj with hj
      rw [← hj]
      show (match exec i.op s1 with
        | .next t => t.slots.EX
        | .fault _ => none
        | .refused _ => none) = _
      rw [hr]
      rfl
    · rename_i k a hk
      rw [hi] at hk
      cases hk
  rw [hc]
  rcases executeStage_cases unit { e with rem := 1 } s1 with ⟨h1, -⟩ | ⟨-, k, hk, h⟩ | ⟨-, r, hk, h⟩
  · exact absurd h1 (by simp)
  · rw [show s1.cfg = s.cfg from rfl] at hk
    rw [hk, h, takeException_get]
    rfl
  · rw [show s1.cfg = s.cfg from rfl] at hk
    rw [hk, h]
    rcases afterExecute_get (s1.putEntry .EX { r with done := true }) { r with done := true } .EX with h | ⟨h, -⟩
    · rw [h]; rfl
    · cases h

/-- It depends on the configuration and the entry only. -/
theorem completion_congr {s t : State} (h : t.cfg = s.cfg) (e : Entry) : t.completion e = s.completion e := by
  cases hi : e.inst with
  | instr i =>
    obtain ⟨unit, access, -, hc⟩ := completion_eq i
    rw [hc s e hi, hc t e hi, h]
  | faultToken k a =>
    unfold State.completion
    rw [hi]

/-- When the entries behind Execute stand on a wrong path. -/
theorem wrongPath_iff {s : State} : s.wrongPath = true ↔
    ∃ e r, s.slots.EX = some e ∧ e.discard = false ∧ e.done = false ∧ s.completion e = some r ∧ r.done = true ∧
      (r.taken = true ∨ r.sys = .halt) := by
  unfold State.wrongPath
  cases hx : s.slots.EX with
  | none => simp
  | some e =>
    cases hd : e.discard <;> cases hn : e.done <;> cases hc : s.completion e <;>
      simp [hd, hn, hc, Bool.and_eq_true, Bool.or_eq_true]

/-! ## The exception record of a turn -/

theorem afterExecute_fault (s : State) (e : Entry) : (s.afterExecute e).report.fault = s.report.fault := by
  unfold State.afterExecute State.requestFlush
  split
  · rfl
  · split <;> rfl

theorem takeException_fault (s : State) (t : Stage) (k : ExcKind) (pc addr : Word) :
    (s.takeException t k pc addr).report.fault = some ⟨k, codeOf k, pc, t, addr⟩ := by
  rcases takeException_cases s t k pc addr with ⟨h, -, e⟩ | ⟨-, e⟩ <;> rw [e]

/-- A turn leaves the exception record as it was or makes one of its own stage; in Decode that is a token's, raised on
no wrong path (R431, R433). -/
theorem stageTurn_fault {t : Stage} {s u : State} (h : stageTurn t s = .next u) :
    u.report.fault = s.report.fault ∨
    ∃ f, u.report.fault = some f ∧ f.stage = t ∧
      (t = .ID → ∃ e k a, s.slots.ID = some e ∧ e.discard = false ∧ s.wrongPath = false ∧
        u = s.takeException .ID k a a) := by
  rcases stageTurn_cases h with ⟨rfl, -⟩ | ⟨e, i, h1, -, h2, hx⟩ | ⟨e, k, a, h1, h2, h3, ⟨rfl, hp⟩, rfl⟩
  · exact .inl rfl
  · obtain ⟨v, a, hx', -, -⟩ := exec_shape i.op
    rw [hx', runStage_at (e := e) h1] at hx
    injection hx with hx
    subst hx
    cases t
    · exact .inl rfl
    · exact .inl rfl
    · show (executeStage v e _).report.fault = _ ∨ _
      rcases executeStage_cases v e { s with turn := .EX } with ⟨-, h⟩ | ⟨-, k, -, h⟩ | ⟨-, e', -, h⟩
      · left; rw [h]; rfl
      · right; exact ⟨_, (congrArg (fun s : State => s.report.fault) h).trans (takeException_fault _ _ _ _ _), rfl, by simp⟩
      · left; rw [h, afterExecute_fault]; rfl
    · show (memoryStage a e _).report.fault = _ ∨ _
      rcases memoryStage_cases a e { s with turn := .MEM } with ⟨k, h⟩ | ⟨m, r, -, -, h⟩
      · right; exact ⟨_, (congrArg (fun s : State => s.report.fault) h).trans (takeException_fault _ _ _ _ _), rfl, by simp⟩
      · left; rw [h]; rfl
    · left; show (writeBackStage e _).report.fault = _; rw [writeBackStage_report]
  · exact .inr ⟨_, takeException_fault _ _ _ _ _, rfl, fun _ => ⟨e, k, a, h1, h2, hp, rfl⟩⟩

/-! ## The boundary -/

@[simp] theorem keep_none : keep none = none := rfl

theorem keep_clean {o : Option Entry} (h : ∀ e, o = some e → e.discard = false) : keep o = o := by
  cases o with
  | none => rfl
  | some e => simp [keep, h e rfl]

theorem keep_marked {o : Option Entry} (h : ∀ e, o = some e → e.discard = true) : keep o = none := by
  cases o with
  | none => rfl
  | some e => simp [keep, h e rfl]

theorem keep_eq_some {o : Option Entry} {e : Entry} : keep o = some e ↔ o = some e ∧ e.discard = false := by
  cases o with
  | none => simp
  | some d =>
    cases hd : d.discard <;> simp [keep, hd]
    · rintro rfl; exact hd
    · rintro rfl; exact hd

/-- With no entry marked, nothing is dropped. -/
theorem dropDiscarded_clean (s : State) (h : ∀ st e, s.slots.get st = some e → e.discard = false) : s.dropDiscarded = s := by
  have hd : ∀ o : Option Entry, (∀ e, o = some e → e.discard = false) → discardedDsts o = [] := by
    intro o ho
    cases o with
    | none => rfl
    | some e => simp [discardedDsts, ho e rfl]
  unfold State.dropDiscarded
  rw [keep_clean (o := s.slots.IF) (h .IF), keep_clean (o := s.slots.ID) (h .ID), keep_clean (o := s.slots.EX) (h .EX),
    keep_clean (o := s.slots.MEM) (h .MEM), keep_clean (o := s.slots.WB) (h .WB), hd s.slots.EX (h .EX),
    hd s.slots.MEM (h .MEM)]
  rfl

/-- Redirect and fetch touch no slot but an empty Fetch, and no marker. -/
theorem redirect_fetch_slots (s : State) :
    s.redirect.fetch.slots.ID = s.slots.ID ∧ s.redirect.fetch.slots.EX = s.slots.EX ∧
    s.redirect.fetch.slots.MEM = s.slots.MEM ∧ s.redirect.fetch.slots.WB = s.slots.WB ∧
    (s.slots.IF.isSome = true → s.redirect.fetch.slots.IF = s.slots.IF) ∧ s.redirect.fetch.pend = s.pend := by
  unfold State.redirect
  split <;> (unfold State.fetch; split <;> [(simp); split <;> simp_all])

/-- The slots past Fetch and the markers after a boundary. -/
theorem boundary_slots (s : State) :
    s.boundary.slots.ID = beginEntry s.dropDiscarded.advance.slots.ID ∧
    s.boundary.slots.EX = beginEntry s.dropDiscarded.advance.slots.EX ∧
    s.boundary.slots.MEM = beginEntry s.dropDiscarded.advance.slots.MEM ∧
    s.boundary.slots.WB = beginEntry s.dropDiscarded.advance.slots.WB ∧
    s.boundary.pend = s.dropDiscarded.advance.pend := by
  obtain ⟨a, b, c, d, -, e⟩ := redirect_fetch_slots s.dropDiscarded.advance
  unfold State.boundary
  refine ⟨?_, ?_, ?_, ?_, e⟩
  · rw [← a]; rfl
  · rw [← b]; rfl
  · rw [← c]; rfl
  · rw [← d]; rfl

theorem advance_IF (s : State) : s.advance.slots.IF = if s.slots.idHolds then s.slots.IF else none := by
  unfold State.advance
  split <;> rfl

/-- A front that moves, with nothing pending and no redirect, takes what fetching at `pc` gives (R156). -/
theorem boundary_front_moves {s : State} (hf : s.dropDiscarded.slots.idHolds = false ∨ keep s.slots.IF = none)
    (hc : s.ctrl = .normal) (hh : s.haltPending = false) (hp : s.fatalPending = none) :
    s.boundary.slots.IF = (s.fetchAt s.pc).map (fun c => ({ inst := c } : Entry)) ∧
      s.boundary.pc = if (s.fetchAt s.pc).isSome then s.pc + 4 else s.pc := by
  have hI : s.dropDiscarded.advance.slots.IF = none := by
    rw [advance_IF]
    rcases hf with h | h
    · simp [h]
    · show (if _ then keep s.slots.IF else none) = none
      rw [h]
      simp
  have hr : s.dropDiscarded.advance.redirect = s.dropDiscarded.advance := by
    unfold State.redirect
    simp [State.dropDiscarded, hc]
  have ha : s.dropDiscarded.advance.fetchAt s.pc = s.fetchAt s.pc := by
    unfold State.fetchAt State.streamEnd
    simp [State.dropDiscarded]
  have e1 : s.dropDiscarded.advance.pc = s.pc := by simp [State.dropDiscarded]
  have e2 : s.dropDiscarded.advance.haltPending = false := by simpa [State.dropDiscarded] using hh
  have e3 : s.dropDiscarded.advance.fatalPending = none := by simpa [State.dropDiscarded] using hp
  show beginEntry s.dropDiscarded.advance.redirect.fetch.slots.IF = _ ∧ s.dropDiscarded.advance.redirect.fetch.pc = _
  rw [hr]
  unfold State.fetch
  rw [hI, e2, e3, e1, ha]
  cases s.fetchAt s.pc <;> simp [beginEntry, hI]

/-- A front that holds keeps Fetch's entry, and `pc` but for a redirect (R156). -/
theorem boundary_front_holds {s : State} (hh : s.dropDiscarded.slots.idHolds = true) (hf : keep s.slots.IF ≠ none) :
    s.boundary.slots.IF = beginEntry (keep s.slots.IF) ∧ (s.ctrl = .normal → s.boundary.pc = s.pc) := by
  have hI : s.dropDiscarded.advance.slots.IF = keep s.slots.IF := by
    rw [advance_IF, hh]
    rfl
  have hs : s.dropDiscarded.advance.redirect.slots.IF.isSome = true := by
    rw [redirect_slots, hI]
    exact Option.isSome_iff_ne_none.2 hf
  have hk : s.dropDiscarded.advance.redirect.fetch = s.dropDiscarded.advance.redirect := by
    unfold State.fetch
    rw [hs]
    rfl
  refine ⟨?_, fun hc => ?_⟩
  · show beginEntry s.dropDiscarded.advance.redirect.fetch.slots.IF = _
    rw [hk, redirect_slots, hI]
  · show s.dropDiscarded.advance.redirect.fetch.pc = _
    rw [hk]
    unfold State.redirect
    simp [State.dropDiscarded, hc]

theorem beginEntry_eq_some {o : Option Entry} {e : Entry} (h : beginEntry o = some e) :
    ∃ d, o = some d ∧ e = { d with done := false, ready := false } := by
  cases o with
  | none => cases h
  | some d => exact ⟨d, rfl, by simpa [beginEntry] using h.symm⟩

/-- Where the entries of a boundary come from, when fault tokens never become ready: Write-back's from Memory, Memory's from
a finished Execute, Execute's from an unfinished Execute or a ready Decode. -/
theorem boundary_entries (s : State) :
    (∀ e, s.boundary.slots.WB = some e →
      ∃ d, s.slots.MEM = some d ∧ d.discard = false ∧ e = { d with done := false, ready := false }) ∧
    (∀ e, s.boundary.slots.MEM = some e →
      ∃ d, s.slots.EX = some d ∧ d.discard = false ∧ d.done = true ∧ e = { d with done := false, ready := false }) ∧
    (∀ e, s.boundary.slots.EX = some e →
      (∃ d, s.slots.EX = some d ∧ d.discard = false ∧ d.done = false ∧ e = { d with done := false, ready := false }) ∨
      ∃ d, s.slots.ID = some d ∧ d.discard = false ∧ d.ready = true ∧
        e = { d with rem := d.latency s.cfg, done := false, ready := false }) ∧
    (∀ e, s.boundary.slots.ID = some e → e.ready = false) := by
  obtain ⟨hD, hX, hM, hW, -⟩ := boundary_slots s
  have hsl : ∃ issued, s.dropDiscarded.advance.slots = s.dropDiscarded.slots.advance issued ∧
      ∀ e, issued = some e → s.dropDiscarded.slots.exBusy = false ∧
        ∃ d, s.dropDiscarded.slots.ID = some d ∧ d.ready = true ∧ e = { d with rem := d.latency s.cfg } := by
    unfold State.advance
    split
    · rename_i d hd
      refine ⟨_, rfl, ?_⟩
      rintro e he
      injection he with he
      unfold Slots.issuing at hd
      split at hd
      · cases hd
      · rename_i hb
        split at hd
        · rename_i d' hd'
          split at hd
          · rename_i hr
            injection hd with hd
            subst hd
            exact ⟨by simpa using hb, d', hd', hr, he.symm⟩
          · cases hd
        · cases hd
    · exact ⟨none, rfl, by simp⟩
  obtain ⟨issued, hs, hi⟩ := hsl
  rw [hD, hX, hM, hW, hs]
  refine ⟨?_, ?_, ?_, ?_⟩
  · intro e he
    obtain ⟨d, hd, rfl⟩ := beginEntry_eq_some he
    obtain ⟨h1, h2⟩ := keep_eq_some.mp hd
    exact ⟨d, h1, h2, rfl⟩
  · intro e he
    obtain ⟨d, hd, rfl⟩ := beginEntry_eq_some he
    unfold Slots.advance Slots.exBusy at hd
    cases hx : s.dropDiscarded.slots.EX with
    | none => simp [hx] at hd
    | some y =>
      obtain ⟨h1, h2⟩ := keep_eq_some.mp hx
      simp only [hx] at hd
      split at hd
      · cases hd
      · rename_i hb
        injection hd with hd
        subst hd
        exact ⟨y, h1, h2, by simpa using hb, rfl⟩
  · intro e he
    obtain ⟨d, hd, rfl⟩ := beginEntry_eq_some he
    unfold Slots.advance at hd
    simp only at hd
    split at hd
    · rename_i hb
      obtain ⟨h1, h2⟩ := keep_eq_some.mp hd
      refine .inl ⟨d, h1, h2, ?_, rfl⟩
      unfold Slots.exBusy at hb
      rw [hd] at hb
      simpa using hb
    · obtain ⟨-, d', hd', hr, rfl⟩ := hi d hd
      obtain ⟨h1, h2⟩ := keep_eq_some.mp hd'
      exact .inr ⟨d', h1, h2, hr, rfl⟩
  · intro e he
    obtain ⟨d, -, rfl⟩ := beginEntry_eq_some he
    rfl

end Sys2Proof.Machine
end

