-- ==== Sys2Proof/Laws/Sound.lean ====
section
/-! SUPPORT. What each phase of a cycle keeps of a sound state (`State.Inv`), and which phase changes registers, markers and
memory. -/
namespace Sys2Proof.Machine

set_option Elab.async false

/-- The part of soundness that every phase of a cycle keeps. -/
structure State.Mid (s : State) : Prop where
  mem : s.memSound
  zero : s.zeroSound
  tokens : s.tokensSound
  operands : s.operandsSound

theorem Entry.captured_congr {e d : Entry} (h1 : d.inst = e.inst) (h2 : d.ops = e.ops) (h : e.captured) : d.captured :=
    by
  unfold Entry.captured Entry.srcs at *
  rw [h1, h2]; exact h

theorem markDiscard_some {o : Option Entry} {e : Entry} (h : markDiscard o = some e) : ∃ d, o = some d ∧ e =
    { d with discard := true } := by
  cases o with
  | none => cases h
  | some d => exact ⟨d, rfl, by simpa [markDiscard] using h.symm⟩

/-- A slot that differs by a discard mark only. -/
def Marked (o o' : Option Entry) : Prop := o' = o ∨ o' = markDiscard o

/-- An entry of a slot that differs by marks only comes from an entry that differs by its mark only. -/
theorem Marked.src {o o' : Option Entry} (h : Marked o o') {e : Entry} (he : o' = some e) : ∃ d, o = some d ∧ e.inst =
    d.inst ∧ e.ops = d.ops ∧ e.ready = d.ready ∧ e.done = d.done ∧ e.res = d.res ∧ e.sys = d.sys ∧
    (e.discard = false → e = d) := by
  rcases h with rfl | rfl
  · exact ⟨e, he, rfl, rfl, rfl, rfl, rfl, rfl, fun _ => rfl⟩
  · obtain ⟨d, hd, rfl⟩ := markDiscard_some he
    exact ⟨d, hd, rfl, rfl, rfl, rfl, rfl, rfl, fun h => by cases h⟩

theorem Marked.instr {o o' : Option Entry} (h : Marked o o') (hi : holdsInstr o) : holdsInstr o' := by
  intro e he
  obtain ⟨d, hd, h1, -⟩ := h.src he
  rw [h1]; exact hi d hd

theorem Marked.cap {o o' : Option Entry} (h : Marked o o') (hi : ∀ e, o = some e → e.captured) : ∀ e, o' = some e →
    e.captured := by
  intro e he
  obtain ⟨d, hd, h1, h2, -⟩ := h.src he
  exact Entry.captured_congr h1 h2 (hi d hd)

theorem Marked.writes {o o' : Option Entry} (h : Marked o o') (r : RegId) : writesIn o' r = writesIn o r := by
  rcases h with rfl | rfl
  · rfl
  · cases o <;> rfl

theorem tokens_of_marked {s t : State} (h : ∀ u, Marked (s.slots.get u) (t.slots.get u)) (hs : s.tokensSound) :
    t.tokensSound := by
  obtain ⟨a, b, c, d⟩ := hs
  refine ⟨(h .EX).instr a, (h .MEM).instr b, (h .WB).instr c, ?_⟩
  intro e he hr
  obtain ⟨x, hx, h1, h2, h3, -⟩ := (h .ID).src he
  rw [h1]; exact d x hx (by rw [← h3, hr])

theorem operands_of_marked {s t : State} (h : ∀ u, Marked (s.slots.get u) (t.slots.get u)) (hs : s.operandsSound) :
    t.operandsSound := by
  obtain ⟨a, b, c, d⟩ := hs
  refine ⟨(h .EX).cap a, (h .MEM).cap b, (h .WB).cap c, ?_⟩
  intro e he hr
  obtain ⟨x, hx, h1, h2, h3, -⟩ := (h .ID).src he
  exact Entry.captured_congr h1 h2 (d x hx (by rw [← h3, hr]))

theorem memSound_congr {s t : State} (h1 : t.mem = s.mem) (h2 : t.cfg = s.cfg) (h : s.memSound) : t.memSound := by
  unfold State.memSound at *; rw [h1, h2]; exact h

theorem zeroSound_congr {s t : State} (h1 : t.x = s.x) (h : s.zeroSound) : t.zeroSound := by
  unfold State.zeroSound at *; rw [h1]; exact h

theorem tokensSound_congr {s t : State} (h1 : t.slots = s.slots) (h : s.tokensSound) : t.tokensSound := by
  unfold State.tokensSound at *; rw [h1]; exact h

theorem operandsSound_congr {s t : State} (h1 : t.slots = s.slots) (h : s.operandsSound) : t.operandsSound := by
  unfold State.operandsSound at *; rw [h1]; exact h

theorem mid_of_marked {s t : State} (h : ∀ u, Marked (s.slots.get u) (t.slots.get u)) (hm : t.memSound)
    (hz : t.zeroSound) (hs : s.Mid) : t.Mid :=
  ⟨hm, hz, tokens_of_marked h hs.tokens, operands_of_marked h hs.operands⟩

theorem takeException_marked (s : State) (st : Stage) (k : ExcKind) (pc a : Word) (u : Stage) : Marked (s.slots.get u)
    ((s.takeException st k pc a).slots.get u) := by
  rw [takeException_get]; split
  · exact .inr rfl
  · exact .inl rfl

theorem takeException_mid {s : State} (st : Stage) (k : ExcKind) (pc a : Word) (hs : s.Mid) :
    (s.takeException st k pc a).Mid := by
  refine mid_of_marked (takeException_marked s st k pc a) ?_ ?_ hs
  · exact memSound_congr (by simp) (by simp) hs.mem
  · exact zeroSound_congr (by simp) hs.zero

/-! ## Replacing a slot's entry by one of the same instruction -/

theorem tokens_putEntry {s : State} {t : Stage} {e d : Entry} (hd : s.slots.get t = some d) (hi : e.inst = d.inst)
    (h : s.tokensSound)
   (hid : t = .ID → e.ready = true → ∃ i, e.inst = .instr i) : (s.putEntry t e).tokensSound := by
  obtain ⟨a, b, c, f⟩ := h
  cases t with
  | IF => exact ⟨a, b, c, f⟩
  | ID => exact ⟨a, b, c, fun x hx hr => by injection hx with hx; subst hx; exact hid rfl hr⟩
  | EX => exact ⟨fun x hx => by injection hx with hx; subst hx; rw [hi]; exact a d hd, b, c, f⟩
  | MEM => exact ⟨a, fun x hx => by injection hx with hx; subst hx; rw [hi]; exact b d hd, c, f⟩
  | WB => exact ⟨a, b, fun x hx => by injection hx with hx; subst hx; rw [hi]; exact c d hd, f⟩

theorem operands_putEntry {s : State} {t : Stage} {e d : Entry} (hd : s.slots.get t = some d) (hi : e.inst = d.inst)
    (ho : t ≠ .ID → e.ops = d.ops) (h : s.operandsSound)
   (hid : t = .ID → e.ready = true → e.captured) : (s.putEntry t e).operandsSound := by
  obtain ⟨a, b, c, f⟩ := h
  cases t with
  | IF => exact ⟨a, b, c, f⟩
  | ID => exact ⟨a, b, c, fun x hx hr => by injection hx with hx; subst hx; exact hid rfl hr⟩
  | EX => exact
      ⟨fun x hx => by injection hx with hx; subst hx; exact Entry.captured_congr hi (ho (by simp)) (a d hd), b, c, f⟩
  | MEM => exact
      ⟨a, fun x hx => by injection hx with hx; subst hx; exact Entry.captured_congr hi (ho (by simp)) (b d hd), c, f⟩
  | WB => exact
      ⟨a, b, fun x hx => by injection hx with hx; subst hx; exact Entry.captured_congr hi (ho (by simp)) (c d hd), f⟩

theorem mid_putEntry {s : State} {t : Stage} {e d : Entry} (ht : t ≠ .ID) (hd : s.slots.get t = some d)
    (hi : e.inst = d.inst) (ho : e.ops = d.ops) (h : s.Mid) : (s.putEntry t e).Mid :=
  ⟨h.mem, h.zero, tokens_putEntry hd hi h.tokens (fun h => absurd h ht), operands_putEntry hd hi (fun _ => ho) h.operands (fun h => absurd h ht)⟩

theorem afterExecute_mid {s : State} (e : Entry) (h : s.Mid) : (s.afterExecute e).Mid := by
  refine mid_of_marked (s := s) ?_ ?_ ?_ h
  · intro u
    rcases afterExecute_get s e u with h | ⟨-, h⟩
    · exact .inl h
    · exact .inr h
  · exact memSound_congr (by simp) (by simp) h.mem
  · exact zeroSound_congr (by simp) h.zero

theorem Mid.congr {s t : State} (h1 : t.mem = s.mem) (h2 : t.cfg = s.cfg) (h3 : t.x = s.x) (h4 : t.slots = s.slots)
    (h : s.Mid) : t.Mid := by
  obtain ⟨a, b, c, d⟩ := h
  refine ⟨?_, ?_, ?_, ?_⟩
  · unfold State.memSound at *; rw [h1, h2]; exact a
  · unfold State.zeroSound at *; rw [h3]; exact b
  · unfold State.tokensSound at *; rw [h4]; exact c
  · unfold State.operandsSound at *; rw [h4]; exact d

/-- An instruction of a sound pipeline keeps it so, whatever stage runs it. -/
theorem exec_mid {i : Instr} {s t : State} {e : Entry} {j : Instruction} (he : s.slots.get s.turn = some e)
    (hj : e.inst = .instr j) (hs : s.Mid) (h : exec i s = .next t) : t.Mid := by
  obtain ⟨v, a, hx, hu, ha⟩ := exec_shape i
  rw [hx] at h
  rcases runStage_turns h with rfl | ⟨e, ht, he', rfl⟩ | ⟨e, ht, he', rfl⟩ | ⟨e, ht, he', rfl⟩ | ⟨e, ht, he', rfl⟩
  · exact hs
  · have hee := Option.some.inj (he'.symm.trans (by rw [ht] at he; exact he))
    subst hee
    refine
        ⟨hs.mem, hs.zero, tokens_putEntry (d := e) he' rfl hs.tokens (fun _ _ => ⟨j, hj⟩), operands_putEntry (d := e) he' rfl (fun h => absurd rfl h) hs.operands (fun _ hr => ?_)⟩
    intro r hr'
    have hr' : r ∈ e.srcs := hr'
    have := List.all_eq_true.mp hr r hr'
    obtain ⟨v, hv⟩ := Option.isSome_iff_exists.mp this
    refine ⟨v, ?_⟩
    show valueOf r (s.operands e.srcs) = _
    rw [valueOf_operands s _ r hr', hv]
  · rcases executeStage_cases v e s with ⟨-, h⟩ | ⟨-, k, -, h⟩ | ⟨-, e', hk, h⟩ <;> rw [h]
    · exact mid_putEntry (d := e) (by simp) he' rfl rfl hs
    · exact takeException_mid _ _ _ _ hs
    · apply afterExecute_mid
      exact mid_putEntry (d := e) (by simp) he' (hu.inst _ e.unexecuted e' hk) (hu.ops _ e.unexecuted e' hk) hs
  · rcases memoryStage_cases a e s with ⟨k, h⟩ | ⟨m, r, hm, -, h⟩ <;> rw [h]
    · exact takeException_mid _ _ _ _ hs
    · have : State.Mid { s with mem := m } := by
        refine ⟨?_, hs.zero, hs.tokens, hs.operands⟩
        rcases hm with rfl | ⟨w, -, hw, rfl⟩
        · exact hs.mem
        · exact ⟨memWrite_wf _ _ _ _ _ hs.mem.1, memWrite_within _ _ _ _ _ _ hs.mem.2 hw⟩
      exact mid_putEntry (d := e) (by simp) he' rfl rfl this
  · unfold writeBackStage
    have h1 : State.Mid { s.writeRegs e.res with pend := (s.writeRegs e.res).pend.unmark e.dsts } := by
      refine ⟨?_, ?_, ?_, ?_⟩
      · exact memSound_congr (s := s) (by simp) (by simp) hs.mem
      · exact writeRegs_zero _ _ hs.zero
      · exact tokensSound_congr (s := s) (by simp) hs.tokens
      · exact operandsSound_congr (s := s) (by simp) hs.operands
    have h2 : State.Mid (State.commitCall { s.writeRegs e.res with pend := (s.writeRegs e.res).pend.unmark e.dsts } e)
        := by
      unfold State.commitCall
      split
      · exact h1
      · refine ⟨Memory.ofCells_sound _ _, ?_, h1.tokens, h1.operands⟩
        show regGet (regSet _ 0 0) 0 = 0
        simp
      · exact ⟨h1.mem, h1.zero, h1.tokens, h1.operands⟩
    refine mid_putEntry (d := e) (by simp) ?_ rfl rfl h2
    have : (State.commitCall { s.writeRegs e.res with pend := (s.writeRegs e.res).pend.unmark e.dsts } e).slots =
        s.slots := by simp
    rw [this]; exact he'

/-- Which instruction stands where does not change in a stage. -/
theorem exec_inst {i : Instr} {s t : State} (h : exec i s = .next t) (u : Stage) : (t.slots.get u).map Entry.inst =
    (s.slots.get u).map Entry.inst := by
  have mm : ∀ o : Option Entry, (markDiscard o).map Entry.inst = o.map Entry.inst := by intro o; cases o <;> rfl
  by_cases hu : u = s.turn
  · obtain ⟨v, a, hx, hus, ha⟩ := exec_shape i
    rw [hx] at h
    rcases runStage_turns h with rfl | ⟨e, ht, he', rfl⟩ | ⟨e, ht, he', rfl⟩ | ⟨e, ht, he', rfl⟩ | ⟨e, ht, he', rfl⟩
    · rfl
    · rw [hu, ht]; show some _ = Option.map _ s.slots.ID; rw [he']; rfl
    · rw [hu, ht]
      have hE : s.slots.get .EX = some e := he'
      rcases executeStage_cases v e s with ⟨-, h⟩ | ⟨-, k, -, h⟩ | ⟨-, e', hk, h⟩ <;> rw [h]
      · rw [hE]; rfl
      · rw [takeException_get]; split
        · exact mm _
        · rfl
      · rcases afterExecute_get (s.putEntry .EX { e' with done := true }) { e' with done := true } .EX with h | ⟨h0, h⟩
        · rw [h, hE]; show some e'.inst = some e.inst; rw [hus.inst _ e.unexecuted e' hk]; rfl
        · cases h0
    · rw [hu, ht]
      have hE : s.slots.get .MEM = some e := he'
      rcases memoryStage_cases a e s with ⟨k, h⟩ | ⟨m, r, hm, -, h⟩ <;> rw [h]
      · rw [takeException_get]; split
        · exact mm _
        · rfl
      · rw [hE]; rfl
    · rw [hu, ht]; show some _ = Option.map _ s.slots.WB; rw [he']; rfl
  · rcases exec_slot_other h u hu with h | h <;> rw [h]
    exact mm _

theorem writes_of_inst {o o' : Option Entry} (h : o'.map Entry.inst = o.map Entry.inst) (r : RegId) : writesIn o' r =
    writesIn o r := by
  cases o <;> cases o' <;> simp at h
  · rfl
  · simp [writesIn, Entry.dsts, h]

theorem exec_pend {i : Instr} {s t : State} (ht : s.turn ≠ .WB) (h : exec i s = .next t) : t.pend = s.pend := by
  obtain ⟨v, a, hx, hus, ha⟩ := exec_shape i
  rw [hx] at h
  rcases runStage_turns h with rfl | ⟨e, ht', he', rfl⟩ | ⟨e, ht', he', rfl⟩ | ⟨e, ht', he', rfl⟩ | ⟨e, ht', he', rfl⟩
      <;> try simp
  · exact absurd ht' ht

theorem turn_pend {t : Stage} {s u : State} (ht : t ≠ .WB) (h : stageTurn t s = .next u) : u.pend = s.pend := by
  rcases stageTurn_cases h with ⟨rfl, -⟩ | ⟨e, i, h1, -, h2, hx⟩ | ⟨e, k, a, -, -, -, -, rfl⟩
  · rfl
  · exact exec_pend (s := { s with turn := t }) ht hx
  · simp

/-- A turn changes no instruction of any slot. -/
theorem turn_writes {t : Stage} {s u : State} (h : stageTurn t s = .next u) (st : Stage) (r : RegId) : writesIn
    (u.slots.get st) r = writesIn (s.slots.get st) r := by
  rcases stageTurn_cases h with ⟨rfl, -⟩ | ⟨e, i, h1, -, h2, hx⟩ | ⟨e, k, a, -, -, -, -, rfl⟩
  · rfl
  · exact writes_of_inst (exec_inst hx st) r
  · exact (takeException_marked s _ k a a st).writes r

/-- Write-back takes its entry off the markers (R160). -/
theorem turn_wb_pend {s u : State} (h : stageTurn .WB s = .next u) (hd : ∀ e, s.slots.WB = some e → e.discard = false)
    (hi : holdsInstr s.slots.WB) (r : RegId) : u.pend.get r = s.pend.get r - writesIn s.slots.WB r := by
  rcases stageTurn_cases h with ⟨rfl, hn⟩ | ⟨e, i, h1, -, h2, hx⟩ | ⟨e, k, a, -, -, -, hh, -⟩
  · cases hw : u.slots.WB with
    | none => rfl
    | some e =>
      obtain ⟨-, k, a, hk⟩ := hn e hw (hd e hw)
      obtain ⟨i, hi⟩ := hi e hw
      rw [hi] at hk; cases hk
  · obtain ⟨v, a, hx', -, -⟩ := exec_shape i.op
    rw [hx', runStage_at (e := e) h1] at hx
    injection hx with hx
    subst hx
    have hw : s.slots.WB = some e := h1
    rw [hw]
    show PendingMarks.get (writeBackStage e _).pend r = _
    have : (writeBackStage e { s with turn := .WB }).pend = s.pend.unmark e.dsts := by simp [writeBackStage]
    rw [this, get_unmark]; rfl
  · cases hh.1

/-- A turn leaves the other slots, but for marks. -/
theorem turn_other {t : Stage} {s u : State} (h : stageTurn t s = .next u) (st : Stage) (hst : st ≠ t) : Marked
    (s.slots.get st) (u.slots.get st) := by
  rcases stageTurn_cases h with ⟨rfl, -⟩ | ⟨e, i, h1, -, h2, hx⟩ | ⟨e, k, a, -, -, -, -, rfl⟩
  · exact .inl rfl
  · exact exec_slot_other (s := { s with turn := t }) hx st hst
  · exact takeException_marked s _ k a a st

/-- What Execute has left for Memory. -/
def Ran (o : Option Entry) : Prop := ∀ e, o = some e → e.named ∧ (e.isLoad = false → e.delivered)

/-- Nothing has run yet. -/
def Unrun (o : Option Entry) : Prop := ∀ e, o = some e → e.done = false

/-- What Memory leaves. -/
def MemOk (o : Option Entry) : Prop := ∀ e, o = some e → e.discard = false → e.done = true ∧ e.named ∧ e.delivered

/-- What Execute leaves. -/
def ExOk (o : Option Entry) : Prop := ∀ e, o = some e → e.done = true → e.named ∧ (e.isLoad = false → e.delivered)

theorem named_congr {e d : Entry} (h1 : e.inst = d.inst) (h2 : e.res = d.res) (h : d.named) : e.named := by
  unfold Entry.named Entry.dsts at *; rw [h1, h2]; exact h

theorem delivered_congr {e d : Entry} (h1 : e.inst = d.inst) (h2 : e.res = d.res) (h : d.delivered) : e.delivered := by
  unfold Entry.delivered Entry.dsts at *; rw [h1, h2]; exact h

theorem isLoad_congr {e d : Entry} (h1 : e.inst = d.inst) : e.isLoad = d.isLoad := by
  unfold Entry.isLoad; rw [h1]

theorem Ran.marked {o o' : Option Entry} (m : Marked o o') (h : Ran o) : Ran o' := by
  intro e he
  obtain ⟨d, hd, h1, h2, h3, h4, h5, -⟩ := m.src he
  exact
      ⟨named_congr h1 h5 (h d hd).1, fun hl => delivered_congr h1 h5 ((h d hd).2 (by rw [← isLoad_congr h1]; exact hl))⟩

theorem Unrun.marked {o o' : Option Entry} (m : Marked o o') (h : Unrun o) : Unrun o' := by
  intro e he
  obtain ⟨d, hd, h1, h2, h3, h4, h5, -⟩ := m.src he
  rw [h4]; exact h d hd

theorem MemOk.marked {o o' : Option Entry} (m : Marked o o') (h : MemOk o) : MemOk o' := by
  intro e he hd
  obtain ⟨d, hd', h1, h2, h3, h4, h5, -, h6⟩ := m.src he
  have hed := h6 hd
  subst hed; exact h e hd' hd

theorem ExOk.marked {o o' : Option Entry} (m : Marked o o') (h : ExOk o) : ExOk o' := by
  intro e he hdn
  obtain ⟨d, hd, h1, h2, h3, h4, h5, -⟩ := m.src he
  have := h d hd (by rw [← h4, hdn])
  exact ⟨named_congr h1 h5 this.1, fun hl => delivered_congr h1 h5 (this.2 (by rw [← isLoad_congr h1]; exact hl))⟩

/-- After Memory, an entry that is not discarded there has completed with all its results (R162). -/
theorem turn_mem {s u : State} (h : stageTurn .MEM s = .next u) (hi : holdsInstr s.slots.MEM) (hr : Ran s.slots.MEM) :
    MemOk u.slots.MEM := by
  rcases stageTurn_cases h with ⟨rfl, hn⟩ | ⟨e, i, h1, -, h2, hx⟩ | ⟨e, k, a, -, -, -, hh, -⟩
  · intro e he hd
    obtain ⟨-, k, a, hk⟩ := hn e he hd
    obtain ⟨i, hi⟩ := hi e he
    rw [hi] at hk; cases hk
  · obtain ⟨v, a, hx', -, ha⟩ := exec_shape i.op
    rw [hx', runStage_at (e := e) h1] at hx
    injection hx with hx
    subst hx
    have hw : s.slots.MEM = some e := h1
    show MemOk (memoryStage a e _).slots.MEM
    obtain ⟨hrn, hrd⟩ := hr e hw
    rcases memoryStage_cases a e { s with turn := .MEM } with ⟨k, h⟩ | ⟨m, r, hm, hres, h⟩ <;> rw [h]
    · intro x hx hd
      have := takeException_get { s with turn := .MEM } .MEM k e.pc e.ea .MEM
      have hx' : (({ s with turn := .MEM } : State).takeException .MEM k e.pc e.ea).slots.get .MEM = some x := hx
      rw [this] at hx'
      simp [Stage.upTo] at hx'
      obtain ⟨d, -, rfl⟩ := markDiscard_some hx'
      cases hd
    · intro x hx hd
      injection hx with hx
      subst hx
      refine ⟨rfl, ?_⟩
      rcases hres with ⟨rfl, hnl⟩ | ⟨w, ext, dst, v, rfl, rfl⟩
      · refine ⟨hrn, ?_⟩
        have : e.isLoad = false := by
          unfold Entry.isLoad; rw [h2]
          cases ha with
          | none hl hs => simpa using hl
          | load w ext dst => exact absurd rfl (hnl w ext dst)
          | store w hk => simp [hk]
        exact hrd this
      · cases ha with
        | load _ _ _ hk hf ho hdd =>
          refine ⟨⟨by simp, ?_, by simp [hf]⟩, ?_⟩
          · simp [Entry.dsts, h2]; exact ho
          · intro r hr
            have : r ∈ i.op.dsts := by simpa [Entry.dsts, h2] using hr
            rw [hdd r this]
            exact ⟨v, by simp [valueOf_cons]⟩
  · cases hh.1

/-- After Execute, a completed entry has its results (R164). -/
theorem turn_ex {s u : State} (h : stageTurn .EX s = .next u) (hi : holdsInstr s.slots.EX) (hr : Unrun s.slots.EX) :
    ExOk u.slots.EX := by
  rcases stageTurn_cases h with ⟨rfl, hn⟩ | ⟨e, i, h1, -, h2, hx⟩ | ⟨e, k, a, -, -, -, hh, -⟩
  · intro e he hd
    rw [hr e he] at hd; cases hd
  · obtain ⟨v, a, hx', hu, ha⟩ := exec_shape i.op
    rw [hx', runStage_at (e := e) h1] at hx
    injection hx with hx
    subst hx
    have hw : s.slots.EX = some e := h1
    show ExOk (executeStage v e _).slots.EX
    rcases executeStage_cases v e { s with turn := .EX } with ⟨-, h⟩ | ⟨-, k, -, h⟩ | ⟨-, e', hk, h⟩ <;> rw [h]
    · intro x hx hd
      injection hx with hx; subst hx
      rw [show ({ e with rem := e.rem - 1 } : Entry).done = e.done from rfl, hr e hw] at hd; cases hd
    · intro x hx hd
      have := takeException_get { s with turn := .EX } .EX k e.pc e.pc .EX
      have hx' : (({ s with turn := .EX } : State).takeException .EX k e.pc e.pc).slots.get .EX = some x := hx
      rw [this] at hx'
      simp [Stage.upTo] at hx'
      obtain ⟨d, hd', rfl⟩ := markDiscard_some hx'
      rw [h1] at hd'; injection hd' with hd'; subst hd'
      rw [show ({ e with discard := true } : Entry).done = e.done from rfl, hr e hw] at hd; cases hd
    · intro x hx hd
      have hxx : x = { e' with done := true } := by
        rcases afterExecute_get (State.putEntry { s with turn := .EX } .EX { e' with done := true })
            { e' with done := true } .EX with h | ⟨h0, -⟩
        · have hx :
            ((State.putEntry { s with turn := .EX } .EX { e' with done := true }).afterExecute { e' with done := true }).slots.get
            .EX = some x := hx
          rw [h] at hx; injection hx with hx; exact hx.symm
        · cases h0
      subst hxx
      have hin : e'.inst = e.inst := hu.inst _ e.unexecuted e' hk
      have hds : ({ e' with done := true } : Entry).dsts = i.op.dsts := by simp [Entry.dsts, hin, h2]
      have hres := hu.results _ e.unexecuted e' rfl hk
      refine ⟨⟨hres.once, ?_, hres.bit⟩, ?_⟩
      · rw [hds]; exact hres.own
      · intro hl
        unfold Entry.delivered; rw [hds]
        refine hu.deliver _ e.unexecuted e' ?_ hk
        simpa [Entry.isLoad, hin, h2] using hl
  · cases hh.1

/-- The boundary of a sound state is sound in mid-cycle. -/
theorem boundary_mid {s : State} (h : s.Inv) : s.boundary.Mid := by
  obtain ⟨hW, hM, hX, hD⟩ := boundary_entries s
  obtain ⟨tx, tm, tw, td⟩ := h.tokens
  obtain ⟨ox, om, ow, od⟩ := h.operands
  refine
      ⟨memSound_congr (by simp [State.boundary]) (by simp [State.boundary]) h.mem, zeroSound_congr (by simp [State.boundary]) h.zero, ⟨?_, ?_, ?_, ?_⟩, ⟨?_, ?_, ?_, ?_⟩⟩
  · intro e he
    rcases hX e he with ⟨d, hd, -, -, rfl⟩ | ⟨d, hd, -, hr, rfl⟩
    · exact tx d hd
    · exact td d hd hr
  · intro e he
    obtain ⟨d, hd, -, -, rfl⟩ := hM e he
    exact tx d hd
  · intro e he
    obtain ⟨d, hd, -, rfl⟩ := hW e he
    exact tm d hd
  · intro e he hr; rw [hD e he] at hr; cases hr
  · intro e he
    rcases hX e he with ⟨d, hd, -, -, rfl⟩ | ⟨d, hd, -, hr, rfl⟩
    · exact Entry.captured_congr (e := d) rfl rfl (ox d hd)
    · exact Entry.captured_congr (e := d) rfl rfl (od d hd hr)
  · intro e he
    obtain ⟨d, hd, -, -, rfl⟩ := hM e he
    exact Entry.captured_congr (e := d) rfl rfl (ox d hd)
  · intro e he
    obtain ⟨d, hd, -, rfl⟩ := hW e he
    exact Entry.captured_congr (e := d) rfl rfl (om d hd)
  · intro e he hr; rw [hD e he] at hr; cases hr

theorem writes_keep (o : Option Entry) (r : RegId) : writesIn (keep o) r + (discardedDsts o).count r = writesIn o r :=
    by
  cases o with
  | none => rfl
  | some e => cases hd : e.discard <;> simp [keep, discardedDsts, writesIn, hd]

theorem writes_begin (o : Option Entry) (r : RegId) : writesIn (beginEntry o) r = writesIn o r := by cases o <;> rfl

/-- After the boundary the markers count Write-back, Execute and Memory. -/
theorem boundary_marks {s : State} (h : s.marksSound) (r : RegId) : s.boundary.pend.get r = writesIn s.boundary.slots.WB
    r + writesIn s.boundary.slots.EX r + writesIn s.boundary.slots.MEM r := by
  obtain ⟨hD, hX, hM, hW, hP⟩ := boundary_slots s
  rw [hX, hM, hW, hP, writes_begin, writes_begin, writes_begin]
  have h0 := h r
  have hp : s.dropDiscarded.pend.get r = writesIn s.dropDiscarded.slots.EX r + writesIn s.dropDiscarded.slots.MEM r :=
      by
    show PendingMarks.get ((s.pend.unmark (discardedDsts s.slots.EX)).unmark (discardedDsts s.slots.MEM)) r = writesIn
        (keep _) r + writesIn (keep _) r
    rw [get_unmark, get_unmark, h0]
    have := writes_keep s.slots.EX r
    have := writes_keep s.slots.MEM r
    omega
  unfold State.advance
  split
  · rename_i d hd
    have hb : s.dropDiscarded.slots.exBusy = false := by
      unfold Slots.issuing at hd; split at hd
      · cases hd
      · rename_i h; simpa using h
    simp only [Slots.advance, hb]
    rw [get_mark, hp]
    simp [writesIn]
    simp [Entry.dsts]
    omega
  · simp only [Slots.advance]
    rw [hp]
    cases hb : s.dropDiscarded.slots.exBusy <;> simp [writesIn]
    · omega
    · omega

/-- After the boundary nothing has run in Execute, Memory has what Execute left, and Write-back is not discarded. -/
theorem boundary_runs {s : State} (h : s.Inv) : Unrun s.boundary.slots.EX ∧ Ran s.boundary.slots.MEM ∧
    (∀ e, s.boundary.slots.WB = some e → e.discard = false) := by
  obtain ⟨hW, hM, hX, hD⟩ := boundary_entries s
  refine ⟨?_, ?_, ?_⟩
  · intro e he
    rcases hX e he with ⟨d, hd, -, -, rfl⟩ | ⟨d, hd, -, hr, rfl⟩ <;> rfl
  · intro e he
    obtain ⟨d, hd, -, hdn, rfl⟩ := hM e he
    exact h.results.1 d hd hdn
  · intro e he
    obtain ⟨d, hd, hdn, rfl⟩ := hW e he
    exact hdn

/-- A turn keeps the mid-cycle soundness. -/
theorem stageTurn_mid {t : Stage} {s u : State} (hs : s.Mid) (h : stageTurn t s = .next u) : u.Mid := by
  rcases stageTurn_cases h with ⟨rfl, -⟩ | ⟨e, i, h1, -, h2, hx⟩ | ⟨e, k, a, -, -, -, -, rfl⟩
  · exact hs
  · exact exec_mid (e := e) (j := i) h1 h2 (Mid.congr (s := s) (t := { s with turn := t }) rfl rfl rfl rfl hs) hx
  · exact takeException_mid _ _ _ _ hs

theorem readReg_congr {s t : State} (h1 : t.x = s.x) (h2 : t.f = s.f) (h3 : t.HI = s.HI) (h4 : t.LO = s.LO)
    (h5 : t.FCC = s.FCC) (r : RegId) : t.readReg r = s.readReg r := by
  cases r <;> simp [State.readReg, *]

theorem exec_regs {i : Instr} {s t : State} (ht : s.turn ≠ .WB) (h : exec i s = .next t) (r : RegId) : t.readReg r =
    s.readReg r := by
  obtain ⟨v, a, hx, hus, ha⟩ := exec_shape i
  rw [hx] at h
  rcases runStage_turns h with rfl | ⟨e, ht', he', rfl⟩ | ⟨e, ht', he', rfl⟩ | ⟨e, ht', he', rfl⟩ | ⟨e, ht', he', rfl⟩
  · rfl
  · exact readReg_congr (by simp) (by simp) (by simp) (by simp) (by simp) r
  · exact readReg_congr (by simp) (by simp) (by simp) (by simp) (by simp) r
  · exact readReg_congr (by simp) (by simp) (by simp) (by simp) (by simp) r
  · exact absurd ht' ht

/-- Only Write-back changes registers (R33). -/
theorem turn_regs {t : Stage} {s u : State} (ht : t ≠ .WB) (h : stageTurn t s = .next u) (r : RegId) : u.readReg r =
    s.readReg r := by
  rcases stageTurn_cases h with ⟨rfl, -⟩ | ⟨e, i, h1, -, h2, hx⟩ | ⟨e, k, a, -, -, -, -, rfl⟩
  · rfl
  · exact (exec_regs (s := { s with turn := t }) ht hx r).trans (readReg_congr rfl rfl rfl rfl rfl r)
  · exact readReg_congr (by simp) (by simp) (by simp) (by simp) (by simp) r

/-- Write-back's results name destinations of its instruction. -/
theorem boundary_named {s : State} (h : s.Inv) (e : Entry) (he : s.boundary.slots.WB = some e) : e.named := by
  obtain ⟨d, hd, hdn, rfl⟩ := (boundary_entries s).1 e he
  exact (h.results.2 d hd hdn).2.1

theorem exec_mem {i : Instr} {s t : State} (ht : s.turn = .EX ∨ s.turn = .ID) (h : exec i s = .next t) : t.mem = s.mem
    := by
  obtain ⟨v, a, hx, hus, ha⟩ := exec_shape i
  rw [hx] at h
  rcases runStage_turns h with rfl | ⟨e, ht', he', rfl⟩ | ⟨e, ht', he', rfl⟩ | ⟨e, ht', he', rfl⟩ | ⟨e, ht', he', rfl⟩
  · rfl
  · simp
  · simp
  · rw [ht'] at ht; simp at ht
  · rw [ht'] at ht; simp at ht

/-- Execute and Decode change no byte. -/
theorem turn_memory {t : Stage} {s u : State} (ht : t = .EX ∨ t = .ID) (h : stageTurn t s = .next u) : u.mem = s.mem :=
    by
  rcases stageTurn_cases h with ⟨rfl, -⟩ | ⟨e, i, h1, -, h2, hx⟩ | ⟨e, k, a, -, -, -, -, rfl⟩
  · rfl
  · exact exec_mem (s := { s with turn := t }) ht hx
  · simp

/-- A store is one of five, each with its width (R72). -/
theorem store_width (i : Instr) (hk : i.kind = .store) : ∃ w : Width,
    (∃ u, ∀ s, exec i s = runStage u (.store w) s) ∧ (i.mnemonic, w.bytes) ∈
    [(Mnemonic.SB, 1), (.SH, 2), (.SW, 4), (.SD, 8), (.SDC1, 8)] := by
  cases i <;> try (cases hk; done)
  · exact ⟨.byte, ⟨_, fun _ => rfl⟩, by simp [Instr.mnemonic, Width.bytes]⟩
  · exact ⟨.half, ⟨_, fun _ => rfl⟩, by simp [Instr.mnemonic, Width.bytes]⟩
  · exact ⟨.word, ⟨_, fun _ => rfl⟩, by simp [Instr.mnemonic, Width.bytes]⟩
  · exact ⟨.double, ⟨_, fun _ => rfl⟩, by simp [Instr.mnemonic, Width.bytes]⟩
  · exact ⟨.double, ⟨_, fun _ => rfl⟩, by simp [Instr.mnemonic, Width.bytes]⟩

end Sys2Proof.Machine
end

