-- ==== Sys2Proof/Tests/Slice0.lean ====
section
/-! SUPPORT. Tests: the check of `wellFormed`; one word of every row of the opcode table, written out field by field from
30_encoding.md R105 to R108 and the table, decoded; one stage of one instruction, with the inputs and results of
95_test_vectors.md (the vector is named beside each); a few single steps; and for every statement with hypotheses a named
witness that meets them, at the edge of each clause. -/
namespace Sys2Proof.Tests

open Sys2Proof Sys2Proof.Machine Sys2Proof.Claims

set_option Elab.async false

/-! ## Well-formed instructions -/

theorem test_wellFormed_refuses_sll_of_the_nop_word : (Instr.sll 0 0 0).wellFormed = false := by decide

theorem test_wellFormed_accepts : (Instr.sll 0 0 1).wellFormed = true ∧ (Instr.sll 0 1 0).wellFormed = true ∧
    (Instr.sll 1 0 0).wellFormed = true ∧ Instr.nop.wellFormed = true := by decide

/-! ## Decoding, one word of every row -/

theorem test_decode_integer_1 :
    decodeWord 0b000000_10001_01010_00011_00000_100000 = .ok (.add 3 17 10) ∧
    decodeWord 0b000000_10001_01010_00011_00000_100001 = .ok (.addu 3 17 10) ∧
    decodeWord 0b000000_10001_01010_00011_00000_100010 = .ok (.sub 3 17 10) ∧
    decodeWord 0b000000_10001_01010_00011_00000_100011 = .ok (.subu 3 17 10) ∧
    decodeWord 0b000000_10001_01010_00011_00000_101100 = .ok (.dadd 3 17 10) ∧
    decodeWord 0b000000_10001_01010_00011_00000_101101 = .ok (.daddu 3 17 10) ∧
    decodeWord 0b000000_10001_01010_00011_00000_101110 = .ok (.dsub 3 17 10) ∧
    decodeWord 0b000000_10001_01010_00011_00000_101111 = .ok (.dsubu 3 17 10) ∧
    decodeWord 0b001000_10001_01010_1000000000000011 = .ok (.addi 10 17 0x8003) ∧
    decodeWord 0b001001_10001_01010_1000000000000011 = .ok (.addiu 10 17 0x8003) ∧
    decodeWord 0b011000_10001_01010_1000000000000011 = .ok (.daddi 10 17 0x8003) ∧
    decodeWord 0b011001_10001_01010_1000000000000011 = .ok (.daddiu 10 17 0x8003) := by decide

theorem test_decode_integer_2 :
    decodeWord 0b000000_10001_01010_00011_00000_101010 = .ok (.slt 3 17 10) ∧
    decodeWord 0b000000_10001_01010_00011_00000_101011 = .ok (.sltu 3 17 10) ∧
    decodeWord 0b001010_10001_01010_1000000000000011 = .ok (.slti 10 17 0x8003) ∧
    decodeWord 0b001011_10001_01010_1000000000000011 = .ok (.sltiu 10 17 0x8003) ∧
    decodeWord 0b000000_10001_01010_00000_00000_011000 = .ok (.mult 17 10) ∧
    decodeWord 0b000000_10001_01010_00000_00000_011001 = .ok (.multu 17 10) ∧
    decodeWord 0b000000_10001_01010_00000_00000_011100 = .ok (.dmult 17 10) ∧
    decodeWord 0b000000_10001_01010_00000_00000_011101 = .ok (.dmultu 17 10) ∧
    decodeWord 0b000000_10001_01010_00000_00000_011010 = .ok (.div 17 10) ∧
    decodeWord 0b000000_10001_01010_00000_00000_011011 = .ok (.divu 17 10) ∧
    decodeWord 0b000000_10001_01010_00000_00000_011110 = .ok (.ddiv 17 10) ∧
    decodeWord 0b000000_10001_01010_00000_00000_011111 = .ok (.ddivu 17 10) := by decide

theorem test_decode_integer_3 :
    decodeWord 0b000000_00000_00000_00011_00000_010000 = .ok (.mfhi 3) ∧
    decodeWord 0b000000_00000_00000_00011_00000_010010 = .ok (.mflo 3) := by decide

theorem test_decode_logical_and_shift_1 :
    decodeWord 0b000000_00000_00000_00000_00000_000000 = .ok .nop ∧
    decodeWord 0b000000_10001_01010_00011_00000_100100 = .ok (.and 3 17 10) ∧
    decodeWord 0b000000_10001_01010_00011_00000_100101 = .ok (.or 3 17 10) ∧
    decodeWord 0b000000_10001_01010_00011_00000_100110 = .ok (.xor 3 17 10) ∧
    decodeWord 0b000000_10001_01010_00011_00000_100111 = .ok (.nor 3 17 10) ∧
    decodeWord 0b001100_10001_01010_1000000000000011 = .ok (.andi 10 17 0x8003) ∧
    decodeWord 0b001101_10001_01010_1000000000000011 = .ok (.ori 10 17 0x8003) ∧
    decodeWord 0b001110_10001_01010_1000000000000011 = .ok (.xori 10 17 0x8003) ∧
    decodeWord 0b001111_00000_01010_1000000000000011 = .ok (.lui 10 0x8003) ∧
    decodeWord 0b000000_10001_01010_00011_00000_001010 = .ok (.movz 3 17 10) ∧
    decodeWord 0b000000_10001_01010_00011_00000_001011 = .ok (.movn 3 17 10) ∧
    decodeWord 0b000000_00000_01010_00011_10101_000000 = .ok (.sll 3 10 21) := by decide

theorem test_decode_logical_and_shift_2 :
    decodeWord 0b000000_00000_01010_00011_10101_000010 = .ok (.srl 3 10 21) ∧
    decodeWord 0b000000_00000_01010_00011_10101_000011 = .ok (.sra 3 10 21) ∧
    decodeWord 0b000000_10001_01010_00011_00000_000100 = .ok (.sllv 3 10 17) ∧
    decodeWord 0b000000_10001_01010_00011_00000_000110 = .ok (.srlv 3 10 17) ∧
    decodeWord 0b000000_10001_01010_00011_00000_000111 = .ok (.srav 3 10 17) ∧
    decodeWord 0b000000_00000_01010_00011_10101_111000 = .ok (.dsll 3 10 21) ∧
    decodeWord 0b000000_00000_01010_00011_10101_111010 = .ok (.dsrl 3 10 21) ∧
    decodeWord 0b000000_00000_01010_00011_10101_111011 = .ok (.dsra 3 10 21) ∧
    decodeWord 0b000000_00000_01010_00011_10101_111100 = .ok (.dsll32 3 10 21) ∧
    decodeWord 0b000000_00000_01010_00011_10101_111110 = .ok (.dsrl32 3 10 21) ∧
    decodeWord 0b000000_00000_01010_00011_10101_111111 = .ok (.dsra32 3 10 21) ∧
    decodeWord 0b000000_10001_01010_00011_00000_010100 = .ok (.dsllv 3 10 17) := by decide

theorem test_decode_logical_and_shift_3 :
    decodeWord 0b000000_10001_01010_00011_00000_010110 = .ok (.dsrlv 3 10 17) ∧
    decodeWord 0b000000_10001_01010_00011_00000_010111 = .ok (.dsrav 3 10 17) := by decide

theorem test_decode_load_store_1 :
    decodeWord 0b100000_10001_01010_1000000000000011 = .ok (.lb 10 17 0x8003) ∧
    decodeWord 0b100100_10001_01010_1000000000000011 = .ok (.lbu 10 17 0x8003) ∧
    decodeWord 0b100001_10001_01010_1000000000000011 = .ok (.lh 10 17 0x8003) ∧
    decodeWord 0b100101_10001_01010_1000000000000011 = .ok (.lhu 10 17 0x8003) ∧
    decodeWord 0b100011_10001_01010_1000000000000011 = .ok (.lw 10 17 0x8003) ∧
    decodeWord 0b100111_10001_01010_1000000000000011 = .ok (.lwu 10 17 0x8003) ∧
    decodeWord 0b110111_10001_01010_1000000000000011 = .ok (.ld 10 17 0x8003) ∧
    decodeWord 0b110101_10001_10010_1000000000000011 = .ok (.ldc1 18 17 0x8003) ∧
    decodeWord 0b101000_10001_01010_1000000000000011 = .ok (.sb 10 17 0x8003) ∧
    decodeWord 0b101001_10001_01010_1000000000000011 = .ok (.sh 10 17 0x8003) ∧
    decodeWord 0b101011_10001_01010_1000000000000011 = .ok (.sw 10 17 0x8003) ∧
    decodeWord 0b111111_10001_01010_1000000000000011 = .ok (.sd 10 17 0x8003) := by decide

theorem test_decode_load_store_2 :
    decodeWord 0b111101_10001_10010_1000000000000011 = .ok (.sdc1 18 17 0x8003) := by decide

theorem test_decode_control_transfer :
    decodeWord 0b000100_10001_01010_1000000000000011 = .ok (.beq 17 10 0x8003) ∧
    decodeWord 0b000101_10001_01010_1000000000000011 = .ok (.bne 17 10 0x8003) ∧
    decodeWord 0b000110_10001_00000_1000000000000011 = .ok (.blez 17 0x8003) ∧
    decodeWord 0b000111_10001_00000_1000000000000011 = .ok (.bgtz 17 0x8003) ∧
    decodeWord 0b000001_10001_00000_1000000000000011 = .ok (.bltz 17 0x8003) ∧
    decodeWord 0b000001_10001_00001_1000000000000011 = .ok (.bgez 17 0x8003) ∧
    decodeWord 0b010001_01000_00000_1000000000000011 = .ok (.bc1f 0x8003) ∧
    decodeWord 0b010001_01000_00001_1000000000000011 = .ok (.bc1t 0x8003) ∧
    decodeWord 0b000010_10000000000000000010000001 = .ok (.j 0x2000081) ∧
    decodeWord 0b000011_10000000000000000010000001 = .ok (.jal 0x2000081) ∧
    decodeWord 0b000000_10001_00000_00000_00000_001000 = .ok (.jr 17) ∧
    decodeWord 0b000000_10001_00000_00011_00000_001001 = .ok (.jalr 3 17) := by decide

theorem test_decode_floating_point :
    decodeWord 0b010001_10001_10010_01100_00101_000000 = .ok (.addD 5 12 18) ∧
    decodeWord 0b010001_10001_10010_01100_00101_000001 = .ok (.subD 5 12 18) ∧
    decodeWord 0b010001_10001_10010_01100_00101_000010 = .ok (.mulD 5 12 18) ∧
    decodeWord 0b010001_10001_10010_01100_00101_000011 = .ok (.divD 5 12 18) ∧
    decodeWord 0b010001_10001_00000_01100_00101_000110 = .ok (.movD 5 12) ∧
    decodeWord 0b010001_10101_00000_01100_00101_100001 = .ok (.cvtDL 5 12) ∧
    decodeWord 0b010001_10001_00000_01100_00101_100101 = .ok (.cvtLD 5 12) ∧
    decodeWord 0b010001_10001_10010_01100_00000_110010 = .ok (.cEqD 12 18) ∧
    decodeWord 0b010001_10001_10010_01100_00000_111100 = .ok (.cLtD 12 18) ∧
    decodeWord 0b010001_00001_01010_01100_00000_000000 = .ok (.dmfc1 10 12) ∧
    decodeWord 0b010001_00101_01010_01100_00000_000000 = .ok (.dmtc1 10 12) := by decide

theorem test_decode_system :
    decodeWord 0b000000_10000000000000000101_001100 = .ok (.syscall 0x80005) ∧
    decodeWord 0b000000_10000000000000000101_001101 = .ok (.brk 0x80005) := by decide

/-- V-ENC-3, V-ENC-4, V-ENC-5, V-ENC-7. -/
theorem test_decode_refuses :
    decodeWord 0x00221860 = .error .invalidInstruction ∧ decodeWord 0x00000001 = .error .invalidInstruction ∧
    decodeWord 0x7C000000 = .error .invalidInstruction ∧ decodeWord 0x45050000 = .error .invalidInstruction := by decide

/-- The encodings of E5, E6 and 46_system.md's programs. -/
theorem test_encode :
    encode (.add 3 1 2) = 0x00221820 ∧ encode (.ld 4 1 0) = 0xDC240000 ∧ encode (.daddi 5 4 1) = 0x60850001 ∧
    encode (.syscall 0) = 0x0000000C ∧ encode .nop = 0 := by decide

/-! ## One stage of one instruction -/

/-- `x[i]`. -/
def x (i : RegNum) : RegId := .gpr i

/-- `f[i]`. -/
def f (i : RegNum) : RegId := .fpr i

/-- The instruction of a word; the words below all decode. -/
def decoded (w : Word32) : Instr :=
  match decodeWord w with
  | .ok i => i
  | .error _ => .nop

/-- A fresh engine whose entry in slot `t` is the instruction of `w`. -/
def holding (t : Stage) (e : Entry) (cfg : Config := {}) : State :=
  { State.reset with cfg := cfg, turn := t, slots := ({} : Slots).put t (some e) }

/-- What Execute makes of a word with these captured operands: results, flush, exception. -/
def run (w : Word32) (ops : List (RegId × Word)) (cfg : Config := {}) (pc : Word := 0) :
    List (RegId × Word) × Option FlushReport × Option ExcKind :=
  match exec (decoded w) (holding .EX { inst := .instr ⟨decoded w, pc, w⟩, ops := ops, rem := 1 } cfg) with
  | .next t => (match t.slots.EX with
      | some e => e.res
      | none => [], t.report.flush, t.report.fault.map FaultReport.kind)
  | _ => ([], none, none)

/-- Execute has completed with these results. -/
def gives (res : List (RegId × Word)) : List (RegId × Word) × Option FlushReport × Option ExcKind := (res, none, none)

/-- Execute has completed with these results and a transfer. -/
def goes (target : Word) (res : List (RegId × Word)) : List (RegId × Word) × Option FlushReport × Option ExcKind :=
  (res, some ⟨2, some target⟩, none)

/-- Execute has raised an exception. -/
def raises (k : ExcKind) : List (RegId × Word) × Option FlushReport × Option ExcKind := ([], none, some k)

/-- What Memory makes of a word with this address and data: results, memory, exception. -/
def access (w : Word32) (ea sval : Word) (mem : Memory) (cfg : Config := {}) :
    List (RegId × Word) × Memory × Option ExcKind :=
  match exec (decoded w) { holding .MEM { inst := .instr ⟨decoded w, 0, w⟩, ea := ea, sval := sval } cfg with mem := mem } with
  | .next t => (match t.slots.MEM with
      | some e => e.res
      | none => [], t.mem, t.report.fault.map FaultReport.kind)
  | _ => ([], [], none)

/-- The bytes 0x80 to 0x87 at addresses 0 to 7 (95_test_vectors.md 2.2). -/
def bytes8 : Memory := [(0, 0x80), (1, 0x81), (2, 0x82), (3, 0x83), (4, 0x84), (5, 0x85), (6, 0x86), (7, 0x87)]

/-- The default configuration with one more checked mnemonic. -/
def checking (m : Mnemonic) : Config := { checked := m :: ({} : Config).checked }

/-- V-IA-4. -/
theorem test_add : run 0x00221820 [(x 1, 0x100000005), (x 2, 1)] = gives [(x 3, 6)] := by decide +kernel

/-- V-IA-2. -/
theorem test_add_overflow : run 0x00221820 [(x 1, 0x7FFFFFFF), (x 2, 1)] = raises .overflow := by decide +kernel

/-- V-IA-3. -/
theorem test_addu : run 0x00221821 [(x 1, 0x7FFFFFFF), (x 2, 1)] = gives [(x 3, 0xFFFFFFFF80000000)] := by decide +kernel

/-- V-IA-42: the set decides, not the name. -/
theorem test_addu_checked : run 0x00221821 [(x 1, 0x7FFFFFFF), (x 2, 1)] (checking .ADDU) = raises .overflow := by decide +kernel

/-- V-IA-5. -/
theorem test_sub : run 0x00612822 [(x 3, 0x1E), (x 1, 0xA)] = gives [(x 5, 0x14)] := by decide +kernel

/-- V-IA-6. -/
theorem test_sub_overflow : run 0x00612822 [(x 3, 0x80000000), (x 1, 1)] = raises .overflow := by decide +kernel

/-- V-IA-7. -/
theorem test_subu : run 0x00221823 [(x 1, 0), (x 2, 1)] = gives [(x 3, 0xFFFFFFFFFFFFFFFF)] := by decide +kernel

/-- V-IA-8. -/
theorem test_dadd_overflow : run 0x0022182C [(x 1, 0x7FFFFFFFFFFFFFFF), (x 2, 1)] = raises .overflow := by decide +kernel

/-- From R227: 0xFFFFFFFF + 1. -/
theorem test_dadd : run 0x0022182C [(x 1, 0xFFFFFFFF), (x 2, 1)] = gives [(x 3, 0x100000000)] := by decide +kernel

/-- V-IA-9. -/
theorem test_daddu : run 0x0022182D [(x 1, 0x7FFFFFFFFFFFFFFF), (x 2, 1)] = gives [(x 3, 0x8000000000000000)] := by decide +kernel

/-- V-IA-10. -/
theorem test_dsub_overflow : run 0x0022182E [(x 1, 0x8000000000000000), (x 2, 1)] = raises .overflow := by decide +kernel

/-- V-IA-11. -/
theorem test_dsubu : run 0x0022182F [(x 1, 0x8000000000000000), (x 2, 1)] = gives [(x 3, 0x7FFFFFFFFFFFFFFF)] := by decide +kernel

/-- V-IA-12. -/
theorem test_addi : run 0x2022FFFF [(x 1, 0)] = gives [(x 2, 0xFFFFFFFFFFFFFFFF)] := by decide +kernel

/-- V-IA-13. -/
theorem test_addi_overflow : run 0x20220001 [(x 1, 0x7FFFFFFF)] = raises .overflow := by decide +kernel

/-- V-IA-14: the immediate is sign-extended. -/
theorem test_addiu : run 0x24228000 [(x 1, 0)] = gives [(x 2, 0xFFFFFFFFFFFF8000)] := by decide +kernel

/-- V-IA-15. -/
theorem test_daddi : run 0x60850001 [(x 4, 7)] = gives [(x 5, 8)] := by decide +kernel

/-- V-IA-16. -/
theorem test_daddi_overflow : run 0x60850001 [(x 4, 0x7FFFFFFFFFFFFFFF)] = raises .overflow := by decide +kernel

/-- V-IA-17. -/
theorem test_daddiu : run 0x6485FFFE [(x 4, 1)] = gives [(x 5, 0xFFFFFFFFFFFFFFFF)] := by decide +kernel

/-- V-IA-18. -/
theorem test_slt : run 0x0022182A [(x 1, -1), (x 2, 1)] = gives [(x 3, 1)] := by decide +kernel

/-- V-IA-19. -/
theorem test_sltu : run 0x0022182B [(x 1, -1), (x 2, 1)] = gives [(x 3, 0)] := by decide +kernel

/-- V-IA-20. -/
theorem test_slti : run 0x2822FFFF [(x 1, -2)] = gives [(x 2, 1)] := by decide +kernel

/-- V-IA-21: 5 < 0xFFFFFFFFFFFFFFFF. -/
theorem test_sltiu : run 0x2C22FFFF [(x 1, 5)] = gives [(x 2, 1)] := by decide +kernel

/-- V-IA-24. -/
theorem test_mult : run 0x00220018 [(x 1, 6), (x 2, -7)] = gives [(.hi, 0xFFFFFFFFFFFFFFFF), (.lo, 0xFFFFFFFFFFFFFFD6)] := by decide +kernel

/-- V-IA-25. -/
theorem test_mult_checked : run 0x00220018 [(x 1, 0x80000000), (x 2, 2)] (checking .MULT) = raises .overflow := by decide +kernel

/-- V-IA-26. -/
theorem test_multu : run 0x00220019 [(x 1, 0xFFFFFFFF), (x 2, 0xFFFFFFFF)] = gives [(.hi, 0xFFFFFFFFFFFFFFFE), (.lo, 1)] := by decide +kernel

/-- V-IA-27. -/
theorem test_dmult : run 0x0022001C [(x 1, -1), (x 2, -1)] = gives [(.hi, 0), (.lo, 1)] := by decide +kernel

/-- V-IA-29. -/
theorem test_dmult_checked : run 0x0022001C [(x 1, 0x4000000000000000), (x 2, 4)] (checking .DMULT) = raises .overflow := by decide +kernel

/-- V-IA-30. -/
theorem test_dmultu : run 0x0022001D [(x 1, -1), (x 2, 2)] = gives [(.hi, 1), (.lo, 0xFFFFFFFFFFFFFFFE)] := by decide +kernel

/-- V-IA-31. -/
theorem test_div : run 0x0022001A [(x 1, -7), (x 2, 2)] = gives [(.hi, 0xFFFFFFFFFFFFFFFF), (.lo, 0xFFFFFFFFFFFFFFFD)] := by decide +kernel

/-- V-IA-32. -/
theorem test_div_wraps : run 0x0022001A [(x 1, 0x80000000), (x 2, -1)] = gives [(.hi, 0), (.lo, 0xFFFFFFFF80000000)] := by decide +kernel

/-- V-IA-34. -/
theorem test_div_by_zero : run 0x0022001A [(x 1, 5), (x 2, 0)] = raises .divideByZero := by decide +kernel

/-- V-IA-35. -/
theorem test_divu : run 0x0022001B [(x 1, 0xFFFFFFFF), (x 2, 2)] = gives [(.hi, 1), (.lo, 0x7FFFFFFF)] := by decide +kernel

/-- V-IA-36. -/
theorem test_ddiv_wraps : run 0x0022001E [(x 1, 0x8000000000000000), (x 2, -1)] = gives [(.hi, 0), (.lo, 0x8000000000000000)] := by decide +kernel

/-- V-IA-37. -/
theorem test_ddiv : run 0x0022001E [(x 1, 7), (x 2, -2)] = gives [(.hi, 1), (.lo, 0xFFFFFFFFFFFFFFFD)] := by decide +kernel

/-- V-IA-38. -/
theorem test_ddivu : run 0x0022001F [(x 1, -1), (x 2, 0x10)] = gives [(.hi, 0xF), (.lo, 0x0FFFFFFFFFFFFFFF)] := by decide +kernel

/-- V-IA-39. -/
theorem test_ddivu_by_zero : run 0x0022001F [(x 1, 1), (x 2, 0)] = raises .divideByZero := by decide +kernel

/-- V-IA-40. -/
theorem test_mfhi : run 0x00002010 [(.hi, 0x1234)] = gives [(x 4, 0x1234)] := by decide +kernel

/-- V-IA-41. -/
theorem test_mflo : run 0x00002012 [(.lo, 0x5678)] = gives [(x 4, 0x5678)] := by decide +kernel

/-- V-LS-1. -/
theorem test_and : run 0x00221824 [(x 1, 0xFF00FF00FF00FF00), (x 2, 0x0FF00FF00FF00FF0)] = gives [(x 3, 0x0F000F000F000F00)] := by decide +kernel

/-- V-LS-2. -/
theorem test_or : run 0x00221825 [(x 1, 0xF0), (x 2, 0x0F)] = gives [(x 3, 0xFF)] := by decide +kernel

/-- V-LS-3. -/
theorem test_xor : run 0x00221826 [(x 1, 0xFF), (x 2, 0x0F)] = gives [(x 3, 0xF0)] := by decide +kernel

/-- V-LS-4. -/
theorem test_nor : run 0x00221827 [(x 1, 0), (x 2, 0)] = gives [(x 3, 0xFFFFFFFFFFFFFFFF)] := by decide +kernel

/-- V-LS-5: the immediate is zero-extended. -/
theorem test_andi : run 0x3022FFFF [(x 1, -1)] = gives [(x 2, 0xFFFF)] := by decide +kernel

/-- V-LS-6. -/
theorem test_ori : run 0x34228000 [(x 1, 0)] = gives [(x 2, 0x8000)] := by decide +kernel

/-- V-LS-7. -/
theorem test_xori : run 0x3822FFFF [(x 1, 0xF0F0)] = gives [(x 2, 0x0F0F)] := by decide +kernel

/-- V-LS-8. -/
theorem test_lui : run 0x3C028000 [] = gives [(x 2, 0xFFFFFFFF80000000)] := by decide +kernel

/-- V-LS-10. -/
theorem test_movz : run 0x0022180A [(x 1, 5), (x 2, 0), (x 3, 9)] = gives [(x 3, 5)] := by decide +kernel

/-- V-LS-11. -/
theorem test_movz_keeps : run 0x0022180A [(x 1, 5), (x 2, 1), (x 3, 9)] = gives [(x 3, 9)] := by decide +kernel

/-- V-LS-12. -/
theorem test_movn : run 0x0022180B [(x 1, 5), (x 2, 1), (x 3, 9)] = gives [(x 3, 5)] := by decide +kernel

/-- V-LS-13. -/
theorem test_movn_keeps : run 0x0022180B [(x 1, 5), (x 2, 0), (x 3, 9)] = gives [(x 3, 9)] := by decide +kernel

/-- V-LS-14. -/
theorem test_sll : run 0x00011100 [(x 1, 0x10000001)] = gives [(x 2, 0x10)] := by decide +kernel

/-- V-LS-15. -/
theorem test_sll_sign : run 0x00011040 [(x 1, 0x40000000)] = gives [(x 2, 0xFFFFFFFF80000000)] := by decide +kernel

/-- V-LS-17. -/
theorem test_srl : run 0x00011102 [(x 1, 0xFFFFFFFF80000000)] = gives [(x 2, 0x08000000)] := by decide +kernel

/-- V-LS-18. -/
theorem test_srl_none : run 0x00011002 [(x 1, 0x0000000180000000)] = gives [(x 2, 0xFFFFFFFF80000000)] := by decide +kernel

/-- V-LS-19. -/
theorem test_sra : run 0x00011103 [(x 1, 0xFFFFFFFF80000000)] = gives [(x 2, 0xFFFFFFFFF8000000)] := by decide +kernel

/-- V-LS-20: the amount is 33 mod 32. -/
theorem test_sllv : run 0x00611004 [(x 1, 1), (x 3, 33)] = gives [(x 2, 2)] := by decide +kernel

/-- V-LS-21. -/
theorem test_srlv : run 0x00611006 [(x 1, 0x80000000), (x 3, 31)] = gives [(x 2, 1)] := by decide +kernel

/-- V-LS-22. -/
theorem test_srav : run 0x00611007 [(x 1, 0x80000000), (x 3, 31)] = gives [(x 2, 0xFFFFFFFFFFFFFFFF)] := by decide +kernel

/-- V-LS-23. -/
theorem test_dsll : run 0x00011138 [(x 1, 0x0F00000000000001)] = gives [(x 2, 0xF000000000000010)] := by decide +kernel

/-- V-LS-24. -/
theorem test_dsrl : run 0x0001113A [(x 1, 0x8000000000000000)] = gives [(x 2, 0x0800000000000000)] := by decide +kernel

/-- V-LS-25. -/
theorem test_dsra : run 0x0001113B [(x 1, 0x8000000000000000)] = gives [(x 2, 0xF800000000000000)] := by decide +kernel

/-- V-LS-26. -/
theorem test_dsll32 : run 0x0001103C [(x 1, 0x12345678)] = gives [(x 2, 0x1234567800000000)] := by decide +kernel

/-- V-LS-27. -/
theorem test_dsrl32 : run 0x0001103E [(x 1, 0x8000000012345678)] = gives [(x 2, 0x80000000)] := by decide +kernel

/-- V-LS-28. -/
theorem test_dsra32 : run 0x000117FF [(x 1, 0x8000000000000000)] = gives [(x 2, 0xFFFFFFFFFFFFFFFF)] := by decide +kernel

/-- V-LS-29: the amount is 0x7F mod 64. -/
theorem test_dsllv : run 0x00611014 [(x 1, 1), (x 3, 0x7F)] = gives [(x 2, 0x8000000000000000)] := by decide +kernel

/-- V-LS-30. -/
theorem test_dsrlv : run 0x00611016 [(x 1, -1), (x 3, 60)] = gives [(x 2, 0xF)] := by decide +kernel

/-- V-LS-31. -/
theorem test_dsrav : run 0x00611017 [(x 1, 0x8000000000000000), (x 3, 63)] = gives [(x 2, 0xFFFFFFFFFFFFFFFF)] := by decide +kernel

/-- V-LS-32. -/
theorem test_nop : run 0 [] = gives [] := by decide +kernel

/-- V-MEM-1. -/
theorem test_lb : access 0x80220000 0 0 bytes8 = ([(x 2, 0xFFFFFFFFFFFFFF80)], bytes8, none) := by decide +kernel

/-- V-MEM-2. -/
theorem test_lbu : access 0x90220004 4 0 bytes8 = ([(x 2, 0x84)], bytes8, none) := by decide +kernel

/-- V-MEM-3. -/
theorem test_lh : access 0x84220004 4 0 bytes8 = ([(x 2, 0xFFFFFFFFFFFF8584)], bytes8, none) := by decide +kernel

/-- V-MEM-3. -/
theorem test_lh_big : access 0x84220004 4 0 bytes8 { byteOrder := .big } = ([(x 2, 0xFFFFFFFFFFFF8485)], bytes8, none) := by decide +kernel

/-- V-MEM-4. -/
theorem test_lhu : access 0x94220000 0 0 bytes8 = ([(x 2, 0x8180)], bytes8, none) := by decide +kernel

/-- V-MEM-4. -/
theorem test_lhu_big : access 0x94220000 0 0 bytes8 { byteOrder := .big } = ([(x 2, 0x8081)], bytes8, none) := by decide +kernel

/-- V-MEM-5. -/
theorem test_lw : access 0x8C220004 4 0 bytes8 = ([(x 2, 0xFFFFFFFF87868584)], bytes8, none) := by decide +kernel

/-- V-MEM-5. -/
theorem test_lw_big : access 0x8C220004 4 0 bytes8 { byteOrder := .big } = ([(x 2, 0xFFFFFFFF84858687)], bytes8, none) := by decide +kernel

/-- V-MEM-6. -/
theorem test_lwu : access 0x9C220000 0 0 bytes8 = ([(x 2, 0x83828180)], bytes8, none) := by decide +kernel

/-- V-MEM-6. -/
theorem test_lwu_big : access 0x9C220000 0 0 bytes8 { byteOrder := .big } = ([(x 2, 0x80818283)], bytes8, none) := by decide +kernel

/-- V-MEM-7. -/
theorem test_ld : access 0xDC220000 0 0 bytes8 = ([(x 2, 0x8786858483828180)], bytes8, none) := by decide +kernel

/-- V-MEM-7. -/
theorem test_ld_big : access 0xDC220000 0 0 bytes8 { byteOrder := .big } = ([(x 2, 0x8081828384858687)], bytes8, none) := by decide +kernel

/-- V-MEM-8. -/
theorem test_ldc1 : access 0xD4220000 0 0 bytes8 = ([(f 2, 0x8786858483828180)], bytes8, none) := by decide +kernel

/-- V-MEM-8. -/
theorem test_ldc1_big : access 0xD4220000 0 0 bytes8 { byteOrder := .big } = ([(f 2, 0x8081828384858687)], bytes8, none) := by decide +kernel

/-- V-MEM-9. -/
theorem test_sb : access 0xA0220008 8 0x1122334455667788 [] = ([], [(8, 0x88)], none) := by decide +kernel

/-- V-MEM-10. -/
theorem test_sh : access 0xA4220008 8 0x1122334455667788 [] = ([], [(8, 0x88), (9, 0x77)], none) := by decide +kernel

/-- V-MEM-10. -/
theorem test_sh_big : access 0xA4220008 8 0x1122334455667788 [] { byteOrder := .big } = ([], [(8, 0x77), (9, 0x88)], none) := by decide +kernel

/-- V-MEM-11. -/
theorem test_sw : access 0xAC220008 8 0x1122334455667788 [] = ([], [(8, 0x88), (9, 0x77), (10, 0x66), (11, 0x55)], none) := by decide +kernel

/-- V-MEM-11. -/
theorem test_sw_big : access 0xAC220008 8 0x1122334455667788 [] { byteOrder := .big } = ([], [(8, 0x55), (9, 0x66), (10, 0x77), (11, 0x88)], none) := by decide +kernel

/-- V-MEM-12. -/
theorem test_sd : access 0xFC220008 8 0x1122334455667788 [] = ([], [(8, 0x88), (9, 0x77), (10, 0x66), (11, 0x55), (12, 0x44), (13, 0x33), (14, 0x22), (15, 0x11)], none) := by decide +kernel

/-- V-MEM-12. -/
theorem test_sd_big : access 0xFC220008 8 0x1122334455667788 [] { byteOrder := .big } = ([], [(8, 0x11), (9, 0x22), (10, 0x33), (11, 0x44), (12, 0x55), (13, 0x66), (14, 0x77), (15, 0x88)], none) := by decide +kernel

/-- V-MEM-13. -/
theorem test_sdc1 : access 0xF4220008 8 0x400921FB54442D18 [] =
    ([], [(8, 0x18), (9, 0x2D), (10, 0x44), (11, 0x54), (12, 0xFB), (13, 0x21), (14, 0x09), (15, 0x40)], none) := by decide +kernel

/-- R46: the canonical form lists no 0. -/
theorem test_store_zero_removes_the_entry : access 0xA0220008 3 0 bytes8 =
    ([], [(0, 0x80), (1, 0x81), (2, 0x82), (4, 0x84), (5, 0x85), (6, 0x86), (7, 0x87)], none) := by decide +kernel

/-- V-MEM-14. -/
theorem test_lw_misaligned : access 0x8C220000 2 0 [] = ([], [], some .misaligned) := by decide +kernel

/-- V-MEM-16. -/
theorem test_ld_misaligned : access 0xDC220000 4 0 [] = ([], [], some .misaligned) := by decide +kernel

/-- V-MEM-18. -/
theorem test_sd_out_of_bounds : access 0xFC220000 4096 0 [] = ([], [], some .outOfBounds) := by decide +kernel

/-- V-MEM-20. -/
theorem test_lb_out_of_bounds : access 0x8002FFFF 0xFFFFFFFFFFFFFFFF 0 [] = ([], [], some .outOfBounds) := by decide +kernel

/-- V-MEM-21: aligned, so the range decides. -/
theorem test_lh_out_of_bounds : access 0x84220000 0xFFFFFFFFFFFFFFFE 0 [] = ([], [], some .outOfBounds) := by decide +kernel

/-- V-MEM-22: alignment is checked first. -/
theorem test_ld_misaligned_first : access 0xDC220000 0xFFFFFFFFFFFFFFF9 0 [] = ([], [], some .misaligned) := by decide +kernel

/-- V-MEM-20: the address wraps. -/
theorem test_effective_address : (match exec (.lb 2 0 0xFFFF) (holding .EX ⟨.instr ⟨.lb 2 0 0xFFFF, 0, 0x8002FFFF⟩, [], false, 1, false, [], 0, 0, false, 0, .none, false⟩) with
    | .next t => t.slots.EX.map Entry.ea
    | _ => none) = some 0xFFFFFFFFFFFFFFFF := by decide +kernel

/-- V-CT-1. -/
theorem test_beq : run 0x10220003 [(x 1, 1), (x 2, 1)] = goes 0x10 [] ∧ run 0x10220003 [(x 1, 1), (x 2, 2)] = gives [] := by decide +kernel

/-- V-CT-2. -/
theorem test_bne : run 0x14220003 [(x 1, 1), (x 2, 2)] = goes 0x10 [] ∧ run 0x14220003 [(x 1, 1), (x 2, 1)] = gives [] := by decide +kernel

/-- V-CT-3. -/
theorem test_blez : run 0x18200003 [(x 1, 0xFFFFFFFFFFFFFFFF)] = goes 0x10 [] ∧ run 0x18200003 [(x 1, 1)] = gives [] := by decide +kernel

/-- V-CT-3. -/
theorem test_blez_zero : run 0x18200003 [(x 1, 0)] = goes 0x10 [] ∧ run 0x18200003 [(x 1, 1)] = gives [] := by decide +kernel

/-- V-CT-4. -/
theorem test_bgtz : run 0x1C200003 [(x 1, 1)] = goes 0x10 [] ∧ run 0x1C200003 [(x 1, 0x8000000000000000)] = gives [] := by decide +kernel

/-- V-CT-5. -/
theorem test_bltz : run 0x04200003 [(x 1, 0x8000000000000000)] = goes 0x10 [] ∧ run 0x04200003 [(x 1, 0)] = gives [] := by decide +kernel

/-- V-CT-6. -/
theorem test_bgez : run 0x04210003 [(x 1, 0)] = goes 0x10 [] ∧ run 0x04210003 [(x 1, 0xFFFFFFFFFFFFFFFF)] = gives [] := by decide +kernel

/-- V-CT-7. -/
theorem test_bc1f : run 0x45000003 [(.fcc, 0)] = goes 0x10 [] ∧ run 0x45000003 [(.fcc, 1)] = gives [] := by decide +kernel

/-- V-CT-8. -/
theorem test_bc1t : run 0x45010003 [(.fcc, 1)] = goes 0x10 [] ∧ run 0x45010003 [(.fcc, 0)] = gives [] := by decide +kernel

/-- From R351: 0x104 - 4·0x8000. -/
theorem test_branch_backwards : run 0x10008000 [] {} 0x100 = goes 0xFFFFFFFFFFFE0104 [] := by decide +kernel

/-- V-CT-9. -/
theorem test_j : run 0x08000080 [] {} 0x100 = goes 0x200 [] := by decide +kernel

/-- V-CT-10. -/
theorem test_jal : run 0x0C000004 [] {} 4 = goes 0x10 [(x 31, 8)] := by decide +kernel

/-- V-CT-11. -/
theorem test_jr : run 0x03E00008 [(x 31, 0x104)] = goes 0x104 [] := by decide +kernel

/-- V-CT-13: the target is the old r5. -/
theorem test_jalr : run 0x00A02809 [(x 5, 0x40)] {} 0x20 = goes 0x40 [(x 5, 0x24)] := by decide +kernel

/-- V-FP-3: 0.1 + 0.2. -/
theorem test_addD : run 0x46231100 [(f 2, 0x3FB999999999999A), (f 3, 0x3FC999999999999A)] =
    gives [(f 4, 0x3FD3333333333334)] := by decide +kernel

/-- V-FP-6. -/
theorem test_addD_overflow : run 0x46231100 [(f 2, 0x7FE1CCF385EBC8A0), (f 3, 0x7FE1CCF385EBC8A0)] =
    gives [(f 4, 0x7FF0000000000000)] := by decide +kernel

/-- V-FP-7. -/
theorem test_subD : run 0x46231101 [(f 2, 0x3FF0000000000000), (f 3, 0x3FF0000000000000)] =
    gives [(f 4, 0)] := by decide +kernel

/-- V-FP-8. -/
theorem test_subD_invalid : run 0x46231101 [(f 2, 0x7FF0000000000000), (f 3, 0x7FF0000000000000)] =
    gives [(f 4, 0x7FF8000000000000)] := by decide +kernel

/-- V-FP-9. -/
theorem test_mulD : run 0x46231102 [(f 2, 0x4008000000000000), (f 3, 0xBFE0000000000000)] =
    gives [(f 4, 0xBFF8000000000000)] := by decide +kernel

/-- V-FP-11: a tie to even. -/
theorem test_mulD_underflow : run 0x46231102 [(f 2, 1), (f 3, 0x3FE0000000000000)] =
    gives [(f 4, 0)] := by decide +kernel

/-- V-FP-16. -/
theorem test_divD : run 0x46231103 [(f 2, 0x3FF0000000000000), (f 3, 0x4008000000000000)] =
    gives [(f 4, 0x3FD5555555555555)] := by decide +kernel

/-- V-FP-14. -/
theorem test_divD_by_zero : run 0x46231103 [(f 2, 0x3FF0000000000000), (f 3, 0x8000000000000000)] =
    gives [(f 4, 0xFFF0000000000000)] := by decide +kernel

/-- V-FP-32. -/
theorem test_divD_invalid_trap : run 0x462208C3 [(f 1, 0), (f 2, 0)] { trapFpInvalid := true } = raises .fpInvalid := by decide +kernel

/-- V-FP-33. -/
theorem test_divD_by_zero_trap : run 0x462208C3 [(f 1, 0x3FF0000000000000), (f 2, 0)] { trapFpDivByZero := true } =
    raises .fpDivideByZero := by decide +kernel

/-- V-FP-17: a signalling NaN is copied. -/
theorem test_movD : run 0x46201106 [(f 2, 0x7FF0000000000001)] { trapFpInvalid := true } =
    gives [(f 4, 0x7FF0000000000001)] := by decide +kernel

/-- V-FP-18: 2^53 + 1. -/
theorem test_cvtDL : run 0x46A01121 [(f 2, 0x0020000000000001)] = gives [(f 4, 0x4340000000000000)] := by decide +kernel

/-- V-FP-20: 2.5 rounds to 2. -/
theorem test_cvtLD : run 0x46201125 [(f 2, 0x4004000000000000)] = gives [(f 4, 2)] := by decide +kernel

/-- V-FP-24: 2^63. -/
theorem test_cvtLD_out_of_range : run 0x46201125 [(f 2, 0x43E0000000000000)] = gives [(f 4, 0x7FFFFFFFFFFFFFFF)] := by decide +kernel

/-- V-FP-26: +0 = -0. -/
theorem test_cEqD : run 0x46231032 [(f 2, 0), (f 3, 0x8000000000000000)] = gives [(.fcc, 1)] := by decide +kernel

/-- V-FP-27. -/
theorem test_cEqD_quiet : run 0x46231032 [(f 2, 0x7FF8000000000000), (f 3, 0x7FF8000000000000)] { trapFpInvalid := true } =
    gives [(.fcc, 0)] := by decide +kernel

/-- V-FP-28. -/
theorem test_cLtD : run 0x4623103C [(f 2, 0x3FF0000000000000), (f 3, 0x4000000000000000)] = gives [(.fcc, 1)] := by decide +kernel

/-- V-FP-29. -/
theorem test_cLtD_quiet : run 0x4623103C [(f 2, 0x7FF8000000000000), (f 3, 0x4000000000000000)] { trapFpInvalid := true } =
    raises .fpInvalid := by decide +kernel

/-- V-FP-30. -/
theorem test_dmfc1 : run 0x44251000 [(f 2, 0x3FF0000000000000)] = gives [(x 5, 0x3FF0000000000000)] := by decide +kernel

/-- V-FP-31. -/
theorem test_dmtc1 : run 0x44A51000 [(x 5, 0x4000000000000000)] = gives [(f 2, 0x4000000000000000)] := by decide +kernel

/-- V-SYS-2. -/
theorem test_syscall : run 0x000000CC [] = raises .systemCall := by decide +kernel

/-- V-SYS-5: the halt call flushes with no redirect. -/
theorem test_syscall_halt : run 0x0000000C [] = ([], some ⟨2, none⟩, none) := by decide +kernel

/-- V-SYS-3. -/
theorem test_break : run 0x0000000D [] = raises .breakpoint := by decide +kernel

/-! ## Single steps -/

/-- E7, cycle 3: DADD in Execute overflows with a handler at 0x100; the two younger entries are discarded. -/
def overflowing : State :=
  { State.reset with
    cfg := { handler := { overflow := some 0x100 } }
    prog := List.replicate 68 0
    pc := 8
    slots :=
      { IF := some { inst := .instr ⟨.daddiu 6 0 1, 4, 0x64060001⟩ }
        ID := some { inst := .instr ⟨.dadd 3 1 2, 0, 0x0022182C⟩, ready := true, ops := [(x 1, 0x7FFFFFFFFFFFFFFF), (x 2, 1)] } } }

/-- E7: the exception record, the flush, and what the next boundary fetches. -/
theorem test_step_overflow :
    ∃ t, step overflowing = .next t ∧ t.report.fault = some ⟨.overflow, 3, 0, .EX, 0⟩ ∧
      t.report.flush = some ⟨2, some 0x100⟩ ∧ t.ctrl = .flushRequested 2 0x100 ∧
      t.boundary.slots.IF.map Entry.pc = some 0x100 ∧ t.boundary.slots.ID = none ∧ t.pc = 0xC :=
  ⟨_, rfl, rfl, rfl, rfl, rfl, rfl, rfl⟩

/-- A word in Execute with some cycles left, and behind it in Decode the token of an invalid word. -/
def behind (w : Word32) (rem : Nat) : State :=
  { State.reset with
    cfg := { syscalls := [1] }
    slots :=
      { ID := some { inst := .faultToken .invalidInstruction 4 }
        EX := some { inst := .instr ⟨decoded w, 0, w⟩, rem := rem } } }

/-- What a step reports of an exception, and whether Decode's entry is marked for discard after it. -/
def faultBehind (w : Word32) (rem : Nat) : Option ExcKind × Option Bool :=
  match step (behind w rem) with
  | .next t => (t.report.fault.map FaultReport.kind, t.slots.ID.map Entry.discard)
  | _ => (none, none)

/-- R80, D11: `BEQ r0, r0` still busy in Execute, then completing, and the halt call still busy: the token raises in neither
cycle. -/
theorem test_step_wrong_path_never_faults :
    faultBehind 0x10000001 2 = (none, some false) ∧ faultBehind 0x10000001 1 = (none, some true) ∧
    faultBehind 0x0000000C 2 = (none, some false) := by decide

/-- R170, R433: behind a busy MULT, a busy untaken `BNE r0, r0`, a busy table call, whose successors are fetched again (R413),
and a busy SYSCALL 7, which has no callback and will raise itself (R443), the token raises at once, as behind the BNE that
completes. -/
theorem test_step_token_raises :
    ∀ p ∈ [(0x00220018, 2), (0x14000001, 2), (0x0000004C, 2), (0x000001CC, 2), (0x14000001, 1)],
      faultBehind p.1 p.2 = (some .invalidInstruction, some true) := by decide

/-- V-SYS-1, the last cycle: the halt call commits. -/
theorem test_step_halts :
    (match step { State.reset with slots := { MEM := some { inst := .instr ⟨.syscall 0, 0, 0xC⟩, sys := .halt, done := true } } } with
      | .next t => t.report
      | _ => {}) =
    { cycle := some 1, occupancy := { WB := some ⟨0, .mnemonic .SYSCALL⟩ }, halted := true } := by decide +kernel

/-- R80: the reset engine has no program, so nothing is fetched. -/
theorem test_step_from_reset : (match step State.reset with
    | .next t => (t.slots, t.pc, t.cycle, t.stalls)
    | _ => ({}, 1, 0, 0)) = ({}, 0, 1, 0) := by decide +kernel

/-- The word placed for the next step runs in it. -/
theorem test_placed_word_runs :
    (match step ((State.reset.preloadReg (x 1) 10).withFetchWord 32 0x60220005) with
      | .next t => t.slots.EX.map Entry.res
      | _ => none) = some [(x 2, 15)] := by decide +kernel

/-- R447: malformed configurations are refused, V-EX. -/
theorem test_construct_refuses :
    construct { cfg := { memSize := 12 } } = .refused .configurationError ∧
    construct { cfg := { memSize := 0 } } = .refused .configurationError ∧
    construct { cfg := { handler := { overflow := some 6 } }, prog := [0, 0, 0] } = .refused .configurationError ∧
    construct { cfg := { handler := { overflow := some 12 } }, prog := [0, 0, 0] } = .refused .configurationError ∧
    construct { cfg := { lat := { fpDiv := 0 } } } = .refused .configurationError ∧
    construct { cfg := { checked := [.LW] } } = .refused .configurationError ∧
    construct { cfg := { defaultNaN := 0x7FF0000000000001 } } = .refused .configurationError :=
  ⟨rfl, rfl, rfl, rfl, rfl, rfl, rfl⟩

/-! ## Witnesses: the hypotheses of the statements can be met -/

theorem witness_DecodeOfEncode : (Instr.sll 0 0 1).wellFormed = true := by decide

theorem witness_EncodeOfDecode : decodeWord 1#32 ≠ .ok .nop ∧ decodeWord 0x40 = .ok (.sll 0 0 1) := by decide

theorem witness_RowsOfTheTableAreDisjoint :
    ((0 : Word32) &&& (opcodeRow .NOP).mask = (opcodeRow .NOP).pattern ∧
      (0 : Word32) &&& (opcodeRow .SLL).mask = (opcodeRow .SLL).pattern) ∧
    (0x40 : Word32) ≠ 0 ∧ (0x40 : Word32) &&& (opcodeRow .SLL).mask = (opcodeRow .SLL).pattern := by decide

theorem witness_UnmatchedWordsAreInvalid : ∀ m, (1 : Word32) &&& (opcodeRow m).mask ≠ (opcodeRow m).pattern := by
  intro m
  cases m <;> decide

/-! ### Execute -/

/-- An entry with captured operands. -/
def entry (ops : List (RegId × Word)) : Entry := { inst := .instr ⟨.nop, 0x100, 0⟩, ops := ops, rem := 1 }

/-- It is Execute's turn with that entry in its slot. -/
def executing (ops : List (RegId × Word)) (cfg : Config := {}) : State := holding .EX (entry ops) cfg

theorem atExecute (ops : List (RegId × Word)) (cfg : Config) : AtExecute (executing ops cfg) (entry ops) := ⟨rfl, rfl, rfl⟩

/-- The largest word that does not overflow with 1, and the one above it. -/
theorem witness_WordAddAndSubtract :
    (AtExecute (executing [(x 1, 0x7FFFFFFE), (x 2, 1)]) (entry [(x 1, 0x7FFFFFFE), (x 2, 1)]) ∧
      ¬ Overflows {} .ADD 32 ((low ((entry [(x 1, 0x7FFFFFFE), (x 2, 1)]).x 1)).toInt + 1)) ∧
    (AtExecute (executing [(x 1, 0x7FFFFFFF), (x 2, 1)]) (entry [(x 1, 0x7FFFFFFF), (x 2, 1)]) ∧
      Overflows {} .ADD 32 ((low ((entry [(x 1, 0x7FFFFFFF), (x 2, 1)]).x 1)).toInt + 1)) ∧
    Overflows {} .SUB 32 ((low ((entry [(x 1, 0x80000000)]).x 1)).toInt - 1) ∧
    ¬ Overflows {} .ADDU 32 ((low ((entry [(x 1, 0x7FFFFFFF)]).x 1)).toInt + 1) := by
  refine ⟨⟨atExecute _ _, by decide⟩, ⟨atExecute _ _, by decide⟩, by decide, by decide⟩

theorem witness_DoublewordAddAndSubtract :
    (AtExecute (executing [(x 1, 0x7FFFFFFFFFFFFFFF), (x 2, 1)]) (entry [(x 1, 0x7FFFFFFFFFFFFFFF), (x 2, 1)]) ∧
      Overflows {} .DADD 64 (((entry [(x 1, 0x7FFFFFFFFFFFFFFF)]).x 1).toInt + 1)) ∧
    Overflows {} .DSUB 64 (((entry [(x 1, 0x8000000000000000)]).x 1).toInt - 1) ∧
    ¬ Overflows {} .DADD 64 (((entry [(x 1, 0x7FFFFFFFFFFFFFFE)]).x 1).toInt + 1) := by
  refine ⟨⟨atExecute _ _, by decide⟩, by decide, by decide⟩

theorem witness_AddImmediate :
    AtExecute (executing [(x 1, 0x80000000)]) (entry [(x 1, 0x80000000)]) ∧
    Overflows {} .ADDI 32 ((low ((entry [(x 1, 0x80000000)]).x 1)).toInt + (0xFFFF : BitVec 16).toInt) ∧
    ¬ Overflows {} .ADDI 32 ((low ((entry [(x 1, 0x80000001)]).x 1)).toInt + (0xFFFF : BitVec 16).toInt) := by
  refine ⟨atExecute _ _, by decide, by decide⟩

theorem witness_SetOnLessThan : AtExecute (executing [(x 1, -1), (x 2, 1)]) (entry [(x 1, -1), (x 2, 1)]) := atExecute _ _

theorem witness_MultiplyIntoHiAndLo :
    AtExecute (executing [(x 1, 0x80000000), (x 2, 2)] (checking .MULT)) (entry [(x 1, 0x80000000), (x 2, 2)]) ∧
    Overflows (checking .MULT) .MULT 32 ((low ((entry [(x 1, 0x80000000)]).x 1)).toInt * 2) ∧
    ¬ Overflows (checking .MULT) .MULT 32 ((low ((entry [(x 1, 0xC0000000)]).x 1)).toInt * 2) ∧
    (.MULTU ∈ (checking .MULTU).checked ∧ 2 ^ 32 ≤ (low ((entry [(x 1, 0x80000000)]).x 1)).toNat * 2) ∧
    (.DMULTU ∈ (checking .DMULTU).checked ∧ 2 ^ 64 ≤ ((entry [(x 1, 0x8000000000000000)]).x 1).toNat * 2) := by
  refine ⟨atExecute _ _, by decide, by decide, by decide, by decide⟩

/-- A word divide of the smallest word by -1, checked and not; a divisor whose low word alone is 0. -/
theorem witness_DivideIntoHiAndLo :
    AtExecute (executing [(x 1, 0x80000000), (x 2, -1)] (checking .DIV)) (entry [(x 1, 0x80000000), (x 2, -1)]) ∧
    (low ((entry [(x 2, -1)]).x 2) ≠ 0 ∧ .DIV ∈ (checking .DIV).checked ∧
      low ((entry [(x 1, 0x80000000)]).x 1) = BitVec.intMin 32 ∧ low ((entry [(x 2, -1)]).x 2) = -1) ∧
    ((entry [(x 2, -1)]).x 2 ≠ 0 ∧ (entry [(x 1, 0x8000000000000000)]).x 1 = BitVec.intMin 64 ∧
      (entry [(x 2, -1)]).x 2 = -1 ∧ .DDIV ∉ ({} : Config).checked) ∧
    (entry [(x 2, 0x100000000)]).x 2 ≠ 0 := by
  refine ⟨atExecute _ _, by decide, by decide, by decide⟩

theorem witness_ZeroDivisorRaisesDivideByZero :
    AtExecute (executing [(x 1, 5), (x 2, 0x100000000)]) (entry [(x 1, 5), (x 2, 0x100000000)]) ∧
    low ((entry [(x 2, 0x100000000)]).x 2) = 0 ∧ (entry [(x 2, 0)]).x 2 = 0 := by
  refine ⟨atExecute _ _, by decide, by decide⟩

theorem witness_MovesBetweenRegisters :
    AtExecute (executing [(x 1, 5), (x 2, 0), (x 3, 9)]) (entry [(x 1, 5), (x 2, 0), (x 3, 9)]) ∧
    (entry [(x 2, 0)]).x 2 = 0 ∧ (entry [(x 2, 0x8000000000000000)]).x 2 ≠ 0 := by
  refine ⟨atExecute _ _, by decide, by decide⟩

theorem witness_LogicalBitByBit : AtExecute (executing [(x 1, 0xFF), (x 2, 0xF0)]) (entry [(x 1, 0xFF), (x 2, 0xF0)]) ∧
    (0 < 64 ∧ 63 < 64) := ⟨atExecute _ _, by decide⟩

theorem witness_WordShifts : AtExecute (executing [(x 1, 0x80000000), (x 2, 63)]) (entry [(x 1, 0x80000000), (x 2, 63)]) :=
  atExecute _ _

theorem witness_DoublewordShifts : AtExecute (executing [(x 1, -1), (x 2, 127)]) (entry [(x 1, -1), (x 2, 127)]) :=
  atExecute _ _

theorem witness_MemoryInstructionsLatchTheirAddress : AtExecute (executing [(x 1, -1), (f 2, 7)]) (entry [(x 1, -1), (f 2, 7)]) :=
  atExecute _ _

theorem witness_BranchesAreTakenOnTheirConditions :
    AtExecute (executing [(x 1, 0), (x 2, 0), (.fcc, 1)]) (entry [(x 1, 0), (x 2, 0), (.fcc, 1)]) ∧
    (Instr.beq 1 2 0x8000, decide ((entry [(x 1, 0), (x 2, 0)]).x 1 = (entry [(x 1, 0), (x 2, 0)]).x 2)) = (.beq 1 2 0x8000, true) ∧
    (Instr.bne 1 2 0x8000, decide ((entry [(x 1, 0), (x 2, 0)]).x 1 ≠ (entry [(x 1, 0), (x 2, 0)]).x 2)) = (.bne 1 2 0x8000, false) := by
  refine ⟨atExecute _ _, by decide, by decide⟩

theorem witness_JumpsAreAlwaysTaken : AtExecute (executing [(x 5, 0x41)]) (entry [(x 5, 0x41)]) := atExecute _ _

/-- The three classes of a call number, and the two answers of a handler table. -/
theorem witness_SyscallIsClassifiedInExecute :
    AtExecute (executing [] { syscalls := [0, 1] }) (entry []) ∧ (0 : BitVec 20).toNat = ({ syscalls := [0, 1] } : Config).haltCode ∧
    ((1 : BitVec 20).toNat ≠ ({ syscalls := [0, 1] } : Config).haltCode ∧
      (1 : BitVec 20).toNat ∈ ({ syscalls := [0, 1] } : Config).syscalls) ∧
    ((0xFFFFF : BitVec 20).toNat ≠ ({ syscalls := [0, 1] } : Config).haltCode ∧
      (0xFFFFF : BitVec 20).toNat ∉ ({ syscalls := [0, 1] } : Config).syscalls) := by
  refine ⟨atExecute _ _, by decide, by decide, by decide⟩

theorem witness_BreakTakesTheBreakpointException : AtExecute (executing []) (entry []) := atExecute _ _

theorem witness_BusyExecuteOnlyCountsDown :
    (holding .EX { entry [] with rem := 2 }).turn = .EX ∧
    (holding .EX { entry [] with rem := 2 }).slots.EX = some { entry [] with rem := 2 } ∧ 1 < ({ entry [] with rem := 2 } : Entry).rem := by
  refine ⟨rfl, rfl, by decide⟩

theorem witness_ExecuteReadsOnlyTheSources :
    ∃ t e', (executing [(x 1, 1), (x 2, 2)]).turn = .EX ∧
      (executing [(x 1, 1), (x 2, 2)]).slots.EX = some (entry [(x 1, 1), (x 2, 2)]) ∧
      (∀ r ∈ (Instr.add 3 1 2).srcs, (entry [(x 1, 1), (x 2, 2)]).op r =
        ({ entry [(x 1, 1), (x 2, 2)] with ops := [(x 9, 9), (x 2, 2), (x 1, 1)] } : Entry).op r) ∧
      exec (.add 3 1 2) (executing [(x 1, 1), (x 2, 2)]) = .next t ∧ t.slots.EX = some e' := by
  refine ⟨_, _, rfl, rfl, by decide, rfl, rfl⟩

/-! ### Floating point -/

theorem real_zero : real 0 = 0 := by
  unfold real
  rw [if_pos (by decide : (0 : Word).extractLsb' 52 11 = 0)]
  simp

theorem real_one : real 0x3FF0000000000000 = 1 := by
  unfold real
  rw [if_neg (by decide : ¬ (0x3FF0000000000000 : Word).extractLsb' 52 11 = 0), if_neg (by decide),
    show ((0x3FF0000000000000 : Word).extractLsb' 52 11).toNat = 1023 by decide,
    show ((0x3FF0000000000000 : Word).extractLsb' 0 52).toNat = 0 by decide]
  norm_num

theorem real_two : real 0x4000000000000000 = 2 := by
  unfold real
  rw [if_neg (by decide : ¬ (0x4000000000000000 : Word).extractLsb' 52 11 = 0), if_neg (by decide),
    show ((0x4000000000000000 : Word).extractLsb' 52 11).toNat = 1024 by decide,
    show ((0x4000000000000000 : Word).extractLsb' 0 52).toNat = 0 by decide]
  norm_num

theorem real_two_to_63 : real 0x43E0000000000000 = 2 ^ 63 := by
  unfold real
  rw [if_neg (by decide : ¬ (0x43E0000000000000 : Word).extractLsb' 52 11 = 0), if_neg (by decide),
    show ((0x43E0000000000000 : Word).extractLsb' 52 11).toNat = 1086 by decide,
    show ((0x43E0000000000000 : Word).extractLsb' 0 52).toNat = 0 by decide]
  norm_num

/-- Operands 1 and 2. -/
def floats : List (RegId × Word) := [(f 1, 0x3FF0000000000000), (f 2, 0x4000000000000000)]

theorem witness_FloatArithmeticRoundsToNearestEven :
    AtExecute (executing floats) (entry floats) ∧ IsFinite ((entry floats).f 1) ∧ IsFinite ((entry floats).f 2) ∧
    real ((entry floats).f 1) + real ((entry floats).f 2) ≠ 0 ∧ real ((entry floats).f 1) - real ((entry floats).f 2) ≠ 0 ∧
    real ((entry floats).f 1) * real ((entry floats).f 2) ≠ 0 ∧ real ((entry floats).f 1) / real ((entry floats).f 2) ≠ 0 := by
  have h1 : real ((entry floats).f 1) = 1 := real_one
  have h2 : real ((entry floats).f 2) = 2 := real_two
  rw [h1, h2]
  refine ⟨atExecute _ _, by decide, by decide, by norm_num, by norm_num, by norm_num, by norm_num⟩

/-- +0, -0, +Infinity, -Infinity and 1 meet the clauses between them. -/
theorem witness_FloatZerosAndInfinities :
    AtExecute (executing floats) (entry floats) ∧
    (IsFinite 0x8000000000000000#64 ∧ real 0 + real 0 = 0 ∧ real 0x3FF0000000000000 - real 0x3FF0000000000000 = 0) ∧
    (IsInfinite 0x7FF0000000000000#64 ∧ ¬ InvalidAdd 0x7FF0000000000000#64 0x7FF0000000000000#64 ∧
      ¬ InvalidSub 0x7FF0000000000000#64 0xFFF0000000000000#64 ∧ ¬ InvalidMul 0x7FF0000000000000#64 1#64 ∧
      ¬ IsNaN 0x7FF0000000000000#64) ∧
    (IsZero 0x8000000000000000#64 ∧ ¬ IsZero 1#64 ∧ IsFinite 0x7FEFFFFFFFFFFFFF#64) ∧
    DividesByZero 1#64 0x8000000000000000#64 ∧ ({} : Config).trapFpDivByZero = false := by
  refine ⟨atExecute _ _, ⟨by decide, by rw [real_zero]; norm_num, by ring⟩, by decide, by decide, by decide, rfl⟩

theorem witness_FloatInvalidAndDivideByZero :
    AtExecute (executing floats { trapFpInvalid := true, trapFpDivByZero := true }) (entry floats) ∧
    InvalidAdd 0x7FF0000000000001#64 0 ∧ InvalidAdd 0x7FF0000000000000#64 0xFFF0000000000000#64 ∧
    InvalidSub 0x7FF0000000000000#64 0x7FF0000000000000#64 ∧ InvalidMul 0 0x7FF0000000000000#64 ∧ InvalidDiv 0 0 ∧
    (¬ InvalidAdd 0x7FF8000000000000#64 0 ∧ IsNaN 0x7FF8000000000000#64) ∧ DividesByZero 1#64 0 := by
  refine ⟨atExecute _ _, by decide, by decide, by decide, by decide, by decide, by decide, by decide⟩

theorem witness_FloatMovesCopyPatterns : AtExecute (executing floats) (entry floats) := atExecute _ _

/-- 1 rounds to itself; 2^63 rounds outside the range; an infinity is not finite. -/
theorem witness_FloatConversions :
    AtExecute (executing floats) (entry floats) ∧ (entry [(f 1, 0)]).f 1 = 0 ∧
    (IsFinite ((entry floats).f 1) ∧ RoundedInt (real ((entry floats).f 1)) 1 ∧ -(2 : ℤ) ^ 63 ≤ 1 ∧ (1 : ℤ) < 2 ^ 63) ∧
    ¬ IsFinite 0x7FF0000000000000#64 ∧
    (RoundedInt (real 0x43E0000000000000) (2 ^ 63) ∧ ¬ (-(2 : ℤ) ^ 63 ≤ 2 ^ 63 ∧ (2 : ℤ) ^ 63 < 2 ^ 63)) := by
  have h1 : real ((entry floats).f 1) = 1 := real_one
  refine ⟨atExecute _ _, by decide, ⟨by decide, ?_, by norm_num, by norm_num⟩, by decide, ?_, by norm_num⟩
  · rw [h1]
    constructor <;> norm_num
  · rw [real_two_to_63]
    constructor <;> norm_num

theorem witness_FloatCompares :
    AtExecute (executing floats { trapFpInvalid := true }) (entry floats) ∧ ¬ IsNaN ((entry floats).f 1) ∧ ¬ IsNaN ((entry floats).f 2) ∧
    IsNaN 0x7FF8000000000000#64 ∧ ¬ IsSignalling 0x7FF8000000000000#64 ∧ IsSignalling 0x7FF0000000000001#64 := by
  refine ⟨atExecute _ _, by decide, by decide, by decide, by decide, by decide⟩

/-! ### Memory -/

/-- An entry with a latched address. -/
def accessing (ea : Word) : Entry := { inst := .instr ⟨.nop, 0x100, 0⟩, ea := ea, sval := 0x1122334455667788 }

theorem atMemory (ea : Word) (cfg : Config) : AtMemory (holding .MEM (accessing ea) cfg) (accessing ea) := ⟨rfl, rfl⟩

/-- The last address of each width, in either byte order. -/
theorem witness_LoadsDeliverTheBytesOfMemory :
    AtMemory (holding .MEM (accessing 4088) { byteOrder := .big }) (accessing 4088) ∧
    Accessible {} (accessing 4095).ea 1 ∧ Accessible {} (accessing 4094).ea 2 ∧ Accessible {} (accessing 4092).ea 4 ∧
    Accessible { byteOrder := .big } (accessing 4088).ea 8 := by
  refine ⟨atMemory _ _, by decide, by decide, by decide, by decide⟩

theorem witness_StoresWriteTheirBytesOnly :
    AtMemory (holding .MEM (accessing 4088)) (accessing 4088) ∧ (holding .MEM (accessing 4088)).memSound ∧
    Accessible {} (accessing 4095).ea 1 ∧ Accessible {} (accessing 4094).ea 2 ∧ Accessible {} (accessing 4092).ea 4 ∧
    Accessible {} (accessing 4088).ea 8 := by
  refine ⟨atMemory _ _, ⟨rfl, rfl⟩, by decide, by decide, by decide, by decide⟩

/-- The first address past each kind of check. -/
theorem witness_FailingAccessesRaiseAndDoNothingElse :
    AtMemory (holding .MEM (accessing 1)) (accessing 1) ∧ ¬ Accessible {} (accessing 4096).ea 1 ∧
    ¬ Accessible {} (accessing 1).ea 2 ∧ ¬ Accessible {} (accessing 4096).ea 4 ∧
    ¬ Accessible {} (accessing 0xFFFFFFFFFFFFFFF8).ea 8 := by
  refine ⟨atMemory _ _, by decide, by decide, by decide, by decide⟩

theorem witness_StoreThenLoadReturnsTheValue : Memory.wf bytes8 = true ∧ 1 ∈ [1, 2, 4, 8] ∧ 8 ∈ [1, 2, 4, 8] := by decide

theorem witness_OtherInstructionsPassMemory :
    AtMemory (holding .MEM (accessing 1)) (accessing 1) ∧ (Instr.add 3 1 2).kind ≠ .load ∧ (Instr.add 3 1 2).kind ≠ .store := by
  refine ⟨atMemory _ _, by decide, by decide⟩

/-! ### Write-back -/

/-- An entry that has completed with results. -/
def completed (res : List (RegId × Word)) (sys : SysClass := .none) : Entry :=
  { inst := .instr ⟨.syscall 1, 0x100, 0x4C⟩, res := res, sys := sys }

theorem atWriteBack (e : Entry) (cfg : Config) : AtWriteBack (holding .WB e cfg) e := ⟨rfl, rfl⟩

theorem witness_WriteBackCommitsTheResults :
    (AtWriteBack (holding .WB (completed [(.hi, 1), (.lo, 2)])) (completed [(.hi, 1), (.lo, 2)]) ∧
      ((completed [(.hi, 1), (.lo, 2)]).res.map Prod.fst).Nodup ∧ (completed [(.hi, 1), (.lo, 2)]).sys ≠ .call) ∧
    (AtWriteBack (holding .WB (completed [(.fcc, 2)] .halt)) (completed [(.fcc, 2)] .halt) ∧
      ((completed [(.fcc, 2)] .halt).res.map Prod.fst).Nodup ∧ (completed [(.fcc, 2)] .halt).sys ≠ .call) ∧
    ((x 31, 7) ∈ (completed [(x 31, 7), (x 0, 9)]).res ∧ x 31 ≠ .gpr 0 ∧ x 1 ∉ (completed [(x 31, 7), (x 0, 9)]).res.map Prod.fst) := by
  refine ⟨⟨atWriteBack _ _, by decide, by decide⟩, ⟨atWriteBack _ _, by decide, by decide⟩, by decide⟩

theorem witness_TableCallsRunTheirCallbackAtWriteBack :
    AtWriteBack (holding .WB (completed [] .call) { syscalls := [1] }) (completed [] .call) ∧ (completed [] .call).sys = .call ∧
    (completed [] .call).res = [] ∧ (x 31 ≠ x 0 ∧ 4095 < ({} : Config).memSize) := by
  refine ⟨atWriteBack _ _, rfl, rfl, by decide⟩

/-! ### Decode and the hazard unit -/

/-- A load of `r4` in Execute, its address computed, and an addition to `r4` in Memory. -/
def hazard : State :=
  { State.reset with
    turn := .ID
    slots :=
      { ID := some { inst := .instr ⟨.daddi 5 4 1, 0x108, 0x60850001⟩ }
        EX := some { inst := .instr ⟨.ld 4 1 0, 0x104, 0xDC240000⟩, done := true }
        MEM := some { inst := .instr ⟨.daddi 6 0 3, 0x100, 0x60060003⟩, done := true, res := [(x 6, 3)] } } }

theorem witness_DecodeCapturesEverySource :
    AtDecode hazard { inst := .instr ⟨.daddi 5 4 1, 0x108, 0x60850001⟩ } ∧ sourceValue hazard (x 4) = none ∧
    sourceValue hazard (x 6) = some 3 ∧ sourceValue hazard (x 0) = some 0 ∧ sourceValue hazard (x 1) = some 0 := by
  refine ⟨⟨rfl, rfl⟩, by decide, by decide, by decide, by decide⟩

theorem witness_ForwardingGivesTheSequentialValue :
    hazard.resultsSound ∧ hazard.resolve (x 6) = some 3 ∧ hazard.resolve (x 0) = some 0 ∧ hazard.resolve (x 1) = some 0 := by
  refine ⟨⟨?_, ?_⟩, by decide, by decide, by decide⟩
  · intro e he _
    obtain rfl : _ = e := Option.some.inj he
    exact ⟨⟨by decide, by decide, by decide⟩, fun hl => absurd hl (by decide)⟩
  · intro e he _
    obtain rfl : _ = e := Option.some.inj he
    refine ⟨rfl, ⟨by decide, by decide, by decide⟩, ?_⟩
    intro r hr
    obtain rfl : r = x 6 := by simpa [Entry.dsts, Instr.dsts, gprDst, x] using hr
    exact ⟨3, rfl⟩

/-- In each stage's turn a meaning answers a next state. -/
theorem witness_EveryStageKeepsItsFrame :
    (∃ t, exec (.add 3 1 2) (executing [(x 1, 1), (x 2, 2)]) = .next t) ∧ (∃ t, exec (.sd 2 1 0) (holding .MEM (accessing 8)) = .next t) ∧
    (∃ t, exec (.add 3 1 2) (holding .WB (completed [(x 3, 3)])) = .next t) ∧ (∃ t, exec (.daddi 5 4 1) hazard = .next t) :=
  ⟨⟨_, rfl⟩, ⟨_, rfl⟩, ⟨_, rfl⟩, ⟨_, rfl⟩⟩

/-! ### Exceptions and the cycle -/

theorem witness_TakingAnException :
    handlerOf overflowing.cfg .overflow = some 0x100 ∧ handlerOf overflowing.cfg .breakpoint = none ∧
    (Stage.MEM = .ID ∨ Stage.MEM = .EX ∨ Stage.MEM = .MEM) ∧
    ({ overflowing with ctrl := .flushRequested 2 8 } : State).ctrl = .flushRequested 2 8 := by decide

theorem witness_FaultTokensRaiseInDecode :
    (holding .ID { inst := .faultToken .misaligned 2 }).slots.get .ID = some { inst := .faultToken .misaligned 2 } ∧
    (holding .ID { inst := .faultToken .misaligned 2, discard := true }).slots.get .ID =
      some { inst := .faultToken .misaligned 2, discard := true } ∧
    (holding .IF { inst := .faultToken .misaligned 2 }).slots.get .IF = some { inst := .faultToken .misaligned 2 } ∧
    (∃ p, (behind 0x10000001 2).slots.EX = some p ∧ p.discard = false ∧ p.done = false ∧ LeavesThePath (behind 0x10000001 2) p) ∧
    (∃ t f p, step (behind 0x14000001 1) = .next t ∧ t.report.fault = some f ∧ f.stage = .ID ∧ t.slots.EX = some p ∧
      p.discard = false ∧ p.done = true) ∧
    ∃ t f p, step (behind 0x14000001 2) = .next t ∧ t.report.fault = some f ∧ f.stage = .ID ∧ t.slots.EX = some p ∧
      p.discard = false ∧ p.done = false :=
  ⟨rfl, rfl, rfl, ⟨_, rfl, rfl, rfl, _, _, _, rfl, rfl, rfl, rfl, .inl rfl⟩, ⟨_, _, _, rfl, rfl, rfl, rfl, rfl, rfl⟩,
    _, _, _, rfl, rfl, rfl, rfl, rfl, rfl⟩

/-- A pending fatal exception, with nothing left to drain and with an older instruction on its way to Memory. -/
def draining (older : Option Entry) : State :=
  { State.reset with slots := { EX := older }, fatalPending := some (.overflow, 0x100) }

theorem witness_FatalDrainEndsInFatal :
    (∀ o, (draining o).ctrl.isHalted = false ∧ (draining o).ctrl.isFatal = false) ∧
    (∃ t, stagePhase (draining none).boundary = .next t ∧ t.ctrl = .normal ∧ t.fatalPending = some (.overflow, 0x100) ∧
      t.slots.MEM = none) ∧
    (∃ t e, stagePhase (draining (some { entry [] with done := true })).boundary = .next t ∧ t.ctrl = .normal ∧
      t.fatalPending = some (.overflow, 0x100) ∧ t.slots.MEM = some e ∧ e.discard = false) :=
  ⟨fun _ => ⟨rfl, rfl⟩, ⟨_, rfl, rfl, rfl, rfl⟩, ⟨_, _, rfl, rfl, rfl, rfl, rfl⟩⟩

/-- A program of two words at 0x100, the second of which does not decode. -/
def loaded : State := { State.reset with prog := [0x00221820, 1], base := 0x100, pc := 0x100 }

theorem witness_FetchReadsTheStream :
    (0x108 : Word).toNat = loaded.base.toNat + 4 * loaded.prog.length ∧
    ((0x102 : Word).toNat ≠ loaded.base.toNat + 4 * loaded.prog.length ∧ (0x102 : Word).toNat % 4 ≠ 0) ∧
    ((0xFC : Word).toNat % 4 = 0 ∧ (0xFC : Word).toNat < loaded.base.toNat ∧ loaded.base.toNat % 4 = 0) ∧
    ((0x10C : Word).toNat % 4 = 0 ∧ loaded.base.toNat + 4 * loaded.prog.length < (0x10C : Word).toNat) ∧
    (loaded.prog[0]? = some 0x00221820 ∧ (0x100 : Word).toNat = loaded.base.toNat + 4 * 0 ∧
      decodeWord 0x00221820 = .ok (.add 3 1 2)) ∧
    (loaded.prog[1]? = some 1 ∧ (0x104 : Word).toNat = loaded.base.toNat + 4 * 1 ∧
      decodeWord 1 = .error .invalidInstruction) := by decide

/-- Nothing discarded, with the slots given. -/
def occupied (id ex : Option Entry) : State := { State.reset with slots := { IF := some (entry []), ID := id, EX := ex } }

theorem not_busy {s : State} (h : ∀ x, kept s.slots.EX = some x → x.done = true) : ¬ Busy s := by
  rintro ⟨x, hx, hd⟩
  rw [h x hx] at hd
  cases hd

/-- An entry of Execute that is marked for discard gives its marker back. -/
def dropping : Option Entry := some { entry [] with inst := .instr ⟨.add 3 1 2, 0x100, 0x00221820⟩, discard := true }

theorem witness_SlotsAdvanceInOrder :
    (Busy (occupied (some (entry [])) (some (entry []))) ∧ ¬ FrontMoves (occupied (some (entry [])) (some (entry [])))) ∧
    (¬ Busy (occupied (some { entry [] with ready := true }) none) ∧
      kept (occupied (some { entry [] with ready := true }) none).slots.ID = some { entry [] with ready := true } ∧
      FrontMoves (occupied (some { entry [] with ready := true }) none)) ∧
    (¬ Busy (occupied (some (entry [])) dropping) ∧ kept (occupied (some (entry [])) dropping).slots.ID = some (entry []) ∧
      droppedMarks dropping (x 3) = 1) ∧
    (kept (occupied none none).slots.ID = none ∧ FrontMoves (occupied none none) ∧ (occupied none none).ctrl = .normal ∧
      (occupied none none).haltPending = false ∧ (occupied none none).fatalPending = none) := by
  have busy : Busy (occupied (some (entry [])) (some (entry []))) := ⟨_, rfl, rfl⟩
  have free : ¬ Busy (occupied (some { entry [] with ready := true }) none) := not_busy (by intro y h; cases h)
  refine ⟨⟨busy, ?_⟩, ⟨free, rfl, .inr (.inr ⟨_, rfl, rfl, free⟩)⟩, ⟨not_busy (by intro y h; cases h), rfl, by decide⟩,
    rfl, .inr (.inl rfl), rfl, rfl, rfl⟩
  rintro (h | h | ⟨d, -, -, h⟩)
  · cases h
  · cases h
  · exact h busy

/-- A redirect back to the first word. -/
def redirected : State :=
  { loaded with
    pc := 0x108, ctrl := .flushRequested 2 0x100
    slots := { IF := some { entry [] with discard := true }, ID := some { entry [] with discard := true } } }

theorem witness_RedirectFetchesTheTarget :
    redirected.ctrl = .flushRequested 2 0x100 ∧ redirected.haltPending = false ∧ redirected.fatalPending = none ∧
    (∀ e, redirected.slots.ID = some e → e.discard = true) ∧ (∀ e, redirected.slots.IF = some e → e.discard = true) := by
  refine ⟨rfl, rfl, rfl, ?_, ?_⟩ <;>
    · intro e h
      obtain rfl : _ = e := Option.some.inj h
      rfl

theorem witness_PendingHaltOrFatalStopsFetch :
    (({ loaded with haltPending := true } : State).haltPending = true ∧ loaded.ctrl = .normal ∧
      ∀ e, loaded.slots.IF = some e → e.discard = true) ∧
    ({ loaded with fatalPending := some (.overflow, 0) } : State).fatalPending ≠ none := by
  refine ⟨⟨rfl, rfl, ?_⟩, by decide⟩
  intro e h
  cases h

/-- A completed entry in Memory and nothing else. -/
def retiring : State := { State.reset with slots := { MEM := some (completed [(x 3, 3)]) } }

theorem witness_StepRunsTheDecodedInstruction :
    (FrontMoves loaded ∧ loaded.ctrl = .normal ∧ loaded.haltPending = false ∧ loaded.fatalPending = none ∧
      loaded.fetchAt loaded.pc = some (decodeAt loaded.pc 0x00221820) ∧ loaded.prog[0]? = some 0x00221820 ∧
      loaded.pc.toNat = loaded.base.toNat + 4 * 0 ∧ loaded.base.toNat % 4 = 0 ∧ decodeWord 0x00221820 = .ok (.add 3 1 2)) ∧
    (loaded.prog[1]? = some 1 ∧ ({ loaded with pc := 0x104 } : State).pc.toNat = loaded.base.toNat + 4 * 1 ∧
      decodeWord 1 = .error .invalidInstruction) ∧
    (∃ e t, retiring.ctrl.isHalted = false ∧ retiring.ctrl.isFatal = false ∧ Stage.WB ≠ .IF ∧
      retiring.boundary.slots.get .WB = some e ∧ e.inst = .instr ⟨.syscall 1, 0x100, 0x4C⟩ ∧ e.discard = false ∧
      (∀ u, u ≠ .WB → u ≠ .IF → retiring.boundary.slots.get u = none) ∧
      exec (.syscall 1) { retiring.boundary with turn := .WB } = .next t) := by
  refine ⟨⟨.inl rfl, rfl, rfl, rfl, rfl, rfl, rfl, rfl, by decide⟩, ⟨rfl, rfl, by decide⟩, _, _, rfl, rfl, by decide, rfl, rfl,
    rfl, ?_, rfl⟩
  intro u h1 _
  cases u <;> first
    | rfl
    | exact absurd rfl h1

theorem witness_TerminalEnginesStay :
    ({ State.reset with ctrl := .halted } : State).terminal ∧ ({ State.reset with ctrl := .fatal .overflow 0 } : State).terminal :=
  ⟨.inl rfl, .inr rfl⟩

theorem witness_EveryStepIsCounted : ¬ hazard.terminal ∧ ∃ t, step hazard = .next t := by
  refine ⟨?_, _, rfl⟩
  rintro (h | h) <;> cases h

theorem witness_ConstructionGivesTheFreshState :
    (∃ s, construct { image := [(4095, 0xFF), (4096, 1)] } = .next s) ∧
    (([(4095, 0xFF), (4096, 1)] : List Host.Cell).map Prod.fst).Nodup ∧
    ((4095, 0xFF) ∈ ([(4095, 0xFF), (4096, 1)] : List Host.Cell) ∧ 4095 < ({} : Config).memSize) ∧
    ∀ c ∈ ([(4095, 0xFF), (4096, 1)] : List Host.Cell), c.1 ≠ 0 := by
  refine ⟨⟨_, rfl⟩, by decide, by decide, by decide⟩

/-! ### Sound states -/

/-- A finished addition to `r3` on its way to Write-back, behind it a store to address 8. -/
def moving : State :=
  { State.reset with
    pend := PendingMarks.mark {} [x 3]
    slots :=
      { EX := some
          { inst := .instr ⟨.sd 2 1 0, 4, 0xFC220000⟩, ops := [(x 1, 8), (x 2, 5)], done := true, ea := 8, sval := 5 }
        MEM := some
          { inst := .instr ⟨.add 3 1 2, 0, 0x00221820⟩, ops := [(x 1, 8), (x 2, 5)], done := true, res := [(x 3, 13)] } } }

theorem moving_sound : moving.Inv := by
  refine ⟨⟨rfl, rfl⟩, rfl, ?_, ⟨?_, ?_, ?_, ?_⟩, ⟨?_, ?_, ?_, ?_⟩, ⟨?_, ?_⟩, rfl⟩
  · intro r
    have h0 : PendingMarks.get {} r = 0 := by cases r <;> simp [PendingMarks.get, regGet]
    show (PendingMarks.mark {} [x 3]).get r = 0 + [x 3].count r
    rw [get_mark, h0]
  · intro e h
    obtain rfl : _ = e := Option.some.inj h
    exact ⟨_, rfl⟩
  · intro e h
    obtain rfl : _ = e := Option.some.inj h
    exact ⟨_, rfl⟩
  · intro e h
    cases h
  · intro e h
    cases h
  · intro e h
    obtain rfl : _ = e := Option.some.inj h
    intro r hr
    have hr : r = x 1 ∨ r = x 2 := by
      have h2 : r = x 2 ∨ r = x 1 ∨ False := by
        simp only [Entry.srcs, Instr.srcs, List.mem_cons, List.not_mem_nil, or_false] at hr
        simp only [x]
        tauto
      tauto
    rcases hr with rfl | rfl <;> exact ⟨_, rfl⟩
  · intro e h
    obtain rfl : _ = e := Option.some.inj h
    intro r hr
    have hr : r = x 1 ∨ r = x 2 := by
      simp only [Entry.srcs, Instr.srcs, List.mem_cons, List.not_mem_nil, or_false] at hr
      exact hr
    rcases hr with rfl | rfl <;> exact ⟨_, rfl⟩
  · intro e h
    cases h
  · intro e h
    cases h
  · intro e h _
    obtain rfl : _ = e := Option.some.inj h
    exact ⟨⟨by decide, by decide, by decide⟩, fun _ r hr => by cases hr⟩
  · intro e h _
    obtain rfl : _ = e := Option.some.inj h
    refine ⟨rfl, ⟨by decide, by decide, by decide⟩, ?_⟩
    intro r hr
    obtain rfl : r = x 3 := by simpa [Entry.dsts, Instr.dsts, gprDst, x] using hr
    exact ⟨13, rfl⟩

theorem witness_StepKeepsSoundStates : moving.Inv ∧ ∃ t, step moving = .next t := ⟨moving_sound, _, rfl⟩

theorem witness_OnlyDestinationsChange :
    moving.Inv ∧ (∃ t, step moving = .next t) ∧
    ∀ e, moving.slots.MEM = some e → e.discard = false → x 4 ∉ e.dsts ∧ (e.sys = .call → x 4 = .hi ∨ x 4 = .lo ∨ x 4 = .fcc) := by
  refine ⟨moving_sound, ⟨_, rfl⟩, ?_⟩
  intro e h _
  obtain rfl : _ = e := Option.some.inj h
  exact ⟨by decide, fun hc => by cases hc⟩

/-- Address 16, the first past the store's bytes. -/
theorem witness_OnlyStoresAndCallsChangeMemory :
    moving.Inv ∧ (∃ t, step moving = .next t) ∧ (∀ e, moving.slots.MEM = some e → e.discard = false → e.sys ≠ .call) ∧
    (∀ e i, moving.slots.EX = some e → e.discard = false → e.done = true → e.inst = .instr i → i.op.kind = .store →
      ∀ n, (i.op.mnemonic, n) ∈ [(Mnemonic.SB, 1), (.SH, 2), (.SW, 4), (.SD, 8), (.SDC1, 8)] →
        ¬ Accessible moving.cfg e.ea n ∨ 16 < e.ea.toNat ∨ e.ea.toNat + n ≤ 16) := by
  refine ⟨moving_sound, ⟨_, rfl⟩, ?_, ?_⟩
  · intro e h _ hc
    obtain rfl : _ = e := Option.some.inj h
    cases hc
  · intro e i h _ _ hi _ n hn
    obtain rfl : _ = e := Option.some.inj h
    injection hi with hi
    subst hi
    have h8 : n = 8 := by simpa [Instr.mnemonic] using hn
    subst h8
    exact .inr (.inr (by decide))

/-- An engine at rest before its last word, `DADDU r3, r1, r2`. -/
def resting : State :=
  { State.reset with prog := [0x0022182D], x := (State.reset.x.set 1 7).set 2 5 }

theorem resting_sound : resting.Inv := by
  refine ⟨⟨rfl, rfl⟩, rfl, ?_, ⟨?_, ?_, ?_, ?_⟩, ⟨?_, ?_, ?_, ?_⟩, ⟨?_, ?_⟩, rfl⟩
  · intro r
    show PendingMarks.get {} r = 0
    cases r <;> simp [PendingMarks.get, regGet]
  all_goals
    intro e h
    cases h

theorem witness_AddDoublewordRetiresInFiveCycles :
    decodeWord 0x0022182D = .ok (.daddu 3 1 2) ∧ resting.Inv ∧ resting.slots = {} ∧ resting.ctrl = .normal ∧
    resting.haltPending = false ∧ resting.fatalPending = none ∧ resting.cfg.lat.intALU = 1 ∧ .DADDU ∉ resting.cfg.checked ∧
    resting.fetchAt resting.pc = some (decodeAt resting.pc 0x0022182D) ∧
    resting.pc.toNat + 4 = resting.base.toNat + 4 * resting.prog.length ∧ resting.pc.toNat + 4 < 2 ^ 64 := by
  refine ⟨by decide, resting_sound, rfl, rfl, rfl, rfl, rfl, by decide, rfl, by decide, by decide⟩

end Sys2Proof.Tests
end

section
/-! PROOFS. What Execute answers in an instruction's last cycle there (R164), and the divides (41_integer_arith.md R243 to
R246). -/
namespace Sys2Proof.Machine

open Sys2Proof.Claims

/-! ## Execute, the last cycle -/

section
variable {unit : Config → Entry → ExecResult} {s : State} {e : Entry} {k : ExcKind} {res : List (RegId × Word)}

/-- In Execute a meaning is its unit run on the entry in that slot. -/
theorem compute_atExecute (h : AtExecute s e) : compute unit s = .next (executeStage unit e s) := by
  obtain ⟨hturn, hslot, -⟩ := h
  have hget : s.slots.get s.turn = some e := by rw [hturn]; exact hslot
  rw [compute, runStage_at hget, hturn]

/-- A unit that latches results leaves Execute with them and nothing else. -/
theorem compute_latch (h : AtExecute s e) (hu : unit s.cfg e.unexecuted = e.unexecuted.latch res) :
    compute unit s = .next (finished s e res) := by
  rw [compute_atExecute h, executeStage_latched (Nat.le_of_eq h.2.2) hu rfl rfl]
  rfl

/-- A unit that raises takes the exception at the instruction's own address. -/
theorem compute_raise (h : AtExecute s e) (hu : unit s.cfg e.unexecuted = .raise k) :
    compute unit s = .next (s.takeException .EX k e.pc e.pc) := by
  rw [compute_atExecute h, executeStage_raise (Nat.le_of_eq h.2.2) hu]

/-- A unit that raises under a condition and latches otherwise. -/
theorem compute_raise_or_latch {p : Prop} [Decidable p] (h : AtExecute s e)
    (hu : unit s.cfg e.unexecuted = if p then .raise k else e.unexecuted.latch res) :
    if p then compute unit s = .next (s.takeException .EX k e.pc e.pc)
    else compute unit s = .next (finished s e res) := by
  split_ifs with hp
  · exact compute_raise h (by rw [hu, if_pos hp])
  · exact compute_latch h (by rw [hu, if_neg hp])

end

/-! ## Division at any width (R11, R221) -/

/-- The only signed quotient that overflows is the least value over -1. -/
theorem overflowsSigned_quot_iff (c : Config) (m : Mnemonic) {w : Nat} (hw : 1 < w) (a b : BitVec w) :
    overflowsSigned c m w (quot a.toInt b.toInt) = true ↔ m ∈ c.checked ∧ a = BitVec.intMin w ∧ b = -1 := by
  rw [overflowsSigned_iff, quot_fits w hw, not_not]

/-- What DIV and DDIV have in common: the unit of a signed divide on `w`-bit operands, `ext` carrying its results to 64 bits. -/
def divideSigned (m : Mnemonic) {w : Nat} (ext : BitVec w → Word) (a b : BitVec w) (c : Config) (e : Entry) : ExecResult :=
  if b.toInt = 0 then .raise .divideByZero
  else if overflowsSigned c m w (quot a.toInt b.toInt) then .raise .overflow
  else hiLo e (ext (BitVec.ofInt w (rem a.toInt b.toInt))) (ext (BitVec.ofInt w (quot a.toInt b.toInt)))

/-- What DIVU and DDIVU have in common. -/
def divideUnsigned {w : Nat} (ext : BitVec w → Word) (a b : BitVec w) (e : Entry) : ExecResult :=
  if b.toNat = 0 then .raise .divideByZero
  else hiLo e (ext (BitVec.ofNat w (a.toNat % b.toNat))) (ext (BitVec.ofNat w (a.toNat / b.toNat)))

theorem divideSigned_of_ne_zero (m : Mnemonic) {w : Nat} (hw : 1 < w) (ext : BitVec w → Word) (a : BitVec w) {b : BitVec w}
    (hb : b ≠ 0) (c : Config) (e : Entry) :
    divideSigned m ext a b c e =
      if m ∈ c.checked ∧ a = BitVec.intMin w ∧ b = -1 then .raise .overflow
      else e.latch [(.hi, ext (a.srem b)), (.lo, ext (a.sdiv b))] := by
  have hne : b.toInt ≠ 0 := fun h0 => hb (BitVec.eq_of_toInt_eq (h0.trans BitVec.toInt_zero.symm))
  simp only [divideSigned, if_neg hne, overflowsSigned_quot_iff c m hw, ofInt_rem, ofInt_quot, hiLo]

theorem divideUnsigned_of_ne_zero {w : Nat} (ext : BitVec w → Word) (a : BitVec w) {b : BitVec w} (hb : b ≠ 0) (e : Entry) :
    divideUnsigned ext a b e = e.latch [(.hi, ext (a % b)), (.lo, ext (a / b))] := by
  have hne : b.toNat ≠ 0 := fun h0 => hb (BitVec.eq_of_toNat_eq h0)
  rw [divideUnsigned, if_neg hne, ← BitVec.umod_def, ← BitVec.udiv_def, hiLo]

/-! ## The four divides (R243 to R246) -/

theorem exec_div (rs rt : RegNum) (s : State) :
    exec (.div rs rt) s = compute (fun c e => divideSigned .DIV sext32to64 (low (e.x rs)) (low (e.x rt)) c e) s := by
  simp only [low, ← lowWord_eq]
  rfl

theorem exec_divu (rs rt : RegNum) (s : State) :
    exec (.divu rs rt) s = compute (fun _ e => divideUnsigned sext32to64 (low (e.x rs)) (low (e.x rt)) e) s := by
  simp only [low, ← lowWord_eq]
  rfl

theorem exec_ddiv (rs rt : RegNum) (s : State) :
    exec (.ddiv rs rt) s = compute (fun c e => divideSigned .DDIV id (e.x rs) (e.x rt) c e) s := rfl

theorem exec_ddivu (rs rt : RegNum) (s : State) :
    exec (.ddivu rs rt) s = compute (fun _ e => divideUnsigned id (e.x rs) (e.x rt) e) s := rfl

/-- Settles O12: each divide runs one of the two common units, whose results for a nonzero divisor are the quotient and the
remainder of the bit vectors, but for a checked signed divide of the least value by -1. -/
theorem divideIntoHiAndLo : Obligations.DivideIntoHiAndLo := by
  intro s e rs rt h
  rw [exec_div, exec_divu, exec_ddiv, exec_ddivu]
  refine ⟨fun hb => ⟨?_, ?_⟩, fun hb => ⟨?_, ?_⟩⟩
  · exact compute_raise_or_latch h (divideSigned_of_ne_zero .DIV (by decide) sext32to64 _ hb s.cfg e.unexecuted)
  · exact compute_latch h (divideUnsigned_of_ne_zero sext32to64 _ hb e.unexecuted)
  · exact compute_raise_or_latch h (divideSigned_of_ne_zero .DDIV (by decide) id _ hb s.cfg e.unexecuted)
  · exact compute_latch h (divideUnsigned_of_ne_zero id _ hb e.unexecuted)

end Sys2Proof.Machine
end

section
/-! PROOFS. The invariant of a sound state between cycles (40_pipeline.md R180): what the stage phase as a whole keeps of it,
and that every step does. -/
namespace Sys2Proof.Machine

/-! ## The stage phase as a whole -/

section
variable {s t : State}

theorem stagePhase_mid (hs : s.Mid) (h : stagePhase s = .next t) : t.Mid := by
  obtain ⟨a, b, c, hwb, hmem, hex, hid⟩ := stagePhase_split h
  exact stageTurn_mid (stageTurn_mid (stageTurn_mid (stageTurn_mid hs hwb) hmem) hex) hid

theorem stagePhase_writes (h : stagePhase s = .next t) (st : Stage) (r : RegId) :
    writesIn (t.slots.get st) r = writesIn (s.slots.get st) r := by
  obtain ⟨a, b, c, hwb, hmem, hex, hid⟩ := stagePhase_split h
  rw [turn_writes hid, turn_writes hex, turn_writes hmem, turn_writes hwb]

/-- The markers go down by what Write-back's entry had set, and by nothing else (R40, R160). -/
theorem stagePhase_pend (h : stagePhase s = .next t) (hd : ∀ e, s.slots.WB = some e → e.discard = false)
    (hi : holdsInstr s.slots.WB) (r : RegId) : t.pend.get r = s.pend.get r - writesIn s.slots.WB r := by
  obtain ⟨a, b, c, hwb, hmem, hex, hid⟩ := stagePhase_split h
  rw [turn_pend (by decide) hid, turn_pend (by decide) hex, turn_pend (by decide) hmem, turn_wb_pend hwb hd hi]

/-- What Execute and Memory hold at the end of the stage phase may be forwarded (R162, R164, R171): each has run since the
boundary, and the later turns put discard marks on it only. -/
theorem stagePhase_results (h : stagePhase s = .next t) (ht : s.tokensSound) (hx : Unrun s.slots.EX)
    (hm : Ran s.slots.MEM) : t.resultsSound := by
  obtain ⟨a, b, c, hwb, hmem, hex, hid⟩ := stagePhase_split h
  obtain ⟨hiEX, hiMEM, -, -⟩ := ht
  have memAtTurn : Marked s.slots.MEM a.slots.MEM := turn_other hwb .MEM (by decide)
  have exAfterWB : Marked s.slots.EX a.slots.EX := turn_other hwb .EX (by decide)
  have exAtTurn : Marked a.slots.EX b.slots.EX := turn_other hmem .EX (by decide)
  have memDone : MemOk b.slots.MEM := turn_mem hmem (memAtTurn.instr hiMEM) (hm.marked memAtTurn)
  have exDone : ExOk c.slots.EX :=
    turn_ex hex (exAtTurn.instr (exAfterWB.instr hiEX)) ((hx.marked exAfterWB).marked exAtTurn)
  have memKept : MemOk c.slots.MEM := memDone.marked (turn_other hex .MEM (by decide))
  exact ⟨exDone.marked (turn_other hid .EX (by decide)), memKept.marked (turn_other hid .MEM (by decide))⟩

/-- The stage phase of a sound state's cycle leaves each marker at the number of writers in Execute and Memory (R180). -/
theorem cycle_marks (hs : s.Inv) (h : stagePhase s.boundary = .next t) : t.marksSound := by
  intro r
  obtain ⟨-, -, hclean⟩ := boundary_runs hs
  obtain ⟨-, -, hinstr, -⟩ := (boundary_mid hs).tokens
  have hx : writesIn t.slots.EX r = writesIn s.boundary.slots.EX r := stagePhase_writes h .EX r
  have hm : writesIn t.slots.MEM r = writesIn s.boundary.slots.MEM r := stagePhase_writes h .MEM r
  rw [stagePhase_pend h hclean hinstr, boundary_marks hs.marks, hx, hm]
  omega

/-! ## The end of the cycle -/

/-- The controller's resolution and the account touch nothing that soundness speaks of but the turn, which they end. -/
theorem resolveFatal_account_inv (hmid : s.Mid) (hmarks : s.marksSound) (hres : s.resultsSound) :
    s.resolveFatal.account.Inv := by
  have hslots : s.resolveFatal.account.slots = s.slots := by simp
  obtain ⟨hmem, hzero, htok, hops⟩ := Mid.congr (t := s.resolveFatal.account) (by simp) (by simp) (by simp) hslots hmid
  refine ⟨hmem, hzero, fun r => ?_, htok, hops, ?_, account_turn _⟩
  · rw [hslots, account_pend, resolveFatal_pend]
    exact hmarks r
  · unfold State.resultsSound
    rw [hslots]
    exact hres

theorem step_terminal_eq (hterm : s.terminal) (h : step s = .next t) : t = s.terminalStep := by
  rw [step_terminal hterm] at h
  injection h with h
  exact h.symm

theorem terminalStep_inv (hs : s.Inv) : s.terminalStep.Inv :=
  ⟨hs.mem, hs.zero, hs.marks, hs.tokens, hs.operands, hs.results, hs.rest⟩

end

/-- Settles O57: the boundary makes a sound state sound in mid-cycle, with Write-back's writes still on the markers; the stage
phase keeps that, takes them off and completes Execute and Memory; the end of the cycle gives the turn back. -/
theorem stepKeepsSoundStates : Obligations.StepKeepsSoundStates := by
  intro s t hs h
  by_cases hterm : s.terminal
  · obtain rfl := step_terminal_eq hterm h
    exact terminalStep_inv hs
  · obtain ⟨u, hu, rfl⟩ := step_split hterm h
    obtain ⟨hunrun, hran, -⟩ := boundary_runs hs
    have hmid := boundary_mid hs
    exact resolveFatal_account_inv (stagePhase_mid hmid hu) (cycle_marks hs hu)
      (stagePhase_results hu hmid.tokens hunrun hran)

end Sys2Proof.Machine
end

section
/-! PROOFS. The registers an instruction names (30_encoding.md R103, R175), and the fresh state of a reset and of a launch
(10_state.md R49). -/
namespace Sys2Proof.Machine

/-! ## The registers an instruction names -/

@[simp] theorem gpr_zero_notMem_gprDst (r : RegNum) : RegId.gpr 0#5 ∉ gprDst r := by
  unfold gprDst
  split
  · exact List.not_mem_nil
  · rename_i hr
    intro h
    obtain rfl : 0#5 = r := by simpa using h
    exact hr rfl

@[simp] theorem hi_notMem_gprDst (r : RegNum) : RegId.hi ∉ gprDst r := fun h => by cases gprDst_only r _ h
@[simp] theorem lo_notMem_gprDst (r : RegNum) : RegId.lo ∉ gprDst r := fun h => by cases gprDst_only r _ h
@[simp] theorem fcc_notMem_gprDst (r : RegNum) : RegId.fcc ∉ gprDst r := fun h => by cases gprDst_only r _ h

theorem gpr_zero_notMem_dsts (i : Instr) : RegId.gpr 0 ∉ i.dsts := by
  cases i <;> simp [Instr.dsts]

theorem hi_mem_dsts_iff (i : Instr) :
    RegId.hi ∈ i.dsts ↔ i.mnemonic ∈ [.MULT, .MULTU, .DMULT, .DMULTU, .DIV, .DIVU, .DDIV, .DDIVU] := by
  cases i <;> simp [Instr.dsts, Instr.mnemonic]

theorem lo_mem_dsts_iff (i : Instr) : RegId.lo ∈ i.dsts ↔ RegId.hi ∈ i.dsts := by
  cases i <;> simp [Instr.dsts]

theorem fcc_mem_dsts_iff (i : Instr) : RegId.fcc ∈ i.dsts ↔ i.mnemonic ∈ [.C_EQ_D, .C_LT_D] := by
  cases i <;> simp [Instr.dsts, Instr.mnemonic]

theorem hi_mem_srcs_iff (i : Instr) : RegId.hi ∈ i.srcs ↔ i.mnemonic = .MFHI := by
  cases i <;> simp [Instr.srcs, Instr.mnemonic]

theorem lo_mem_srcs_iff (i : Instr) : RegId.lo ∈ i.srcs ↔ i.mnemonic = .MFLO := by
  cases i <;> simp [Instr.srcs, Instr.mnemonic]

theorem fcc_mem_srcs_iff (i : Instr) : RegId.fcc ∈ i.srcs ↔ i.mnemonic ∈ [.BC1F, .BC1T] := by
  cases i <;> simp [Instr.srcs, Instr.mnemonic]

/-- Settles O6, register by register: a case for each row of R103's table. -/
theorem specialRegistersAreNamedOnlyByTheirInstructions : Obligations.SpecialRegistersAreNamedOnlyByTheirInstructions :=
  fun i => ⟨gpr_zero_notMem_dsts i, hi_mem_dsts_iff i, lo_mem_dsts_iff i, hi_mem_srcs_iff i, lo_mem_srcs_iff i,
    fcc_mem_dsts_iff i, fcc_mem_srcs_iff i⟩

/-! ## Fresh states -/

@[simp] theorem regGet_replicate {α : Type} (a : α) (i : RegNum) : regGet (Vector.replicate 32 a) i = a := by
  simp [regGet]

@[simp] theorem readReg_reset (r : RegId) : State.reset.readReg r = 0 := by
  cases r <;> simp [State.readReg, State.reset, boolWord]

@[simp] theorem get_noMarks (r : RegId) : PendingMarks.get {} r = 0 := by
  cases r <;> simp [PendingMarks.get]

@[simp] theorem get_noSlots (st : Stage) : Slots.get {} st = none := by
  cases st <;> rfl

/-- A state with nothing in flight and no marker set is sound when its memory and its hard-wired register are and no stage has
its turn. -/
theorem inv_of_empty {s : State} (hslots : s.slots = {}) (hpend : s.pend = {}) (hmem : s.memSound) (hzero : s.zeroSound)
    (hrest : s.atRest) : s.Inv := by
  refine ⟨hmem, hzero, fun r => ?_, ?_, ?_, ?_, hrest⟩
  · rw [hslots, hpend, get_noMarks]
    rfl
  · simp [State.tokensSound, hslots, holdsInstr]
  · simp [State.operandsSound, hslots]
  · simp [State.resultsSound, hslots]

/-- What construction answers: the fresh state with the launch's inputs and its image in memory. -/
theorem construct_next {l : Launch} {s : State} (h : construct l = .next s) :
    s = { State.reset with
      cfg := l.cfg, base := l.base, prog := l.prog, pc := l.base, mem := Memory.ofCells l.cfg.memSize l.image } := by
  unfold construct at h
  split at h
  · injection h with h
    exact h.symm
  · cases h

/-- An image that names no address twice has no later byte for an address it gives. -/
theorem split_of_mem_nodup {cells : List Host.Cell} {a : Nat} {b : Byte} (hn : (cells.map Prod.fst).Nodup)
    (h : (a, b) ∈ cells) : ∃ before rest, cells = before ++ (a, b) :: rest ∧ ∀ c ∈ rest, c.1 ≠ a := by
  obtain ⟨before, rest, rfl⟩ := List.append_of_mem h
  refine ⟨before, rest, rfl, fun c hc hca => ?_⟩
  rw [List.map_append, List.map_cons] at hn
  have hnot : a ∉ rest.map Prod.fst := (List.nodup_cons.mp (List.nodup_append.mp hn).2.1).1
  exact hnot (List.mem_map.mpr ⟨c, hc, hca⟩)

/-- Settles O56: at reset nothing is in flight, no marker is set and memory lists no byte. -/
theorem resetIsSound : Obligations.ResetIsSound :=
  inv_of_empty rfl rfl ⟨rfl, rfl⟩ (regGet_replicate 0 0) rfl

/-- Settles O53, field by field. -/
theorem resetIsTheFreshState : Obligations.ResetIsTheFreshState :=
  ⟨readReg_reset, get_noMarks, fun _ => rfl, rfl, rfl, rfl, get_noSlots, rfl, rfl, rfl⟩

/-- Settles O55: a constructed state is the fresh one but for the launch's own inputs, and its memory is the one made of the
image's cells. -/
theorem constructionGivesTheFreshState : Obligations.ConstructionGivesTheFreshState := by
  intro l s h
  obtain rfl := construct_next h
  refine ⟨inv_of_empty rfl rfl (Memory.ofCells_sound _ _) (regGet_replicate 0 0) rfl, rfl, rfl, rfl, rfl, rfl, rfl, rfl, rfl,
    rfl, readReg_reset, get_noMarks, get_noSlots, fun a b hn hab ha => ?_, fun a ha => ?_⟩
  · obtain ⟨before, rest, himage, hlast⟩ := split_of_mem_nodup hn hab
    exact (Memory.byte_ofCells l.cfg.memSize l.image a).2 b before rest himage hlast ha
  · exact (Memory.byte_ofCells l.cfg.memSize l.image a).1 (.inl ha)

end Sys2Proof.Machine
end

section
/-! PROOFS. Write-back, its table call apart and with it (40_pipeline.md R160, 46_system.md R413), and forwarding (R171,
R176). -/
namespace Sys2Proof.Machine

open Sys2Proof.Claims

/-! ## Registers written -/

theorem writeReg_eq (s : State) (r : RegId) (v : Word) :
    s.writeReg r v = { s with
      x := (s.writeReg r v).x, f := (s.writeReg r v).f, HI := (s.writeReg r v).HI, LO := (s.writeReg r v).LO
      FCC := (s.writeReg r v).FCC } := by
  cases r with
  | gpr i =>
    by_cases hi : i = 0
    · simp [State.writeReg, hi]
    · rw [writeReg_gpr s i v hi]
  | _ => rfl

/-- Committing results changes the register files, HI, LO and FCC only. -/
theorem writeRegs_eq (res : List (RegId × Word)) (s : State) :
    s.writeRegs res = { s with
      x := (s.writeRegs res).x, f := (s.writeRegs res).f, HI := (s.writeRegs res).HI, LO := (s.writeRegs res).LO
      FCC := (s.writeRegs res).FCC } := by
  induction res generalizing s with
  | nil => rfl
  | cons p rest ih =>
    obtain ⟨r, v⟩ := p
    rw [State.writeRegs, ih, writeReg_eq s r v]

/-- A list that names each register once has the value it lists for a register. -/
theorem valueOf_of_mem {r : RegId} {v : Word} {res : List (RegId × Word)} (hn : (res.map Prod.fst).Nodup)
    (h : (r, v) ∈ res) : valueOf r res = some v := by
  induction res with
  | nil => cases h
  | cons p rest ih =>
    obtain ⟨q, u⟩ := p
    obtain ⟨hq, hrest⟩ := List.nodup_cons.mp hn
    rw [valueOf_cons]
    rcases List.mem_cons.mp h with heq | hmem
    · injection heq with hr hv
      rw [if_pos hr.symm, hv]
    · have hne : q ≠ r := fun hqr => hq (List.mem_map.mpr ⟨(r, v), hmem, hqr.symm⟩)
      rw [if_neg hne, ih hrest hmem]

/-! ## Write-back -/

section
variable {s : State} {e : Entry}

/-- In Write-back every instruction is the commit of the entry in that slot. -/
theorem exec_atWriteBack (i : Instr) (h : AtWriteBack s e) : exec i s = .next (writeBackStage e s) := by
  obtain ⟨hturn, hslot⟩ := h
  obtain ⟨unit, access, hx, -, -⟩ := exec_shape i
  have hget : s.slots.get s.turn = some e := by rw [hturn]; exact hslot
  rw [hx, runStage_at hget, hturn]

@[simp] theorem writeBackStage_pend (e : Entry) (s : State) : (writeBackStage e s).pend = s.pend.unmark e.dsts := by
  simp [writeBackStage]

/-- A call's callback reaches the two register files only; without one Write-back leaves what the results left. -/
theorem readReg_writeBackStage {r : RegId} (h : e.sys = .call → r = .hi ∨ r = .lo ∨ r = .fcc) :
    (writeBackStage e s).readReg r = (s.writeRegs e.res).readReg r := by
  unfold writeBackStage State.commitCall
  cases hsys : e.sys with
  | none => exact readReg_congr rfl rfl rfl rfl rfl r
  | halt => exact readReg_congr rfl rfl rfl rfl rfl r
  | call => rcases h hsys with rfl | rfl | rfl <;> rfl

theorem writeBackStage_mem (h : e.sys ≠ .call) : (writeBackStage e s).mem = s.mem := by
  unfold writeBackStage State.commitCall
  cases hsys : e.sys with
  | call => exact absurd hsys h
  | _ => simp

theorem writeBackStage_ctrl (e : Entry) (s : State) :
    (writeBackStage e s).ctrl = if e.sys = .halt then .halted else s.ctrl := by
  unfold writeBackStage State.commitCall
  cases e.sys <;> simp [runCallback]

/-- Write-back without a table call changes registers, markers, its slot and, for the halt call, the controller. -/
theorem writeBackStage_eq (h : e.sys ≠ .call) :
    writeBackStage e s = { s with
      x := (writeBackStage e s).x, f := (writeBackStage e s).f, HI := (writeBackStage e s).HI
      LO := (writeBackStage e s).LO, FCC := (writeBackStage e s).FCC, pend := (writeBackStage e s).pend
      ctrl := if e.sys = .halt then .halted else s.ctrl
      slots := { s.slots with WB := some { e with done := true } } } := by
  unfold writeBackStage State.commitCall
  rw [writeRegs_eq e.res s]
  cases hsys : e.sys with
  | call => exact absurd hsys h
  | _ => rfl

/-- A table call's entry has no results: Write-back is the callback's call on the registers and memory as they stand (R413). -/
theorem writeBackStage_call (hsys : e.sys = .call) (hres : e.res = []) :
    writeBackStage e s =
      (runCallback (Config.callback e.callNumber) { s with pend := s.pend.unmark e.dsts }).putEntry .WB
        { e with done := true } := by
  rw [writeBackStage, hres, State.commitCall, hsys]
  rfl

end

/-- Settles O35: the results are written in order, and an entry names each register once, so each named register ends with its
own result. -/
theorem writeBackCommitsTheResults : Obligations.WriteBackCommitsTheResults := by
  intro i s e hat hn hcall
  have hread : ∀ r, (writeBackStage e s).readReg r = (s.writeRegs e.res).readReg r :=
    fun r => readReg_writeBackStage (fun h => absurd h hcall)
  refine ⟨_, exec_atWriteBack i hat, fun r v hv hr => ?_, fun r hr => ?_, readReg_zero _, fun r => ?_, writeBackStage_eq hcall⟩
  · rw [hread, readReg_writeRegs_named e.res r v hr s hn (valueOf_of_mem hn hv)]
    rfl
  · rw [hread, readReg_writeRegs_other e.res r s hr]
  · rw [writeBackStage_pend, get_unmark]

/-- Settles O34: with no results of its own the entry's commit is the callback's call; the memory it leaves is the one made
of the cells the callback returns. -/
theorem tableCallsRunTheirCallbackAtWriteBack : Obligations.TableCallsRunTheirCallbackAtWriteBack := by
  intro s e i hat hsys hres
  have hexec : exec i s = _ := (exec_atWriteBack i hat).trans (congrArg _ (writeBackStage_call hsys hres))
  refine ⟨_, hexec, readReg_zero _, fun r hr => ?_, rfl, fun a b hcell ha => ?_, fun a ha => ?_, Memory.ofCells_sound _ _, rfl⟩
  · rw [readReg_gpr _ r hr]
    exact (regGet_regSet _ 0 r 0).trans (if_neg (Ne.symm hr))
  · obtain ⟨before, rest, hcells, hlast⟩ := hcell
    exact (Memory.byte_ofCells _ _ a).2 b before rest hcells hlast ha
  · exact (Memory.byte_ofCells _ _ a).1 ha

/-! ## Forwarding -/

/-- An entry's result for one of its destinations is what the register holds once the entry has committed (R171). -/
theorem readReg_writeRegs_forwarded {e : Entry} {r : RegId} (hn : e.named) (hd : e.delivered) (hr : r ∈ e.dsts)
    (hr0 : r ≠ .gpr 0) (s : State) : (s.writeRegs e.res).readReg r = (valueOf r e.res).getD 0 := by
  obtain ⟨honce, -, hbit⟩ := hn
  obtain ⟨v, hv⟩ := hd r hr
  rw [readReg_writeRegs_named e.res r v hr0 s honce hv, hv, Option.getD_some, written]
  split
  · exact (hbit (r, v) (mem_of_valueOf hv) ‹_›).symm
  · rfl

/-- Committing an entry leaves every register that is no destination of it. -/
theorem readReg_writeRegs_notMem_dsts {e : Entry} {r : RegId} (hn : e.named) (hr : r ∉ e.dsts) (s : State) :
    (s.writeRegs e.res).readReg r = s.readReg r := by
  obtain ⟨-, hown, -⟩ := hn
  by_cases hr0 : r = .gpr 0
  · rw [hr0]
    exact (readReg_zero _).trans (readReg_zero _).symm
  · refine readReg_writeRegs_other e.res r s fun hmem => ?_
    obtain ⟨p, hp, rfl⟩ := List.mem_map.mp hmem
    exact (hown p hp).elim hr0 hr

theorem writerIn_eq_some {o : Option Entry} {r : RegId} {p : Entry} :
    writerIn o r = some p ↔ o = some p ∧ p.discard = false ∧ r ∈ p.dsts := by
  cases o with
  | none => simp [writerIn]
  | some e =>
    simp only [writerIn, Bool.and_eq_true, Bool.not_eq_true', List.contains_iff_mem, Option.ite_none_right_eq_some,
      Option.some.injEq]
    constructor
    · rintro ⟨⟨hd, hr⟩, rfl⟩
      exact ⟨rfl, hd, hr⟩
    · rintro ⟨rfl, hd, hr⟩
      exact ⟨⟨hd, hr⟩, rfl⟩

/-- What a slot's entry will commit: its results, or nothing when it is marked for discard. -/
def pendingResults (o : Option Entry) : List (RegId × Word) :=
  match o with
  | some p => if p.discard then [] else p.res
  | none => []

theorem pendingResults_of_live {o : Option Entry} {p : Entry} (ho : o = some p) (hd : p.discard = false) :
    pendingResults o = p.res := by
  simp [pendingResults, ho, hd]

/-- With no writer of a register in a slot, what the slot commits leaves it. -/
theorem readReg_pendingResults_of_no_writer {o : Option Entry} {r : RegId} (hw : writerIn o r = none)
    (hn : ∀ p, o = some p → p.discard = false → p.named) (s : State) :
    (s.writeRegs (pendingResults o)).readReg r = s.readReg r := by
  cases o with
  | none => rfl
  | some p =>
    cases hd : p.discard with
    | true => rw [pendingResults, if_pos hd]; rfl
    | false =>
      rw [pendingResults_of_live rfl hd]
      refine readReg_writeRegs_notMem_dsts (hn p rfl hd) (fun hr => ?_) s
      rw [writerIn_eq_some.mpr ⟨rfl, hd, hr⟩] at hw
      cases hw

/-- Execute's entry has completed. -/
def exDone (s : State) : Bool :=
  match s.slots.EX with
  | some p => p.done
  | none => false

/-- The results that Execute adds to a sequential commit: those of a completed entry. -/
def executeResults (s : State) : List (RegId × Word) := if exDone s then pendingResults s.slots.EX else []

/-- Memory's writer forwards what the register holds after Memory's commit, and without one the register file does. -/
theorem resolve_memory {s : State} {r : RegId} {v : Word} (hs : s.resultsSound) (hr0 : r ≠ .gpr 0)
    (hx : writerIn s.slots.EX r = none) (h : s.resolve r = some v) :
    (s.writeRegs (pendingResults s.slots.MEM)).readReg r = v := by
  obtain ⟨-, hmem⟩ := hs
  rw [State.resolve, if_neg hr0, hx] at h
  cases hm : writerIn s.slots.MEM r with
  | some p =>
    rw [hm] at h
    obtain ⟨hslot, hd, hr⟩ := writerIn_eq_some.mp hm
    obtain ⟨-, hn, hdel⟩ := hmem p hslot hd
    rw [pendingResults_of_live hslot hd, readReg_writeRegs_forwarded hn hdel hr hr0]
    exact Option.some.inj h
  | none =>
    rw [hm] at h
    rw [readReg_pendingResults_of_no_writer hm (fun p hp hd => (hmem p hp hd).2.1)]
    exact Option.some.inj h

/-- The producer in Execute is the youngest (R176): its value is the register's after its commit, whatever Memory left; with
none Memory's stays. -/
theorem resolve_sequential {s : State} {r : RegId} {v : Word} (hs : s.resultsSound) (h : s.resolve r = some v) :
    ((s.writeRegs (pendingResults s.slots.MEM)).writeRegs (executeResults s)).readReg r = v := by
  by_cases hr0 : r = .gpr 0
  · subst hr0
    rw [State.resolve, if_pos rfl] at h
    exact (readReg_zero _).trans (Option.some.inj h)
  have hex := hs.1
  cases hw : writerIn s.slots.EX r with
  | some p =>
    obtain ⟨hslot, hd, hr⟩ := writerIn_eq_some.mp hw
    rw [State.resolve, if_neg hr0, hw] at h
    obtain ⟨hrun, hv⟩ := (Option.ite_none_left_eq_some ..).mp h
    obtain ⟨hdone, hload⟩ : p.done = true ∧ p.isLoad = false := by simpa using hrun
    obtain ⟨hn, hdel⟩ := hex p hslot hdone
    have hres : executeResults s = p.res := by
      simp [executeResults, exDone, hslot, hdone, pendingResults_of_live rfl hd]
    rw [hres, readReg_writeRegs_forwarded hn (hdel hload) hr hr0]
    exact Option.some.inj hv
  | none =>
    have hmem := resolve_memory hs hr0 hw h
    cases hdone : exDone s with
    | false => simpa [executeResults, hdone, State.writeRegs] using hmem
    | true =>
      rw [executeResults, if_pos hdone, readReg_pendingResults_of_no_writer hw]
      · exact hmem
      · intro p hp _
        simp only [exDone, hp] at hdone
        exact (hex p hp hdone).1

/-- Settles O38: what each slot commits is `pendingResults`, and the hazard unit's choice among them is the youngest writer. -/
theorem forwardingGivesTheSequentialValue : Obligations.ForwardingGivesTheSequentialValue :=
  fun _ _ _ hs h => resolve_sequential hs h

end Sys2Proof.Machine
end

section
/-! PROOFS. The frame of every instruction in every stage (10_state.md R33, R38), and what a whole step leaves of the
registers and of data memory (R184, 20_memory.md R89). -/
namespace Sys2Proof.Machine

open Sys2Proof.Claims

/-! ## What an instruction's part of a stage is -/

/-- Everything `exec` can do, by the turn: nothing, or that stage's operation on the entry in its slot, with the
instruction's own access in Memory. -/
theorem exec_cases {i : Instr} {s t : State} (h : exec i s = .next t) :
    t = s ∨ (∃ e, s.turn = .ID ∧ t = decodeStage e s) ∨ (∃ u e, s.turn = .EX ∧ t = executeStage u e s) ∨
    (∃ a e, s.turn = .MEM ∧ AccessSound i a ∧ t = memoryStage a e s) ∨
    ∃ e, s.turn = .WB ∧ s.slots.WB = some e ∧ t = writeBackStage e s := by
  obtain ⟨u, a, hx, -, ha⟩ := exec_shape i
  rw [hx] at h
  rcases runStage_turns h with ht | ⟨e, hid, -, ht⟩ | ⟨e, hex, -, ht⟩ | ⟨e, hmem, -, ht⟩ | ⟨e, hwb, hslot, ht⟩
  · exact .inl ht
  · exact .inr (.inl ⟨e, hid, ht⟩)
  · exact .inr (.inr (.inl ⟨u, e, hex, ht⟩))
  · exact .inr (.inr (.inr (.inl ⟨a, e, hmem, ha, ht⟩)))
  · exact .inr (.inr (.inr (.inr ⟨e, hwb, hslot, ht⟩)))

/-! ## The terminal controller states (R42, R440) -/

/-- A change of the controller that enters neither `Halted` nor `Fatal`. -/
def EntersNoEnd (c d : Ctrl) : Prop := (d.isHalted = true → c.isHalted = true) ∧ (d.isFatal = true → c.isFatal = true)

theorem EntersNoEnd.refl (c : Ctrl) : EntersNoEnd c c := ⟨id, id⟩

theorem EntersNoEnd.flush (c : Ctrl) (d : Nat) (a : Word) : EntersNoEnd c (.flushRequested d a) :=
  ⟨nofun, nofun⟩

theorem takeException_entersNoEnd (s : State) (t : Stage) (k : ExcKind) (pc a : Word) :
    EntersNoEnd s.ctrl (s.takeException t k pc a).ctrl := by
  rcases takeException_cases s t k pc a with ⟨h, -, ht⟩ | ⟨-, ht⟩ <;> rw [ht]
  · exact .flush _ _ _
  · cases hc : s.ctrl with
    | flushRequested d p => exact ⟨nofun, nofun⟩
    | _ => exact .refl _

theorem afterExecute_entersNoEnd (s : State) (e : Entry) : EntersNoEnd s.ctrl (s.afterExecute e).ctrl := by
  unfold State.afterExecute
  split
  · exact .flush _ _ _
  · cases e.sys with
    | call => exact .flush _ _ _
    | _ => exact .refl _

theorem executeStage_entersNoEnd (u : Config → Entry → ExecResult) (e : Entry) (s : State) :
    EntersNoEnd s.ctrl (executeStage u e s).ctrl := by
  rcases executeStage_cases u e s with ⟨-, h⟩ | ⟨-, k, -, h⟩ | ⟨-, r, -, h⟩ <;> rw [h]
  · exact .refl _
  · exact takeException_entersNoEnd s _ _ _ _
  · exact afterExecute_entersNoEnd _ _

theorem memoryStage_entersNoEnd (a : Access) (e : Entry) (s : State) : EntersNoEnd s.ctrl (memoryStage a e s).ctrl := by
  rcases memoryStage_cases a e s with ⟨k, h⟩ | ⟨m, res, -, -, h⟩ <;> rw [h]
  · exact takeException_entersNoEnd s _ _ _ _
  · exact .refl _

/-! ## The frame, piece by piece -/

section
variable {i : Instr} {s t : State}

theorem exec_turn (h : exec i s = .next t) : t.turn = s.turn := by
  rcases exec_cases h with rfl | ⟨e, -, rfl⟩ | ⟨u, e, -, rfl⟩ | ⟨a, e, -, -, rfl⟩ | ⟨e, -, -, rfl⟩ <;> simp

/-- No stage but Write-back writes a register (R33). -/
theorem exec_registers (ht : s.turn ≠ .WB) (h : exec i s = .next t) :
    t.x = s.x ∧ t.f = s.f ∧ t.HI = s.HI ∧ t.LO = s.LO ∧ t.FCC = s.FCC := by
  rcases exec_cases h with rfl | ⟨e, -, rfl⟩ | ⟨u, e, -, rfl⟩ | ⟨a, e, -, -, rfl⟩ | ⟨e, hwb, -, -⟩
  case inr.inr.inr.inr => exact absurd hwb ht
  all_goals simp

theorem exec_entersNoEnd (ht : s.turn ≠ .WB) (h : exec i s = .next t) : EntersNoEnd s.ctrl t.ctrl := by
  rcases exec_cases h with rfl | ⟨e, -, rfl⟩ | ⟨u, e, -, rfl⟩ | ⟨a, e, -, -, rfl⟩ | ⟨e, hwb, -, -⟩
  · exact .refl _
  · exact .refl _
  · exact executeStage_entersNoEnd u e s
  · exact memoryStage_entersNoEnd a e s
  · exact absurd hwb ht

theorem exec_fatal (h : exec i s = .next t) (hf : t.ctrl.isFatal = true) : s.ctrl.isFatal = true := by
  rcases exec_cases h with rfl | ⟨e, -, rfl⟩ | ⟨u, e, -, rfl⟩ | ⟨a, e, -, -, rfl⟩ | ⟨e, -, -, rfl⟩
  · exact hf
  · exact hf
  · exact (executeStage_entersNoEnd u e s).2 hf
  · exact (memoryStage_entersNoEnd a e s).2 hf
  · rw [writeBackStage_ctrl] at hf
    split at hf
    · cases hf
    · exact hf

theorem memoryStage_mem_of_not_store {a : Access} (ha : ∀ w, a ≠ .store w) (e : Entry) (s : State) :
    (memoryStage a e s).mem = s.mem := by
  rcases memoryStage_cases a e s with ⟨k, h⟩ | ⟨m, res, hm, -, h⟩ <;> rw [h]
  · exact takeException_mem s _ _ _ _
  · rcases hm with rfl | ⟨w, hw, -⟩
    · rfl
    · exact absurd hw (ha w)

/-- Only a store in Memory and a table call in Write-back change bytes (R89). -/
theorem exec_mem_unless (hs : s.turn = .MEM → i.kind ≠ .store)
    (hc : s.turn = .WB → ∀ e, s.slots.WB = some e → e.sys ≠ .call) (h : exec i s = .next t) : t.mem = s.mem := by
  rcases exec_cases h with rfl | ⟨e, -, rfl⟩ | ⟨u, e, -, rfl⟩ | ⟨a, e, ht, ha, rfl⟩ | ⟨e, ht, hslot, rfl⟩
  · rfl
  · rfl
  · exact executeStage_mem u e s
  · refine memoryStage_mem_of_not_store (fun w hw => ?_) e s
    subst hw
    cases ha with
    | store _ hk => exact hs ht hk
  · exact writeBackStage_mem (hc ht e hslot)

theorem exec_haltPending (ht : s.turn ≠ .EX) (h : exec i s = .next t) : t.haltPending = s.haltPending := by
  rcases exec_cases h with rfl | ⟨e, -, rfl⟩ | ⟨u, e, hex, -⟩ | ⟨a, e, -, -, rfl⟩ | ⟨e, -, -, rfl⟩
  case inr.inr.inl => exact absurd hex ht
  all_goals simp

/-- Fetch's and Decode's turns leave the controller and the report. -/
theorem exec_control_early (ht : s.turn = .IF ∨ s.turn = .ID) (h : exec i s = .next t) :
    t.ctrl = s.ctrl ∧ t.fatalPending = s.fatalPending ∧ t.report = s.report := by
  rcases exec_cases h with rfl | ⟨e, -, rfl⟩ | ⟨u, e, hn, -⟩ | ⟨a, e, hn, -, -⟩ | ⟨e, hn, -, -⟩
  · exact ⟨rfl, rfl, rfl⟩
  · exact ⟨rfl, rfl, rfl⟩
  all_goals
    rw [hn] at ht
    rcases ht with ht | ht <;> cases ht

end

/-- Settles O41: each stage's frame is its operation's, and no instruction's part of a stage is more than that operation. -/
theorem everyStageKeepsItsFrame : Obligations.EveryStageKeepsItsFrame := by
  intro i s t h
  obtain ⟨hcfg, hbase, hprog, hpc, hcycle, hstalls, -⟩ := exec_keeps h
  refine ⟨hcfg, hbase, hprog, hpc, hcycle, hstalls, exec_turn h, fun hwb => ?_, fun hwb => (exec_entersNoEnd hwb h).1,
    exec_fatal h, fun hwb hmem => exec_mem_unless (absurd · hmem) (absurd · hwb) h,
    fun ht hk => exec_mem_unless (fun _ => hk) (by simp [ht]) h,
    fun ht hc => exec_mem_unless (by simp [ht]) (fun _ => hc) h, fun ht => exec_haltPending ht h, fun ht => exec_control_early ht h⟩
  obtain ⟨hx, hf, hHI, hLO, hFCC⟩ := exec_registers hwb h
  exact ⟨hx, hf, hHI, hLO, hFCC, exec_pend hwb h⟩

/-! ## What a step leaves -/

/-- A turn in Write-back: nothing, or the commit of the entry there, which is not discarded. -/
theorem turn_writeBack {s u : State} (h : stageTurn .WB s = .next u) :
    u = s ∨ ∃ e, s.slots.WB = some e ∧ e.discard = false ∧ u = writeBackStage e { s with turn := .WB } := by
  rcases stageTurn_cases h with ⟨hu, -⟩ | ⟨e, i, hslot, hd, -, hx⟩ | ⟨e, k, a, -, -, -, ⟨hid, -⟩, -⟩
  · exact .inl hu
  · have hcommit := exec_atWriteBack (s := { s with turn := .WB }) i.op ⟨rfl, hslot⟩
    rw [hcommit] at hx
    injection hx with hx
    exact .inr ⟨e, hslot, hd, hx.symm⟩
  · cases hid

/-- A register that Write-back's entry does not write keeps its value through the stage phase. -/
theorem stagePhase_readReg {s t : State} {r : RegId} (h : stagePhase s = .next t)
    (hn : ∀ e, s.slots.WB = some e → e.named)
    (hr : ∀ e, s.slots.WB = some e → r ∉ e.dsts ∧ (e.sys = .call → r = .hi ∨ r = .lo ∨ r = .fcc)) :
    t.readReg r = s.readReg r := by
  obtain ⟨a, b, c, hwb, hmem, hex, hid⟩ := stagePhase_split h
  rw [turn_regs (by decide) hid, turn_regs (by decide) hex, turn_regs (by decide) hmem]
  rcases turn_writeBack hwb with rfl | ⟨e, hslot, -, rfl⟩
  · rfl
  · obtain ⟨hdst, hcall⟩ := hr e hslot
    rw [readReg_writeBackStage hcall, readReg_writeRegs_notMem_dsts (hn e hslot) hdst]
    exact readReg_congr rfl rfl rfl rfl rfl r

/-- Settles O58: the entry that Memory hands over is Write-back's in this step, and it names its own destinations only. -/
theorem onlyDestinationsChange : Obligations.OnlyDestinationsChange := by
  intro s t r hs h hr
  by_cases hterm : s.terminal
  · obtain rfl := step_terminal_eq hterm h
    exact readReg_congr rfl rfl rfl rfl rfl r
  · obtain ⟨u, hu, rfl⟩ := step_split hterm h
    have hphase : u.readReg r = s.boundary.readReg r := by
      refine stagePhase_readReg hu (boundary_named hs) fun e he => ?_
      obtain ⟨d, hd, hlive, rfl⟩ := (boundary_entries s).1 e he
      exact hr d hd hlive
    calc u.resolveFatal.account.readReg r
        = u.readReg r := readReg_congr (by simp) (by simp) (by simp) (by simp) (by simp) r
      _ = s.boundary.readReg r := hphase
      _ = s.readReg r := readReg_congr (by simp) (by simp) (by simp) (by simp) (by simp) r

/-- The width of every store, by its mnemonic (R72). -/
def storeWidths : List (Mnemonic × Nat) := [(.SB, 1), (.SH, 2), (.SW, 4), (.SD, 8), (.SDC1, 8)]

/-- A byte is apart from the store of an entry: the entry is no store, or its access fails, or the byte is none of its own. -/
def ApartFromStore (c : Config) (e : Entry) (a : Nat) : Prop :=
  ∀ i, e.inst = .instr i → i.op.kind = .store → ∀ n, (i.op.mnemonic, n) ∈ storeWidths →
    ¬ Accessible c e.ea n ∨ a < e.ea.toNat ∨ e.ea.toNat + n ≤ a

/-- Memory's part of an instruction leaves every byte that is apart from its store. -/
theorem exec_byte_apart {i : Instruction} {s t : State} {e : Entry} {a : Nat} (hat : AtMemory s e) (hi : e.inst = .instr i)
    (hwf : Memory.wf s.mem = true) (ha : ApartFromStore s.cfg e a) (h : exec i.op s = .next t) :
    t.mem.byte a = s.mem.byte a := by
  obtain ⟨hturn, hslot⟩ := hat
  by_cases hk : i.op.kind = .store
  · obtain ⟨w, ⟨unit, hx⟩, hw⟩ := store_width i.op hk
    have hget : s.slots.get s.turn = some e := by rw [hturn]; exact hslot
    rw [hx, runStage_at hget, hturn] at h
    injection h with h
    subst h
    show Memory.byte (memoryStage (.store w) e s).mem a = _
    cases hf : accessFault s.cfg.memSize e.ea w.bytes with
    | some k => rw [memoryStage_store_fault hf, takeException_mem]
    | none =>
      rw [memoryStage_store hf]
      rcases ha i hi hk w.bytes hw with hna | hout
      · exact absurd (accessFault_none.mp hf) hna
      · exact byte_memWrite_outside _ _ _ _ _ hwf a hout
  · rw [exec_mem_unless (fun _ => hk) (by simp [hturn]) h]

/-- A turn in Memory leaves every byte that is apart from the store of a live entry there. -/
theorem turn_memory_byte {s u : State} {a : Nat} (h : stageTurn .MEM s = .next u) (hwf : Memory.wf s.mem = true)
    (ha : ∀ e, s.slots.MEM = some e → e.discard = false → ApartFromStore s.cfg e a) : u.mem.byte a = s.mem.byte a := by
  rcases stageTurn_cases h with ⟨rfl, -⟩ | ⟨e, i, hslot, hd, hi, hx⟩ | ⟨e, k, b, -, -, -, ⟨hid, -⟩, -⟩
  · rfl
  · exact exec_byte_apart (s := { s with turn := .MEM }) ⟨rfl, hslot⟩ hi hwf (ha e hslot hd) hx
  · cases hid

/-- The stage phase leaves a byte that is apart from Memory's store when Write-back's entry is no table call. -/
theorem stagePhase_byte {s t : State} {a : Nat} (hs : s.Mid) (h : stagePhase s = .next t)
    (hc : ∀ e, s.slots.WB = some e → e.sys ≠ .call)
    (ha : ∀ e, s.slots.MEM = some e → ApartFromStore s.cfg e a) : t.mem.byte a = s.mem.byte a := by
  obtain ⟨b, c, d, hwb, hmem, hex, hid⟩ := stagePhase_split h
  have hbmem : b.mem = s.mem := by
    rcases turn_writeBack hwb with rfl | ⟨e, hslot, -, rfl⟩
    · rfl
    · exact writeBackStage_mem (hc e hslot)
  rw [turn_memory (.inr rfl) hid, turn_memory (.inl rfl) hex, ← hbmem]
  refine turn_memory_byte hmem (stageTurn_mid hs hwb).mem.1 fun e he hd => ?_
  obtain ⟨e', he', -, -, -, -, -, -, hsame⟩ := (turn_other hwb .MEM (by decide)).src he
  rw [hsame hd, (stageTurn_keeps hwb).cfg]
  exact ha e' he'

/-- Settles O59: the done entry that Execute hands over is Memory's in this step, and Memory's turn is the only one that can
change a byte. -/
theorem onlyStoresAndCallsChangeMemory : Obligations.OnlyStoresAndCallsChangeMemory := by
  intro s t a hs h hcall hstore
  by_cases hterm : s.terminal
  · obtain rfl := step_terminal_eq hterm h
    rfl
  · obtain ⟨u, hu, rfl⟩ := step_split hterm h
    obtain ⟨hWB, hMEM, -, -⟩ := boundary_entries s
    have hphase : u.mem.byte a = s.boundary.mem.byte a := by
      refine stagePhase_byte (boundary_mid hs) hu (fun e he => ?_) fun e he => ?_
      · obtain ⟨d, hd, hlive, rfl⟩ := hWB e he
        exact hcall d hd hlive
      · obtain ⟨d, hd, hlive, hdone, rfl⟩ := hMEM e he
        rw [boundary_cfg]
        exact fun i => hstore d i hd hlive hdone
    simpa using hphase

end Sys2Proof.Machine
end

section
/-! PROOFS. The boundary phase (40_pipeline.md R152 to R156), and what every step counts and reports (R41, R43, R178, R185). -/
namespace Sys2Proof.Machine

open Sys2Proof.Claims

/-! ## Discard (R152) -/

theorem keep_eq_kept (o : Option Entry) : keep o = kept o := by
  cases o with
  | none => rfl
  | some e => cases hd : e.discard <;> simp [keep, kept, hd]

theorem count_discardedDsts (o : Option Entry) (r : RegId) : (discardedDsts o).count r = droppedMarks o r := by
  cases o with
  | none => rfl
  | some e => cases hd : e.discard <;> simp [discardedDsts, droppedMarks, hd]

section
variable (s : State)

@[simp] theorem dropDiscarded_IF : s.dropDiscarded.slots.IF = kept s.slots.IF := keep_eq_kept _
@[simp] theorem dropDiscarded_ID : s.dropDiscarded.slots.ID = kept s.slots.ID := keep_eq_kept _
@[simp] theorem dropDiscarded_EX : s.dropDiscarded.slots.EX = kept s.slots.EX := keep_eq_kept _
@[simp] theorem dropDiscarded_MEM : s.dropDiscarded.slots.MEM = kept s.slots.MEM := keep_eq_kept _

theorem dropDiscarded_pend (r : RegId) :
    s.dropDiscarded.pend.get r = s.pend.get r - droppedMarks s.slots.EX r - droppedMarks s.slots.MEM r := by
  rw [← count_discardedDsts, ← count_discardedDsts, ← get_unmark, ← get_unmark]
  rfl

/-! ## Advance (R153, R154) -/

@[simp] theorem advance_WB : s.advance.slots.WB = s.slots.MEM := by
  unfold State.advance
  split <;> rfl

theorem advance_MEM : s.advance.slots.MEM = if s.slots.exBusy then none else s.slots.EX := by
  unfold State.advance
  split <;> rfl

theorem advance_ID : s.advance.slots.ID = if s.slots.idHolds then s.slots.ID else s.slots.IF := by
  unfold State.advance
  split <;> rfl

/-- Execute keeps a busy entry, and else takes the one that issues, with its latency. -/
theorem advance_EX : s.advance.slots.EX =
    if s.slots.exBusy then s.slots.EX else s.slots.issuing.map fun d => { d with rem := d.latency s.cfg } := by
  unfold State.advance
  cases s.slots.issuing <;> rfl

theorem advance_pend (r : RegId) : s.advance.pend.get r = s.pend.get r + writesIn s.slots.issuing r := by
  unfold State.advance
  cases s.slots.issuing with
  | none => rfl
  | some d => exact get_mark d.dsts r s.pend

end

/-! ### Which entry issues -/

theorem Slots.issuing_eq_some {sl : Slots} {d : Entry} :
    sl.issuing = some d ↔ sl.exBusy = false ∧ sl.ID = some d ∧ d.ready = true := by
  unfold Slots.issuing
  cases hb : sl.exBusy with
  | true => simp
  | false =>
    cases hid : sl.ID with
    | none => simp
    | some e =>
      simp only [Bool.false_eq_true, if_false, true_and, Option.ite_none_right_eq_some, Option.some.injEq]
      constructor
      · rintro ⟨hr, rfl⟩
        exact ⟨rfl, hr⟩
      · rintro ⟨rfl, hr⟩
        exact ⟨hr, rfl⟩

theorem Slots.issuing_eq_none {sl : Slots} :
    sl.issuing = none ↔ sl.exBusy = true ∨ ∀ d, sl.ID = some d → d.ready = false := by
  rw [Option.eq_none_iff_forall_ne_some]
  simp only [ne_eq, Slots.issuing_eq_some]
  cases sl.exBusy <;> simp

/-- Decode holds what it has unless that issues. -/
theorem Slots.idHolds_eq_false {sl : Slots} :
    sl.idHolds = false ↔ sl.ID = none ∨ ∃ d, sl.issuing = some d := by
  unfold Slots.idHolds
  cases sl.ID <;> cases sl.issuing <;> simp

/-! ## The claims' words for the boundary -/

theorem busy_iff {s : State} : Busy s ↔ s.dropDiscarded.slots.exBusy = true := by
  unfold Busy Slots.exBusy
  rw [dropDiscarded_EX]
  cases kept s.slots.EX <;> simp

theorem not_busy_iff {s : State} : ¬ Busy s ↔ s.dropDiscarded.slots.exBusy = false := by
  rw [busy_iff, Bool.not_eq_true]

theorem frontMoves_iff {s : State} :
    FrontMoves s ↔ s.dropDiscarded.slots.idHolds = false ∨ keep s.slots.IF = none := by
  have hissue : (∃ d, s.dropDiscarded.slots.issuing = some d) ↔
      ∃ d, kept s.slots.ID = some d ∧ d.ready = true ∧ ¬ Busy s := by
    refine exists_congr fun d => ?_
    rw [Slots.issuing_eq_some, dropDiscarded_ID, ← not_busy_iff, and_comm, and_assoc]
  rw [FrontMoves, Slots.idHolds_eq_false, hissue, dropDiscarded_ID, keep_eq_kept, or_comm]

section
variable {s : State}

/-! ## The slots and markers after a boundary -/

theorem boundary_WB : s.boundary.slots.WB = beginEntry (kept s.slots.MEM) := by
  obtain ⟨-, -, -, hWB, -⟩ := boundary_slots s
  rw [hWB, advance_WB, dropDiscarded_MEM]

/-- A busy Execute keeps its entry and lets none past. -/
theorem boundary_of_busy (hb : Busy s) :
    s.boundary.slots.MEM = none ∧ s.boundary.slots.EX = beginEntry (kept s.slots.EX) := by
  obtain ⟨-, hEX, hMEM, -, -⟩ := boundary_slots s
  rw [hEX, hMEM, advance_MEM, advance_EX, if_pos (busy_iff.mp hb), if_pos (busy_iff.mp hb), dropDiscarded_EX]
  exact ⟨rfl, rfl⟩

theorem boundary_MEM_of_free (hb : ¬ Busy s) : s.boundary.slots.MEM = beginEntry (kept s.slots.EX) := by
  obtain ⟨-, -, hMEM, -, -⟩ := boundary_slots s
  rw [hMEM, advance_MEM, not_busy_iff.mp hb, dropDiscarded_EX]
  rfl

theorem boundary_EX_of_free (hb : ¬ Busy s) : s.boundary.slots.EX =
    beginEntry (s.dropDiscarded.slots.issuing.map fun d => { d with rem := d.latency s.cfg }) := by
  obtain ⟨-, hEX, -, -, -⟩ := boundary_slots s
  rw [hEX, advance_EX, not_busy_iff.mp hb, dropDiscarded_cfg]
  rfl

theorem boundary_ID : s.boundary.slots.ID =
    beginEntry (if s.dropDiscarded.slots.idHolds then kept s.slots.ID else kept s.slots.IF) := by
  obtain ⟨hID, -, -, -, -⟩ := boundary_slots s
  rw [hID, advance_ID, dropDiscarded_ID, dropDiscarded_IF]

/-- Each marker is left with what discarded entries did not take, and with what the issuing entry adds. -/
theorem boundary_pend (r : RegId) : s.boundary.pend.get r =
    s.pend.get r - droppedMarks s.slots.EX r - droppedMarks s.slots.MEM r + writesIn s.dropDiscarded.slots.issuing r := by
  obtain ⟨-, -, -, -, hpend⟩ := boundary_slots s
  rw [hpend, advance_pend, dropDiscarded_pend]

/-- With no entry issuing a free Execute is left empty, and each marker as the discard left it. -/
theorem boundary_of_no_issue (h : s.dropDiscarded.slots.issuing = none) :
    (¬ Busy s → s.boundary.slots.EX = none) ∧
    ∀ r, s.boundary.pend.get r = s.pend.get r - droppedMarks s.slots.EX r - droppedMarks s.slots.MEM r := by
  refine ⟨fun hb => ?_, fun r => ?_⟩
  · rw [boundary_EX_of_free hb, h]
    rfl
  · rw [boundary_pend, h]
    rfl

/-- A ready entry of Decode enters a free Execute with its latency, its destinations marked, and leaves Decode to Fetch's. -/
theorem boundary_of_issue {d : Entry} (hid : kept s.slots.ID = some d) (hb : ¬ Busy s) (hr : d.ready = true) :
    s.boundary.slots.EX = beginEntry (some { d with rem := d.latency s.cfg }) ∧
    s.boundary.slots.ID = beginEntry (kept s.slots.IF) ∧
    ∀ r, s.boundary.pend.get r =
      s.pend.get r - droppedMarks s.slots.EX r - droppedMarks s.slots.MEM r + d.dsts.count r := by
  have hissue : s.dropDiscarded.slots.issuing = some d :=
    Slots.issuing_eq_some.mpr ⟨not_busy_iff.mp hb, (dropDiscarded_ID s).trans hid, hr⟩
  refine ⟨?_, ?_, fun r => ?_⟩
  · rw [boundary_EX_of_free hb, hissue]
    rfl
  · rw [boundary_ID, Slots.idHolds_eq_false.mpr (.inr ⟨d, hissue⟩)]
    rfl
  · rw [boundary_pend, hissue]
    rfl

theorem no_issue_of_waiting {d : Entry} (hid : kept s.slots.ID = some d) (hw : Busy s ∨ d.ready = false) :
    s.dropDiscarded.slots.issuing = none := by
  rw [Slots.issuing_eq_none, ← busy_iff, dropDiscarded_ID, hid]
  exact hw.imp_right fun hr e he => by rw [← Option.some.inj he, hr]

theorem no_issue_of_empty (hid : kept s.slots.ID = none) : s.dropDiscarded.slots.issuing = none := by
  rw [Slots.issuing_eq_none, dropDiscarded_ID, hid]
  exact .inr fun d hd => by cases hd

theorem boundary_ID_of_waiting {d : Entry} (hid : kept s.slots.ID = some d) (hw : Busy s ∨ d.ready = false) :
    s.boundary.slots.ID = beginEntry (kept s.slots.ID) := by
  have hholds : s.dropDiscarded.slots.idHolds = true := by
    simp [Slots.idHolds, no_issue_of_waiting hid hw, hid]
  rw [boundary_ID, if_pos hholds]

theorem boundary_ID_of_empty (hid : kept s.slots.ID = none) : s.boundary.slots.ID = beginEntry (kept s.slots.IF) := by
  rw [boundary_ID, Slots.idHolds_eq_false.mpr (.inl ((dropDiscarded_ID s).trans hid))]
  rfl

/-- A busy Execute lets no entry issue. -/
theorem no_issue_of_busy (hb : Busy s) : s.dropDiscarded.slots.issuing = none :=
  Slots.issuing_eq_none.mpr (.inl (busy_iff.mp hb))

theorem boundary_front_stays (hf : ¬ FrontMoves s) :
    s.boundary.slots.IF = beginEntry (kept s.slots.IF) ∧ (s.ctrl = .normal → s.boundary.pc = s.pc) := by
  rw [frontMoves_iff, not_or, Bool.not_eq_false] at hf
  rw [← keep_eq_kept]
  exact boundary_front_holds hf.1 hf.2

end

/-- Settles O47: the cases of the statement are those of the advance: whether Execute is busy, and whether Decode's entry
issues, waits or is not there. -/
theorem slotsAdvanceInOrder : Obligations.SlotsAdvanceInOrder := by
  intro s
  refine ⟨boundary_WB, fun hb => ?_, boundary_MEM_of_free, fun d hid hb hr => boundary_of_issue hid hb hr,
    fun d hid hw => ⟨boundary_ID_of_waiting hid hw, boundary_of_no_issue (no_issue_of_waiting hid hw)⟩,
    fun hid => ⟨boundary_ID_of_empty hid, boundary_of_no_issue (no_issue_of_empty hid)⟩, boundary_front_stays,
    fun hf hc hh hp => boundary_front_moves (frontMoves_iff.mp hf) hc hh hp, boundary_cycle s, boundary_x s, boundary_f s,
    boundary_HI s, boundary_LO s, boundary_FCC s, boundary_mem s, boundary_haltPending s, boundary_fatalPending s⟩
  obtain ⟨hMEM, hEX⟩ := boundary_of_busy hb
  exact ⟨hMEM, hEX, (boundary_of_no_issue (no_issue_of_busy hb)).2⟩

/-! ## What a step counts and reports -/

theorem stalled_iff {sl : Slots} : sl.stalled = true ↔
    (∃ e, sl.EX = some e ∧ e.discard = false ∧ e.done = false) ∨
    ∃ e, sl.ID = some e ∧ e.discard = false ∧ e.ready = false := by
  unfold Slots.stalled
  cases sl.EX <;> cases sl.ID <;> simp

@[simp] theorem account_stalls (s : State) : s.account.stalls = s.stalls + if s.slots.stalled then 1 else 0 := by
  unfold State.account
  cases s.slots.stalled <;> rfl

@[simp] theorem account_report (s : State) : s.account.report =
    { s.report with stall := s.slots.stalled, halted := s.ctrl.isHalted, fatal := s.ctrl.isFatal } := rfl

theorem boundary_report_cycle (s : State) : s.boundary.report.cycle = some (s.cycle + 1) := by
  simp [State.boundary, State.begin]

/-- Settles O52: the boundary counts the cycle, no stage counts anything, and the account counts and reports the stall. -/
theorem everyStepIsCounted : Obligations.EveryStepIsCounted := by
  intro s t hn h
  obtain ⟨u, hu, rfl⟩ := step_split hn h
  obtain ⟨hcfg, hbase, hprog, -, hcycle, hstalls, hnumber⟩ := stagePhase_keeps hu
  refine ⟨?_, ?_, ?_, rfl, rfl, stalled_iff, ?_, ?_, ?_⟩
  · simp [hcycle]
  · simp [hstalls]
  · simp [hnumber, boundary_report_cycle]
  · simp [hcfg]
  · simp [hbase]
  · simp [hprog]

end Sys2Proof.Machine
end

section
/-! PROOFS. Data memory in Memory's turn (20_memory.md R73 to R76, 43_load_store.md R321): what a load delivers, what a store
writes, what a failing access does, and that every other instruction only completes there (R162). -/
namespace Sys2Proof.Machine

open Sys2Proof.Claims

/-! ## The bytes of a value (R74, R75) -/

theorem littleEndian_byte (bs : List Byte) (k : Nat) (hk : k < bs.length) :
    BitVec.ofNat 8 (littleEndian bs / 2 ^ (8 * k)) = bs[k] := by
  induction bs generalizing k with
  | nil => cases hk
  | cons b rest ih =>
    have hb : b.toNat < 256 := b.isLt
    cases k with
    | zero =>
      apply BitVec.eq_of_toNat_eq
      simp only [littleEndian, BitVec.toNat_ofNat, List.getElem_cons_zero]
      omega
    | succ k =>
      have hpow : 2 ^ (8 * (k + 1)) = 256 * 2 ^ (8 * k) := by rw [Nat.mul_add, Nat.pow_add, Nat.mul_comm]
      have hdiv : (b.toNat + 256 * littleEndian rest) / 256 = littleEndian rest := by omega
      rw [littleEndian, hpow, ← Nat.div_div_eq_div_mul, hdiv]
      exact ih k (Nat.lt_of_succ_lt_succ hk)

theorem extractLsb'_ofNat_byte {n k : Nat} (hk : k < n) (x : Nat) :
    (BitVec.ofNat (8 * n) x).extractLsb' (8 * k) 8 = BitVec.ofNat 8 (x / 2 ^ (8 * k)) := by
  apply BitVec.eq_of_getLsbD_eq
  intro j hj
  simp only [BitVec.getLsbD_extractLsb', BitVec.getLsbD_ofNat, Nat.testBit_div_two_pow, Nat.add_comm j]
  simp [hj, show 8 * k + j < 8 * n by omega]

/-- The place of byte `k` in memory is where the configured order puts it. -/
theorem inOrder_bytesAt_getElem (o : ByteOrder) (m : Memory) (a n k : Nat)
    (hk : k < (inOrder o (m.bytesAt a n)).length) :
    (inOrder o (m.bytesAt a n))[k] = m.byte (a + bytePlace o n k) := by
  cases o <;> simp [inOrder, Memory.bytesAt, bytePlace]

/-- What a read gives is the value of the bytes it reads (R74). -/
theorem memoryHolds_memRead (c : Config) (m : Memory) (a n : Nat) :
    MemoryHolds c m a n (BitVec.ofNat (8 * n) (memRead c.byteOrder m a n)) := by
  intro k hk
  have hlen : k < (inOrder c.byteOrder (m.bytesAt a n)).length := by simpa [Memory.bytesAt] using hk
  rw [extractLsb'_ofNat_byte hk, memRead, littleEndian_byte _ k hlen, inOrder_bytesAt_getElem]

/-- A write leaves the low bytes of its value at its address: a read there gives them back (R76). -/
theorem byte_memWrite_inside (c : Config) (m : Memory) (a n k : Nat) (v : Word) (hm : m.wf = true) (hk : k < n) :
    (memWrite c.byteOrder m a n v).byte (a + bytePlace c.byteOrder n k) = v.extractLsb' (8 * k) 8 := by
  have hread := memoryHolds_memRead c (memWrite c.byteOrder m a n v) a n k hk
  have hvalue : BitVec.ofNat (8 * n) (v.toNat % 2 ^ (8 * n)) = v.setWidth (8 * n) := BitVec.eq_of_toNat_eq (by simp)
  rw [memRead_memWrite _ m a n v hm, hvalue, BitVec.extractLsb'_setWidth_of_le (by omega)] at hread
  exact hread.symm

/-- Settles O22: a read gives the written number modulo its size. -/
theorem storeThenLoadReturnsTheValue : Obligations.StoreThenLoadReturnsTheValue := by
  intro o m a n v hm _
  rw [memRead_memWrite o m a n v hm, BitVec.toNat_setWidth]

/-! ## An instruction in Memory -/

/-- The access an instruction makes in Memory. -/
def RunsAccess (i : Instr) (a : Access) : Prop := ∃ unit, ∀ s, exec i s = runStage unit a s

/-- The width of an access, if it is one. -/
def Access.width : Access → Option Width
  | .none => Option.none
  | .load w _ _ => some w
  | .store w => some w

/-- The thirteen loads and stores each make an access of their width. -/
theorem runsAccess_of_loads_and_stores (rt rs : RegNum) (imm : BitVec 16) :
    ∀ p ∈ [(Instr.lb rt rs imm, 1), (.lbu rt rs imm, 1), (.lh rt rs imm, 2), (.lhu rt rs imm, 2), (.lw rt rs imm, 4),
        (.lwu rt rs imm, 4), (.ld rt rs imm, 8), (.ldc1 rt rs imm, 8), (.sb rt rs imm, 1), (.sh rt rs imm, 2),
        (.sw rt rs imm, 4), (.sd rt rs imm, 8), (.sdc1 rt rs imm, 8)],
      ∃ a w, RunsAccess p.1 a ∧ a.width = some w ∧ w.bytes = p.2 := by
  simp only [List.forall_mem_cons]
  exact ⟨⟨_, .byte, ⟨_, fun _ => rfl⟩, rfl, rfl⟩, ⟨_, .byte, ⟨_, fun _ => rfl⟩, rfl, rfl⟩,
    ⟨_, .half, ⟨_, fun _ => rfl⟩, rfl, rfl⟩, ⟨_, .half, ⟨_, fun _ => rfl⟩, rfl, rfl⟩,
    ⟨_, .word, ⟨_, fun _ => rfl⟩, rfl, rfl⟩, ⟨_, .word, ⟨_, fun _ => rfl⟩, rfl, rfl⟩,
    ⟨_, .double, ⟨_, fun _ => rfl⟩, rfl, rfl⟩, ⟨_, .double, ⟨_, fun _ => rfl⟩, rfl, rfl⟩,
    ⟨_, .byte, ⟨_, fun _ => rfl⟩, rfl, rfl⟩, ⟨_, .half, ⟨_, fun _ => rfl⟩, rfl, rfl⟩,
    ⟨_, .word, ⟨_, fun _ => rfl⟩, rfl, rfl⟩, ⟨_, .double, ⟨_, fun _ => rfl⟩, rfl, rfl⟩,
    ⟨_, .double, ⟨_, fun _ => rfl⟩, rfl, rfl⟩, List.forall_mem_nil _⟩

/-- The five stores store their width. -/
theorem runsAccess_of_stores (rt rs : RegNum) (imm : BitVec 16) :
    ∀ p ∈ [(Instr.sb rt rs imm, 1), (.sh rt rs imm, 2), (.sw rt rs imm, 4), (.sd rt rs imm, 8), (.sdc1 rt rs imm, 8)],
      ∃ w, RunsAccess p.1 (.store w) ∧ w.bytes = p.2 := by
  simp only [List.forall_mem_cons]
  exact ⟨⟨.byte, ⟨_, fun _ => rfl⟩, rfl⟩, ⟨.half, ⟨_, fun _ => rfl⟩, rfl⟩, ⟨.word, ⟨_, fun _ => rfl⟩, rfl⟩,
    ⟨.double, ⟨_, fun _ => rfl⟩, rfl⟩, ⟨.double, ⟨_, fun _ => rfl⟩, rfl⟩, List.forall_mem_nil _⟩

/-- An instruction that is no load and no store makes no access (R89). -/
theorem runsAccess_none {i : Instr} (hl : i.kind ≠ .load) (hs : i.kind ≠ .store) : RunsAccess i .none := by
  obtain ⟨unit, access, hx, -, ha⟩ := exec_shape i
  cases ha with
  | none => exact ⟨unit, hx⟩
  | load _ _ _ hk => exact absurd hk hl
  | store _ hk => exact absurd hk hs

theorem accessFault_some {size n : Nat} {a : Word} (h : ¬ (a.toNat % n = 0 ∧ a.toNat + n ≤ size)) :
    accessFault size a n = some (if a.toNat % n ≠ 0 then .misaligned else .outOfBounds) := by
  unfold accessFault
  by_cases hal : a.toNat % n = 0
  · have hout : size < a.toNat + n := by
      by_contra hin
      exact h ⟨hal, Nat.le_of_not_lt hin⟩
    simp [hal, hout]
  · simp [hal]

/-- An access that fails its checks takes its exception, whether it loads or stores (R73). -/
theorem memoryStage_fault {a : Access} {w : Width} {k : ExcKind} {e : Entry} {s : State} (ha : a.width = some w)
    (hf : accessFault s.cfg.memSize e.ea w.bytes = some k) : memoryStage a e s = s.takeException .MEM k e.pc e.ea := by
  cases a with
  | none => cases ha
  | load v ext dst =>
    obtain rfl : v = w := Option.some.inj ha
    exact memoryStage_load_fault hf
  | store v =>
    obtain rfl : v = w := Option.some.inj ha
    exact memoryStage_store_fault hf

section
variable {i : Instr} {a : Access} {s : State} {e : Entry}

/-- In Memory an instruction is its access on the entry in that slot. -/
theorem exec_atMemory (hi : RunsAccess i a) (h : AtMemory s e) : exec i s = .next (memoryStage a e s) := by
  obtain ⟨unit, hx⟩ := hi
  obtain ⟨hturn, hslot⟩ := h
  have hget : s.slots.get s.turn = some e := by rw [hturn]; exact hslot
  rw [hx, runStage_at hget, hturn]

/-- A load that passes its checks delivers the extended value that memory reads as. -/
theorem exec_load_delivers {w : Width} {ext : Extension} {dst : RegId} (hi : RunsAccess i (.load w ext dst))
    (h : AtMemory s e) (hacc : Accessible s.cfg e.ea w.bytes) :
    exec i s = .next (delivers s e dst (extendLoaded w ext (memRead s.cfg.byteOrder s.mem e.ea.toNat w.bytes))) := by
  rw [exec_atMemory hi h, memoryStage_load (accessFault_none.mpr hacc)]
  rfl

end

theorem extendLoaded_unsigned (o : ByteOrder) (m : Memory) (a : Nat) (w : Width) :
    extendLoaded w .unsigned (memRead o m a w.bytes) =
      (BitVec.ofNat (8 * w.bytes) (memRead o m a w.bytes)).setWidth 64 := by
  apply BitVec.eq_of_toNat_eq
  simp [extendLoaded, Nat.mod_eq_of_lt (memRead_lt o m a w.bytes)]

/-- Settles O19: the value is the one memory reads as at the access's width, which the two loads of a width extend. -/
theorem loadsDeliverTheBytesOfMemory : Obligations.LoadsDeliverTheBytesOfMemory := by
  intro s e rt rs imm h
  have unsigned := extendLoaded_unsigned s.cfg.byteOrder s.mem e.ea.toNat
  have holds := memoryHolds_memRead s.cfg s.mem e.ea.toNat
  refine ⟨fun hacc => ⟨_, holds 1, ?_, ?_⟩, fun hacc => ⟨_, holds 2, ?_, ?_⟩, fun hacc => ⟨_, holds 4, ?_, ?_⟩,
    fun hacc => ⟨_, holds 8, ?_, ?_⟩⟩
  · exact exec_load_delivers (w := .byte) (ext := .signed) ⟨_, fun _ => rfl⟩ h hacc
  · exact unsigned .byte ▸ exec_load_delivers (w := .byte) ⟨_, fun _ => rfl⟩ h hacc
  · exact exec_load_delivers (w := .half) (ext := .signed) ⟨_, fun _ => rfl⟩ h hacc
  · exact unsigned .half ▸ exec_load_delivers (w := .half) ⟨_, fun _ => rfl⟩ h hacc
  · exact exec_load_delivers (w := .word) (ext := .signed) ⟨_, fun _ => rfl⟩ h hacc
  · exact unsigned .word ▸ exec_load_delivers (w := .word) ⟨_, fun _ => rfl⟩ h hacc
  · exact exec_load_delivers (w := .double) (ext := .unsigned) ⟨_, fun _ => rfl⟩ h hacc
  · exact exec_load_delivers (w := .double) (ext := .unsigned) ⟨_, fun _ => rfl⟩ h hacc

/-- Settles O20: the new memory is the one written at the access's width. -/
theorem storesWriteTheirBytesOnly : Obligations.StoresWriteTheirBytesOnly := by
  intro s e rt rs imm h hs p hp hacc
  obtain ⟨hwf, hwithin⟩ := hs
  obtain ⟨w, hi, hw⟩ := runsAccess_of_stores rt rs imm p hp
  rw [← hw] at hacc ⊢
  refine ⟨memWrite s.cfg.byteOrder s.mem e.ea.toNat w.bytes e.sval, ?_, fun k hk => ?_, fun a ha => ?_, ?_, ?_⟩
  · rw [exec_atMemory hi h, memoryStage_store (accessFault_none.mpr hacc)]
    rfl
  · exact byte_memWrite_inside _ _ _ _ _ _ hwf hk
  · exact byte_memWrite_outside _ _ _ _ _ hwf a ha
  · exact memWrite_wf _ _ _ _ _ hwf
  · exact memWrite_within _ _ _ _ _ _ hwithin hacc.2

/-- Settles O21: a failing access is nothing but its exception, and an exception reaches no memory, register or marker. -/
theorem failingAccessesRaiseAndDoNothingElse : Obligations.FailingAccessesRaiseAndDoNothingElse := by
  intro s e rt rs imm h p hp hacc
  obtain ⟨a, w, hi, ha, hw⟩ := runsAccess_of_loads_and_stores rt rs imm p hp
  rw [← hw] at hacc ⊢
  refine ⟨_, (exec_atMemory hi h).trans (congrArg _ (memoryStage_fault ha (accessFault_some hacc))), rfl, ?_⟩
  simp

/-- Settles O23: without an access Memory only completes the entry. -/
theorem otherInstructionsPassMemory : Obligations.OtherInstructionsPassMemory :=
  fun _ _ _ h hl hs => exec_atMemory (runsAccess_none hl hs) h

end Sys2Proof.Machine
end

section
/-! PROOFS. Fetch (20_memory.md R80, 40_pipeline.md R155, R156): what the stream gives at an address, the target of a redirect
fetched at the boundary, and a step that runs one instruction (R151, R157). -/
namespace Sys2Proof.Machine

open Sys2Proof.Claims

/-! ## The stream (R80, R101) -/

section
variable {s : State} {pc : Word}

theorem fetchAt_end (h : pc.toNat = s.base.toNat + 4 * s.prog.length) : s.fetchAt pc = none := if_pos h

theorem fetchAt_misaligned (hend : pc.toNat ≠ s.base.toNat + 4 * s.prog.length) (hal : pc.toNat % 4 ≠ 0) :
    s.fetchAt pc = some (.faultToken .misaligned pc) :=
  (if_neg hend).trans (if_pos hal)

/-- An aligned address inside or past the stream names a word of the program, if there is one. -/
theorem fetchAt_aligned (hend : pc.toNat ≠ s.base.toNat + 4 * s.prog.length) (hal : pc.toNat % 4 = 0)
    (hbase : s.base.toNat ≤ pc.toNat) :
    s.fetchAt pc = some (s.prog[(pc.toNat - s.base.toNat) / 4]?.elim (.faultToken .outOfBounds pc) (decodeAt pc)) := by
  rw [State.fetchAt, State.streamEnd, if_neg hend, if_neg (not_not.mpr hal), if_neg (Nat.not_lt.mpr hbase)]
  cases s.prog[(pc.toNat - s.base.toNat) / 4]? <;> rfl

theorem fetchAt_outOfBounds (hal : pc.toNat % 4 = 0)
    (h : pc.toNat < s.base.toNat ∨ s.base.toNat + 4 * s.prog.length < pc.toNat) :
    s.fetchAt pc = some (.faultToken .outOfBounds pc) := by
  have hend : pc.toNat ≠ s.base.toNat + 4 * s.prog.length := by omega
  rcases h with hbelow | habove
  · rw [State.fetchAt, State.streamEnd, if_neg hend, if_neg (not_not.mpr hal), if_pos hbelow]
  · have hnone : s.prog[(pc.toNat - s.base.toNat) / 4]? = none := List.getElem?_eq_none (by omega)
    rw [fetchAt_aligned hend hal (by omega), hnone]
    rfl

/-- The word at place `k` of the program stands at `base + 4k`. -/
theorem fetchAt_word {k : Nat} {w : Word32} (hk : s.prog[k]? = some w) (hpc : pc.toNat = s.base.toNat + 4 * k)
    (hbase : s.base.toNat % 4 = 0) : s.fetchAt pc = some (decodeAt pc w) := by
  obtain ⟨hlt, -⟩ := List.getElem?_eq_some_iff.mp hk
  have hplace : (pc.toNat - s.base.toNat) / 4 = k := by omega
  rw [fetchAt_aligned (by omega) (by omega) (by omega), hplace, hk]
  rfl

end

theorem decodeAt_ok {w : Word32} {i : Instr} (h : decodeWord w = .ok i) (pc : Word) : decodeAt pc w = .instr ⟨i, pc, w⟩ := by
  rw [decodeAt, h]

theorem decodeAt_invalid {w : Word32} (h : decodeWord w = .error .invalidInstruction) (pc : Word) :
    decodeAt pc w = .faultToken .invalidInstruction pc := by
  rw [decodeAt, h]
  rfl

/-- Settles O46, check by check in the order of the fetch. -/
theorem fetchReadsTheStream : Obligations.FetchReadsTheStream := by
  intro s pc
  refine ⟨fetchAt_end, fetchAt_misaligned, fetchAt_outOfBounds, fun k w hk hpc hbase => ?_⟩
  rw [fetchAt_word hk hpc hbase]
  exact ⟨fun i hi => congrArg some (decodeAt_ok hi pc), fun hbad => congrArg some (decodeAt_invalid hbad pc)⟩

/-! ## The boundary of a redirect (R155) -/

/-- The state with fetch at `a` and no redirect requested. -/
def State.fetchingAt (s : State) (a : Word) : State := { s with ctrl := .normal, pc := a }

theorem advance_fetchingAt (s : State) (a : Word) : (s.fetchingAt a).advance = s.advance.fetchingAt a := by
  unfold State.advance
  rw [show (s.fetchingAt a).slots = s.slots from rfl]
  cases s.slots.issuing <;> rfl

section
variable {s : State} {d : Nat} {a : Word}

theorem redirect_of_normal (h : s.ctrl = .normal) : s.redirect = s := by
  rw [State.redirect, h]

theorem redirect_of_flushRequested (h : s.ctrl = .flushRequested d a) : s.redirect = s.fetchingAt a := by
  rw [State.redirect, h]
  rfl

theorem boundary_ctrl_of_normal (h : s.ctrl = .normal) : s.boundary.ctrl = .normal := by
  have hctrl : s.dropDiscarded.advance.ctrl = .normal := by simpa using h
  rw [State.boundary, begin_ctrl, fetch_ctrl, redirect_of_normal hctrl, hctrl]

/-- A requested redirect is applied by the boundary and by nothing else in it, as if fetch had been at the target. -/
theorem boundary_of_flushRequested (h : s.ctrl = .flushRequested d a) : s.boundary = (s.fetchingAt a).boundary := by
  have hflush : s.dropDiscarded.advance.ctrl = .flushRequested d a := by simpa using h
  have hsame : (s.fetchingAt a).dropDiscarded.advance = s.dropDiscarded.advance.fetchingAt a :=
    advance_fetchingAt s.dropDiscarded a
  rw [State.boundary, State.boundary, redirect_of_flushRequested hflush, hsame, redirect_of_normal rfl]

theorem kept_eq_none {o : Option Entry} (h : ∀ e, o = some e → e.discard = true) : kept o = none := by
  rw [← keep_eq_kept, keep_marked h]

end

/-- Settles O48: the boundary is that of the same state fetching at the target, whose front is empty. -/
theorem redirectFetchesTheTarget : Obligations.RedirectFetchesTheTarget := by
  intro s d a hctrl hhalt hfatal hID hIF
  obtain ⟨hfetch, hpc⟩ := boundary_front_moves (s := s.fetchingAt a) (.inr (keep_marked hIF)) rfl hhalt hfatal
  rw [boundary_of_flushRequested hctrl]
  refine ⟨boundary_ctrl_of_normal rfl, ?_, hfetch, hpc⟩
  rw [boundary_ID_of_empty (s := s.fetchingAt a) (kept_eq_none hID)]
  exact congrArg beginEntry (kept_eq_none hIF)

/-! ## A step that runs one instruction (R157) -/

/-- With one slot past Fetch occupied, the stage phase is its instruction's part: the other turns find nothing. -/
theorem stagePhase_alone {s t : State} {st : Stage} {e : Entry} {i : Instruction} (hIF : st ≠ .IF)
    (hslot : s.slots.get st = some e) (hi : e.inst = .instr i) (hd : e.discard = false)
    (hother : ∀ u, u ≠ st → u ≠ .IF → s.slots.get u = none) (h : exec i.op { s with turn := st } = .next t) :
    stagePhase s = .next t := by
  have hturn : stageTurn st s = .next t := (stageTurn_instr hslot hd hi).trans h
  have before : ∀ u, u ≠ st → u ≠ .IF → stageTurn u s = .next s := fun u hu hu' => stageTurn_none (hother u hu hu')
  have afterwards : ∀ u, u ≠ st → u ≠ .IF → stageTurn u t = .next t :=
    fun u hu hu' => stageTurn_none (exec_slot_none h u hu (hother u hu hu'))
  cases st with
  | IF => exact absurd rfl hIF
  | ID => simp [stagePhase, andThen, hturn, before]
  | EX => simp [stagePhase, andThen, hturn, before, afterwards]
  | MEM => simp [stagePhase, andThen, hturn, before, afterwards]
  | WB => simp [stagePhase, andThen, hturn, afterwards]

/-- A front that moves takes what fetching at `pc` gives (R156). -/
theorem boundary_of_fetch {s : State} {c : SlotContent} (hf : FrontMoves s) (hctrl : s.ctrl = .normal)
    (hhalt : s.haltPending = false) (hfatal : s.fatalPending = none) (hc : s.fetchAt s.pc = some c) :
    s.boundary.slots.IF = some { inst := c } ∧ s.boundary.pc = s.pc + 4 := by
  obtain ⟨hIF, hpc⟩ := boundary_front_moves (frontMoves_iff.mp hf) hctrl hhalt hfatal
  rw [hIF, hpc, hc]
  exact ⟨rfl, rfl⟩

/-- Settles O50: what enters Fetch is what the stream gives at `pc`, and a lone instruction's part is the whole stage phase. -/
theorem stepRunsTheDecodedInstruction : Obligations.StepRunsTheDecodedInstruction := by
  refine ⟨fun s hf hctrl hhalt hfatal => ⟨fun c => boundary_of_fetch hf hctrl hhalt hfatal, fun k w hk hpc hbase => ?_⟩,
    fun s t st e i hh hfat hIF hslot hi hd hother hx => ?_⟩
  · obtain ⟨hslot, hnext⟩ := boundary_of_fetch hf hctrl hhalt hfatal (fetchAt_word hk hpc hbase)
    rw [hslot]
    exact ⟨hnext, fun i hi => by rw [decodeAt_ok hi], fun hbad => by rw [decodeAt_invalid hbad]⟩
  · rw [step_run s hh hfat, State.runCycle, stagePhase_alone hIF hslot hi hd hother hx]
    rfl

end Sys2Proof.Machine
end

section
/-! PROOFS. Fault tokens (60_exceptions.md R432, R433, 20_memory.md R80): which turn raises one, and what Execute holds after
a step in which Decode has raised. -/
namespace Sys2Proof.Machine

open Sys2Proof.Claims

/-! ## The wrong path in the claims' words -/

section
variable {s t : State} {e : Entry}

/-- The state in which Execute's entry runs the last of its cycles there. -/
def State.lastCycle (s : State) (e : Entry) : State :=
  { s with turn := .EX, slots := { s.slots with EX := some { e with rem := 1 } } }

theorem completion_of_exec {i : Instruction} (hi : e.inst = .instr i) (hx : exec i.op (s.lastCycle e) = .next t) :
    s.completion e = t.slots.EX := by
  unfold State.completion
  split
  · rename_i j hj
    obtain rfl : i = j := SlotContent.instr.inj (hi.symm.trans hj)
    rw [State.lastCycle] at hx
    rw [hx]
  · rename_i k a hk
    cases hi.symm.trans hk

theorem completion_of_token {k : ExcKind} {a : Word} (hi : e.inst = .faultToken k a) : s.completion e = none := by
  unfold State.completion
  rw [hi]

/-- An instruction leaves the path when what Execute makes of its last cycle there does. -/
theorem leavesThePath_iff : LeavesThePath s e ↔
    ∃ r, s.completion e = some r ∧ r.done = true ∧ (r.taken = true ∨ r.sys = .halt) := by
  constructor
  · rintro ⟨i, u, r, hi, hx, hslot, hr⟩
    exact ⟨r, (completion_of_exec hi hx).trans hslot, hr⟩
  · rintro ⟨r, hc, hr⟩
    cases hi : e.inst with
    | faultToken k a =>
      rw [completion_of_token hi] at hc
      cases hc
    | instr i =>
      obtain ⟨u, hx⟩ := exec_next i.op (s.lastCycle e)
      exact ⟨i, u, r, hi, hx, (completion_of_exec hi hx).symm.trans hc, hr⟩

theorem wrongPath_iff_leavesThePath : s.wrongPath = true ↔
    ∃ p, s.slots.EX = some p ∧ p.discard = false ∧ p.done = false ∧ LeavesThePath s p := by
  rw [wrongPath_iff]
  constructor
  · rintro ⟨p, r, hslot, hlive, hnot, hr⟩
    exact ⟨p, hslot, hlive, hnot, leavesThePath_iff.mpr ⟨r, hr⟩⟩
  · rintro ⟨p, hslot, hlive, hnot, hleaves⟩
    obtain ⟨r, hr⟩ := leavesThePath_iff.mp hleaves
    exact ⟨p, r, hslot, hlive, hnot, hr⟩

theorem leavesThePath_congr (h : t.cfg = s.cfg) : LeavesThePath t e ↔ LeavesThePath s e := by
  rw [leavesThePath_iff, leavesThePath_iff, completion_congr h]

end

/-! ## A token's turn -/

section
variable {s : State} {st : Stage} {e : Entry} {k : ExcKind} {a : Word}

theorem stageTurn_token_raises (h : s.slots.get .ID = some e) (hi : e.inst = .faultToken k a) (hd : e.discard = false)
    (hp : s.wrongPath = false) : stageTurn .ID s = .next (s.takeException .ID k a a) := by
  rw [stageTurn_token h hd hi, if_pos ⟨rfl, hp⟩]

theorem stageTurn_token_elsewhere (h : s.slots.get st = some e) (hi : e.inst = .faultToken k a) (hst : st ≠ .ID) :
    stageTurn st s = .next s := by
  cases hd : e.discard with
  | true => exact stageTurn_skip h hd
  | false => rw [stageTurn_token h hd hi, if_neg (fun hc => hst hc.1)]

end

/-! ## A step that reports an exception of Decode -/

section
variable {s t : State}

/-- A completed entry that leaves Decode's entry unmarked neither transfers nor calls (R165, R166). -/
theorem afterExecute_leaves_decode {e d : Entry} (hslot : (s.afterExecute e).slots.ID = some d) (hd : d.discard = false) :
    e.taken = false ∧ e.sys = .none := by
  have unmarked : ∀ o, markDiscard o ≠ some d := by
    intro o ho
    obtain ⟨b, -, rfl⟩ := markDiscard_some ho
    cases hd
  unfold State.afterExecute at hslot
  cases ht : e.taken with
  | true =>
    rw [ht, if_pos rfl] at hslot
    exact absurd hslot (unmarked _)
  | false =>
    cases hs : e.sys with
    | none => exact ⟨rfl, rfl⟩
    | _ =>
      rw [ht, hs] at hslot
      exact absurd hslot (unmarked _)

/-- Execute's turn marks Decode's entry when it completes a transfer or a call: behind a live entry that it has completed, a
live one in Decode tells that it was neither. -/
theorem turn_ex_completes_plainly {p d : Entry} (h : stageTurn .EX s = .next t) (hx : Unrun s.slots.EX)
    (hslot : t.slots.EX = some p) (hlive : p.discard = false) (hdone : p.done = true) (hID : t.slots.ID = some d)
    (hd : d.discard = false) : p.taken = false ∧ p.sys = .none := by
  rcases stageTurn_cases h with ⟨rfl, -⟩ | ⟨e, i, hex, -, -, hrun⟩ | ⟨_, _, _, -, -, -, ⟨hst, -⟩, -⟩
  · rw [hx p hslot] at hdone
    cases hdone
  · obtain ⟨unit, access, hshape, -, -⟩ := exec_shape i.op
    rw [hshape, runStage_at (e := e) hex] at hrun
    obtain rfl : executeStage unit e { s with turn := .EX } = t := by injection hrun
    rcases executeStage_cases unit e { s with turn := .EX } with ⟨-, hb⟩ | ⟨-, k, -, hb⟩ | ⟨-, r, -, hb⟩ <;>
      rw [hb] at hslot hID
    · obtain rfl : { e with rem := e.rem - 1 } = p := Option.some.inj hslot
      rw [show e.done = false from hx e hex] at hdone
      cases hdone
    · have hmarked := takeException_get { s with turn := .EX } .EX k e.pc e.pc .EX
      obtain ⟨b, -, rfl⟩ := markDiscard_some (hmarked.symm.trans hslot)
      cases hlive
    · have hEX := afterExecute_get (State.putEntry { s with turn := .EX } .EX { r with done := true })
        { r with done := true } .EX
      obtain rfl : { r with done := true } = p := by
        rcases hEX with hkept | ⟨hyoung, -⟩
        · exact Option.some.inj (hkept.symm.trans hslot)
        · cases hyoung
      exact afterExecute_leaves_decode hID hd
  · cases hst

/-- The cycle's report holds no exception of Decode's. -/
def State.NoDecodeFault (s : State) : Prop := ∀ f, s.report.fault = some f → f.stage ≠ .ID

theorem noDecodeFault_boundary (s : State) : s.boundary.NoDecodeFault := nofun

theorem State.NoDecodeFault.turn {st : Stage} (hs : s.NoDecodeFault) (hst : st ≠ .ID) (h : stageTurn st s = .next t) :
    t.NoDecodeFault := by
  intro f hf
  rcases stageTurn_fault h with hsame | ⟨g, hg, hstage, -⟩
  · exact hs f (hsame.symm.trans hf)
  · obtain rfl : g = f := Option.some.inj (hg.symm.trans hf)
    exact hstage ▸ hst

/-- Decode's first exception in a cycle is a live token's, raised on no wrong path. -/
theorem turn_id_raised {f : FaultReport} (hs : s.NoDecodeFault) (h : stageTurn .ID s = .next t)
    (hf : t.report.fault = some f) (hst : f.stage = .ID) :
    ∃ d k a, s.slots.ID = some d ∧ d.discard = false ∧ s.wrongPath = false ∧ t = s.takeException .ID k a a := by
  rcases stageTurn_fault h with hsame | ⟨-, -, -, htoken⟩
  · exact absurd hst (hs f (hsame.symm.trans hf))
  · exact htoken rfl

theorem boundary_unrun (s : State) : Unrun s.boundary.slots.EX := by
  intro e he
  obtain ⟨-, hEX, -, -, -⟩ := boundary_slots s
  obtain ⟨d, -, rfl⟩ := beginEntry_eq_some (hEX.symm.trans he)
  rfl

/-- After a stage phase in which Decode has raised, a live entry of Execute has completed plainly or will stay on the path. -/
theorem stagePhase_raised_in_decode {f : FaultReport} {p : Entry} (h : stagePhase s = .next t)
    (hs : s.NoDecodeFault) (hx : Unrun s.slots.EX) (hf : t.report.fault = some f) (hst : f.stage = .ID)
    (hslot : t.slots.EX = some p) (hlive : p.discard = false) :
    (p.done = true → p.taken = false ∧ p.sys = .none) ∧ (p.done = false → ¬ LeavesThePath t p) := by
  obtain ⟨a, b, c, hwb, hmem, hex, hid⟩ := stagePhase_split h
  have hclean : c.NoDecodeFault := ((hs.turn (by decide) hwb).turn (by decide) hmem).turn (by decide) hex
  obtain ⟨d, k, addr, hID, hd, hpath, rfl⟩ := turn_id_raised hclean hid hf hst
  have hEX : c.slots.EX = some p := (takeException_get c .ID k addr addr .EX).symm.trans hslot
  have hunrun : Unrun b.slots.EX := (hx.marked (turn_other hwb .EX (by decide))).marked (turn_other hmem .EX (by decide))
  refine ⟨fun hdone => turn_ex_completes_plainly hex hunrun hEX hlive hdone hID hd, fun hnot hleaves => ?_⟩
  rw [leavesThePath_congr (takeException_cfg c .ID k addr addr)] at hleaves
  rw [wrongPath_iff_leavesThePath.mpr ⟨p, hEX, hlive, hnot, hleaves⟩] at hpath
  cases hpath

end

/-- Settles O44: the statement's wrong path is the model's. In a step that reports an exception of Decode the token was live
there, so Execute's turn had marked nothing. -/
theorem faultTokensRaiseInDecode : Obligations.FaultTokensRaiseInDecode := by
  refine ⟨fun s st e k a hslot hi => ⟨?_, ?_⟩, fun s t f p h hf hst hslot hlive => ?_⟩
  · rintro ⟨rfl, hd, hpath⟩
    exact stageTurn_token_raises hslot hi hd (Bool.eq_false_iff.mpr (mt wrongPath_iff_leavesThePath.mp hpath))
  · rintro (hst | hd | hpath)
    · exact stageTurn_token_elsewhere hslot hi hst
    · exact stageTurn_skip hslot hd
    · by_cases hst : st = .ID
      · subst hst
        exact stageTurn_token_wrongPath hslot hi (wrongPath_iff_leavesThePath.mpr hpath)
      · exact stageTurn_token_elsewhere hslot hi hst
  · by_cases hterm : s.terminal
    · obtain rfl := step_terminal_eq hterm h
      cases hf
    · obtain ⟨u, hu, rfl⟩ := step_split hterm h
      rw [leavesThePath_congr (s := u) (by simp)]
      exact stagePhase_raised_in_decode hu (noDecodeFault_boundary s) (boundary_unrun s) (by simpa using hf) hst
        (by simpa using hslot) hlive

end Sys2Proof.Machine
end

section
/-! PROOFS. Encoding (30_encoding.md R105, R109, R111): the decoder's field extraction and the encoder undo each other on the
bits a row's mask leaves free, so a row's words and its instructions correspond one to one. -/
namespace Sys2Proof

/-! ## Fields put back and read back -/

/-- A field put back where it was read is the word under the field's bits. -/
theorem place_field (w : Word32) (lo n : Nat) : place (field w lo n) lo = w &&& place (BitVec.allOnes n) lo := by
  apply BitVec.eq_of_getLsbD_eq
  intro k hk
  rw [BitVec.getLsbD_and, place_getLsbD, place_getLsbD, field, BitVec.getLsbD_extractLsb', Bool.and_left_comm]
  by_cases hlo : lo ≤ k
  · rw [Nat.add_sub_cancel' hlo]
    by_cases hn : k - lo < n <;> simp [hn, Bool.and_comm]
  · simp [hlo]

theorem place_rsField (w : Word32) : place (rsField w) 21 = w &&& 0x03E00000 := place_field w 21 5
theorem place_rtField (w : Word32) : place (rtField w) 16 = w &&& 0x001F0000 := place_field w 16 5
theorem place_rdField (w : Word32) : place (rdField w) 11 = w &&& 0x0000F800 := place_field w 11 5
theorem place_saField (w : Word32) : place (saField w) 6 = w &&& 0x000007C0 := place_field w 6 5
theorem place_immField (w : Word32) : place (immField w) 0 = w &&& 0x0000FFFF := place_field w 0 16
theorem place_indexField (w : Word32) : place (indexField w) 0 = w &&& 0x03FFFFFF := place_field w 0 26
theorem place_codeField (w : Word32) : place (codeField w) 6 = w &&& 0x03FFFFC0 := place_field w 6 20

/-- Reading the fields of an instruction's own word gives the instruction back: its row's pattern is 0 in each of them. -/
theorem buildInstr_encode (i : Instr) : buildInstr i.mnemonic (encode i) = i := by
  cases i <;>
    simp only [Instr.mnemonic, encode, buildInstr, rsField_encodeR, rtField_encodeR, rdField_encodeR, saField_encodeR,
      rsField_encodeI, rtField_encodeI, immField_encodeI, indexField_encodeJ, codeField_encodeSys] <;>
    simp [opcodeRow, rsField, rtField, rdField, saField, immField, indexField, codeField, field]

/-- The fields a row extracts are exactly the bits its mask leaves free. -/
theorem encode_buildInstr_eq (m : Mnemonic) (w : Word32) :
    encode (buildInstr m w) = (opcodeRow m).pattern ||| (w &&& ~~~(opcodeRow m).mask) := by
  cases m <;>
    simp [buildInstr, encode, encodeR, encodeI, encodeJ, encodeSys, place_rsField, place_rtField, place_rdField,
      place_saField, place_immField, place_indexField, place_codeField, opcodeRow, BitVec.or_assoc,
      ← BitVec.and_or_distrib_left]

theorem mnemonic_buildInstr (m : Mnemonic) (w : Word32) : (buildInstr m w).mnemonic = m := by cases m <;> rfl

/-! ## A row's words are its instructions' words -/

section
variable {m : Mnemonic} {w : Word32} {i : Instr}

/-- The word of an instruction lies in its row. -/
theorem encode_match (i : Instr) :
    encode i &&& (opcodeRow i.mnemonic).mask = (opcodeRow i.mnemonic).pattern := by
  have hw := encode_buildInstr_eq i.mnemonic (encode i)
  rw [buildInstr_encode] at hw
  rw [hw]
  exact row_of_parts _ _ _ (pattern_under_mask _) (by rw [BitVec.and_assoc, BitVec.and_comm (~~~_)]; simp)

/-- A word of a row is the word of the instruction read from it: no bit is dropped (R109). -/
theorem encode_buildInstr (h : w &&& (opcodeRow m).mask = (opcodeRow m).pattern) : encode (buildInstr m w) = w := by
  rw [encode_buildInstr_eq, ← h, ← BitVec.and_or_distrib_left, BitVec.or_not_self, BitVec.and_allOnes]

/-- Two rows claim one word only if they are the same row, or NOP and SLL. -/
theorem row_unique {a b : Mnemonic} (ha : w &&& (opcodeRow a).mask = (opcodeRow a).pattern)
    (hb : w &&& (opcodeRow b).mask = (opcodeRow b).pattern) :
    a = b ∨ (a = .NOP ∧ b = .SLL) ∨ (a = .SLL ∧ b = .NOP) := by
  have hab := List.all_eq_true.mp (List.all_eq_true.mp rows_apart a (mem_allMnemonics a)) b (mem_allMnemonics b)
  simp only [Bool.or_eq_true, Bool.and_eq_true, beq_iff_eq, or_assoc] at hab
  obtain h | h | h | h := hab
  · exact .inl h
  · exact .inr (.inl h)
  · exact .inr (.inr h)
  · exact absurd hb (rowsApart_excludes h ha)

/-- The all-zero word lies in the rows of NOP and SLL only. -/
theorem encode_eq_zero (h : encode i = 0) : i = .nop ∨ i = .sll 0 0 0 := by
  have hrow := encode_match i
  rw [h] at hrow
  have hbuilt := buildInstr_encode i
  rw [h] at hbuilt
  obtain hm | ⟨-, hm⟩ | ⟨hm, -⟩ := row_unique (a := .NOP) rfl hrow
  · exact .inl (by rw [← hbuilt, ← hm]; rfl)
  · exact .inr (by rw [← hbuilt, hm]; rfl)
  · cases hm

/-- The one term that is no instruction of the hardware (R111, R281). -/
theorem eq_sll_of_not_wellFormed (h : i.wellFormed = false) : i = .sll 0 0 0 := by
  cases i with
  | sll rd rt sa => simpa [Instr.wellFormed, and_assoc] using h
  | _ => cases h

/-- The decoder's only fault is the one for a word that matches no row (R112, R113). -/
theorem decodeWord_error {f : DecodeFault} (h : decodeWord w = .error f) : f = .invalidInstruction := by
  unfold decodeWord at h
  split at h
  · cases h
  · exact (Except.error.inj h).symm

end

/-! ## The statements -/

/-- Settles O1: a word that is not 0 decodes by the row it lies in, and the two instructions of the word 0 are NOP, to which
it decodes, and the SLL that is not well formed. -/
theorem decodeOfEncode : Obligations.DecodeOfEncode := by
  intro i hi
  by_cases h0 : encode i = 0
  · obtain rfl | rfl := encode_eq_zero h0
    · exact decode_zero
    · cases hi
  · rw [decode_of_match (encode_match i) h0, buildInstr_encode]

/-- Settles O2: the decoded instruction is read from the word by one row, which drops no bit; the SLL that is not well formed
is never read, because its word is NOP's. -/
theorem encodeOfDecode : Obligations.EncodeOfDecode := by
  intro w i h
  obtain ⟨m, hrow, rfl⟩ := match_of_decode h
  have hw := encode_buildInstr hrow
  refine ⟨Bool.of_not_eq_false fun hi => ?_, hw⟩
  rw [eq_sll_of_not_wellFormed hi] at hw h
  obtain rfl : w = 0 := hw.symm
  cases decode_zero.symm.trans h

/-- Settles O3: any two rows but NOP and SLL ask for different values of one bit, and NOP's row is the word 0 alone. -/
theorem rowsOfTheTableAreDisjoint : Obligations.RowsOfTheTableAreDisjoint := by
  refine ⟨fun w a b hne ha hb => ?_, decode_zero, fun w m h0 hrow => ?_⟩
  · obtain h | h | h := row_unique ha hb
    · exact absurd h hne
    · exact ⟨zero_of_nop (h.1 ▸ ha), .inl h⟩
    · exact ⟨zero_of_nop (h.2 ▸ hb), .inr h⟩
  · exact ⟨_, decode_of_match hrow h0, mnemonic_buildInstr m w⟩

/-- Settles O4: what decodes lies in a row, and the decoder has one fault. -/
theorem unmatchedWordsAreInvalid : Obligations.UnmatchedWordsAreInvalid := by
  refine fun w => ⟨fun hnone => ?_, fun h => ?_⟩
  · cases h : decodeWord w with
    | ok i =>
      obtain ⟨m, hrow, -⟩ := match_of_decode h
      exact absurd hrow (hnone m)
    | error f => rw [decodeWord_error h]
  · cases decodeWord_error h

/-- The word of a well-formed instruction, written out, decodes to it. -/
theorem decodeWord_of_encode_eq {w : Word32} {i : Instr} (hw : encode i = w) (hi : i.wellFormed = true) :
    decodeWord w = .ok i :=
  hw ▸ decodeOfEncode i hi

/-- Settles O5: each word is its instruction's own, and the last one lies in no row. -/
theorem wordsOfTheSpecDecode : Obligations.WordsOfTheSpecDecode := by
  refine ⟨?_, ?_, ?_, ?_, ?_, ?_, ?_, ?_, ?_, ?_, ?_, ?_, (unmatchedWordsAreInvalid 1).1 fun m => by cases m <;> decide⟩ <;>
    exact decodeWord_of_encode_eq rfl rfl

end Sys2Proof
end

section
/-! PROOFS. What Execute reads (R103, R164, R170): each execution unit reads the captured operands of its instruction's sources
only, and captured operands pass through Execute unchanged. -/
namespace Sys2Proof.Machine

/-! ## Other captured operands -/

/-- The entry with these captured operands. -/
def Entry.withOps (e : Entry) (ops : List (RegId × Word)) : Entry := { e with ops := ops }

/-- The unit's answer with these captured operands. -/
def ExecResult.withOps (ops : List (RegId × Word)) : ExecResult → ExecResult
  | .latched e => .latched (e.withOps ops)
  | .raise k => .raise k

/-- The state with these captured operands in Execute's entry. -/
def State.withOps (s : State) (ops : List (RegId × Word)) : State :=
  { s with slots := { s.slots with EX := s.slots.EX.map (·.withOps ops) } }

section
variable {s : State} {e : Entry} {ops : List (RegId × Word)} {unit : Config → Entry → ExecResult}

theorem takeException_withOps (k : ExcKind) (pc addr : Word) :
    (s.withOps ops).takeException .EX k pc addr = (s.takeException .EX k pc addr).withOps ops := by
  have hEX : markDiscard (s.slots.EX.map (·.withOps ops)) = (markDiscard s.slots.EX).map (·.withOps ops) := by
    cases s.slots.EX <;> rfl
  unfold State.takeException State.squash
  simp only [State.withOps, Slots.discardThrough, hEX]
  split <;> rfl

theorem afterExecute_withOps : (s.withOps ops).afterExecute (e.withOps ops) = (s.afterExecute e).withOps ops := by
  unfold State.afterExecute
  rw [show (e.withOps ops).taken = e.taken from rfl, show (e.withOps ops).sys = e.sys from rfl]
  split
  · rfl
  · split <;> rfl

/-- Captured operands that the unit does not tell apart pass through Execute. -/
theorem executeStage_withOps
    (hu : unit s.cfg (e.unexecuted.withOps ops) = (unit s.cfg e.unexecuted).withOps ops) :
    executeStage unit (e.withOps ops) (s.withOps ops) = (executeStage unit e s).withOps ops := by
  rcases executeStage_cases unit e s with ⟨hr, h⟩ | ⟨hr, k, hk, h⟩ | ⟨hr, e', he', h⟩
  · rw [h, executeStage, if_pos (show 1 < (e.withOps ops).rem from hr)]
    rfl
  · rw [hk] at hu
    rw [h, executeStage_raise (s := s.withOps ops) (e := e.withOps ops) hr hu]
    exact takeException_withOps k e.pc e.pc
  · rw [he'] at hu
    rw [h, executeStage, if_neg (show ¬ 1 < (e.withOps ops).rem from Nat.not_lt.mpr hr),
      show unit (s.withOps ops).cfg (e.withOps ops).unexecuted = .latched (e'.withOps ops) from hu]
    exact afterExecute_withOps (s := s.putEntry .EX { e' with done := true }) (e := { e' with done := true })

end

/-! ## The units -/

section
variable {i : Instr} {α : Type} {r : RegNum}

/-- The operands agree with the entry's own on every source of the instruction. -/
def AgreeOnSources (i : Instr) (e : Entry) (ops : List (RegId × Word)) : Prop :=
  ∀ r ∈ i.srcs, (e.withOps ops).op r = e.op r

section
variable {e : Entry} {ops : List (RegId × Word)}

theorem fcc_withOps (h : (e.withOps ops).op .fcc = e.op .fcc) : (e.withOps ops).fcc = e.fcc :=
  congrArg (·.getLsbD 0) h

theorem f_withOps (h : (e.withOps ops).op (.fpr r) = e.op (.fpr r)) : (e.withOps ops).f r = e.f r := h

variable (h : (e.withOps ops).op (.gpr r) = e.op (.gpr r))
include h

theorem x_withOps : (e.withOps ops).x r = e.x r := h

theorem sword_withOps : (e.withOps ops).sword r = e.sword r := congrArg (fun v => (lowWord v).toInt) h

theorem uword_withOps : (e.withOps ops).uword r = e.uword r := congrArg (fun v => (lowWord v).toNat) h

theorem sdouble_withOps : (e.withOps ops).sdouble r = e.sdouble r := congrArg BitVec.toInt h

theorem udouble_withOps : (e.withOps ops).udouble r = e.udouble r := congrArg BitVec.toNat h

theorem amount5_withOps : (e.withOps ops).amount5 r = e.amount5 r := congrArg (fun v => (v.extractLsb' 0 5).toNat) h

theorem amount6_withOps : (e.withOps ops).amount6 r = e.amount6 r := congrArg (fun v => (v.extractLsb' 0 6).toNat) h

theorem effectiveAddress_withOps (imm : BitVec 16) :
    (e.withOps ops).effectiveAddress r imm = e.effectiveAddress r imm := congrArg (· + sextImm imm) h

end

/-- A value that is read from the instruction's sources. -/
def OfSources (i : Instr) (v : Entry → α) : Prop :=
  ∀ e ops, AgreeOnSources i e ops → v (e.withOps ops) = v e

/-- A unit that reads the instruction's sources only, and leaves the captured operands as they are. -/
def ReadsSources (i : Instr) (unit : Config → Entry → ExecResult) : Prop :=
  ∀ c e ops, AgreeOnSources i e ops → unit c (e.withOps ops) = (unit c e).withOps ops

theorem ReadsSources.latched {f : Config → Entry → Entry}
    (hf : ∀ c e ops, AgreeOnSources i e ops → f c (e.withOps ops) = (f c e).withOps ops) :
    ReadsSources i (fun c e => .latched (f c e)) :=
  fun c e ops h => congrArg ExecResult.latched (hf c e ops h)

theorem ReadsSources.latch {res : Config → Entry → List (RegId × Word)} (hres : ∀ c, OfSources i (res c)) :
    ReadsSources i (fun c e => e.latch (res c e)) := by
  intro c e ops h
  dsimp only
  rw [hres c e ops h]
  rfl

theorem ReadsSources.raiseIf {p : Config → Entry → Prop} [∀ c e, Decidable (p c e)] {k : ExcKind}
    {unit : Config → Entry → ExecResult} (hp : ∀ c, OfSources i (p c)) (hu : ReadsSources i unit) :
    ReadsSources i (fun c e => if p c e then .raise k else unit c e) := by
  intro c e ops h
  have hiff : p c (e.withOps ops) ↔ p c e := iff_of_eq (hp c e ops h)
  by_cases hpe : p c e
  · simp only [if_pos hpe, if_pos (hiff.mpr hpe)]
    rfl
  · simp only [if_neg hpe, if_neg (mt hiff.mp hpe)]
    exact hu c e ops h

theorem ReadsSources.branch {cond : Entry → Bool} {imm : BitVec 16} (hcond : OfSources i cond) :
    ReadsSources i (fun _ e => .latched (if cond e then e.jump (branchTarget e.pc imm) else e)) := by
  refine .latched fun c e ops h => ?_
  rw [hcond e ops h]
  split <;> rfl

theorem ReadsSources.load (hr : .gpr r ∈ i.srcs) (imm : BitVec 16) :
    ReadsSources i (fun _ e => .latched { e with ea := e.effectiveAddress r imm }) :=
  .latched fun c e ops h => by rw [effectiveAddress_withOps (h _ hr)]; rfl

theorem ReadsSources.store {src : RegId} (hr : .gpr r ∈ i.srcs) (hsrc : src ∈ i.srcs) (imm : BitVec 16) :
    ReadsSources i (fun _ e => .latched { e with ea := e.effectiveAddress r imm, sval := e.op src }) :=
  .latched fun c e ops h => by rw [effectiveAddress_withOps (h _ hr), h _ hsrc]; rfl

/-- Every meaning runs a unit that reads the sources of R103's row and no other captured operand: the cases are the shapes a unit
has, and what they leave is that each of its values is read from the sources. -/
theorem exec_reads (i : Instr) :
    ∃ unit access, (∀ s, exec i s = runStage unit access s) ∧ ReadsSources i unit := by
  cases i
  case nop | lui | j | jal | brk => exact ⟨_, _, fun _ => rfl, fun _ _ _ _ => rfl⟩
  case syscall =>
    refine ⟨_, _, fun _ => rfl, fun c e ops h => ?_⟩
    split_ifs <;> rfl
  case jr rs | jalr rd rs =>
    exact ⟨_, _, fun _ => rfl, .latched fun c e ops h => by rw [x_withOps (h _ (by simp [Instr.srcs]))]; rfl⟩
  case lb | lbu | lh | lhu | lw | lwu | ld | ldc1 =>
    exact ⟨_, _, fun _ => rfl, .load (by simp [Instr.srcs]) _⟩
  case sb | sh | sw | sd | sdc1 =>
    exact ⟨_, _, fun _ => rfl, .store (by simp [Instr.srcs]) (by simp [Instr.srcs]) _⟩
  case' beq | bne | blez | bgtz | bltz | bgez | bc1f | bc1t =>
    refine ⟨_, _, fun _ => rfl, .branch fun e ops h => ?_⟩
  case' slt | sltu | slti | sltiu | mfhi | mflo | and | or | xor | nor | andi | ori | xori | movz | movn
      | sll | srl | sra | sllv | srlv | srav | dsll | dsrl | dsra | dsll32 | dsrl32 | dsra32 | dsllv | dsrlv | dsrav
      | movD | cvtDL | dmfc1 | dmtc1 =>
    refine ⟨_, _, fun _ => rfl, .latch fun c e ops h => ?_⟩
  case' add | addu | sub | subu | dadd | daddu | dsub | dsubu | addi | addiu | daddi | daddiu | mult | multu | dmult | dmultu
      | divu | ddivu | addD | subD | mulD | cvtLD | cEqD | cLtD =>
    refine ⟨_, _, fun _ => rfl, .raiseIf (fun c e ops h => ?_) (.latch fun c e ops h => ?_)⟩
  case' div | ddiv =>
    refine ⟨_, _, fun _ => rfl, .raiseIf (fun c e ops h => ?_) (.raiseIf (fun c e ops h => ?_) (.latch fun c e ops h => ?_))⟩
  case' divD =>
    refine ⟨_, _, fun _ => rfl, .raiseIf (fun c e ops h => ?_) (.raiseIf (fun c e ops h => ?_)
      (.raiseIf (fun c e ops h => ?_) (.latch fun c e ops h => ?_)))⟩
  all_goals
    simp only [AgreeOnSources, Instr.srcs, List.forall_mem_cons] at h
    simp only [h, x_withOps, f_withOps, fcc_withOps, sword_withOps, uword_withOps, sdouble_withOps, udouble_withOps,
      amount5_withOps, amount6_withOps]

end

/-! ## The statement -/

section
variable {i : Instr} {s t : State} {e : Entry} {ops : List (RegId × Word)}

theorem withOps_of_slot (h : s.slots.EX = some e) :
    s.withOps ops = { s with slots := { s.slots with EX := some { e with ops := ops } } } := by
  rw [State.withOps, h]
  rfl

/-- Execute's part of an instruction carries captured operands that agree on its sources along unread. -/
theorem exec_withOps (hturn : s.turn = .EX) (hslot : s.slots.EX = some e) (hops : AgreeOnSources i e ops)
    (hx : exec i s = .next t) : exec i (s.withOps ops) = .next (t.withOps ops) := by
  obtain ⟨unit, access, hexec, hreads⟩ := exec_reads i
  have hget : s.slots.get s.turn = some e := by rw [hturn]; exact hslot
  have hget' : (s.withOps ops).slots.get (s.withOps ops).turn = some (e.withOps ops) := by
    rw [withOps_of_slot hslot, hturn]
    rfl
  have hturn' : (s.withOps ops).turn = .EX := hturn
  rw [hexec, runStage_at hget, hturn] at hx
  obtain rfl : executeStage unit e s = t := Host.Outcome.next.inj hx
  rw [hexec, runStage_at hget', hturn']
  exact congrArg Host.Outcome.next (executeStage_withOps (hreads s.cfg e.unexecuted ops hops))

end

/-- Settles O42: the instruction's unit reads its sources only, and the rest of Execute looks at no captured operand. -/
theorem executeReadsOnlyTheSources : Obligations.ExecuteReadsOnlyTheSources := by
  intro i s t e e' ops hturn hslot hops hx hslot'
  rw [← withOps_of_slot hslot, exec_withOps hturn hslot (fun r hr => (hops r hr).symm) hx, withOps_of_slot hslot']

end Sys2Proof.Machine
end

section
/-! PROOFS. Execute's busy cycles and its control flow (40_pipeline.md R164 to R166): branches and jumps
(44_control_transfer.md R355 to R370), and the classes of SYSCALL (46_system.md R410 to R414). -/
namespace Sys2Proof.Machine

open Sys2Proof.Claims

/-! ## Busy cycles (R164) -/

theorem exec_atExecute_busy (i : Instr) {s : State} {e : Entry} (hturn : s.turn = .EX) (hslot : s.slots.EX = some e)
    (hrem : 1 < e.rem) : exec i s = .next (s.putEntry .EX { e with rem := e.rem - 1 }) := by
  obtain ⟨unit, access, hx, -, -⟩ := exec_shape i
  have hget : s.slots.get s.turn = some e := by rw [hturn]; exact hslot
  rw [hx, runStage_at hget, hturn]
  exact congrArg Host.Outcome.next (if_pos hrem)

/-- Settles O36: the count comes before the unit, whatever the instruction. -/
theorem busyExecuteOnlyCountsDown : Obligations.BusyExecuteOnlyCountsDown :=
  fun i _ _ hturn hslot hrem => exec_atExecute_busy i hturn hslot hrem

/-! ## Static targets in the claims' words (R351) -/

theorem branchTarget_eq (pc : Word) (imm : BitVec 16) : branchTarget pc imm = pc + 4 + imm.signExtend 64 * 4 := by
  rw [branchTarget, BitVec.shiftLeft_eq_mul_twoPow]
  rfl

/-- The concatenation of R367 is a mask and an or: bits 28 and up are those of `pc + 4`, the ones below come from the index. -/
theorem jumpTarget_eq (pc : Word) (index : BitVec 26) :
    jumpTarget pc index = ((pc + 4 : Word) &&& (0xFFFFFFFFF0000000 : Word)) ||| (index.setWidth 64 <<< 2 : Word) := by
  have hmask : (0xFFFFFFFFF0000000 : Word) = BitVec.allOnes 36 ++ 0#28 := by decide
  rw [jumpTarget, hmask]
  apply BitVec.eq_of_getLsbD_eq
  intro k hk
  simp only [BitVec.getLsbD_append, BitVec.getLsbD_or, BitVec.getLsbD_and, BitVec.getLsbD_shiftLeft,
    BitVec.getLsbD_setWidth, BitVec.getLsbD_extractLsb', BitVec.getLsbD_allOnes]
  by_cases hregion : 28 ≤ k
  · have hindex : index.getLsbD (k - 2) = false := BitVec.getLsbD_of_ge _ _ (by omega)
    have hbit : 28 + (k - 28) = k := by omega
    simp [hindex, hbit, Nat.not_lt.mpr hregion, Bool.and_comm]
  · have hword : k < 28 := Nat.lt_of_not_le hregion
    have hplace : k - 2 < 64 := by omega
    by_cases hlow : k < 2
    · simp [hword, hlow]
    · simp [hword, hlow, hk, hplace]

/-! ## A completed transfer or call (R165, R166) -/

theorem markDiscard_eq_discarded (o : Option Entry) : markDiscard o = discarded o := by cases o <;> rfl

section
variable {unit : Config → Entry → ExecResult} {s : State} {e r : Entry} {target : Word} {res : List (RegId × Word)}

/-- A unit that latches an entry completes Execute, with what follows from a transfer or a call. -/
theorem compute_latched (h : AtExecute s e) (hu : unit s.cfg e.unexecuted = .latched r) :
    compute unit s = .next ((s.putEntry .EX { r with done := true }).afterExecute { r with done := true }) := by
  have ⟨_, _, hrem⟩ := h
  rw [compute_atExecute h, executeStage, if_neg (by rw [hrem]; decide), hu]

/-- A unit that takes a transfer discards Decode and Fetch and redirects fetch to its target. -/
theorem compute_jump (h : AtExecute s e)
    (hu : unit s.cfg e.unexecuted = .latched { e.unexecuted.jump target with res := res }) :
    compute unit s = .next (transferred s e target res) := by
  rw [compute_latched h hu, transferred, ← markDiscard_eq_discarded, ← markDiscard_eq_discarded]
  rfl

/-- A conditional branch takes its transfer, or completes with nothing done (R356). -/
theorem branch_atExecute {cond : Entry → Bool} {c : Bool} (imm : BitVec 16) (h : AtExecute s e)
    (hc : cond e.unexecuted = c) :
    branch cond imm s = .next
      (if c = true then transferred s e (e.pc + 4 + imm.signExtend 64 * 4) [] else finished s e []) := by
  rw [← branchTarget_eq]
  cases c with
  | true => exact compute_jump h (congrArg ExecResult.latched (if_pos hc))
  | false => exact compute_latch h (congrArg ExecResult.latched (if_neg (Bool.eq_false_iff.mp hc)))

end

/-! ## The statements -/

theorem decide_toInt_neg (v : Word) : decide (v.toInt < 0) = v.getLsbD 63 := by
  rw [← BitVec.msb_eq_toInt, BitVec.msb_eq_getLsbD_last]

theorem decide_toInt_nonneg (v : Word) : decide (0 ≤ v.toInt) = !v.getLsbD 63 := by
  rw [← decide_toInt_neg, ← decide_not, decide_eq_decide, Int.not_lt]

/-- Settles O24: each of the eight is a branch on its condition, and the signed tests against 0 read the sign bit. -/
theorem branchesAreTakenOnTheirConditions : Obligations.BranchesAreTakenOnTheirConditions := by
  intro s e rs rt imm h
  simp only [List.forall_mem_cons]
  exact ⟨branch_atExecute imm h rfl, branch_atExecute imm h decide_not.symm, branch_atExecute imm h rfl,
    branch_atExecute imm h rfl, branch_atExecute imm h (decide_toInt_neg _), branch_atExecute imm h (decide_toInt_nonneg _),
    branch_atExecute imm h rfl, branch_atExecute imm h rfl, List.forall_mem_nil _⟩

/-- Settles O25: each of the four is a transfer that its unit always takes. -/
theorem jumpsAreAlwaysTaken : Obligations.JumpsAreAlwaysTaken := by
  intro s e rd rs index h link region target
  have htarget : jumpTarget e.pc index = target := jumpTarget_eq e.pc index
  rw [← htarget]
  exact ⟨compute_jump h rfl, compute_jump h rfl, compute_jump h rfl, compute_jump h rfl⟩

/-- SYSCALL's execution unit (R410, R414). -/
def syscallUnit (code : BitVec 20) (c : Config) (e : Entry) : ExecResult :=
  if code.toNat = c.haltCode then .latched { e with sys := .halt }
  else if c.syscalls.contains code.toNat then .latched { e with sys := .call }
  else .raise .systemCall

theorem exec_syscall (code : BitVec 20) (s : State) : exec (.syscall code) s = compute (syscallUnit code) s := rfl

/-- Settles O32: the three classes are the unit's three branches, the halt number's first. -/
theorem syscallIsClassifiedInExecute : Obligations.SyscallIsClassifiedInExecute := by
  intro s e code h
  simp only [exec_syscall, ← markDiscard_eq_discarded]
  refine ⟨fun hhalt => ?_, fun hne hcall => ?_, fun hne hcall => ?_⟩
  · exact compute_latched (unit := syscallUnit code) h (if_pos hhalt)
  · exact compute_latched (unit := syscallUnit code) h ((if_neg hne).trans (if_pos (List.contains_iff_mem.mpr hcall)))
  · exact compute_raise (unit := syscallUnit code) h ((if_neg hne).trans (if_neg (mt List.contains_iff_mem.mp hcall)))

end Sys2Proof.Machine
end

section
/-! PROOFS. Decode and the hazard unit (40_pipeline.md R170 to R176). -/
namespace Sys2Proof.Machine

open Sys2Proof.Claims

/-! ## The hazard unit -/

theorem writerIn_some (p : Entry) (r : RegId) :
    writerIn (some p) r = if p.discard = false ∧ r ∈ p.dsts then some p else none := by
  cases hd : p.discard <;> simp [writerIn, hd]

section
variable {s : State} {r : RegId} {p : Entry}

/-- A producer in Execute decides whether a source has a value (R172). -/
theorem resolve_of_producer (hr0 : r ≠ .gpr 0) (hw : writerIn s.slots.EX r = some p) :
    s.resolve r = if p.done = true ∧ p.isLoad = false then some ((valueOf r p.res).getD 0) else none := by
  rw [State.resolve, if_neg hr0, hw]
  dsimp only
  cases p.done <;> cases p.isLoad <;> rfl

/-- With no producer in Execute a source has Memory's value or the register file's (R173, R176). -/
theorem resolve_of_no_producer (hr0 : r ≠ .gpr 0) (hw : writerIn s.slots.EX r = none) :
    s.resolve r = some ((writerIn s.slots.MEM r).elim (s.readReg r) fun p => (valueOf r p.res).getD 0) := by
  rw [State.resolve, if_neg hr0, hw]
  cases writerIn s.slots.MEM r <;> rfl

end

/-- Settles O39: a producer in Execute withholds its value exactly then, and with none there is always a value. -/
theorem onlyAnUnfinishedProducerStalls : Obligations.OnlyAnUnfinishedProducerStalls := by
  intro s r
  by_cases hr0 : r = .gpr 0
  · rw [State.resolve, if_pos hr0]
    exact iff_of_false nofun fun h => h.1 hr0
  cases hw : writerIn s.slots.EX r with
  | some p =>
    obtain ⟨hslot, hd, hr⟩ := writerIn_eq_some.mp hw
    have hproducer : (∃ q, s.slots.EX = some q ∧ q.discard = false ∧ r ∈ q.dsts ∧ (q.isLoad = true ∨ q.done = false)) ↔
        (p.isLoad = true ∨ p.done = false) := by simp [hslot, hd, hr]
    rw [resolve_of_producer hr0 hw, hproducer, and_iff_right hr0]
    cases p.done <;> cases p.isLoad <;> simp
  | none =>
    rw [resolve_of_no_producer hr0 hw]
    refine iff_of_false nofun ?_
    rintro ⟨-, p, hslot, hd, hr, -⟩
    cases hw.symm.trans (writerIn_eq_some.mpr ⟨hslot, hd, hr⟩)

/-- The hazard unit finds a source's value where the claims' rule does. -/
theorem resolve_eq_sourceValue (s : State) (r : RegId) : s.resolve r = sourceValue s r := by
  by_cases hr0 : r = .gpr 0
  · rw [State.resolve, sourceValue, if_pos hr0, if_pos hr0]
  have hmemory : some ((writerIn s.slots.MEM r).elim (s.readReg r) fun p => (valueOf r p.res).getD 0) =
      if (match s.slots.MEM with
          | some p => decide (p.discard = false ∧ r ∈ p.dsts)
          | none => false) = true
        then some ((valueOf r ((s.slots.MEM.map Entry.res).getD [])).getD 0) else some (s.readReg r) := by
    cases s.slots.MEM with
    | none => rfl
    | some m => by_cases hm : m.discard = false ∧ r ∈ m.dsts <;> simp [writerIn_some, hm]
  rw [sourceValue, if_neg hr0]
  cases hEX : s.slots.EX with
  | none => exact (resolve_of_no_producer hr0 (by rw [hEX]; rfl)).trans hmemory
  | some p =>
    by_cases hp : p.discard = false ∧ r ∈ p.dsts
    · rw [resolve_of_producer hr0 (by rw [hEX, writerIn_some, if_pos hp])]
      simp only [hp, and_self, decide_true, if_true]
    · rw [resolve_of_no_producer hr0 (by rw [hEX, writerIn_some, if_neg hp])]
      simp only [hp, decide_false, Bool.false_eq_true, if_false]
      exact hmemory

/-! ## An instruction in Decode (R170) -/

/-- The entry as Decode leaves it. -/
def Entry.decoded (e : Entry) (s : State) : Entry :=
  { e with ops := s.operands e.srcs, ready := e.srcs.all fun r => (s.resolve r).isSome }

section
variable {s : State} {e : Entry}

theorem exec_atDecode (i : Instr) (h : AtDecode s e) : exec i s = .next (s.putEntry .ID (e.decoded s)) := by
  obtain ⟨hturn, hslot⟩ := h
  obtain ⟨unit, access, hx, -, -⟩ := exec_shape i
  have hget : s.slots.get s.turn = some e := by rw [hturn]; exact hslot
  rw [hx, runStage_at hget, hturn]
  rfl

/-- A source that has a value is captured with it. -/
theorem decoded_op {r : RegId} {v : Word} (hr : r ∈ e.srcs) (hv : s.resolve r = some v) : (e.decoded s).op r = v := by
  unfold Entry.op
  split
  · rename_i hr0
    rw [State.resolve, if_pos hr0] at hv
    exact Option.some.inj hv
  · rw [show (e.decoded s).ops = s.operands e.srcs from rfl, valueOf_operands s _ r hr, hv]
    rfl

end

/-- Settles O37: Decode's entry is `Entry.decoded`, and the hazard unit's values are those of the claims' rule. -/
theorem decodeCapturesEverySource : Obligations.DecodeCapturesEverySource := by
  intro i s e h
  refine ⟨e.decoded s, exec_atDecode i h, ?_, fun r hr v hv => decoded_op hr ?_, rfl⟩
  · simp only [Entry.decoded, List.all_eq_true, resolve_eq_sourceValue]
  · rw [resolve_eq_sourceValue, hv]

end Sys2Proof.Machine
end

section
/-! PROOFS. Whole cycles: a step always answers a state (40_pipeline.md R150, R151), nothing is fetched while a halt or a fatal
exception is pending (R156), and the five cycles of a lone instruction (R153 to R170, R181). -/
namespace Sys2Proof.Machine

open Sys2Proof.Claims

/-- Settles O40: every stage operation answers a state, and a step is four of them or the terminal answer. -/
theorem nothingEverStops : Obligations.NothingEverStops := by
  refine ⟨exec_next, fun s => ?_⟩
  by_cases hterm : s.terminal
  · exact ⟨_, step_terminal hterm⟩
  · obtain ⟨hhalt, hfatal⟩ : s.ctrl.isHalted = false ∧ s.ctrl.isFatal = false := by simpa [State.terminal] using hterm
    obtain ⟨t, ht⟩ := stagePhase_next s.boundary
    exact ⟨t.resolveFatal.account, by rw [step_run s hhalt hfatal, State.runCycle, ht]; rfl⟩

/-- Settles O51: the terminal answer is the state with that report. -/
theorem terminalEnginesStay : Obligations.TerminalEnginesStay := fun _ h => step_terminal h

/-! ## Cycles in which nothing is fetched -/

section
variable {s : State}

theorem fetch_of_pending (h : s.haltPending = true ∨ s.fatalPending ≠ none) : s.fetch = s := by
  refine if_pos ?_
  rw [← Option.isSome_iff_ne_none] at h
  rcases h with h | h <;> simp [h]

theorem fetch_of_end (h : s.pc.toNat = s.streamEnd) : s.fetch = s := by
  unfold State.fetch
  rw [fetchAt_end h]
  exact ite_self s

end

/-- Settles O49: neither the redirect nor the fetch does anything, and the advance leaves an empty Fetch empty. -/
theorem pendingHaltOrFatalStopsFetch : Obligations.PendingHaltOrFatalStopsFetch := by
  intro s hpending hctrl hIF
  have hnormal : s.dropDiscarded.advance.ctrl = .normal := by simpa using hctrl
  have hboundary : s.boundary = s.dropDiscarded.advance.begin := by
    rw [State.boundary, redirect_of_normal hnormal, fetch_of_pending (by simpa using hpending)]
  have hempty : s.dropDiscarded.advance.slots.IF = none := by
    rw [advance_IF, dropDiscarded_IF, kept_eq_none hIF, ite_self]
  rw [hboundary]
  exact ⟨congrArg beginEntry hempty, by simp⟩

/-! ## Markers set and taken back (R154, R160) -/

theorem PendingMarks.ext_get {p q : PendingMarks} (h : ∀ r, p.get r = q.get r) : p = q := by
  have hfile {v w : Vector Nat 32} (hv : ∀ i : RegNum, regGet v i = regGet w i) : v = w := by
    refine Vector.ext fun k hk => ?_
    simpa [regGet, Nat.mod_eq_of_lt hk] using hv (BitVec.ofNat 5 k)
  have hgpr : p.gpr = q.gpr := hfile fun i => h (.gpr i)
  have hfpr : p.fpr = q.fpr := hfile fun i => h (.fpr i)
  have hhi : p.hi = q.hi := h .hi
  have hlo : p.lo = q.lo := h .lo
  have hfcc : p.fcc = q.fcc := h .fcc
  cases p
  cases q
  simp_all

theorem unmark_mark (p : PendingMarks) (rs : List RegId) : (p.mark rs).unmark rs = p :=
  PendingMarks.ext_get fun r => by rw [get_unmark, get_mark, Nat.add_sub_cancel]

/-! ## The end of a cycle in which nothing ends or stalls -/

section
variable {s t : State}

theorem resolveFatal_of_none (h : s.fatalPending = none) : s.resolveFatal = s := by
  unfold State.resolveFatal
  rw [h]
  cases s.ctrl <;> rfl

theorem account_of_no_stall (h : s.slots.stalled = false) :
    s.account = { s with turn := .IF, report := s.account.report } := by
  unfold State.account
  rw [if_neg (Bool.eq_false_iff.mp h)]

theorem step_of_stagePhase (hctrl : s.ctrl = .normal) (h : stagePhase s.boundary = .next t) (hf : t.fatalPending = none) :
    step s = .next t.account := by
  rw [step_run s (by rw [hctrl]; rfl) (by rw [hctrl]; rfl), State.runCycle, h]
  exact congrArg (fun u => Host.Outcome.next u.account) (resolveFatal_of_none hf)

theorem drained_iff : s.drained = true ↔
    s.ctrl = .normal ∧ s.haltPending = false ∧ s.fatalPending = none ∧ s.slots.IF = none ∧ s.slots.ID = none ∧
      s.slots.EX = none ∧ s.slots.MEM = none ∧ s.pc.toNat = s.streamEnd := by
  simp [State.drained, and_assoc]

end

/-! ## One instruction alone in the pipeline -/

/-- One occupied slot. -/
def Slots.alone (st : Stage) (e : Entry) : Slots := Slots.put {} st (some e)

theorem Slots.alone_get (st u : Stage) (e : Entry) : (Slots.alone st e).get u = if u = st then some e else none := by
  rw [Slots.alone, slots_get_put]
  cases u <;> rfl

/-- Nothing is pending, and the next word of the stream is its last and decodes to `i`. -/
structure LastWord (s : State) (i : Instruction) : Prop where
  ctrl  : s.ctrl = .normal
  halt  : s.haltPending = false
  fatal : s.fatalPending = none
  fetch : s.fetchAt s.pc = some (.instr i)
  last  : (s.pc + 4).toNat = s.streamEnd

/-- `s` after `n` cycles in which its last word was fetched and moved on, alone, to stage `st`. -/
def State.underway (s : State) (n : Nat) (st : Stage) (e : Entry) (p : PendingMarks) (r : CycleReport) : State :=
  { s with slots := .alone st e, pend := p, pc := s.pc + 4, cycle := s.cycle + n, report := r, turn := .IF }

/-- The same within the cycle, in the turn of that stage. -/
def State.inTurn (s : State) (n : Nat) (st : Stage) (e : Entry) (p : PendingMarks) (r : CycleReport) : State :=
  { s.underway n st e p r with turn := st }

section
variable {s t : State} {i : Instruction} {n : Nat} {st u : Stage} {e d d' : Entry} {p q : PendingMarks}
  {r c : CycleReport}

/-- With the stream at its end the boundary only advances the instruction. -/
theorem boundary_underway (h : LastWord s i) (hd : e.discard = false) :
    (s.underway n st e p r).boundary = (s.underway n st e p r).advance.begin := by
  have hclean : (s.underway n st e p r).dropDiscarded = s.underway n st e p r := by
    refine dropDiscarded_clean _ fun v x hv => ?_
    obtain ⟨-, hex⟩ := (Option.ite_none_right_eq_some ..).mp ((Slots.alone_get st v e).symm.trans hv)
    exact Option.some.inj hex ▸ hd
  have hctrl : (s.underway n st e p r).advance.ctrl = .normal := (advance_ctrl _).trans h.ctrl
  have hend : (s.underway n st e p r).advance.pc.toNat = (s.underway n st e p r).advance.streamEnd := by
    rw [advance_pc, State.streamEnd, advance_base, advance_prog]
    exact h.last
  rw [State.boundary, hclean, redirect_of_normal hctrl, fetch_of_end hend]

/-- A step moves the instruction one stage on and runs its part there. -/
theorem step_underway (h : LastWord s i) (hd : e.discard = false)
    (hmove : (s.underway n st e p r).advance.begin = s.underway (n + 1) u d q c) (hu : u ≠ .IF)
    (hdd : d.discard = false) (hi : d.inst = .instr i) (hx : exec i.op (s.inTurn (n + 1) u d q c) = .next t)
    (ht : t.fatalPending = none) : step (s.underway n st e p r) = .next t.account := by
  refine step_of_stagePhase h.ctrl ?_ ht
  rw [boundary_underway h hd, hmove]
  refine stagePhase_alone hu (e := d) ?_ hi hdd (fun v hv _ => ?_) hx
  · exact (Slots.alone_get u u d).trans (if_pos rfl)
  · exact (Slots.alone_get u v d).trans (if_neg hv)

/-- The same when that part changes the instruction's entry only. -/
theorem step_underway_entry (h : LastWord s i) (hd : e.discard = false)
    (hmove : (s.underway n st e p r).advance.begin = s.underway (n + 1) u d q c) (hu : u ≠ .IF)
    (hdd : d.discard = false) (hi : d.inst = .instr i)
    (hx : exec i.op (s.inTurn (n + 1) u d q c) = .next (s.inTurn (n + 1) u d' q c))
    (hstall : (Slots.alone u d').stalled = false) :
    ∃ c', step (s.underway n st e p r) = .next (s.underway (n + 1) u d' q c') := by
  rw [step_underway h hd hmove hu hdd hi hx h.fatal, account_of_no_stall hstall]
  exact ⟨_, rfl⟩

/-! ### Its entry from cycle to cycle -/

/-- The entry as it is fetched. -/
def Instruction.fetched (i : Instruction) : Entry := { inst := .instr i }

/-- The entry as Decode leaves it with nothing else in flight. -/
def Instruction.captured (i : Instruction) (s : State) : Entry :=
  { i.fetched with ops := s.fileOperands i.op.srcs, ready := true }

/-- The entry as it enters Execute. -/
def Instruction.issued (i : Instruction) (s : State) : Entry :=
  { i.fetched with ops := s.fileOperands i.op.srcs, rem := latencyOf s.cfg i.op.latencyClass }

/-- The entry with its results, at the start of a cycle past Execute. -/
def Instruction.executed (i : Instruction) (s : State) (res : List (RegId × Word)) : Entry := { i.issued s with res := res }

/-- The entry with its results, at the end of a cycle from Execute on. -/
def Instruction.completed (i : Instruction) (s : State) (res : List (RegId × Word)) : Entry :=
  { i.executed s res with done := true }

/-- With nothing in flight each source has the register file's value (R173). -/
theorem resolve_of_idle (hEX : t.slots.EX = none) (hMEM : t.slots.MEM = none) (q : RegId) :
    t.resolve q = some (t.readReg q) := by
  by_cases hq : q = .gpr 0
  · rw [State.resolve, if_pos hq, hq]
    exact congrArg some (readReg_zero t).symm
  · rw [resolve_of_no_producer hq (by rw [hEX]; rfl), hMEM]
    rfl

theorem operands_of_idle (hEX : t.slots.EX = none) (hMEM : t.slots.MEM = none) (qs : List RegId) :
    t.operands qs = t.fileOperands qs := by
  induction qs with
  | nil => rfl
  | cons q rest ih => rw [State.operands, resolve_of_idle hEX hMEM, ih]; rfl

theorem decoded_of_idle (hEX : t.slots.EX = none) (hMEM : t.slots.MEM = none) :
    e.decoded t = { e with ops := t.fileOperands e.srcs, ready := true } := by
  have hready : e.srcs.all (fun q => (t.resolve q).isSome) = true :=
    List.all_eq_true.mpr fun q _ => by rw [resolve_of_idle hEX hMEM]; rfl
  rw [Entry.decoded, operands_of_idle hEX hMEM, hready]

theorem valueOf_fileOperands {qs : List RegId} {q : RegId} (hq : q ∈ qs) :
    valueOf q (s.fileOperands qs) = some (s.readReg q) := by
  induction qs with
  | nil => cases hq
  | cons a rest ih =>
    rw [State.fileOperands, List.map_cons, valueOf_cons]
    split
    · rw [‹a = q›]
    · exact ih ((List.mem_cons.mp hq).resolve_left (Ne.symm ‹_›))

theorem issued_op {q : RegId} (hq : q ∈ i.op.srcs) : (i.issued s).op q = s.readReg q := by
  unfold Entry.op
  split
  · rw [‹q = _›]
    exact (readReg_zero s).symm
  · rw [show (i.issued s).ops = s.fileOperands i.op.srcs from rfl, valueOf_fileOperands hq]
    rfl

/-! ### The five cycles -/

/-- The instruction makes no access, and in its one cycle in Execute it completes with these results and nothing else. -/
structure ComputesInOneCycle (s : State) (i : Instruction) (res : List (RegId × Word)) : Prop where
  latency  : latencyOf s.cfg i.op.latencyClass = 1
  access   : RunsAccess i.op .none
  computes : ∀ t, t.cfg = s.cfg → AtExecute t (i.issued s) → exec i.op t = .next (finished t (i.issued s) res)

theorem step_fetches (h : LastWord s i) (hs : s.slots = {}) :
    ∃ c, step s = .next (s.underway 1 .IF i.fetched s.pend c) := by
  have hclean : s.dropDiscarded = s := dropDiscarded_clean s fun v x hv => by
    rw [hs] at hv
    cases v <;> cases hv
  have hadvance : s.advance = s := by
    unfold State.advance
    rw [hs]
    exact congrArg (fun sl => { s with slots := sl }) hs.symm
  have hfetch : s.fetch = { s with slots := .alone .IF i.fetched, pc := s.pc + 4 } := by
    unfold State.fetch
    rw [hs, h.halt, h.fatal, h.fetch]
    rfl
  have hboundary : s.boundary = { s with
      slots := .alone .IF i.fetched, pc := s.pc + 4, cycle := s.cycle + 1, report := s.boundary.report } := by
    rw [State.boundary, hclean, hadvance, redirect_of_normal h.ctrl, hfetch]
    rfl
  have hphase : stagePhase s.boundary = .next s.boundary := by
    rw [hboundary]
    rfl
  have hstall : s.boundary.slots.stalled = false := by
    rw [hboundary]
    rfl
  rw [step_of_stagePhase h.ctrl hphase ((boundary_fatalPending s).trans h.fatal), account_of_no_stall hstall, hboundary]
  exact ⟨_, rfl⟩

theorem step_decodes (h : LastWord s i) :
    ∃ c, step (s.underway n .IF i.fetched p r) = .next (s.underway (n + 1) .ID (i.captured s) p c) := by
  obtain ⟨c, hmove⟩ : ∃ c, (s.underway n .IF i.fetched p r).advance.begin = s.underway (n + 1) .ID i.fetched p c :=
    ⟨_, rfl⟩
  have hx : exec i.op (s.inTurn (n + 1) .ID i.fetched p c) = .next (s.inTurn (n + 1) .ID (i.captured s) p c) := by
    rw [exec_atDecode i.op ⟨rfl, rfl⟩, decoded_of_idle rfl rfl]
    rfl
  exact step_underway_entry h rfl hmove (by decide) rfl rfl hx rfl

variable {res : List (RegId × Word)}

theorem step_executes (h : LastWord s i) (hi : ComputesInOneCycle s i res) :
    ∃ c, step (s.underway n .ID (i.captured s) p r) =
      .next (s.underway (n + 1) .EX (i.completed s res) (p.mark i.op.dsts) c) := by
  obtain ⟨c, hmove⟩ : ∃ c, (s.underway n .ID (i.captured s) p r).advance.begin =
      s.underway (n + 1) .EX (i.issued s) (p.mark i.op.dsts) c := ⟨_, rfl⟩
  exact step_underway_entry h rfl hmove (by decide) rfl rfl (hi.computes _ rfl ⟨rfl, rfl, hi.latency⟩) rfl

theorem step_passes_memory (h : LastWord s i) (hi : ComputesInOneCycle s i res) :
    ∃ c, step (s.underway n .EX (i.completed s res) p r) = .next (s.underway (n + 1) .MEM (i.completed s res) p c) := by
  obtain ⟨c, hmove⟩ : ∃ c, (s.underway n .EX (i.completed s res) p r).advance.begin =
      s.underway (n + 1) .MEM (i.executed s res) p c := ⟨_, rfl⟩
  exact step_underway_entry h rfl hmove (by decide) rfl rfl (exec_atMemory hi.access ⟨rfl, rfl⟩) rfl

/-- `s` when its last word has retired: its results are written and its markers `p` taken back. -/
def State.retired (s : State) (n : Nat) (e : Entry) (p : PendingMarks) (c : CycleReport) : State :=
  (writeBackStage e (s.inTurn n .WB e p c)).account

theorem step_writes_back (h : LastWord s i) :
    ∃ c, step (s.underway n .MEM (i.completed s res) p r) = .next (s.retired (n + 1) (i.executed s res) p c) := by
  obtain ⟨c, hmove⟩ : ∃ c, (s.underway n .MEM (i.completed s res) p r).advance.begin =
      s.underway (n + 1) .WB (i.executed s res) p c := ⟨_, rfl⟩
  exact ⟨c, step_underway h rfl hmove (by decide) rfl rfl (exec_atWriteBack _ ⟨rfl, rfl⟩)
    ((writeBackStage_fatalPending _ _).trans h.fatal)⟩

theorem run_succ (M : Host.Core) {a b : M.State} (h : M.step a = .next b) (k : Nat) : M.run (k + 1) a = M.run k b := by
  rw [Host.Core.run, h]

theorem after_five (h : LastWord s i) (hs : s.slots = {}) (hi : ComputesInOneCycle s i res) :
    ∃ c, after 5 s = .next (s.retired 5 (i.executed s res) (s.pend.mark i.op.dsts) c) := by
  obtain ⟨c₁, hfetch⟩ := step_fetches h hs
  obtain ⟨c₂, hdecode⟩ := step_decodes (n := 1) (p := s.pend) (r := c₁) h
  obtain ⟨c₃, hexecute⟩ := step_executes (n := 2) (p := s.pend) (r := c₂) h hi
  obtain ⟨c₄, hmemory⟩ := step_passes_memory (n := 3) (p := s.pend.mark i.op.dsts) (r := c₃) h hi
  obtain ⟨c₅, hwrite⟩ := step_writes_back (n := 4) (p := s.pend.mark i.op.dsts) (r := c₄) (res := res) h
  refine ⟨c₅, ?_⟩
  calc after 5 s
    _ = after 4 _ := run_succ core hfetch 4
    _ = after 3 _ := run_succ core hdecode 3
    _ = after 2 _ := run_succ core hexecute 2
    _ = after 1 _ := run_succ core hmemory 1
    _ = after 0 _ := run_succ core hwrite 0

/-! ### What has changed when it has retired -/

/-- Results written over registers that read alike leave registers that read alike. -/
theorem readReg_writeRegs_congr (res : List (RegId × Word)) (h : ∀ q, t.readReg q = s.readReg q) (q : RegId) :
    (t.writeRegs res).readReg q = (s.writeRegs res).readReg q := by
  induction res generalizing s t with
  | nil => exact h q
  | cons a rest ih => exact ih fun q => by rw [readReg_writeReg, readReg_writeReg, h q]

theorem retired_readReg (he : e.sys = .none) (q : RegId) :
    (s.retired n e p c).readReg q = (s.writeRegs e.res).readReg q := by
  have hcommit : (writeBackStage e (s.inTurn n .WB e p c)).readReg q = ((s.inTurn n .WB e p c).writeRegs e.res).readReg q :=
    readReg_writeBackStage (by simp [he])
  have hsame : ∀ a, (s.inTurn n .WB e p c).readReg a = s.readReg a := readReg_congr rfl rfl rfl rfl rfl
  exact (readReg_congr rfl rfl rfl rfl rfl q).trans (hcommit.trans (readReg_writeRegs_congr e.res hsame q))

theorem retired_readReg_gpr {rd : RegNum} {v : Word} (he : e.sys = .none) (hres : e.res = [(.gpr rd, v)]) (q : RegId) :
    (s.retired n e p c).readReg q = if q = .gpr rd ∧ rd ≠ 0 then v else s.readReg q := by
  rw [retired_readReg he, hres, State.writeRegs, State.writeRegs, readReg_writeReg]
  simp [written]

theorem retired_stalls : (s.retired n e p c).stalls = s.stalls := by
  rw [State.retired, account_stalls, writeBackStage_slots, writeBackStage_stalls]
  rfl

theorem retired_drained (h : LastWord s i) (he : e.sys = .none) : (s.retired n e p c).drained = true := by
  have hslots : (s.retired n e p c).slots = .alone .WB { e with done := true } := writeBackStage_slots e _
  have hctrl : (s.retired n e p c).ctrl = s.ctrl :=
    (writeBackStage_ctrl e _).trans (if_neg (by simp [he]))
  have hpc : (s.retired n e p c).pc = s.pc + 4 := writeBackStage_pc e _
  have hend : (s.retired n e p c).streamEnd = s.streamEnd := by
    simp [State.streamEnd, State.retired, State.inTurn, State.underway]
  rw [drained_iff, hslots, hctrl, hpc, hend]
  exact ⟨h.ctrl, (writeBackStage_haltPending e _).trans h.halt, (writeBackStage_fatalPending e _).trans h.fatal,
    rfl, rfl, rfl, rfl, h.last⟩

end

/-! ### DADDU (R228) -/

theorem exec_daddu_unchecked {s : State} {e : Entry} {rd rs rt : RegNum} (h : AtExecute s e) (hc : .DADDU ∉ s.cfg.checked) :
    exec (.daddu rd rs rt) s = .next (finished s e [(.gpr rd, e.x rs + e.x rt)]) := by
  refine compute_latch (unit := doubleResult .DADDU rd fun e => e.sdouble rs + e.sdouble rt) h ?_
  have hfits : ¬ overflowsSigned s.cfg .DADDU 64 (e.unexecuted.sdouble rs + e.unexecuted.sdouble rt) = true := by
    rw [overflowsSigned_iff]
    exact fun hover => hc hover.1
  have hsum : trunc64 ((e.x rs).toInt + (e.x rt).toInt) = e.x rs + e.x rt := by
    rw [trunc64, BitVec.ofInt_add, BitVec.ofInt_toInt, BitVec.ofInt_toInt]
  rw [doubleResult, if_neg hfits, ← hsum]
  rfl

theorem daddu_computesInOneCycle {s : State} {pc : Word} {w : Word32} {rd rs rt : RegNum} (hlat : s.cfg.lat.intALU = 1)
    (hc : .DADDU ∉ s.cfg.checked) :
    ComputesInOneCycle s ⟨.daddu rd rs rt, pc, w⟩ [(.gpr rd, s.readReg (.gpr rs) + s.readReg (.gpr rt))] where
  latency := hlat
  access := runsAccess_none nofun nofun
  computes t hcfg hat := by
    have hrs : Entry.x _ rs = s.readReg (.gpr rs) := issued_op (i := ⟨.daddu rd rs rt, pc, w⟩) (by simp [Instr.srcs])
    have hrt : Entry.x _ rt = s.readReg (.gpr rt) := issued_op (i := ⟨.daddu rd rs rt, pc, w⟩) (by simp [Instr.srcs])
    rw [← hrs, ← hrt]
    exact exec_daddu_unchecked hat (by rwa [hcfg])

/-- Settles O60: an engine at rest is at its last word, and DADDU computes in one cycle; what its five cycles leave is the one
result written. -/
theorem addDoublewordRetiresInFiveCycles : Obligations.AddDoublewordRetiresInFiveCycles := by
  intro s w rd rs rt hw _ hslots hctrl hhalt hfatal hlat hchecked hfetch hend hwrap
  have hlast : LastWord s ⟨.daddu rd rs rt, s.pc, w⟩ :=
    ⟨hctrl, hhalt, hfatal, by rw [hfetch, decodeAt_ok hw], (BitVec.toNat_add_of_lt hwrap).trans hend⟩
  obtain ⟨c, hfive⟩ := after_five hlast hslots (daddu_computesInOneCycle hlat hchecked)
  refine ⟨_, hfive, fun hrd => ?_, fun q hq => ?_, writeBackStage_mem nofun,
    (writeBackStage_pend _ _).trans (unmark_mark _ _), writeBackStage_cycle _ _, retired_stalls, writeBackStage_pc _ _,
    retired_drained hlast rfl⟩
  · rw [retired_readReg_gpr rfl rfl, if_pos ⟨rfl, hrd⟩]
  · rw [retired_readReg_gpr rfl rfl, if_neg (by tauto)]

end Sys2Proof.Machine
end

section
/-! PROOFS. Integer arithmetic (41_integer_arith.md R221 to R248) with the moves, LUI and NOP (42_logical_shift.md R281, R289 to
R291): a unit computes on exact integers, and a statement speaks of bit vectors, where a wrapped result is the bit vectors' own. -/
namespace Sys2Proof.Machine

open Sys2Proof.Claims

/-! ## Wrapping an exact sum, difference or product -/

section
variable {w : Nat} (a b : BitVec w)

theorem ofInt_toInt_add : BitVec.ofInt w (a.toInt + b.toInt) = a + b := by
  rw [BitVec.ofInt_add, BitVec.ofInt_toInt, BitVec.ofInt_toInt]

theorem ofInt_toInt_sub : BitVec.ofInt w (a.toInt - b.toInt) = a - b := by
  rw [ofInt_sub, BitVec.ofInt_toInt, BitVec.ofInt_toInt]

theorem ofInt_toInt_add_imm (hw : 16 ≤ w) (imm : BitVec 16) :
    BitVec.ofInt w (a.toInt + imm.toInt) = a + imm.signExtend w := by
  rw [BitVec.ofInt_add, BitVec.ofInt_toInt, ofInt_imm w imm hw]

/-- A wider product of exact signed values is the product of the sign-extended operands. -/
theorem ofInt_toInt_mul (n : Nat) : BitVec.ofInt n (a.toInt * b.toInt) = a.signExtend n * b.signExtend n :=
  BitVec.ofInt_mul a.toInt b.toInt

/-- A wider product of exact unsigned values is the product of the zero-extended operands. -/
theorem ofNat_toNat_mul (n : Nat) : BitVec.ofNat n (a.toNat * b.toNat) = a.setWidth n * b.setWidth n := by
  rw [BitVec.ofNat_mul, BitVec.ofNat_toNat, BitVec.ofNat_toNat]

end

/-! ## The captured operands in the claims' words -/

theorem sword_eq (e : Entry) (r : RegNum) : e.sword r = (low (e.x r)).toInt :=
  congrArg BitVec.toInt (lowWord_eq (e.x r))

theorem boolWord_decide (p : Prop) [Decidable p] : boolWord (decide p) = bit p := by simp [boolWord, bit]

/-! ## The shared units at Execute -/

section
variable {s : State} {e : Entry} {m : Mnemonic} {rd : RegNum} {exact : Entry → Int} {z : Int}

/-- A word operation with exact result `z`, which wraps to `v`. -/
theorem wordResult_atExecute {v : Word32} (h : AtExecute s e) (hz : exact e.unexecuted = z) (hv : BitVec.ofInt 32 z = v) :
    if Overflows s.cfg m 32 z then compute (wordResult m rd exact) s = .next (s.takeException .EX .overflow e.pc e.pc)
    else compute (wordResult m rd exact) s = .next (finished s e [(.gpr rd, v.signExtend 64)]) := by
  refine compute_raise_or_latch h ?_
  simp only [wordResult, overflowsSigned_iff, hz, trunc32, hv, sext32to64]

/-- A doubleword operation with exact result `z`, which wraps to `v`. -/
theorem doubleResult_atExecute {v : Word} (h : AtExecute s e) (hz : exact e.unexecuted = z) (hv : BitVec.ofInt 64 z = v) :
    if Overflows s.cfg m 64 z then compute (doubleResult m rd exact) s = .next (s.takeException .EX .overflow e.pc e.pc)
    else compute (doubleResult m rd exact) s = .next (finished s e [(.gpr rd, v)]) := by
  refine compute_raise_or_latch h ?_
  simp only [doubleResult, overflowsSigned_iff, hz, trunc64, hv]

theorem gprResult_atExecute {value : Entry → Word} {v : Word} (h : AtExecute s e) (hv : value e.unexecuted = v) :
    compute (gprResult rd value) s = .next (finished s e [(.gpr rd, v)]) :=
  compute_latch h (by rw [gprResult, hv])

end

/-! ## Add and subtract (R223 to R234) -/

/-- Settles O7: the exact result on the low words wraps to their sum or difference. -/
theorem wordAddAndSubtract : Obligations.WordAddAndSubtract := by
  intro s e rd rs rt h
  have hadd : e.sword rs + e.sword rt = (low (e.x rs)).toInt + (low (e.x rt)).toInt := by rw [sword_eq, sword_eq]
  have hsub : e.sword rs - e.sword rt = (low (e.x rs)).toInt - (low (e.x rt)).toInt := by rw [sword_eq, sword_eq]
  exact ⟨wordResult_atExecute h hadd (ofInt_toInt_add _ _), wordResult_atExecute h hadd (ofInt_toInt_add _ _),
    wordResult_atExecute h hsub (ofInt_toInt_sub _ _), wordResult_atExecute h hsub (ofInt_toInt_sub _ _)⟩

/-- Settles O8: the exact result on the whole operands wraps to their sum or difference. -/
theorem doublewordAddAndSubtract : Obligations.DoublewordAddAndSubtract := by
  intro s e rd rs rt h
  exact ⟨doubleResult_atExecute h rfl (ofInt_toInt_add _ _), doubleResult_atExecute h rfl (ofInt_toInt_add _ _),
    doubleResult_atExecute h rfl (ofInt_toInt_sub _ _), doubleResult_atExecute h rfl (ofInt_toInt_sub _ _)⟩

/-- Settles O9: the second operand is the immediate, whose value sign extension keeps. -/
theorem addImmediate : Obligations.AddImmediate := by
  intro s e rt rs imm h
  have hword : e.sword rs + (sextImm imm).toInt = (low (e.x rs)).toInt + imm.toInt := by rw [sword_eq, sextImm_toInt]
  have hdouble : e.sdouble rs + (sextImm imm).toInt = (e.x rs).toInt + imm.toInt := by rw [Entry.sdouble, sextImm_toInt]
  have hwrap32 := ofInt_toInt_add_imm (low (e.x rs)) (by decide) imm
  have hwrap64 := ofInt_toInt_add_imm (e.x rs) (by decide) imm
  exact ⟨wordResult_atExecute h hword hwrap32, wordResult_atExecute h hword hwrap32,
    doubleResult_atExecute h hdouble hwrap64, doubleResult_atExecute h hdouble hwrap64⟩

/-! ## Set on less than (R235 to R238) -/

/-- Settles O10: each delivers the truth value of its comparison; the immediate's signed value is that of its extension. -/
theorem setOnLessThan : Obligations.SetOnLessThan := by
  intro s e rd rs rt imm h
  refine ⟨gprResult_atExecute h (boolWord_decide _), gprResult_atExecute h (boolWord_decide _), ?_,
    gprResult_atExecute h (boolWord_decide _)⟩
  rw [← sextImm_toInt imm]
  exact gprResult_atExecute h (boolWord_decide _)

/-! ## Multiply (R239 to R242) -/

/-- HI and LO from the halves of a product of twice the operands' width, `ext` carrying a half to 64 bits. -/
def halves {w : Nat} (ext : BitVec w → Word) (p : BitVec (w + w)) : List (RegId × Word) :=
  [(.hi, ext (p.extractLsb' w w)), (.lo, ext (p.extractLsb' 0 w))]

/-- What MULT and DMULT have in common: the unit of a signed multiply of `w`-bit operands. -/
def multiplySigned (m : Mnemonic) {w : Nat} (ext : BitVec w → Word) (a b : BitVec w) (c : Config) (e : Entry) : ExecResult :=
  if overflowsSigned c m w (a.toInt * b.toInt) then .raise .overflow
  else e.latch (halves ext (BitVec.ofInt (w + w) (a.toInt * b.toInt)))

/-- What MULTU and DMULTU have in common. -/
def multiplyUnsigned (m : Mnemonic) {w : Nat} (ext : BitVec w → Word) (a b : BitVec w) (c : Config) (e : Entry) :
    ExecResult :=
  if overflowsUnsigned c m w (a.toNat * b.toNat) then .raise .overflow
  else e.latch (halves ext (BitVec.ofNat (w + w) (a.toNat * b.toNat)))

theorem multiplySigned_eq (m : Mnemonic) {w : Nat} (ext : BitVec w → Word) (a b : BitVec w) (c : Config) (e : Entry) :
    multiplySigned m ext a b c e =
      if Overflows c m w (a.toInt * b.toInt) then .raise .overflow
      else e.latch (halves ext (a.signExtend (w + w) * b.signExtend (w + w))) := by
  simp only [multiplySigned, overflowsSigned_iff, ofInt_toInt_mul]

theorem multiplyUnsigned_eq (m : Mnemonic) {w : Nat} (ext : BitVec w → Word) (a b : BitVec w) (c : Config) (e : Entry) :
    multiplyUnsigned m ext a b c e =
      if m ∈ c.checked ∧ 2 ^ w ≤ a.toNat * b.toNat then .raise .overflow
      else e.latch (halves ext (a.setWidth (w + w) * b.setWidth (w + w))) := by
  simp only [multiplyUnsigned, overflowsUnsigned_iff, ofNat_toNat_mul]

theorem exec_mult (rs rt : RegNum) (s : State) :
    exec (.mult rs rt) s = compute (fun c e => multiplySigned .MULT sext32to64 (low (e.x rs)) (low (e.x rt)) c e) s := by
  simp only [low, ← lowWord_eq]
  rfl

theorem exec_multu (rs rt : RegNum) (s : State) :
    exec (.multu rs rt) s = compute (fun c e => multiplyUnsigned .MULTU sext32to64 (low (e.x rs)) (low (e.x rt)) c e) s := by
  simp only [low, ← lowWord_eq]
  rfl

theorem exec_dmult (rs rt : RegNum) (s : State) :
    exec (.dmult rs rt) s = compute (fun c e => multiplySigned .DMULT id (e.x rs) (e.x rt) c e) s := rfl

theorem exec_dmultu (rs rt : RegNum) (s : State) :
    exec (.dmultu rs rt) s = compute (fun c e => multiplyUnsigned .DMULTU id (e.x rs) (e.x rt) c e) s := rfl

/-- Settles O11: each multiply runs one of the two common units, whose results are the halves of the product of the operands
extended to twice their width. -/
theorem multiplyIntoHiAndLo : Obligations.MultiplyIntoHiAndLo := by
  intro s e rs rt h
  rw [exec_mult, exec_multu, exec_dmult, exec_dmultu]
  exact ⟨compute_raise_or_latch h (multiplySigned_eq .MULT sext32to64 _ _ s.cfg e.unexecuted),
    compute_raise_or_latch h (multiplyUnsigned_eq .MULTU sext32to64 _ _ s.cfg e.unexecuted),
    compute_raise_or_latch h (multiplySigned_eq .DMULT id _ _ s.cfg e.unexecuted),
    compute_raise_or_latch h (multiplyUnsigned_eq .DMULTU id _ _ s.cfg e.unexecuted)⟩

/-! ## The zero divisor (R243 to R246) -/

theorem divideSigned_zero (m : Mnemonic) {w : Nat} (ext : BitVec w → Word) (a : BitVec w) {b : BitVec w} (hb : b = 0)
    (c : Config) (e : Entry) : divideSigned m ext a b c e = .raise .divideByZero :=
  if_pos (by rw [hb]; exact BitVec.toInt_zero)

theorem divideUnsigned_zero {w : Nat} (ext : BitVec w → Word) (a : BitVec w) {b : BitVec w} (hb : b = 0) (e : Entry) :
    divideUnsigned ext a b e = .raise .divideByZero :=
  if_pos (by rw [hb]; exact BitVec.toNat_zero)

/-- Settles O13: both common units of the divides test their divisor first. -/
theorem zeroDivisorRaisesDivideByZero : Obligations.ZeroDivisorRaisesDivideByZero := by
  intro s e rs rt h
  rw [exec_div, exec_divu, exec_ddiv, exec_ddivu]
  refine ⟨fun hb => ⟨?_, ?_⟩, fun hb => ⟨?_, ?_⟩⟩
  · exact compute_raise h (divideSigned_zero .DIV sext32to64 _ hb s.cfg e.unexecuted)
  · exact compute_raise h (divideUnsigned_zero sext32to64 _ hb e.unexecuted)
  · exact compute_raise h (divideSigned_zero .DDIV id _ hb s.cfg e.unexecuted)
  · exact compute_raise h (divideUnsigned_zero id _ hb e.unexecuted)

/-! ## Moves, LUI and NOP (R247, R248, R281, R289 to R291) -/

/-- The immediate before 16 zero bits is the immediate shifted left by 16. -/
theorem imm_append_zero (imm : BitVec 16) : imm ++ (0 : BitVec 16) = imm.setWidth 32 <<< 16 := by
  refine (BitVec.append_def imm (0 : BitVec 16)).trans ?_
  rw [BitVec.shiftLeftZeroExtend_eq]
  exact BitVec.or_zero

/-- Settles O14: each delivers one value; MOVZ and MOVN choose theirs by `rt`. -/
theorem movesBetweenRegisters : Obligations.MovesBetweenRegisters := by
  intro s e rd rs rt imm h
  refine ⟨gprResult_atExecute h rfl, gprResult_atExecute h rfl, fun hzero => ⟨?_, ?_⟩, fun hne => ⟨?_, ?_⟩, ?_, ?_⟩
  · exact gprResult_atExecute h (if_pos hzero)
  · exact gprResult_atExecute h (if_neg (not_not.mpr hzero))
  · exact gprResult_atExecute h (if_neg hne)
  · exact gprResult_atExecute h (if_pos hne)
  · exact gprResult_atExecute h (congrArg sext32to64 (imm_append_zero imm))
  · exact compute_latch h rfl

end Sys2Proof.Machine
end

section
/-! PROOFS. Logic and shifts (42_logical_shift.md R282 to R288, R300 to R314): every one of them delivers one value to a
general register, so a statement is a list of facts about the value delivered. -/
namespace Sys2Proof.Machine

open Sys2Proof.Claims

/-! ## Logic, bit by bit (R282 to R288) -/

theorem zextImm_getLsbD (imm : BitVec 16) {k : Nat} (hk : k < 64) : (zextImm imm).getLsbD k = imm.getLsbD k := by
  rw [zextImm, BitVec.getLsbD_setWidth, decide_eq_true hk, Bool.true_and]

theorem nor_getLsbD (a b : Word) {k : Nat} (hk : k < 64) :
    (~~~(a ||| b)).getLsbD k = !(a.getLsbD k || b.getLsbD k) := by
  rw [BitVec.getLsbD_not, BitVec.getLsbD_or, decide_eq_true hk, Bool.true_and]

/-- Settles O15: each delivers the bit vectors' own operation on the whole operands, the immediate zero-extended. -/
theorem logicalBitByBit : Obligations.LogicalBitByBit := by
  intro s e rd rs rt imm h
  refine ⟨e.x rs &&& e.x rt, e.x rs ||| e.x rt, e.x rs ^^^ e.x rt, ~~~(e.x rs ||| e.x rt),
    e.x rs &&& zextImm imm, e.x rs ||| zextImm imm, e.x rs ^^^ zextImm imm,
    gprResult_atExecute h rfl, gprResult_atExecute h rfl, gprResult_atExecute h rfl, gprResult_atExecute h rfl,
    gprResult_atExecute h rfl, gprResult_atExecute h rfl, gprResult_atExecute h rfl, fun k hk => ?_⟩
  rw [← zextImm_getLsbD imm hk]
  exact ⟨BitVec.getLsbD_and, BitVec.getLsbD_or, BitVec.getLsbD_xor, nor_getLsbD _ _ hk,
    BitVec.getLsbD_and, BitVec.getLsbD_or, BitVec.getLsbD_xor⟩

/-! ## Word shifts (R292, R300 to R305) -/

/-- An arithmetic right shift carried to any width is the exact quotient wrapped to that width. -/
theorem signExtend_sshiftRight {w : Nat} (m : Nat) (v : BitVec w) (n : Nat) :
    (v.sshiftRight n).signExtend m = BitVec.ofInt m (v.toInt / 2 ^ n) :=
  congrArg (BitVec.ofInt m) (sshiftRight_toInt w v n)

section
variable (v : Word) (n : Nat)

theorem sext_lowWord_shiftLeft :
    sext32to64 (lowWord v <<< n) = (BitVec.ofNat 32 ((low v).toNat * 2 ^ n)).signExtend 64 := by
  rw [sext32to64, lowWord_eq, shiftLeft_eq_mul, low]

theorem sext_lowWord_shiftRight :
    sext32to64 (lowWord v >>> n) = (BitVec.ofNat 32 ((low v).toNat / 2 ^ n)).signExtend 64 := by
  rw [sext32to64, lowWord_eq, shiftRight_eq_div, low]

theorem sext_lowWord_sshiftRight :
    sext32to64 ((lowWord v).sshiftRight n) = BitVec.ofInt 64 ((low v).toInt / 2 ^ n) := by
  rw [sext32to64, lowWord_eq, signExtend_sshiftRight, low]

end

/-- Settles O16: each shifts the low word and sign-extends, by `sa` or by the low five bits of `rs`, which are its value
modulo 32. -/
theorem wordShifts : Obligations.WordShifts := by
  intro s e rd rt rs sa h
  rw [← amount5_eq e rs]
  exact ⟨gprResult_atExecute h (sext_lowWord_shiftLeft _ _), gprResult_atExecute h (sext_lowWord_shiftRight _ _),
    gprResult_atExecute h (sext_lowWord_sshiftRight _ _), gprResult_atExecute h (sext_lowWord_shiftLeft _ _),
    gprResult_atExecute h (sext_lowWord_shiftRight _ _), gprResult_atExecute h (sext_lowWord_sshiftRight _ _)⟩

/-! ## Doubleword shifts (R306 to R314) -/

theorem sshiftRight_eq_div {w : Nat} (v : BitVec w) (n : Nat) : v.sshiftRight n = BitVec.ofInt w (v.toInt / 2 ^ n) := by
  rw [← signExtend_sshiftRight, BitVec.signExtend_eq]

/-- Settles O17: each shifts the whole operand, by `sa`, by `sa + 32` or by the low six bits of `rs`, which are its value
modulo 64. -/
theorem doublewordShifts : Obligations.DoublewordShifts := by
  intro s e rd rt rs sa h
  rw [← amount6_eq e rs]
  exact ⟨gprResult_atExecute h (shiftLeft_eq_mul _ _ _), gprResult_atExecute h (shiftRight_eq_div _ _ _),
    gprResult_atExecute h (sshiftRight_eq_div _ _), gprResult_atExecute h (shiftLeft_eq_mul _ _ _),
    gprResult_atExecute h (shiftRight_eq_div _ _ _), gprResult_atExecute h (sshiftRight_eq_div _ _),
    gprResult_atExecute h (shiftLeft_eq_mul _ _ _), gprResult_atExecute h (shiftRight_eq_div _ _ _),
    gprResult_atExecute h (sshiftRight_eq_div _ _)⟩

end Sys2Proof.Machine
end

section
/-! PROOFS. Loads and stores in Execute (43_load_store.md R320): whatever the access to come in Memory, the unit latches an
address, a store its data too, and nothing is checked yet. -/
namespace Sys2Proof.Machine

open Sys2Proof.Claims

section
variable {unit : Config → Entry → ExecResult} {s : State} {e : Entry}

/-- In Execute a memory instruction whose unit latches an address and store data leaves with them and nothing else; its access
plays no part. -/
theorem runStage_addressed (access : Access) {ea sval : Word} (h : AtExecute s e)
    (hu : unit s.cfg e.unexecuted = .latched { e.unexecuted with ea := ea, sval := sval }) :
    runStage unit access s = .next (addressed s e ea sval) := by
  obtain ⟨hturn, hslot, hrem⟩ := h
  have hget : s.slots.get s.turn = some e := by rw [hturn]; exact hslot
  have hstage : executeStage unit e s = addressed s e ea sval := executeStage_latched (Nat.le_of_eq hrem) hu rfl rfl
  rw [runStage_at hget, hturn, hstage]

theorem load_atExecute {w : Width} {ext : Extension} {dst : RegId} {rs : RegNum} {imm : BitVec 16} (h : AtExecute s e) :
    load w ext dst rs imm s = .next (addressed s e (e.x rs + imm.signExtend 64) e.sval) :=
  runStage_addressed (.load w ext dst) h rfl

theorem store_atExecute {w : Width} {src : RegId} {rs : RegNum} {imm : BitVec 16} (h : AtExecute s e) :
    store w src rs imm s = .next (addressed s e (e.x rs + imm.signExtend 64) (e.op src)) :=
  runStage_addressed (.store w) h rfl

end

/-- Settles O18: each of the thirteen is the common load or the common store of its width and register. -/
theorem memoryInstructionsLatchTheirAddress : Obligations.MemoryInstructionsLatchTheirAddress := by
  intro s e rt rs imm h
  simp only [List.forall_mem_cons]
  refine ⟨⟨?_, ?_, ?_, ?_, ?_, ?_, ?_, ?_, List.forall_mem_nil _⟩, ⟨?_, ?_, ?_, ?_, List.forall_mem_nil _⟩, ?_⟩
  iterate 8 exact load_atExecute h
  iterate 5 exact store_atExecute h

end Sys2Proof.Machine
end

section
/-! PROOFS. Binary64 (R14, R381 to R383): the claims' reading of a pattern in the model's terms, and what the model's rounding and
its four operations give in rational numbers. -/
namespace Sys2Proof.Machine

open Sys2Proof.Claims

/-! ## Classes of patterns (R383) -/

section
variable (a b v : Word)

theorem sign_eq : Fp.sign v = negative v := rfl

theorem isNaN_iff : Fp.isNaN v = true ↔ IsNaN v := by
  simp [Fp.isNaN, Fp.exponent, Fp.fraction, IsNaN, ← BitVec.toNat_inj]

theorem isSNaN_iff : Fp.isSNaN v = true ↔ IsSignalling v := by
  simp [Fp.isSNaN, isNaN_iff]

theorem isInf_iff : Fp.isInf v = true ↔ IsInfinite v := by
  simp [Fp.isInf, Fp.exponent, Fp.fraction, IsInfinite, ← BitVec.toNat_inj]

theorem isZero_iff : Fp.isZero v = true ↔ IsZero v := by
  have hpattern : (v.extractLsb' 0 63).toNat = Fp.pattern v := by
    rw [BitVec.extractLsb'_toNat, Nat.shiftRight_zero, Fp.pattern]
  rw [IsZero, ← BitVec.toNat_inj, hpattern, Fp.isZero, Bool.and_eq_true, beq_iff_eq, beq_iff_eq, Fp.exponent_eq,
    Fp.fraction_eq, show BitVec.toNat (0 : BitVec 63) = 0 from rfl]
  omega

theorem isFinite_iff_pattern : IsFinite v ↔ Fp.pattern v < Fp.infinity := by
  have hexponent : v.extractLsb' 52 11 = 0x7FF ↔ Fp.pattern v / 2 ^ 52 = 2047 := by
    rw [← Fp.exponent_eq, Fp.exponent, ← BitVec.toNat_inj]
    rfl
  have hlt := Fp.pattern_lt v
  rw [IsFinite, ne_eq, hexponent, Fp.infinity]
  omega

theorem isInfinite_iff_pattern : IsInfinite v ↔ Fp.pattern v = Fp.infinity := by
  rw [← isInf_iff, Fp.isInf, Bool.and_eq_true, beq_iff_eq, beq_iff_eq, Fp.exponent_eq, Fp.fraction_eq, Fp.infinity]
  omega

theorem anyNaN_iff : anyNaN a b = true ↔ IsNaN a ∨ IsNaN b := by
  simp [anyNaN, isNaN_iff]

theorem anySNaN_iff : anySNaN a b = true ↔ IsSignalling a ∨ IsSignalling b := by
  simp [anySNaN, isSNaN_iff]

theorem invalidAdd_iff : invalidAdd a b = true ↔ InvalidAdd a b := by
  simp only [invalidAdd, Bool.or_eq_true, Bool.and_eq_true, anySNaN_iff, isInf_iff, bne_iff_ne, sign_eq, or_assoc, and_assoc,
    InvalidAdd]

theorem invalidSub_iff : invalidSub a b = true ↔ InvalidSub a b := by
  simp only [invalidSub, Bool.or_eq_true, Bool.and_eq_true, anySNaN_iff, isInf_iff, beq_iff_eq, sign_eq, or_assoc, and_assoc,
    InvalidSub]

theorem invalidMul_iff : invalidMul a b = true ↔ InvalidMul a b := by
  simp only [invalidMul, Bool.or_eq_true, Bool.and_eq_true, anySNaN_iff, isInf_iff, isZero_iff, or_assoc]

theorem invalidDiv_iff : invalidDiv a b = true ↔ InvalidDiv a b := by
  simp only [invalidDiv, Bool.or_eq_true, Bool.and_eq_true, anySNaN_iff, isInf_iff, isZero_iff, or_assoc]

theorem divByZero_iff : divByZero a b = true ↔ DividesByZero a b := by
  simp only [divByZero, Bool.and_eq_true, Bool.not_eq_true', ← Bool.not_eq_true, isNaN_iff, isInf_iff, isZero_iff]
  simp only [IsNaN, IsInfinite, DividesByZero, IsFinite]
  tauto

end

/-! ## Values (R14) -/

/-- 2^-1074, the unit that the model counts in. -/
def Fp.quantum : ℚ := 2 ^ (-1074 : ℤ)

theorem Fp.quantum_pos : 0 < Fp.quantum := zpow_pos (by norm_num) _

theorem Fp.quantum_eq : Fp.quantum = (Fp.one : ℚ)⁻¹ := by
  rw [Fp.one, Fp.quantum, Nat.cast_pow, Nat.cast_two, zpow_neg, zpow_ofNat]

theorem Fp.one_pos : 0 < Fp.one := by
  rw [Fp.one]
  positivity

/-- A sign as a factor. -/
def Fp.signum (s : Bool) : ℚ := if s then -1 else 1

theorem Fp.signum_mul_signum (s t : Bool) : Fp.signum s * Fp.signum t = Fp.signum (s != t) := by
  cases s <;> cases t <;> norm_num [Fp.signum]

theorem Fp.signum_div_signum (s t : Bool) : Fp.signum s / Fp.signum t = Fp.signum (s != t) := by
  cases s <;> cases t <;> norm_num [Fp.signum]

theorem Fp.abs_signum_mul (s : Bool) (x : ℚ) : |Fp.signum s * x| = |x| := by
  cases s <;> simp [Fp.signum]

theorem Fp.signum_mul_lt_zero (s : Bool) {x : ℚ} (hx : 0 < x) : Fp.signum s * x < 0 ↔ s = true := by
  cases s <;> simp [Fp.signum, hx, hx.le]

section
variable (v : Word)

theorem Fp.value_eq : (Fp.value v : ℚ) = Fp.signum (Fp.sign v) * Fp.magnitude v := by
  rw [Fp.value, Fp.signum]
  split <;> simp

/-- The claims' reading of a pattern is the model's, counted in units; an infinity is 2^1024 in both. -/
theorem real_eq : real v = Fp.value v * Fp.quantum := by
  have hexponent : v.extractLsb' 52 11 = 0 ↔ Fp.exponent v = 0 := by
    rw [Fp.exponent, ← BitVec.toNat_inj]
    rfl
  have hscale (k : ℕ) : (2 : ℚ) ^ ((k + 1 : ℕ) - 1075 : ℤ) = 2 ^ k * Fp.quantum := by
    rw [Fp.quantum, ← zpow_natCast, ← zpow_add₀ two_ne_zero]
    congr 1
    push_cast
    ring
  rw [Fp.value_eq, mul_assoc, real]
  congr 1
  rw [Fp.magnitude]
  by_cases h : Fp.exponent v = 0
  · rw [if_pos h, if_pos (hexponent.mpr h)]
    rfl
  · obtain ⟨k, hk⟩ := Nat.exists_eq_succ_of_ne_zero h
    rw [if_neg h, if_neg (h ∘ hexponent.mp), ← Fp.exponent, ← Fp.fraction, hk, hscale, Nat.succ_sub_one]
    push_cast
    ring

theorem real_eq_signum : real v = Fp.signum (Fp.sign v) * (Fp.magnitude v * Fp.quantum) := by
  rw [real_eq, Fp.value_eq, mul_assoc]

theorem abs_real : |real v| = patternMagnitude (Fp.pattern v) * Fp.quantum := by
  rw [real_eq_signum, Fp.abs_signum_mul, Fp.magnitude_eq]
  exact abs_of_nonneg (mul_nonneg (Nat.cast_nonneg _) Fp.quantum_pos.le)

theorem real_eq_signum_mul_abs : real v = Fp.signum (Fp.sign v) * |real v| := by
  rw [abs_real, ← Fp.magnitude_eq, ← real_eq_signum]

theorem isZero_iff_magnitude : IsZero v ↔ Fp.magnitude v = 0 := by
  rw [← isZero_iff, Fp.isZero, Bool.and_eq_true, beq_iff_eq, beq_iff_eq, Fp.magnitude]
  split <;> simp [*]

theorem real_eq_zero_iff : real v = 0 ↔ IsZero v := by
  rw [isZero_iff_magnitude, ← abs_eq_zero, abs_real, ← Fp.magnitude_eq]
  simp [Fp.quantum_pos.ne']

theorem real_neg : real (Fp.neg v) = -real v := by
  rw [real_eq, real_eq, Fp.value_neg]
  push_cast
  ring

end

/-! ## Rounding (R381, R382) -/

theorem Fp.roundRatio_le (n d : ℕ) : Fp.roundRatio n d ≤ Fp.infinity := by
  rw [Fp.roundRatio]
  split <;> omega

theorem Fp.roundRatio_lt (n d : ℕ) : Fp.roundRatio n d < 2 ^ 63 :=
  (Fp.roundRatio_le n d).trans_lt (by decide)

theorem Fp.roundRatio_zero (d : ℕ) : Fp.roundRatio 0 d = 0 := by
  simp [Fp.roundRatio, rneDiv, Fp.infinity]

section
variable (n d : ℕ)

/-- The halfway point above the largest finite value, in units and with the divisor cleared. -/
theorem overflow_iff {P : ℕ} (hd : 0 < d) (hP : P = 2 ^ 2045) :
    (2 : ℚ) ^ (1024 : ℤ) - 2 ^ (970 : ℤ) ≤ n / d * Fp.quantum ↔ (2 ^ 54 - 1) * P * d ≤ 2 * n := by
  have hunits : (2 : ℚ) ^ (970 : ℤ) = P / 2 * Fp.quantum := by
    rw [hP, Fp.quantum, Nat.cast_pow, Nat.cast_ofNat, ← zpow_natCast, div_eq_mul_inv, ← zpow_neg_one,
      ← zpow_add₀ two_ne_zero, ← zpow_add₀ two_ne_zero]
    congr 1
  have hpoint : (2 : ℚ) ^ (1024 : ℤ) - 2 ^ (970 : ℤ) = (2 ^ 54 - 1) * P / 2 * Fp.quantum := by
    rw [show (1024 : ℤ) = 54 + 970 by norm_num, zpow_add₀ two_ne_zero, hunits]
    ring
  have hd' : (0 : ℚ) < d := Nat.cast_pos.mpr hd
  rw [hpoint, mul_le_mul_iff_left₀ Fp.quantum_pos, le_div_iff₀ hd', ← Nat.cast_le (α := ℚ)]
  push_cast
  constructor <;> intro h <;> linarith

/-- How far a magnitude is from `n / d` units, with the divisor cleared. -/
theorem distance_eq (hd : 0 < d) (k : ℕ) :
    |patternMagnitude k * Fp.quantum - n / d * Fp.quantum| =
      (|(patternMagnitude k * d : ℤ) - n| : ℤ) * (Fp.quantum / d) := by
  have hd' : (d : ℚ) ≠ 0 := Nat.cast_ne_zero.mpr hd.ne'
  have hpos : 0 < Fp.quantum / d := div_pos Fp.quantum_pos (Nat.cast_pos.mpr hd)
  rw [Int.cast_abs, ← abs_of_pos hpos, ← abs_mul]
  congr 1
  push_cast
  field_simp

/-- What `roundRatio_spec` says of integers, said of the rational magnitudes themselves. -/
theorem roundRatio_nearest (hd : 0 < d) :
    if (2 : ℚ) ^ (1024 : ℤ) - 2 ^ (970 : ℤ) ≤ n / d * Fp.quantum then Fp.roundRatio n d = Fp.infinity
    else Fp.roundRatio n d < Fp.infinity ∧ ∀ k,
      |patternMagnitude (Fp.roundRatio n d) * Fp.quantum - n / d * Fp.quantum| ≤
        |patternMagnitude k * Fp.quantum - n / d * Fp.quantum| ∧
      (patternMagnitude k ≠ patternMagnitude (Fp.roundRatio n d) →
        |patternMagnitude k * Fp.quantum - n / d * Fp.quantum| =
          |patternMagnitude (Fp.roundRatio n d) * Fp.quantum - n / d * Fp.quantum| →
        Fp.roundRatio n d % 2 = 0) := by
  obtain ⟨P, hP⟩ : ∃ P, P = 2 ^ 2045 := ⟨_, rfl⟩
  have hspec := roundRatio_spec n d P hd hP
  have hscale : 0 < Fp.quantum / d := div_pos Fp.quantum_pos (Nat.cast_pos.mpr hd)
  simp only [overflow_iff n d hd hP, distance_eq n d hd, mul_le_mul_iff_left₀ hscale, mul_left_inj' hscale.ne', Int.cast_le,
    Int.cast_inj]
  exact hspec

end

theorem getLsbD_zero_of_even {v : Word} (h : Fp.pattern v % 2 = 0) : v.getLsbD 0 = false := by
  rw [Fp.pattern] at h
  rw [BitVec.getLsbD, Nat.testBit_zero, decide_eq_false_iff_not]
  omega

/-- Values of one magnitude and different sign are not equally near to a nonzero number. -/
theorem eq_of_equally_near {x y q : ℚ} (hq : q ≠ 0) (habs : |x| = |y|) (hnear : |x - q| = |y - q|) : x = y := by
  rcases abs_eq_abs.mp habs with h | h
  · exact h
  · rcases abs_eq_abs.mp hnear with h' | h'
    · linarith
    · exact absurd (by linarith) hq

/-- The sign and the rounded magnitude of a nonzero ratio of units are that ratio rounded: of two values with the sign of the
exact one, the nearer is the one whose magnitude is, and a value of the other sign is no nearer than its magnitude. -/
theorem rounded_withSign (s : Bool) {n d : ℕ} (hn : n ≠ 0) (hd : d ≠ 0) :
    Rounded (Fp.signum s * (n / d * Fp.quantum)) (Fp.withSign s (Fp.roundRatio n d)) := by
  have hn : (0 : ℚ) < n := Nat.cast_pos.mpr (Nat.pos_of_ne_zero hn)
  have hd := Nat.pos_of_ne_zero hd
  have hspec := roundRatio_nearest n d hd
  set v := Fp.withSign s (Fp.roundRatio n d)
  have hsign : Fp.sign v = s := Fp.sign_withSign s _ (Fp.roundRatio_lt n d)
  have hpattern : Fp.pattern v = Fp.roundRatio n d := Fp.pattern_withSign s _ (Fp.roundRatio_lt n d)
  have hpos : 0 < (n : ℚ) / d * Fp.quantum := mul_pos (div_pos hn (Nat.cast_pos.mpr hd)) Fp.quantum_pos
  set r : ℚ := n / d * Fp.quantum
  have habs : |Fp.signum s * r| = r := by rw [Fp.abs_signum_mul, abs_of_pos hpos]
  refine ⟨?_, ?_⟩
  · rw [← sign_eq, hsign]
    simp [Fp.signum_mul_lt_zero s hpos]
  rw [habs]
  rw [← hpattern] at hspec
  split_ifs at hspec ⊢
  · exact (isInfinite_iff_pattern v).mpr hspec
  obtain ⟨hfin, hnear⟩ := hspec
  have hself : |real v - Fp.signum s * r| = |(|real v|) - r| := by
    rw [real_eq_signum_mul_abs v, hsign, ← mul_sub, Fp.abs_signum_mul, Fp.abs_signum_mul, abs_abs]
  have hother (w : Word) : |(|real w|) - r| ≤ |real w - Fp.signum s * r| := by
    have := abs_abs_sub_abs_le (real w) (Fp.signum s * r)
    rwa [habs] at this
  have hclosest (w : Word) : |(|real v|) - r| ≤ |(|real w|) - r| := by
    rw [abs_real, abs_real]
    exact (hnear _).1
  refine ⟨(isFinite_iff_pattern v).mpr hfin, fun w _ => ?_, fun ⟨w, _, hne, heq⟩ => getLsbD_zero_of_even ?_⟩
  · rw [hself]
    exact (hclosest w).trans (hother w)
  · have htie : |(|real w|) - r| = |(|real v|) - r| :=
      le_antisymm ((hother w).trans (heq.trans hself).le) (hclosest w)
    rw [abs_real, abs_real] at htie
    refine (hnear (Fp.pattern w)).2 (fun hsame => hne ?_) htie
    exact eq_of_equally_near (abs_pos.mp (habs.symm ▸ hpos)) (by rw [abs_real, abs_real, hsame]) heq

/-- A nonzero exact number of units over `d` is rounded by `Fp.roundSigned`. -/
theorem rounded_roundSigned {z : ℤ} {d : ℕ} (hz : z ≠ 0) (hd : d ≠ 0) :
    Rounded (z / d * Fp.quantum) (Fp.roundSigned z d) := by
  have h := rounded_withSign (decide (z < 0)) (Int.natAbs_ne_zero.mpr hz) hd
  have hvalue : Fp.signum (decide (z < 0)) * (z.natAbs : ℚ) = z := by
    rw [Nat.cast_natAbs, Int.cast_abs, Fp.signum]
    by_cases hneg : z < 0
    · rw [if_pos (decide_eq_true hneg), abs_of_neg (Int.cast_lt_zero.mpr hneg)]
      ring
    · rw [if_neg (by simpa using hneg), abs_of_nonneg (Int.cast_nonneg (not_lt.mp hneg)), one_mul]
  rwa [← mul_assoc, ← mul_div_assoc, hvalue] at h

/-! ## The four operations on finite operands (R384 to R387) -/

section
variable {a b : Word}

theorem isFinite_iff_isInf : IsFinite a ↔ Fp.isInf a = false ∧ Fp.isNaN a = false := by
  rw [← Bool.not_eq_true, ← Bool.not_eq_true, isInf_iff, isNaN_iff]
  tauto

theorem isFinite_neg (ha : IsFinite a) : IsFinite (Fp.neg a) := by
  rwa [IsFinite, Fp.neg_field a 52 11 (by decide)]

theorem add_of_finite (ha : IsFinite a) (hb : IsFinite b) :
    Fp.add a b = if Fp.value a + Fp.value b = 0 then Fp.withSign (Fp.sign a && Fp.sign b) 0
      else Fp.roundSigned (Fp.value a + Fp.value b) 1 := by
  simp [Fp.add, (isFinite_iff_isInf.mp ha).1, (isFinite_iff_isInf.mp hb).1]

theorem real_add_real : real a + real b = (Fp.value a + Fp.value b : ℤ) * Fp.quantum := by
  rw [real_eq, real_eq, Int.cast_add, add_mul]

theorem real_add_real_eq_zero_iff : real a + real b = 0 ↔ Fp.value a + Fp.value b = 0 := by
  rw [real_add_real, mul_eq_zero, Int.cast_eq_zero, or_iff_left Fp.quantum_pos.ne']

theorem add_rounded (ha : IsFinite a) (hb : IsFinite b) (hne : real a + real b ≠ 0) :
    Rounded (real a + real b) (Fp.add a b) := by
  rw [Ne, real_add_real_eq_zero_iff] at hne
  rw [add_of_finite ha hb, if_neg hne, real_add_real]
  simpa using rounded_roundSigned hne one_ne_zero

theorem sub_rounded (ha : IsFinite a) (hb : IsFinite b) (hne : real a - real b ≠ 0) :
    Rounded (real a - real b) (Fp.sub a b) := by
  rw [sub_eq_add_neg, ← real_neg] at hne ⊢
  exact add_rounded ha (isFinite_neg hb) hne

theorem mul_of_finite (ha : IsFinite a) (hb : IsFinite b) :
    Fp.mul a b = Fp.withSign (Fp.sign a != Fp.sign b) (Fp.roundRatio (Fp.magnitude a * Fp.magnitude b) Fp.one) := by
  simp [Fp.mul, (isFinite_iff_isInf.mp ha).1, (isFinite_iff_isInf.mp hb).1]

theorem mul_rounded (ha : IsFinite a) (hb : IsFinite b) (hne : real a * real b ≠ 0) :
    Rounded (real a * real b) (Fp.mul a b) := by
  rw [mul_ne_zero_iff, Ne, Ne, real_eq_zero_iff, real_eq_zero_iff, isZero_iff_magnitude, isZero_iff_magnitude] at hne
  have hexact : real a * real b = Fp.signum (Fp.sign a != Fp.sign b) *
      ((Fp.magnitude a * Fp.magnitude b : ℕ) / Fp.one * Fp.quantum) := by
    rw [real_eq_signum, real_eq_signum, ← Fp.signum_mul_signum, Nat.cast_mul, div_eq_mul_inv, ← Fp.quantum_eq]
    ring
  rw [mul_of_finite ha hb, hexact]
  exact rounded_withSign _ (mul_ne_zero hne.1 hne.2) Fp.one_pos.ne'

theorem div_of_finite (ha : IsFinite a) (hb : IsFinite b) (hne : ¬ IsZero b) :
    Fp.div a b = Fp.withSign (Fp.sign a != Fp.sign b) (Fp.roundRatio (Fp.magnitude a * Fp.one) (Fp.magnitude b)) := by
  rw [← isZero_iff] at hne
  simp [Fp.div, (isFinite_iff_isInf.mp ha).1, (isFinite_iff_isInf.mp hb).1, hne]

theorem div_rounded (ha : IsFinite a) (hb : IsFinite b) (hne : real a / real b ≠ 0) :
    Rounded (real a / real b) (Fp.div a b) := by
  rw [div_ne_zero_iff, Ne, Ne, real_eq_zero_iff, real_eq_zero_iff] at hne
  rw [div_of_finite ha hb hne.2]
  rw [isZero_iff_magnitude, isZero_iff_magnitude] at hne
  have hexact : real a / real b = Fp.signum (Fp.sign a != Fp.sign b) *
      ((Fp.magnitude a * Fp.one : ℕ) / Fp.magnitude b * Fp.quantum) := by
    have hone : (Fp.one : ℚ) ≠ 0 := Nat.cast_ne_zero.mpr Fp.one_pos.ne'
    rw [real_eq_signum, real_eq_signum, mul_div_mul_comm, Fp.signum_div_signum, mul_div_mul_right _ _ Fp.quantum_pos.ne',
      Nat.cast_mul, Fp.quantum_eq, mul_div_right_comm, mul_inv_cancel_right₀ hone]
  rw [hexact]
  exact rounded_withSign _ (mul_ne_zero hne.1 Fp.one_pos.ne') hne.2

end

end Sys2Proof.Machine
end

section
/-! PROOFS. The floating-point instructions (45_floating_point.md R384 to R394): each is a shared unit at Execute, whose result the
facts about binary64 name. -/
namespace Sys2Proof.Machine

open Sys2Proof.Claims

/-! ## Zeros and infinities of the four operations (R384 to R387) -/

theorem withSign_zero (s : Bool) : Fp.withSign s 0 = signed s 0 := by
  cases s <;> rfl

theorem withSign_infinity (s : Bool) : Fp.withSign s Fp.infinity = signed s 0x7FF0000000000000 := by
  cases s <;> rfl

section
variable {a b : Word}

theorem not_isNaN_of_isFinite (ha : IsFinite a) : ¬ IsNaN a := fun h => ha h.1

theorem not_isInfinite_of_isFinite (ha : IsFinite a) : ¬ IsInfinite a := fun h => ha h.1

theorem isFinite_of_isZero (ha : IsZero a) : IsFinite a := by
  rw [← isZero_iff, Fp.isZero, Bool.and_eq_true, beq_iff_eq] at ha
  intro h
  rw [Fp.exponent, h] at ha
  exact absurd ha.1 (by decide)

theorem not_isZero_of_isInfinite (ha : IsInfinite a) : ¬ IsZero a :=
  fun hz => not_isInfinite_of_isFinite (isFinite_of_isZero hz) ha

theorem eq_signed_of_isInfinite (ha : IsInfinite a) : a = signed (negative a) 0x7FF0000000000000 := by
  rw [← withSign_infinity, ← (isInfinite_iff_pattern a).mp ha]
  exact Fp.eq_withSign a

theorem isInfinite_neg (ha : IsInfinite a) : IsInfinite (Fp.neg a) := by
  rwa [IsInfinite, Fp.neg_field a 52 11 (by decide), Fp.neg_field a 0 52 (by decide)]

theorem add_of_sum_zero (ha : IsFinite a) (hb : IsFinite b) (hsum : real a + real b = 0) :
    Fp.add a b = signed (negative a && negative b) 0 := by
  rw [add_of_finite ha hb, if_pos (real_add_real_eq_zero_iff.mp hsum), withSign_zero]
  rfl

theorem add_of_infinite_left (ha : IsInfinite a) : Fp.add a b = a := if_pos ((isInf_iff a).mpr ha)

theorem add_of_infinite_right (ha : IsFinite a) (hb : IsInfinite b) : Fp.add a b = b := by
  rw [Fp.add, if_neg ((isInf_iff a).not.mpr (not_isInfinite_of_isFinite ha)), if_pos ((isInf_iff b).mpr hb)]

theorem sub_of_difference_zero (ha : IsFinite a) (hb : IsFinite b) (hdiff : real a - real b = 0) :
    Fp.sub a b = signed (negative a && !negative b) 0 := by
  rw [sub_eq_add_neg, ← real_neg] at hdiff
  rw [Fp.sub, add_of_sum_zero ha (isFinite_neg hb) hdiff, ← sign_eq (Fp.neg b), Fp.sign_neg, sign_eq]

theorem sub_of_infinite_right (ha : IsFinite a) (hb : IsInfinite b) :
    Fp.sub a b = signed (!negative b) 0x7FF0000000000000 := by
  rw [Fp.sub, add_of_infinite_right ha (isInfinite_neg hb), eq_signed_of_isInfinite (isInfinite_neg hb), ← sign_eq (Fp.neg b),
    Fp.sign_neg, sign_eq]

theorem mul_of_zero (ha : IsFinite a) (hb : IsFinite b) (hzero : IsZero a ∨ IsZero b) :
    Fp.mul a b = signed (negative a != negative b) 0 := by
  rw [isZero_iff_magnitude, isZero_iff_magnitude, ← mul_eq_zero] at hzero
  rw [mul_of_finite ha hb, hzero, Fp.roundRatio_zero, withSign_zero]
  rfl

theorem mul_of_infinite (hinf : IsInfinite a ∨ IsInfinite b) :
    Fp.mul a b = signed (negative a != negative b) 0x7FF0000000000000 := by
  rw [← isInf_iff, ← isInf_iff, ← Bool.or_eq_true] at hinf
  rw [Fp.mul, if_pos hinf, withSign_infinity]
  rfl

theorem div_of_zero_left (ha : IsZero a) (hb : IsFinite b) (hne : ¬ IsZero b) :
    Fp.div a b = signed (negative a != negative b) 0 := by
  rw [div_of_finite (isFinite_of_isZero ha) hb hne, (isZero_iff_magnitude a).mp ha, Nat.zero_mul, Fp.roundRatio_zero,
    withSign_zero]
  rfl

/-- What `Fp.div` tests first: an infinite dividend, or a zero divisor. -/
theorem div_of_infinite_or_zero (h : IsInfinite a ∨ IsZero b) :
    Fp.div a b = signed (negative a != negative b) 0x7FF0000000000000 := by
  rw [← isInf_iff, ← isZero_iff, ← Bool.or_eq_true] at h
  rw [Fp.div, if_pos h, withSign_infinity]
  rfl

theorem div_of_infinite_right (ha : IsFinite a) (hb : IsInfinite b) :
    Fp.div a b = signed (negative a != negative b) 0 := by
  have hfirst : ¬ (IsInfinite a ∨ IsZero b) :=
    not_or.mpr ⟨not_isInfinite_of_isFinite ha, not_isZero_of_isInfinite hb⟩
  rw [← isInf_iff, ← isZero_iff, ← Bool.or_eq_true] at hfirst
  rw [Fp.div, if_neg hfirst, if_pos ((isInf_iff b).mpr hb), withSign_zero]
  rfl

end

/-! ## Operations that are not invalid (R383) -/

section
variable {a b : Word}

section
variable (ha : ¬ IsNaN a) (hb : ¬ IsNaN b)
include ha hb

/-- Every invalid condition is a signalling operand or one of its own. -/
theorem not_signalling_or {p : Prop} (hp : ¬ p) : ¬ (IsSignalling a ∨ IsSignalling b ∨ p) := by
  rintro (hs | hs | h)
  · exact ha hs.1
  · exact hb hs.1
  · exact hp h

theorem not_invalidAdd (hfin : IsFinite a ∨ IsFinite b) : ¬ InvalidAdd a b :=
  not_signalling_or ha hb fun ⟨hia, hib, _⟩ => hfin.elim (· hia.1) (· hib.1)

theorem not_invalidSub (hfin : IsFinite a ∨ IsFinite b) : ¬ InvalidSub a b :=
  not_signalling_or ha hb fun ⟨hia, hib, _⟩ => hfin.elim (· hia.1) (· hib.1)

theorem not_invalidDiv (hzero : ¬ IsZero a ∨ ¬ IsZero b) (hfin : IsFinite a ∨ IsFinite b) : ¬ InvalidDiv a b := by
  refine not_signalling_or ha hb ?_
  rintro (⟨hza, hzb⟩ | ⟨hia, hib⟩)
  · exact hzero.elim (· hza) (· hzb)
  · exact hfin.elim (· hia.1) (· hib.1)

end

theorem not_invalidMul (ha : IsFinite a) (hb : IsFinite b) : ¬ InvalidMul a b := by
  refine not_signalling_or (not_isNaN_of_isFinite ha) (not_isNaN_of_isFinite hb) ?_
  rintro (⟨-, hib⟩ | ⟨hia, -⟩)
  · exact hb hib.1
  · exact ha hia.1

/-- A division by zero has no NaN operand and is no invalid operation. -/
theorem dividesByZero_valid (hz : DividesByZero a b) : ¬ InvalidDiv a b ∧ ¬ IsNaN a ∧ ¬ IsNaN b := by
  obtain ⟨ha, hne, hzero⟩ := hz
  have hna := not_isNaN_of_isFinite ha
  have hnb := not_isNaN_of_isFinite (isFinite_of_isZero hzero)
  exact ⟨not_invalidDiv hna hnb (.inl hne) (.inl ha), hna, hnb⟩

theorem not_dividesByZero_of_not_isZero (hb : ¬ IsZero b) : ¬ DividesByZero a b := fun ⟨_, _, hz⟩ => hb hz

theorem not_dividesByZero_of_isInfinite (ha : IsInfinite a) : ¬ DividesByZero a b := fun ⟨hfin, _⟩ => hfin ha.1

end

/-! ## Arithmetic at Execute (R382, R383) -/

section
variable {unit : Config → Entry → ExecResult} {s : State} {e : Entry} {fd fs ft : RegNum}

/-- `compute_raise_or_latch` as one answer. -/
theorem compute_ite {p : Prop} [Decidable p] {k : ExcKind} {res : List (RegId × Word)} (h : AtExecute s e)
    (hu : unit s.cfg e.unexecuted = if p then .raise k else e.unexecuted.latch res) :
    compute unit s = if p then .next (s.takeException .EX k e.pc e.pc) else .next (finished s e res) := by
  have hanswer := compute_raise_or_latch h hu
  split_ifs at hanswer ⊢ <;> exact hanswer

section
variable {invalid : Word → Word → Bool} {p : Prop} [Decidable p] (h : AtExecute s e)
  (hinvalid : invalid (e.f fs) (e.f ft) = true ↔ p)
include h hinvalid

/-- Arithmetic whose invalid condition is `p`. -/
theorem fpArith_atExecute (op : Word → Word → Word) :
    compute (fpArith fd fs ft invalid op) s =
      if p ∧ s.cfg.trapFpInvalid = true then .next (s.takeException .EX .fpInvalid e.pc e.pc)
      else .next (finished s e
        [(.fpr fd, if p ∨ IsNaN (e.f fs) ∨ IsNaN (e.f ft) then s.cfg.defaultNaN else op (e.f fs) (e.f ft))]) := by
  refine compute_ite h ?_
  simp only [fpArith, unexecuted_f, Bool.and_eq_true, Bool.or_eq_true, hinvalid, anyNaN_iff]

theorem fpArith_value {op : Word → Word → Word} (hp : ¬ p) (ha : ¬ IsNaN (e.f fs)) (hb : ¬ IsNaN (e.f ft)) :
    compute (fpArith fd fs ft invalid op) s = .next (finished s e [(.fpr fd, op (e.f fs) (e.f ft))]) := by
  rw [fpArith_atExecute h hinvalid, if_neg (hp ·.1), if_neg (not_or.mpr ⟨hp, not_or.mpr ⟨ha, hb⟩⟩)]

theorem fpArith_raises {op : Word → Word → Word} (hp : p) (htrap : s.cfg.trapFpInvalid = true) :
    compute (fpArith fd fs ft invalid op) s = .next (s.takeException .EX .fpInvalid e.pc e.pc) := by
  rw [fpArith_atExecute h hinvalid, if_pos ⟨hp, htrap⟩]

theorem fpArith_defaultNaN {op : Word → Word → Word}
    (hcase : p ∧ s.cfg.trapFpInvalid = false ∨ ¬ p ∧ (IsNaN (e.f fs) ∨ IsNaN (e.f ft))) :
    compute (fpArith fd fs ft invalid op) s = .next (finished s e [(.fpr fd, s.cfg.defaultNaN)]) := by
  have hquiet : ¬ (p ∧ s.cfg.trapFpInvalid = true) := by
    rintro ⟨hp, htrap⟩
    rcases hcase with ⟨-, hoff⟩ | ⟨hnot, -⟩
    · exact absurd (htrap.symm.trans hoff) (by decide)
    · exact hnot hp
  rw [fpArith_atExecute h hinvalid, if_neg hquiet, if_pos (hcase.imp And.left And.right)]

/-- A compare whose invalid condition is `p`. -/
theorem fpCompare_atExecute (result : Word → Word → Bool) :
    compute (fpCompare fs ft invalid result) s =
      if p ∧ s.cfg.trapFpInvalid = true then .next (s.takeException .EX .fpInvalid e.pc e.pc)
      else .next (finished s e [(.fcc, boolWord (result (e.f fs) (e.f ft)))]) := by
  refine compute_ite h ?_
  simp only [fpCompare, unexecuted_f, Bool.and_eq_true, hinvalid]

end

/-! ## The divide's own trap (R387) -/

theorem exec_divD_raises (h : AtExecute s e) (hz : DividesByZero (e.f fs) (e.f ft)) (htrap : s.cfg.trapFpDivByZero = true) :
    exec (.divD fd fs ft) s = .next (s.takeException .EX .fpDivideByZero e.pc e.pc) := by
  have hvalid := (dividesByZero_valid hz).1
  refine compute_raise h ?_
  simp only [unexecuted_f, Bool.and_eq_true, invalidDiv_iff, divByZero_iff]
  rw [if_neg (hvalid ·.1), if_pos ⟨hz, htrap⟩]

/-- But for a division by zero that traps, DIV.D is the shared unit, which tests the invalid condition again. -/
theorem exec_divD_eq_fpArith (h : AtExecute s e)
    (hz : ¬ (DividesByZero (e.f fs) (e.f ft) ∧ s.cfg.trapFpDivByZero = true)) :
    exec (.divD fd fs ft) s = compute (fpArith fd fs ft invalidDiv Fp.div) s := by
  rw [fpArith_atExecute h (invalidDiv_iff _ _)]
  refine compute_ite h ?_
  simp only [fpArith, unexecuted_f, Bool.and_eq_true, Bool.or_eq_true, invalidDiv_iff, divByZero_iff, anyNaN_iff, if_neg hz]
  split_ifs <;> rfl

end

/-! ## The four operations, their operands no NaN -/

section
variable {s : State} {e : Entry} {fd fs ft : RegNum} (h : AtExecute s e)
  (ha : ¬ IsNaN (e.f fs)) (hb : ¬ IsNaN (e.f ft))
include h ha hb

theorem exec_addD (hvalid : ¬ InvalidAdd (e.f fs) (e.f ft)) :
    exec (.addD fd fs ft) s = .next (finished s e [(.fpr fd, Fp.add (e.f fs) (e.f ft))]) :=
  fpArith_value h (invalidAdd_iff _ _) hvalid ha hb

theorem exec_subD (hvalid : ¬ InvalidSub (e.f fs) (e.f ft)) :
    exec (.subD fd fs ft) s = .next (finished s e [(.fpr fd, Fp.sub (e.f fs) (e.f ft))]) :=
  fpArith_value h (invalidSub_iff _ _) hvalid ha hb

theorem exec_mulD (hvalid : ¬ InvalidMul (e.f fs) (e.f ft)) :
    exec (.mulD fd fs ft) s = .next (finished s e [(.fpr fd, Fp.mul (e.f fs) (e.f ft))]) :=
  fpArith_value h (invalidMul_iff _ _) hvalid ha hb

theorem exec_divD (hvalid : ¬ InvalidDiv (e.f fs) (e.f ft))
    (hz : ¬ (DividesByZero (e.f fs) (e.f ft) ∧ s.cfg.trapFpDivByZero = true)) :
    exec (.divD fd fs ft) s = .next (finished s e [(.fpr fd, Fp.div (e.f fs) (e.f ft))]) :=
  (exec_divD_eq_fpArith h hz).trans (fpArith_value h (invalidDiv_iff _ _) hvalid ha hb)

end

/-- Settles O29: each latches its source pattern. -/
theorem floatMovesCopyPatterns : Obligations.FloatMovesCopyPatterns := by
  intro s e fd fs rt h
  exact ⟨compute_latch h rfl, compute_latch h rfl, compute_latch h rfl⟩

/-- Settles O26: finite operands make no invalid operation, and a nonzero quotient has no zero divisor. -/
theorem floatArithmeticRoundsToNearestEven : Obligations.FloatArithmeticRoundsToNearestEven := by
  intro s e fd fs ft h ha hb
  have hna := not_isNaN_of_isFinite ha
  have hnb := not_isNaN_of_isFinite hb
  simp only [List.forall_mem_cons]
  refine ⟨fun hne => ?_, fun hne => ?_, fun hne => ?_, fun hne => ?_, List.forall_mem_nil _⟩
  · exact ⟨_, add_rounded ha hb hne, exec_addD h hna hnb (not_invalidAdd hna hnb (.inl ha))⟩
  · exact ⟨_, sub_rounded ha hb hne, exec_subD h hna hnb (not_invalidSub hna hnb (.inl ha))⟩
  · exact ⟨_, mul_rounded ha hb hne, exec_mulD h hna hnb (not_invalidMul ha hb)⟩
  · have hnz : ¬ IsZero (e.f ft) := fun hz => hne (by rw [(real_eq_zero_iff _).mpr hz, div_zero])
    have hvalid := not_invalidDiv hna hnb (.inr hnz) (.inl ha)
    exact ⟨_, div_rounded ha hb hne, exec_divD h hna hnb hvalid (not_dividesByZero_of_not_isZero hnz ·.1)⟩

/-- Settles O28: the shared unit answers each of the four, the divide too where it does not divide by zero. -/
theorem floatInvalidAndDivideByZero : Obligations.FloatInvalidAndDivideByZero := by
  intro s e fd fs ft h a b
  refine ⟨?_, exec_divD_raises h⟩
  simp only [List.forall_mem_cons, decide_eq_true_eq, decide_eq_false_iff_not]
  refine ⟨⟨fpArith_raises h (invalidAdd_iff _ _), fpArith_defaultNaN h (invalidAdd_iff _ _)⟩,
    ⟨fpArith_raises h (invalidSub_iff _ _), fpArith_defaultNaN h (invalidSub_iff _ _)⟩,
    ⟨fpArith_raises h (invalidMul_iff _ _), fpArith_defaultNaN h (invalidMul_iff _ _)⟩,
    ⟨fun hp => ?_, fun hcase => ?_⟩, List.forall_mem_nil _⟩
  · rw [exec_divD_eq_fpArith h fun hz => (dividesByZero_valid hz.1).1 hp]
    exact fpArith_raises h (invalidDiv_iff _ _) hp
  · have hz : ¬ DividesByZero a b := by
      intro hz
      obtain ⟨hvalid, hna, hnb⟩ := dividesByZero_valid hz
      rcases hcase with ⟨hp, -⟩ | ⟨-, hnan⟩
      · exact hvalid hp
      · exact hnan.elim hna hnb
    rw [exec_divD_eq_fpArith h (hz ·.1)]
    exact fpArith_defaultNaN h (invalidDiv_iff _ _) hcase

/-- Settles O27: no clause meets a condition of R383 that raises or gives a NaN, so each is the value of its operation. -/
theorem floatZerosAndInfinities : Obligations.FloatZerosAndInfinities := by
  intro s e fd fs ft h hna hnb a b
  refine ⟨fun ha hb hsum => ?_, fun ha hb hdiff => ?_, fun ha hv => ?_, fun ha hb => ?_, fun ha hv => ?_, fun ha hb => ?_,
    fun ha hb hz => ?_, fun hinf hv => ?_, fun ha hb hz => ?_, fun ha hb => ?_, fun ha hb => ?_, fun hz htrap => ?_⟩
  · exact add_of_sum_zero ha hb hsum ▸ exec_addD h hna hnb (not_invalidAdd hna hnb (.inl ha))
  · exact sub_of_difference_zero ha hb hdiff ▸ exec_subD h hna hnb (not_invalidSub hna hnb (.inl ha))
  · exact (exec_addD h hna hnb hv).trans (by rw [add_of_infinite_left ha])
  · exact (exec_addD h hna hnb (not_invalidAdd hna hnb (.inl ha))).trans (by rw [add_of_infinite_right ha hb])
  · exact (exec_subD h hna hnb hv).trans (by rw [Fp.sub, add_of_infinite_left ha])
  · exact sub_of_infinite_right ha hb ▸ exec_subD h hna hnb (not_invalidSub hna hnb (.inl ha))
  · exact mul_of_zero ha hb hz ▸ exec_mulD h hna hnb (not_invalidMul ha hb)
  · exact mul_of_infinite hinf ▸ exec_mulD h hna hnb hv
  · have hvalid := not_invalidDiv hna hnb (.inr hz) (.inr hb)
    exact div_of_zero_left ha hb hz ▸ exec_divD h hna hnb hvalid (not_dividesByZero_of_not_isZero hz ·.1)
  · have hnz := not_isZero_of_isInfinite hb
    have hvalid := not_invalidDiv hna hnb (.inr hnz) (.inl ha)
    exact div_of_infinite_right ha hb ▸ exec_divD h hna hnb hvalid (not_dividesByZero_of_not_isZero hnz ·.1)
  · have hvalid := not_invalidDiv hna hnb (.inl (not_isZero_of_isInfinite ha)) (.inr hb)
    exact div_of_infinite_or_zero (.inl ha) ▸ exec_divD h hna hnb hvalid (not_dividesByZero_of_isInfinite ha ·.1)
  · exact div_of_infinite_or_zero (.inr hz.2.2) ▸ exec_divD h hna hnb (dividesByZero_valid hz).1 (by simp [htrap])

/-! ## Conversions (R389, R390) -/

theorem rounded_ofInt {z : ℤ} (hz : z ≠ 0) : Rounded z (Fp.ofInt z) := by
  have hone : (Fp.one : ℚ) ≠ 0 := Nat.cast_ne_zero.mpr Fp.one_pos.ne'
  have h := rounded_roundSigned (mul_ne_zero hz (Int.natCast_ne_zero.mpr Fp.one_pos.ne')) one_ne_zero
  rw [Fp.ofInt, if_neg hz]
  rwa [Nat.cast_one, div_one, Int.cast_mul, Int.cast_natCast, Fp.quantum_eq, mul_inv_cancel_right₀ hone] at h

theorem roundedInt_rneDiv (n : ℕ) {d : ℕ} (hd : 0 < d) : RoundedInt (n / d) (rneDiv n d) := by
  obtain ⟨hlow, hhigh, heven⟩ := rneDiv_spec n d hd
  have hd' : (0 : ℚ) < d := Nat.cast_pos.mpr hd
  have hcleared : |(n / d - rneDiv n d : ℚ)| = (|(n : ℤ) - (rneDiv n d * d : ℕ)| : ℤ) / d := by
    rw [Int.cast_abs, ← abs_of_pos hd', ← abs_div, abs_of_pos hd']
    congr 1
    push_cast
    field_simp
  have hinteger : |(n : ℤ) - (rneDiv n d * d : ℕ)| * 2 ≤ d ∧
      (|(n : ℤ) - (rneDiv n d * d : ℕ)| * 2 = d → (rneDiv n d : ℤ) % 2 = 0) := by
    rcases abs_cases ((n : ℤ) - (rneDiv n d * d : ℕ)) with ⟨h, -⟩ | ⟨h, -⟩ <;> rw [h] <;>
      exact ⟨by omega, fun hhalf => by have := heven (by omega); omega⟩
  generalize |(n : ℤ) - (rneDiv n d * d : ℕ)| = t at hcleared hinteger
  rw [RoundedInt, Int.cast_natCast, hcleared, div_le_div_iff₀ hd' two_pos, div_eq_div_iff hd'.ne' two_ne_zero, one_mul]
  exact_mod_cast hinteger

theorem roundedInt_neg {q : ℚ} {z : ℤ} (h : RoundedInt q z) : RoundedInt (-q) (-z) := by
  rw [RoundedInt, Int.cast_neg, ← neg_sub', abs_neg]
  exact ⟨h.1, fun hhalf => by have := h.2 hhalf; omega⟩

/-- A smaller rounding would be the integer just below, both half a unit away and so both even. -/
theorem roundedInt_le {q : ℚ} {y z : ℤ} (hy : RoundedInt q y) (hz : RoundedInt q z) : z ≤ y := by
  by_contra hlt
  have hgap : (y : ℚ) + 1 ≤ z := by exact_mod_cast not_le.mp hlt
  have hbelow := (abs_le.mp hy.1).2
  have habove := (abs_le.mp hz.1).1
  have hhalf : q - y = 1 / 2 := by linarith
  have hhalf' : q - z = -(1 / 2) := by linarith
  have hnext : z = y + 1 := by
    have : (z : ℚ) = y + 1 := by linarith
    exact_mod_cast this
  have heven := hy.2 (by rw [hhalf]; norm_num)
  have heven' := hz.2 (by rw [hhalf']; norm_num)
  omega

theorem roundedInt_unique {q : ℚ} {y z : ℤ} (hy : RoundedInt q y) (hz : RoundedInt q z) : y = z :=
  le_antisymm (roundedInt_le hz hy) (roundedInt_le hy hz)

theorem roundedInt_toInt (v : Word) : RoundedInt (real v) (Fp.toInt v) := by
  have h := roundedInt_rneDiv (Fp.magnitude v) Fp.one_pos
  rw [real_eq_signum, Fp.quantum_eq, ← div_eq_mul_inv, Fp.signum, Fp.toInt]
  split
  · rw [neg_one_mul]
    exact roundedInt_neg h
  · rwa [one_mul]

theorem invalidCvt_iff (v : Word) :
    invalidCvt v = true ↔ ¬ IsFinite v ∨ ¬ (-(2 : ℤ) ^ 63 ≤ Fp.toInt v ∧ Fp.toInt v < 2 ^ 63) := by
  have hfits : fitsSigned 64 (Fp.toInt v) = true ↔ -(2 : ℤ) ^ 63 ≤ Fp.toInt v ∧ Fp.toInt v < 2 ^ 63 := by
    rw [fitsSigned, Bool.and_eq_true, decide_eq_true_eq, decide_eq_true_eq]
  rw [← hfits, isFinite_iff_isInf, invalidCvt]
  cases Fp.isInf v <;> cases Fp.isNaN v <;> simp

theorem exec_cvtLD {s : State} {e : Entry} {fd fs : RegNum} (h : AtExecute s e) :
    exec (.cvtLD fd fs) s =
      if invalidCvt (e.f fs) = true ∧ s.cfg.trapFpInvalid = true then .next (s.takeException .EX .fpInvalid e.pc e.pc)
      else .next (finished s e
        [(.fpr fd, if invalidCvt (e.f fs) = true then s.cfg.cvtInvalid else trunc64 (Fp.toInt (e.f fs)))]) :=
  compute_ite h (if_congr Bool.and_eq_true_iff rfl rfl)

/-- Settles O30: the integer that CVT.L.D computes is the one nearest its operand, and no other is. -/
theorem floatConversions : Obligations.FloatConversions := by
  intro s e fd fs h
  have hnearest := roundedInt_toInt (e.f fs)
  refine ⟨⟨_, compute_latch h rfl, ?_⟩, fun z hfin hz hlow hhigh => ?_, fun hcase => ?_⟩
  · show if e.f fs = 0 then Fp.ofInt (e.f fs).toInt = 0 else Rounded (e.f fs).toInt (Fp.ofInt (e.f fs).toInt)
    split_ifs with hzero
    · rw [hzero]
      rfl
    · refine rounded_ofInt fun h0 => hzero ?_
      exact BitVec.eq_of_toInt_eq (h0.trans BitVec.toInt_zero.symm)
  · obtain rfl := roundedInt_unique hnearest hz
    have hvalid : ¬ invalidCvt (e.f fs) = true :=
      (invalidCvt_iff _).not.mpr (not_or.mpr ⟨not_not.mpr hfin, not_not.mpr ⟨hlow, hhigh⟩⟩)
    rw [exec_cvtLD h, if_neg (hvalid ·.1), if_neg hvalid]
    rfl
  · have hinvalid : invalidCvt (e.f fs) = true := by
      rw [invalidCvt_iff]
      refine hcase.imp_right ?_
      rintro ⟨z, hz, hout⟩
      rwa [roundedInt_unique hnearest hz]
    simp only [exec_cvtLD h, hinvalid, true_and, if_true]

/-! ## Compares (R393, R394) -/

section
variable {a b : Word}

theorem real_eq_iff : real a = real b ↔ Fp.value a = Fp.value b := by
  rw [real_eq, real_eq, mul_left_inj' Fp.quantum_pos.ne', Int.cast_inj]

theorem real_lt_iff : real a < real b ↔ Fp.value a < Fp.value b := by
  rw [real_eq, real_eq, mul_lt_mul_iff_left₀ Fp.quantum_pos, Int.cast_lt]

theorem compareEq_ordered (h : ¬ (IsNaN a ∨ IsNaN b)) : boolWord (compareEq a b) = bit (real a = real b) := by
  rw [← anyNaN_iff, Bool.not_eq_true] at h
  rw [← boolWord_decide, compareEq, h]
  simp [real_eq_iff, beq_eq_decide]

theorem compareLt_ordered (h : ¬ (IsNaN a ∨ IsNaN b)) : boolWord (compareLt a b) = bit (real a < real b) := by
  rw [← anyNaN_iff, Bool.not_eq_true] at h
  rw [← boolWord_decide, compareLt, h]
  simp [real_lt_iff]

theorem compare_unordered (h : IsNaN a ∨ IsNaN b) :
    boolWord (compareEq a b) = 0 ∧ boolWord (compareLt a b) = 0 := by
  rw [← anyNaN_iff] at h
  rw [compareEq, compareLt, h]
  exact ⟨rfl, rfl⟩

end

/-- Settles O31: the values are ordered as the units counted are; a signalling NaN is a NaN. -/
theorem floatCompares : Obligations.FloatCompares := by
  intro s e fs ft h a b
  have heq := fpCompare_atExecute h (anySNaN_iff a b) compareEq
  have hlt := fpCompare_atExecute h (anyNaN_iff a b) compareLt
  refine ⟨fun ha hb => ?_, fun hnan => ?_⟩
  · have hord : ¬ (IsNaN a ∨ IsNaN b) := not_or.mpr ⟨ha, hb⟩
    have hquiet : ¬ (IsSignalling a ∨ IsSignalling b) := fun hs => hord (hs.imp And.left And.left)
    rw [if_neg (hquiet ·.1), compareEq_ordered hord] at heq
    rw [if_neg (hord ·.1), compareLt_ordered hord] at hlt
    exact ⟨heq, hlt⟩
  · obtain ⟨hfalse, hfalse'⟩ := compare_unordered hnan
    rw [hfalse] at heq
    rw [hfalse'] at hlt
    simp only [hnan, true_and] at hlt
    exact ⟨heq, hlt⟩

end Sys2Proof.Machine
end

section
/-! PROOFS. The breakpoint (46_system.md R415): BREAK raises at Execute, whatever it holds, and the exception is taken there
(60_exceptions.md R441, R442). -/
namespace Sys2Proof.Machine

open Sys2Proof.Claims

/-- An exception from Execute marks its entry and the two younger ones. -/
theorem slots_discardThrough_EX (sl : Slots) :
    sl.discardThrough .EX = { sl with IF := discarded sl.IF, ID := discarded sl.ID, EX := discarded sl.EX } := by
  simp only [Slots.discardThrough, markDiscard_eq_discarded]

/-- R415: BREAK raises `Breakpoint` at its own address, whatever its code. -/
theorem exec_brk {s : State} {e : Entry} (code : BitVec 20) (h : AtExecute s e) :
    exec (.brk code) s = .next (s.takeException .EX .breakpoint e.pc e.pc) :=
  compute_raise h rfl

/-- Settles O33: BREAK takes its exception, with a handler (the redirect is requested) or with none (a redirect already
requested is withdrawn, any other control state stays). -/
theorem breakTakesTheBreakpointException : Obligations.BreakTakesTheBreakpointException := by
  intro s e code h
  rw [exec_brk code h]
  rcases takeException_cases s .EX .breakpoint e.pc e.pc with ⟨target, hhandler, htaken⟩ | ⟨hhandler, htaken⟩
  · have hbreak : s.cfg.handler.breakpoint = some target := hhandler
    rw [htaken, slots_discardThrough_EX, hbreak]
    rfl
  · have hbreak : s.cfg.handler.breakpoint = none := hhandler
    rw [htaken, slots_discardThrough_EX, hbreak]
    cases s.ctrl <;> rfl

end Sys2Proof.Machine
end

section
/-! PROOFS. The exception and trap controller (60_exceptions.md): taking an exception (R430, R431, R441, R442), the fatal drain
(R440, R442), and the configurations that construction refuses (R445, R447). -/
namespace Sys2Proof.Machine

open Sys2Proof.Claims

/-! ## Taking an exception (R430, R441) -/

/-- R430: the codes number the kinds from 1. -/
theorem allKinds_getElem?_codeOf (k : ExcKind) : ∃ n, allKinds[n]? = some k ∧ codeOf k = n + 1 := by
  cases k <;> exact ⟨_, rfl, rfl⟩

section
variable {st : Stage} (hst : st = .ID ∨ st = .EX ∨ st = .MEM)
include hst

/-- R441: the flush depth counts the stages younger than the one that raises. -/
theorem depth_of_raising : st.depth = if st = .ID then 1 else if st = .EX then 2 else 3 := by
  rcases hst with rfl | rfl | rfl <;> rfl

/-- R441: a stage that raises marks its own entry and the younger ones, and no older one. -/
theorem discardThrough_of_raising (sl : Slots) :
    sl.discardThrough st =
      { IF := discarded sl.IF, ID := discarded sl.ID
        EX := if st = .ID then sl.EX else discarded sl.EX
        MEM := if st = .MEM then discarded sl.MEM else sl.MEM, WB := sl.WB } := by
  rcases hst with rfl | rfl | rfl <;> simp [Slots.discardThrough, markDiscard_eq_discarded]

end

/-- Settles O43, with a handler and with none; a redirect is withdrawn only in the second case. -/
theorem takingAnException : Obligations.TakingAnException := by
  intro s st k pc addr hst
  obtain ⟨n, hkind, hcode⟩ := allKinds_getElem?_codeOf k
  rcases takeException_cases s st k pc addr with ⟨target, hhandler, htaken⟩ | ⟨hhandler, htaken⟩ <;>
    rw [htaken, discardThrough_of_raising hst, hhandler, hcode]
  · rw [depth_of_raising hst]
    refine ⟨rfl, rfl, rfl, rfl, rfl, ?_, nofun, ⟨n, hkind, rfl⟩, rfl⟩
    rintro _ ⟨⟩
    exact ⟨rfl, rfl, rfl⟩
  · refine ⟨rfl, rfl, rfl, rfl, rfl, nofun, fun _ => ⟨rfl, fun hnormal => ?_, fun d a hflush => ?_, rfl⟩,
      ⟨n, hkind, rfl⟩, rfl⟩
    · simp only [hnormal]
    · simp only [hflush]

/-! ## The fatal drain (R440, R442) -/

theorem idle_iff {o : Option Entry} : idle o = true ↔ ∀ e, o = some e → e.discard = true := by
  cases o <;> simp [idle]

/-- R442: the front has drained when each of its four slots is empty or holds a discarded entry. -/
theorem drainedFront_iff {sl : Slots} :
    sl.drainedFront = true ↔ ∀ o ∈ [sl.IF, sl.ID, sl.EX, sl.MEM], ∀ e, o = some e → e.discard = true := by
  simp only [Slots.drainedFront, Bool.and_eq_true, and_assoc, idle_iff, List.forall_mem_cons, List.not_mem_nil,
    false_imp_iff, implies_true, and_true]

/-- R440, R442: what becomes of `Normal` with a fatal exception pending. -/
theorem resolveFatal_ctrl_of_pending {s : State} {k : ExcKind} {p : Word} (hc : s.ctrl = .normal)
    (hf : s.fatalPending = some (k, p)) :
    s.resolveFatal.ctrl = if s.slots.drainedFront then .fatal k p else .normal := by
  unfold State.resolveFatal
  simp only [hc, hf]
  split
  · rfl
  · exact hc

/-- A cycle of a stage phase whose end is known. -/
theorem step_run_next {s t : State} (hh : s.ctrl.isHalted = false) (hf : s.ctrl.isFatal = false)
    (h : stagePhase s.boundary = .next t) : step s = .next t.resolveFatal.account := by
  rw [step_run s hh hf, State.runCycle, h]
  rfl

/-- Settles O45: the resolution at the end of the cycle decides it by what the stage phase left in the front. -/
theorem fatalDrainEndsInFatal : Obligations.FatalDrainEndsInFatal := by
  intro s t k p h hh hf hnormal hpending
  have hctrl := resolveFatal_ctrl_of_pending hnormal hpending
  refine ⟨_, step_run_next hh hf h, fun hdrained => ?_, ?_⟩
  · rw [if_pos (drainedFront_iff.mpr hdrained)] at hctrl
    simp [hctrl, Ctrl.isFatal]
  · rintro ⟨o, ho, e, he, hlive⟩
    have hbusy : ¬ t.slots.drainedFront = true := fun hdrained => by
      rw [drainedFront_iff.mp hdrained o ho e he] at hlive
      cases hlive
    rw [if_neg hbusy] at hctrl
    simp [hctrl, Ctrl.isFatal]

/-! ## Construction (R445, R447) -/

theorem mem_allKinds (k : ExcKind) : k ∈ allKinds := by cases k <;> decide
theorem mem_allClasses (c : LatencyClass) : c ∈ allClasses := by cases c <;> decide

/-- R447: what is no quiet NaN is no NaN or a signalling one. -/
theorem not_isQNaN_iff {v : Word} : ¬ Fp.isQNaN v = true ↔ ¬ IsNaN v ∨ IsSignalling v := by
  rw [Fp.isQNaN, Bool.and_eq_true, isNaN_iff, not_and_or, Bool.not_eq_true, or_iff_not_imp_left, or_iff_not_imp_left,
    not_not]
  exact ⟨fun h hn => ⟨hn, h hn⟩, fun h hn => (h hn).2⟩

theorem handlerValid_iff {l : Launch} {h : Word} :
    handlerValid l h = true ↔
      h.toNat % 4 = 0 ∧ l.base.toNat ≤ h.toNat ∧ h.toNat < l.base.toNat + 4 * l.prog.length := by
  simp only [handlerValid, Bool.and_eq_true, beq_iff_eq, decide_eq_true_eq, and_assoc]

/-- R447, R445: the well-formed configurations, check by check. -/
theorem launch_valid_iff {l : Launch} :
    l.valid = true ↔
      8 ≤ l.cfg.memSize ∧ l.cfg.memSize % 8 = 0 ∧ (∀ c, 1 ≤ latencyOf l.cfg c) ∧
      (∀ k h, handlerOf l.cfg k = some h → handlerValid l h = true) ∧
      (∀ m ∈ l.cfg.checked, m.kind = .integerArithmetic) ∧ Fp.isQNaN l.cfg.defaultNaN = true := by
  simp only [Launch.valid, Bool.and_eq_true, decide_eq_true_eq, beq_iff_eq, List.all_eq_true, mem_allClasses, mem_allKinds,
    forall_const, and_assoc]
  refine and_congr_right' (and_congr_right' (and_congr_right' (and_congr_left' (forall_congr' fun k => ?_))))
  cases handlerOf l.cfg k <;> simp

/-- R447: construction refuses what is not well formed, and nothing else. -/
theorem construct_refused_iff {l : Launch} : construct l = .refused .configurationError ↔ ¬ l.valid = true := by
  cases hvalid : l.valid <;> simp [construct, hvalid]

/-- Settles O54: the refused configurations fail one of the checks, and a step answers a state. -/
theorem constructionRefusesMalformedConfigurations : Obligations.ConstructionRefusesMalformedConfigurations := by
  refine ⟨fun l => ?_, fun s hrefused => ?_⟩
  · rw [construct_refused_iff, launch_valid_iff]
    simp only [handlerValid_iff, not_isQNaN_iff, not_and_or, not_forall, not_le, not_lt, not_not, Nat.lt_one_iff, exists_prop,
      ne_eq]
  · obtain ⟨t, ht⟩ := nothingEverStops.2 s
    rw [ht] at hrefused
    cases hrefused

end Sys2Proof.Machine
end
